-- ==== Sys2Proof/Word.lean ====
section
/-! DEFINITION. The word types of the BC-2400's link, tables and line count. -/

namespace Sys2Proof

/-- One byte on the link, in a table field or in an address. -/
abbrev Byte := BitVec 8

/-- A line-count value: litres modulo 2^48 (00_scope.md, Volume and the line count). -/
abbrev Mark := BitVec 48

/-- A batch id; 0 names no batch. -/
abbrev BatchId := BitVec 16

/-- An outlet of the manifold, numbered as in the Outlet Table: 0 to 7 are lanes 0 to 7, 8 is T, 9 is P (R18). -/
abbrev Outlet := Fin 10

/-- Outlet T, the transmix tank. -/
abbrev outletT : Outlet := 8

/-- Outlet P, the continuing trunk line. -/
abbrev outletP : Outlet := 9

end Sys2Proof
end

