-- ==== Sys2Proof/Syntax.lean ====
section
/-! DEFINITION. The commands of the BC-2400: one constructor of Instr for each row of spec/opcode_table.json, and the
records that stand in their operands. Record fields have the byte widths of the PUT requests (R17 to R20), so the
same records are what the tables hold. -/

namespace Sys2Proof

/-- The part's two ports. -/
inductive Port where
  | field
  | control
deriving DecidableEq, Repr

/-- A good frame: sync and check are determined by the rest (section 9.1). -/
structure Frame where
  dst     : Byte
  src     : Byte
  kind    : Byte
  payload : List Byte
deriving DecidableEq, Repr

/-- One Product Table entry (R17); a code of 0 marks it empty. -/
structure ProductEntry where
  code           : Byte
  family         : Byte
  reference      : BitVec 32
  beta           : BitVec 16
  tolerance      : BitVec 16
  excursionLimit : BitVec 16
  destination    : Byte
deriving DecidableEq, Repr

/-- One Outlet Table entry (R18). -/
structure OutletEntry where
  enabled       : Byte
  valveAddress  : Byte
  openTime      : Byte
  overlapTime   : Byte
  closeTime     : Byte
  releaseSettle : Byte
  entrySettle   : Byte
  multiplier    : Byte
  map           : Byte
  strokeTimeout : Byte
  trim          : BitVec 16
deriving DecidableEq, Repr

/-- One Interface Rule Matrix entry (R19). -/
structure RuleEntry where
  disposition   : Byte
  expectedWidth : BitVec 32
deriving DecidableEq, Repr

/-- The Segment Record (R20), its fields in PUT SEGMENT order. -/
structure SegmentRecord where
  meterAddress      : Byte
  densityAddress    : Byte
  leadVolume        : BitVec 32
  evaluationStep    : BitVec 16
  confirmationCount : Byte
  averagingDepth    : Byte
  startThreshold    : BitVec 16
  endThreshold      : BitVec 16
  earlyMargin       : BitVec 32
  lateMargin        : BitVec 32
  extensionVolume   : BitVec 32
  maxExtensions     : Byte
  blindLimit        : Byte
  minimumContrast   : BitVec 16
  fallbackGuard     : BitVec 16
  maxMixingVolume   : BitVec 32
  settleVolume      : BitVec 32
  baselineRate      : Byte
  offsetLimit       : BitVec 16
  lateLimit         : BitVec 32
  familySettle      : Byte
  reversalSettle    : Byte
  reliefOutlet      : Byte
  stillTime         : BitVec 16
  silenceTime       : Byte
  maxMeterStep      : BitVec 32
  standGrowthRate   : BitVec 16
  standGrowthCap    : BitVec 32
deriving DecidableEq, Repr

/-- The sixteen parameter bytes of ADD BATCH and AMEND BATCH (section 3.4). -/
structure BatchFields where
  batchId     : BatchId
  product     : Byte
  nominal     : BitVec 32
  disposition : Byte
  delivery    : BitVec 32
  certified   : BitVec 32
deriving DecidableEq, Repr

/-- The part's commands: one constructor per row of spec/opcode_table.json. A frame row carries the frame whose
reception ends (log 10); a request row carries the source address of the request and its parameters. -/
inductive Instr where
  | powerOnReset (pins : Byte)
  | resetAsserted
  | droppedFrame (port : Port) (bytes : List Byte)
  | meterTotal (dst src : Byte) (payload : List Byte)
  | densitySample (dst src : Byte) (payload : List Byte)
  | valveStatus (dst src : Byte) (payload : List Byte)
  | fieldFrame (frame : Frame)
  | valveCommand (dst src : Byte) (payload : List Byte)
  | controlFrame (frame : Frame)
  | consumedFrame (src kind : Byte) (payload : List Byte)
  | unknownRequest (src : Byte) (payload : List Byte)
  | ping (src : Byte) (params : List Byte)
  | ident (src : Byte)
  | readStatus (src : Byte)
  | setNotices (src master : Byte) (enables : BitVec 24)
  | restart (src : Byte)
  | putProduct (src index : Byte) (entry : ProductEntry)
  | putOutlet (src index : Byte) (entry : OutletEntry)
  | putRule (src running arriving : Byte) (entry : RuleEntry)
  | putSegment (src : Byte) (record : SegmentRecord)
  | commit (src : Byte)
  | withdraw (src : Byte)
  | sumTables (src selector : Byte)
  | sumComplete
  | addBatch (src : Byte) (fields : BatchFields)
  | amendBatch (src : Byte) (fields : BatchFields)
  | dropBatch (src : Byte) (batchId : BatchId)
  | readBatch (src position : Byte)
  | readInterface (src selector : Byte)
  | takeTicket (src : Byte)
  | setModeAuto (src value : Byte)
  | setModeManual (src : Byte)
  | resume (src : Byte)
  | clearOutlet (src index : Byte)
  | route (src index : Byte)
  | frameTransmitted (port : Port)
  | silenceTimerExpiry
  | stillTimerExpiry
  | openTimeExpiry
  | overlapExpiry
  | closeTimeExpiry
  | strokeTimerExpiry
  | recoveryExpiry
  | frameByteReceived (port : Port) (afterGap : Bool) (byte : Byte)
deriving DecidableEq, Repr

end Sys2Proof
end

