-- ==== Sys2Proof/Decode.lean ====
section
/-! DEFINITION. The commands that a word spells by the bits of spec/opcode_table.json. The table gives no row any
bits: its commands are frames, requests and events, not words (log 27). -/

namespace Sys2Proof

/-- The command spelled by a word of `nbits` bits numbered as the table numbers them. No row of the table has bits,
so no word spells a command. -/
def decodeTableWord (_nbits _w : Nat) : Option Instr := none

end Sys2Proof
end

