-- ==== Sys2Proof/Machine/Arith.lean ====
section
/-! DEFINITION. Bytes, the CRC-16, marks of the line count and the two roundings (00_scope.md, Conventions; R5, R33). -/

namespace Sys2Proof.Machine

/-- The low `k` bytes of `n`, most significant byte first (Byte order). -/
def beBytes : Nat → Nat → List Byte
  | 0, _ => []
  | k + 1, n => BitVec.ofNat 8 (n >>> (8 * k)) :: beBytes k n

/-- The number that bytes sent most significant first stand for. -/
def beNat (bs : List Byte) : Nat := bs.foldl (fun acc b => acc * 256 + b.toNat) 0

/-- One shift of the CRC register: the outgoing bit one combines 0x1021 (R33). -/
def crcShift (r : BitVec 16) : BitVec 16 := if r.msb then (r <<< 1) ^^^ 0x1021#16 else r <<< 1

/-- `n` shifts of the CRC register. -/
def crcShifts : Nat → BitVec 16 → BitVec 16
  | 0, r => r
  | n + 1, r => crcShifts n (crcShift r)

/-- One byte taken into the upper eight bits of the CRC register, then eight shifts (R33). -/
def crcByte (r : BitVec 16) (b : Byte) : BitVec 16 := crcShifts 8 (r ^^^ (b.setWidth 16 <<< 8))

/-- The CRC-16 of the link's frame check and of SUM TABLES (R33). -/
def crc16 (bs : List Byte) : BitVec 16 := bs.foldl crcByte 0xFFFF#16

/-- Mark `m` is reached at line count `count` (R5). -/
def reached (count m : Mark) : Bool := decide ((count - m).toNat < 2 ^ 47)

/-- An advance from `before` to `after` crosses mark `m` (R5). -/
def crossed (before after m : Mark) : Bool := !reached before m && reached after m

/-- Mark `f` is lower than mark `l`: `l - f` lies in 1 … 2^47 - 1 (step 3 of R99). -/
def lower (f l : Mark) : Bool := decide (1 ≤ (l - f).toNat) && decide ((l - f).toNat < 2 ^ 47)

/-- `f`, raised to `l` when it is lower. -/
def raiseTo (l f : Mark) : Mark := if lower f l then l else f

/-- A volume in litres as a distance between marks. -/
def litres (n : Nat) : Mark := BitVec.ofNat 48 n

/-- A signed volume as a distance between marks. -/
def signedLitres (n : Int) : Mark := BitVec.ofInt 48 n

/-- The quotient rounded half away from zero (Conventions). -/
def roundHalfAway (num den : Int) : Int :=
  num.sign * den.sign * ((2 * num.natAbs + den.natAbs) / (2 * den.natAbs) : Nat)

/-- `x` limited to `lo … hi`. -/
def clampInt (lo hi x : Int) : Int := max lo (min hi x)

/-- A count stated as 2 147 483 647 when larger (R13, R118, R135). -/
def stated31 (n : Nat) : Int := (min n 2147483647 : Nat)

/-- A signed figure limited to the 32-bit signed range (R94). -/
def stated32 (x : Int) : Int := clampInt (-2147483648) 2147483647 x

/-- A yes or no as the byte 1 or 0. -/
def boolByte (b : Bool) : Byte := if b then 1 else 0

/-- `n` when the condition holds, otherwise 0: a term of a sum of flags. -/
def flag (b : Bool) (n : Nat) : Nat := if b then n else 0

end Sys2Proof.Machine
end

