-- ==== Sys2Proof/Machine/Frames.lean ====
section
/-! DEFINITION. Frames and management requests as bytes: the frame and its judgement (section 9.1, R153, R154), the
request kinds and parameters (R166), and the table entries in their byte order (R17 to R20, R33). -/

namespace Sys2Proof.Machine

/-! ## Frames -/

/-- The kinds of frame the part acts on (section 9.1). -/
def kindMeterTotal : Byte := 0x11
def kindDensitySample : Byte := 0x21
def kindValveStatus : Byte := 0x31
def kindValveCommand : Byte := 0x32
def kindRequest : Byte := 0x41
def kindResponse : Byte := 0x42
def kindNotice : Byte := 0x51

/-- The bytes over which the check is computed: destination address to last payload byte (section 9.1). -/
def frameBody (f : Frame) : List Byte := f.dst :: f.src :: f.kind :: BitVec.ofNat 8 f.payload.length :: f.payload

/-- A frame on the line: sync, body, check, most significant byte first (section 9.1, R162). -/
def frameBytes (f : Frame) : List Byte := 0xA5#8 :: (frameBody f ++ beBytes 2 (crc16 (frameBody f)).toNat)

/-- R154: the frame that the bytes of a reception make, or none when the frame is dropped. -/
def judgeFrame (bytes : List Byte) : Option Frame :=
  match bytes with
  | sync :: dst :: src :: kind :: len :: rest =>
    let payload := rest.take len.toNat
    if sync == 0xA5#8 && decide (len.toNat ≤ 200) && rest.length == len.toNat + 2
        && crc16 (dst :: src :: kind :: len :: payload) == BitVec.ofNat 16 (beNat (rest.drop len.toNat)) then
      some ⟨dst, src, kind, payload⟩
    else none
  | _ => none

/-! ## Table entries as bytes -/

/-- A field in its byte width, most significant byte first. -/
def fieldBytes {w : Nat} (k : Nat) (x : BitVec w) : List Byte := beBytes k x.toNat

/-- The parameter of `k` bytes at offset `off`. -/
def paramAt {w : Nat} (ps : List Byte) (off k : Nat) : BitVec w := BitVec.ofNat w (beNat ((ps.drop off).take k))

/-- `n` lies in `lo … hi`. -/
def within (lo hi n : Nat) : Bool := decide (lo ≤ n) && decide (n ≤ hi)

/-- A product entry in the order of R17. -/
def productBytes (r : ProductEntry) : List Byte :=
  fieldBytes 1 r.code ++ fieldBytes 1 r.family ++ fieldBytes 4 r.reference ++ fieldBytes 2 r.beta
    ++ fieldBytes 2 r.tolerance ++ fieldBytes 2 r.excursionLimit ++ fieldBytes 1 r.destination

/-- The product entry in parameter bytes from offset `off` on. -/
def productAt (ps : List Byte) (off : Nat) : ProductEntry where
  code := paramAt ps off 1
  family := paramAt ps (off + 1) 1
  reference := paramAt ps (off + 2) 4
  beta := paramAt ps (off + 6) 2
  tolerance := paramAt ps (off + 8) 2
  excursionLimit := paramAt ps (off + 10) 2
  destination := paramAt ps (off + 12) 1

/-- An outlet entry in the order of R18. -/
def outletBytes (r : OutletEntry) : List Byte :=
  fieldBytes 1 r.enabled ++ fieldBytes 1 r.valveAddress ++ fieldBytes 1 r.openTime ++ fieldBytes 1 r.overlapTime
    ++ fieldBytes 1 r.closeTime ++ fieldBytes 1 r.releaseSettle ++ fieldBytes 1 r.entrySettle
    ++ fieldBytes 1 r.multiplier ++ fieldBytes 1 r.map ++ fieldBytes 1 r.strokeTimeout ++ fieldBytes 2 r.trim

/-- The outlet entry in parameter bytes from offset `off` on. -/
def outletAt (ps : List Byte) (off : Nat) : OutletEntry where
  enabled := paramAt ps off 1
  valveAddress := paramAt ps (off + 1) 1
  openTime := paramAt ps (off + 2) 1
  overlapTime := paramAt ps (off + 3) 1
  closeTime := paramAt ps (off + 4) 1
  releaseSettle := paramAt ps (off + 5) 1
  entrySettle := paramAt ps (off + 6) 1
  multiplier := paramAt ps (off + 7) 1
  map := paramAt ps (off + 8) 1
  strokeTimeout := paramAt ps (off + 9) 1
  trim := paramAt ps (off + 10) 2

/-- A matrix entry in the order of R19. -/
def ruleBytes (r : RuleEntry) : List Byte := fieldBytes 1 r.disposition ++ fieldBytes 4 r.expectedWidth

/-- The matrix entry in parameter bytes from offset `off` on. -/
def ruleAt (ps : List Byte) (off : Nat) : RuleEntry := ⟨paramAt ps off 1, paramAt ps (off + 1) 4⟩

/-- The Segment Record in the order of R20. -/
def segmentBytes (r : SegmentRecord) : List Byte :=
  fieldBytes 1 r.meterAddress ++ fieldBytes 1 r.densityAddress ++ fieldBytes 4 r.leadVolume ++ fieldBytes 2 r.evaluationStep
    ++ fieldBytes 1 r.confirmationCount ++ fieldBytes 1 r.averagingDepth ++ fieldBytes 2 r.startThreshold ++ fieldBytes 2 r.endThreshold
    ++ fieldBytes 4 r.earlyMargin ++ fieldBytes 4 r.lateMargin ++ fieldBytes 4 r.extensionVolume ++ fieldBytes 1 r.maxExtensions
    ++ fieldBytes 1 r.blindLimit ++ fieldBytes 2 r.minimumContrast ++ fieldBytes 2 r.fallbackGuard ++ fieldBytes 4 r.maxMixingVolume
    ++ fieldBytes 4 r.settleVolume ++ fieldBytes 1 r.baselineRate ++ fieldBytes 2 r.offsetLimit ++ fieldBytes 4 r.lateLimit
    ++ fieldBytes 1 r.familySettle ++ fieldBytes 1 r.reversalSettle ++ fieldBytes 1 r.reliefOutlet ++ fieldBytes 2 r.stillTime
    ++ fieldBytes 1 r.silenceTime ++ fieldBytes 4 r.maxMeterStep ++ fieldBytes 2 r.standGrowthRate ++ fieldBytes 4 r.standGrowthCap

/-- The Segment Record in the 63 parameter bytes of PUT SEGMENT. -/
def segmentAt (ps : List Byte) : SegmentRecord where
  meterAddress := paramAt ps 0 1
  densityAddress := paramAt ps 1 1
  leadVolume := paramAt ps 2 4
  evaluationStep := paramAt ps 6 2
  confirmationCount := paramAt ps 8 1
  averagingDepth := paramAt ps 9 1
  startThreshold := paramAt ps 10 2
  endThreshold := paramAt ps 12 2
  earlyMargin := paramAt ps 14 4
  lateMargin := paramAt ps 18 4
  extensionVolume := paramAt ps 22 4
  maxExtensions := paramAt ps 26 1
  blindLimit := paramAt ps 27 1
  minimumContrast := paramAt ps 28 2
  fallbackGuard := paramAt ps 30 2
  maxMixingVolume := paramAt ps 32 4
  settleVolume := paramAt ps 36 4
  baselineRate := paramAt ps 40 1
  offsetLimit := paramAt ps 41 2
  lateLimit := paramAt ps 43 4
  familySettle := paramAt ps 47 1
  reversalSettle := paramAt ps 48 1
  reliefOutlet := paramAt ps 49 1
  stillTime := paramAt ps 50 2
  silenceTime := paramAt ps 52 1
  maxMeterStep := paramAt ps 53 4
  standGrowthRate := paramAt ps 57 2
  standGrowthCap := paramAt ps 59 4

/-- The fields of ADD BATCH and AMEND BATCH in their sixteen parameter bytes (section 3.4). -/
def batchAt (ps : List Byte) : BatchFields where
  batchId := paramAt ps 0 2
  product := paramAt ps 2 1
  nominal := paramAt ps 3 4
  disposition := paramAt ps 7 1
  delivery := paramAt ps 8 4
  certified := paramAt ps 12 4

/-! ## Range tests: each field with the offset of its first parameter byte, in request order -/

/-- The offset of the first field out of range (step 3 of R21, step 2 of R38). -/
def firstBad (tests : List (Nat × Bool)) : Option Nat := (tests.find? (fun t => !t.2)).map (·.1)

/-- R17 and R22: with code 0 only the index is tested. -/
def productRanges (index : Byte) (r : ProductEntry) : List (Nat × Bool) :=
  (0, within 0 15 index.toNat) ::
    if r.code == 0 then [] else
      [(2, within 0 7 r.family.toNat), (3, within 50000 110000 r.reference.toNat), (7, within 0 2000 r.beta.toNat),
       (9, within 0 500 r.tolerance.toNat), (11, within 50 5000 r.excursionLimit.toNat),
       (13, within 0 7 r.destination.toNat || r.destination == 9)]

/-- R18 and R23; the trim is read as a signed number. -/
def outletRanges (index : Byte) (r : OutletEntry) : List (Nat × Bool) :=
  [(0, within 0 9 index.toNat), (1, within 0 1 r.enabled.toNat), (2, within 1 254 r.valveAddress.toNat),
   (8, r.multiplier == 1 || r.multiplier == 2 || r.multiplier == 4 || r.multiplier == 8 || r.multiplier == 16),
   (9, within 0 31 r.map.toNat), (10, within 1 255 r.strokeTimeout.toNat),
   (11, decide (-5000 ≤ r.trim.toInt) && decide (r.trim.toInt ≤ 5000))]

/-- R19 and R23. -/
def ruleRanges (running arriving : Byte) (r : RuleEntry) : List (Nat × Bool) :=
  [(0, within 0 7 running.toNat), (1, within 0 7 arriving.toNat), (2, within 0 3 r.disposition.toNat),
   (3, within 0 200000 r.expectedWidth.toNat)]

/-- R20 and R23. -/
def segmentRanges (r : SegmentRecord) : List (Nat × Bool) :=
  [(0, within 1 254 r.meterAddress.toNat), (1, within 1 254 r.densityAddress.toNat), (2, within 5000 400000 r.leadVolume.toNat),
   (6, within 500 20000 r.evaluationStep.toNat), (8, within 1 8 r.confirmationCount.toNat), (9, r.averagingDepth == 1 || r.averagingDepth == 2 || r.averagingDepth == 4 || r.averagingDepth == 8),
   (10, within 1 100 r.startThreshold.toNat), (12, within 1 100 r.endThreshold.toNat), (14, within 0 2000000 r.earlyMargin.toNat),
   (18, within 0 2000000 r.lateMargin.toNat), (22, within 0 2000000 r.extensionVolume.toNat), (26, within 0 3 r.maxExtensions.toNat),
   (27, within 1 16 r.blindLimit.toNat), (28, within 50 2000 r.minimumContrast.toNat), (30, within 0 50000 r.fallbackGuard.toNat),
   (32, within 1000 500000 r.maxMixingVolume.toNat), (36, within 0 500000 r.settleVolume.toNat), (40, within 0 8 r.baselineRate.toNat),
   (41, within 0 500 r.offsetLimit.toNat), (43, within 0 100000 r.lateLimit.toNat), (47, within 0 255 r.familySettle.toNat),
   (48, within 0 255 r.reversalSettle.toNat), (49, within 8 9 r.reliefOutlet.toNat), (50, within 10 600 r.stillTime.toNat),
   (52, within 1 60 r.silenceTime.toNat), (53, within 1 1000000 r.maxMeterStep.toNat), (57, within 0 20000 r.standGrowthRate.toNat),
   (59, within 0 200000 r.standGrowthCap.toNat)]

/-- R38, step 2: the ranges of R35 with the codings of section 3.4. -/
def batchRanges (b : BatchFields) : List (Nat × Bool) :=
  [(0, within 1 65535 b.batchId.toNat), (2, within 1 255 b.product.toNat),
   (3, within 1000 100000000 b.nominal.toNat), (7, within 0 2 b.disposition.toNat),
   (8, if b.disposition == 1 then within 1000 b.nominal.toNat b.delivery.toNat else b.delivery == 0),
   (12, b.certified == 0 || within 50000 110000 b.certified.toNat)]

/-! ## Requests -/

/-- A management request of a known kind and the right parameter length (R166). -/
inductive Request where
  | ping (params : List Byte)
  | ident
  | readStatus
  | setNotices (master : Byte) (enables : BitVec 24)
  | restart
  | putProduct (index : Byte) (entry : ProductEntry)
  | putOutlet (index : Byte) (entry : OutletEntry)
  | putRule (running arriving : Byte) (entry : RuleEntry)
  | putSegment (record : SegmentRecord)
  | commit
  | withdraw
  | sumTables (selector : Byte)
  | addBatch (fields : BatchFields)
  | amendBatch (fields : BatchFields)
  | dropBatch (batchId : BatchId)
  | readBatch (position : Byte)
  | readInterface (selector : Byte)
  | takeTicket
  | setMode (value : Byte)
  | resume
  | clearOutlet (index : Byte)
  | route (index : Byte)
deriving DecidableEq, Repr

/-- The parameter length a request kind requires, or none when the kind is not in the table of R166; PING takes 0 to
197. -/
def lengthOk (code : Byte) (n : Nat) : Option Bool :=
  match code.toNat with
  | 0x01 => some (decide (n ≤ 197))
  | 0x02 => some (n == 0)
  | 0x03 => some (n == 0)
  | 0x04 => some (n == 4)
  | 0x05 => some (n == 0)
  | 0x10 => some (n == 14)
  | 0x11 => some (n == 13)
  | 0x12 => some (n == 7)
  | 0x13 => some (n == 63)
  | 0x14 => some (n == 0)
  | 0x15 => some (n == 0)
  | 0x16 => some (n == 1)
  | 0x20 => some (n == 16)
  | 0x21 => some (n == 16)
  | 0x22 => some (n == 2)
  | 0x23 => some (n == 1)
  | 0x30 => some (n == 1)
  | 0x40 => some (n == 0)
  | 0x50 => some (n == 1)
  | 0x51 => some (n == 0)
  | 0x52 => some (n == 1)
  | 0x53 => some (n == 1)
  | _ => none

/-- The request of kind `code` with parameters `ps` of the right length. -/
def requestOf (code : Byte) (ps : List Byte) : Option Request :=
  match code.toNat with
  | 0x01 => some (.ping ps)
  | 0x02 => some .ident
  | 0x03 => some .readStatus
  | 0x04 => some (.setNotices (paramAt ps 0 1) (paramAt ps 1 3))
  | 0x05 => some .restart
  | 0x10 => some (.putProduct (paramAt ps 0 1) (productAt ps 1))
  | 0x11 => some (.putOutlet (paramAt ps 0 1) (outletAt ps 1))
  | 0x12 => some (.putRule (paramAt ps 0 1) (paramAt ps 1 1) (ruleAt ps 2))
  | 0x13 => some (.putSegment (segmentAt ps))
  | 0x14 => some .commit
  | 0x15 => some .withdraw
  | 0x16 => some (.sumTables (paramAt ps 0 1))
  | 0x20 => some (.addBatch (batchAt ps))
  | 0x21 => some (.amendBatch (batchAt ps))
  | 0x22 => some (.dropBatch (paramAt ps 0 2))
  | 0x23 => some (.readBatch (paramAt ps 0 1))
  | 0x30 => some (.readInterface (paramAt ps 0 1))
  | 0x40 => some .takeTicket
  | 0x50 => some (.setMode (paramAt ps 0 1))
  | 0x51 => some .resume
  | 0x52 => some (.clearOutlet (paramAt ps 0 1))
  | 0x53 => some (.route (paramAt ps 0 1))
  | _ => none

/-- Tests 1 to 3 of R167: the request a payload spells, or none when it is answered UNKNOWN. -/
def parseRequest (payload : List Byte) : Option Request :=
  match payload with
  | [] => none
  | code :: ps => if lengthOk code ps.length = some true then requestOf code ps else none

/-- The echoed request kind: the kind byte as received, or 0 when there was none (R166). -/
def echoedKind (payload : List Byte) : Byte := payload.headD 0

end Sys2Proof.Machine
end

