-- ==== Sys2Proof/Config.lean ====
section
/-! DEFINITION. What the implementation fixes, and the free values: what the manual leaves open. A free value is an
opaque constant, so that no proof can see what it is. -/

namespace Sys2Proof.Config

/-- IDENT's vendor code, the code of Nawjen (R171). -/
def vendorCode : BitVec 16 := 0x0B24

/-- IDENT's part code (R171). -/
def partCode : BitVec 16 := 0x2400

/-- IDENT's revision (R171). -/
def revision : Byte := 0x01

/-- The level of the address pins at the power-on that State.reset stands for. DESIGN CHOICE, log 12, unsafe. -/
def resetPins : Byte := 0x00

/-- "The computation completes within 10 ms" (R32), in milliseconds. -/
def sumLimitMs : Nat := 10

/-- Free value: the order in which the TU, the CS, the IT and the DE take one advance, as an index into the 24 orders
(R72, R30, R103, R151; log 6). -/
opaque freeOrder : Nat → Fin 24

/-- Free value: at a return of the engine to IDLE, whether a due apply is performed before the start of the next
action (R111, R135; log 7). -/
opaque freeApplyFirst : Nat → Bool

/-- Free value: which of the timers that are due at one moment expires first on an idle step (log 3). -/
opaque freeExpiry : Nat → Nat

/-- Free value: the seven data bytes of an AMEND BATCH whose batch left the queue within the same event (log 16). -/
opaque freeAmendAnswer : Nat → BitVec 56

end Sys2Proof.Config
end

