-- ==== Sys2Proof/Machine/Records.lean ====
section
/-! DEFINITION. The records the eleven blocks hold, as plain data (the state tables at the head of Chapters 1 to 10). -/

namespace Sys2Proof.Machine

/-- A time in milliseconds on the model's clock (log 2). -/
abbrev Time := Nat

/-- A running timer: when it started and its length, in milliseconds (section 6.5). -/
structure Timer where
  start  : Time
  length : Nat
deriving DecidableEq, Repr

/-! ## LIU (Chapter 9) -/

/-- A port's receiver (R153): RECEIVING keeps the bytes taken so far, 207 at most, and whether more came. -/
inductive Receiver where
  | hunt
  | receiving (bytes : List Byte) (overrun : Bool)
deriving DecidableEq, Repr

/-- The queue from which a transmitter is sending: always that queue's head (R157, R160). -/
inductive TxSource where
  | originated
  | forward
deriving DecidableEq, Repr

/-- One port of the LIU: its receiver, the two queues of frames it is to send, and its transmitter (none: idle). -/
structure PortLink where
  rx         : Receiver
  forward    : List Frame
  originated : List Frame
  tx         : Option TxSource
deriving DecidableEq, Repr

/-- The Link Interface Unit. -/
structure LinkUnit where
  address : Byte
  field   : PortLink
  control : PortLink
deriving DecidableEq, Repr

/-! ## VC (Chapter 1) -/

inductive LineState where
  | still
  | moving
deriving DecidableEq, Repr

/-- The Volume Counter. `stillTimer` and `silenceTimer` hold the start of a running timer. -/
structure VolumeCounter where
  lastTotal    : Option (BitVec 32)
  lineCount    : Mark
  nextEval     : Mark
  lineState    : LineState
  stillTimer   : Option Time
  origin       : Time
  silenceTimer : Option Time
deriving DecidableEq, Repr

/-! ## TS (Chapter 2) -/

/-- The four tables of one copy (R16). -/
structure Tables where
  products : Vector ProductEntry 16
  outlets  : Vector OutletEntry 10
  rules    : Vector RuleEntry 64
  segment  : SegmentRecord
deriving DecidableEq, Repr

/-- A SUM TABLES computation in progress: the selected copy and when it began (R32). -/
structure SumJob where
  selectsActive : Bool
  start         : Time
deriving DecidableEq, Repr

/-- The Table Store. -/
structure TableStore where
  active  : Tables
  pending : Tables
  armed   : Bool
  sum     : Option SumJob
deriving DecidableEq, Repr

/-! ## BQ (Chapter 3) -/

inductive Disposition where
  | deliver
  | deliverPart
  | passBy
deriving DecidableEq, Repr

/-- A batch record (R35). -/
structure BatchRecord where
  batchId     : BatchId
  product     : Byte
  nominal     : BitVec 32
  disposition : Disposition
  delivery    : Option (BitVec 32)
  certified   : Option (BitVec 32)
  predicted   : Mark
  actual      : Option Mark
deriving DecidableEq, Repr

/-! ## DE (Chapter 4) -/

/-- A corrected sample of the ring with its new mark (R57). -/
structure Sample where
  density : Int
  isNew   : Bool
deriving DecidableEq, Repr

/-- The pair references (R62). -/
structure PairReferences where
  running     : Int
  arriving    : Int
  contrast    : Int
  lowContrast : Bool
deriving DecidableEq, Repr

/-- Mean, offset-corrected density and samples used, present together in a result (R58). -/
structure Reading where
  mean    : Int
  d       : Int
  samples : Nat
deriving DecidableEq, Repr

/-- The figure of a result: a deviation outside a window, a fraction inside one (R58). -/
inductive Figure where
  | absent
  | deviation (x : Int)
  | fraction (f : Int)
deriving DecidableEq, Repr

/-- An evaluation result (R58). -/
structure EvalResult where
  mark    : Mark
  blind   : Bool
  reading : Option Reading
  figure  : Figure
deriving DecidableEq, Repr

/-- The Density Evaluator. The ring stands oldest first. -/
structure DensityEvaluator where
  ring         : List Sample
  offset       : Int
  pair         : Option PairReferences
  settleOrigin : Option Mark
  last         : Option EvalResult
deriving DecidableEq, Repr

/-! ## IT (Chapter 5) -/

inductive TrackerState where
  | quiet
  | watch
  | mixing
  | fallback
  | overdue
deriving DecidableEq, Repr

/-- What becomes of the mixed zone (R19). -/
inductive ZoneRule where
  | transmix
  | intoRunning
  | intoArriving
  | midpoint
deriving DecidableEq, Repr

inductive CutMode where
  | density
  | lowContrast
  | densityLost
deriving DecidableEq, Repr

/-- A confirmation run: its count and the mark of its first evaluation, 0 when the count is 0. -/
structure Run where
  count : Nat
  first : Mark
deriving DecidableEq, Repr

/-- The interface record (R75). -/
structure InterfaceRecord where
  runningId     : BatchId
  arrivingId    : BatchId
  disposition   : ZoneRule
  expectedWidth : BitVec 32
  predicted     : Mark
  openMark      : Mark
  closeMark     : Mark
  extensions    : Nat
  standExt      : Nat
  cutMode       : CutMode
  startMark     : Option Mark
  headCut       : Option Mark
  midpoint      : Option Mark
  tailCut       : Option Mark
  endMark       : Option Mark
  drift         : Option Int
  lastFraction  : Int
  blindCount    : Nat
  widest        : Bool
  overdue       : Bool
  forcedEnd     : Bool
  manual        : Bool
deriving DecidableEq, Repr

/-- Why an action is made (R98). -/
inductive Reason where
  | head
  | tail
  | single
  | volume
  | forced
  | align
deriving DecidableEq, Repr

/-- How the fire mark of an offered action is found (step 2 of R99, R100). -/
inductive FireRule where
  | fromDecision (decision : Mark)
  | given (fire : Mark)
  | now
deriving DecidableEq, Repr

/-- An action as it is offered to the CS. `volume` is the delivery volume of the VOLUME action offered with it as a
pair (R90, R100). -/
structure Offer where
  reason       : Reason
  batch        : BatchId
  source       : Option Outlet
  target       : Outlet
  fire         : FireRule
  familyChange : Bool
  volume       : Option (BitVec 32)
deriving DecidableEq, Repr

/-- The Interface Tracker. `headRun` confirms the decision recorded as head cut mark, `tailRun` the one recorded as
tail cut mark (R80). `endDue` is a postponed end's mark (R85, R88), `volumeDue` that a VOLUME action waits for the
midpoint (R90). The history stands newest first. -/
structure Tracker where
  state     : TrackerState
  excursion : Bool
  excRun    : Run
  record    : Option InterfaceRecord
  headRun   : Run
  tailRun   : Run
  endRun    : Nat
  held      : List Offer
  history   : List InterfaceRecord
  endDue    : Option Mark
  volumeDue : Bool
deriving DecidableEq, Repr

/-! ## CS (Chapter 6) -/

/-- A queued action (R98). -/
structure Action where
  reason       : Reason
  batch        : BatchId
  source       : Option Outlet
  target       : Outlet
  decision     : Option Mark
  fire         : Mark
  familyChange : Bool
deriving DecidableEq, Repr

inductive EngineState where
  | idle
  | openNew
  | overlap
  | closeOld
  | recovery
  | faulted
deriving DecidableEq, Repr

/-- The sequence in service (R102). `closeSent`: the CLOSE of the old outlet has entered the FIELD originated queue
(R108). `closeConfirmed`: the confirmation of CLOSE_OLD was taken (R109). -/
structure Sequence where
  action         : Action
  isRoute        : Bool
  newOutlet      : Outlet
  oldOutlet      : Option Outlet
  mismatch       : Bool
  lateness       : Nat
  closeSent      : Bool
  closeConfirmed : Bool
deriving DecidableEq, Repr

/-- The position a valve is commanded to. -/
inductive ValveMove where
  | close
  | opens
deriving DecidableEq, Repr

/-- A valve command waiting in the command list (R106). -/
structure Command where
  outlet : Outlet
  move   : ValveMove
deriving DecidableEq, Repr

/-- The Cut Sequencer. -/
structure Sequencer where
  queue    : List Action
  engine   : EngineState
  sequence : Option Sequence
  phase    : Option Timer
  stroke   : Option Timer
  recovery : Option Timer
  commands : List Command
  lastAway : Option Outlet
deriving DecidableEq, Repr

/-! ## MG (Chapter 7) -/

inductive Mode where
  | manual
  | auto
  | held
deriving DecidableEq, Repr

/-- A confirmed position (R123). -/
inductive Position where
  | unknown
  | closed
  | opened
  | fault
deriving DecidableEq, Repr

/-- The position byte of a report (section 7.2). -/
inductive Report where
  | closed
  | opened
  | travel
  | fault
deriving DecidableEq, Repr

/-- A valve record (R123); `commanded` none is NONE. -/
structure ValveRecord where
  commanded  : Option ValveMove
  confirmed  : Position
  lastReport : Option Report
  available  : Bool
deriving DecidableEq, Repr

/-- The Manifold Guard. The open order stands oldest confirmation first. -/
structure ManifoldGuard where
  mode       : Mode
  resumeMode : Mode
  valves     : Vector ValveRecord 10
  openOrder  : List Outlet
deriving DecidableEq, Repr

/-! ## TU (Chapter 8) -/

/-- What a ticket and a pending boundary both gather (R141, R146 to R148). -/
structure Account where
  batch        : BatchId
  product      : Byte
  ownLane      : Option Outlet
  lateness     : Mark
  headWidth    : Option Mark
  tailWidth    : Option Mark
  tailReported : Bool
  fallback     : Bool
  overdue      : Bool
  excursion    : Bool
  wide         : Bool
deriving DecidableEq, Repr

/-- A ticket (R146). -/
structure Ticket where
  account              : Account
  opened               : Mark
  closed               : Option Mark
  ownLitres            : Mark
  transmix             : Mark
  pass                 : Mark
  otherLanes           : Mark
  unrouted             : Mark
  predecessorDiscarded : Bool
deriving DecidableEq, Repr

/-- A pending boundary (R141). -/
structure Boundary where
  mark    : Mark
  account : Account
deriving DecidableEq, Repr

/-- The Ticket Unit. -/
structure TicketUnit where
  current    : Option Ticket
  closing    : Option Ticket
  boundaries : List Boundary
  completed  : List Ticket
  unticketed : Mark
deriving DecidableEq, Repr

/-! ## MR and NU (Chapter 10) -/

inductive ResponderState where
  | ready
  | summing
  | holding
  | restartPending
deriving DecidableEq, Repr

/-- A request in service: its source address and its request kind byte. -/
structure Service where
  src  : Byte
  kind : Byte
deriving DecidableEq, Repr

/-- The Management Responder. -/
structure Responder where
  state           : ResponderState
  service         : Option Service
  heldResponse    : Option Frame
  restartResponse : Option Frame
deriving DecidableEq, Repr

/-- The seventeen events, in the order of their numbers (R175). -/
inductive Event where
  | deadHead
  | valveFault
  | laneTrap
  | offSpec
  | lateCut
  | densityLost
  | interfaceWide
  | windowMissed
  | interfaceStart
  | cutDone
  | interfaceEnd
  | ticketReady
  | tablesApplied
  | meter
  | lineState
  | manifoldOwned
  | queueLow
deriving DecidableEq, Repr

/-- The context stored with an event (R175); an outlet of none is sent as 0xFF. -/
structure Context where
  batch  : BatchId
  count  : Mark
  outlet : Option Outlet
  flags  : Nat
  value  : Int
deriving DecidableEq, Repr

/-- A set latch: the context of the latest occurrence and the repeat flag (R175). -/
structure Latch where
  context : Context
  again   : Bool
deriving DecidableEq, Repr

/-- The Notice Unit. `enables` has bit n - 1 for event n and bits only for events 4 to 17 (R177). `testDue`: an
event was latched, or SET NOTICES served, and the emission test of R176 is still to be made within this event. -/
structure NoticeUnit where
  latches : Vector (Option Latch) 17
  enables : BitVec 24
  master  : Bool
  address : Byte
  testDue : Bool
deriving DecidableEq, Repr

end Sys2Proof.Machine
end

