-- ==== Sys2Proof/Machine/ResetValues.lean ====
section
/-! DEFINITION. The reset values of every block (R15, R34, R52, R68, R97, R120, R139, R152, R164, R174, R178). -/

namespace Sys2Proof.Machine

/-- An empty Product Table entry holds zero in every field (R17). -/
def emptyProduct : ProductEntry := ⟨0, 0, 0, 0, 0, 0, 0⟩

/-- A reset Outlet Table entry: every time 10 units, multiplier 1, no map bits, 30 s, trim 0 (R18). -/
def resetOutlet (enabled address : Byte) : OutletEntry := ⟨enabled, address, 10, 10, 10, 10, 10, 1, 0, 30, 0⟩

/-- The reset Outlet Table (R18). -/
def resetOutlets : Vector OutletEntry 10 :=
  #v[resetOutlet 0 0xE0, resetOutlet 0 0xE1, resetOutlet 0 0xE2, resetOutlet 0 0xE3, resetOutlet 0 0xE4,
     resetOutlet 0 0xE5, resetOutlet 0 0xE6, resetOutlet 0 0xE7, resetOutlet 1 0xF0, resetOutlet 1 0xF1]

/-- The reset column of R20. -/
def resetSegment : SegmentRecord where
  meterAddress := 0x10
  densityAddress := 0x20
  leadVolume := 30000
  evaluationStep := 2000
  confirmationCount := 3
  averagingDepth := 4
  startThreshold := 5
  endThreshold := 5
  earlyMargin := 20000
  lateMargin := 20000
  extensionVolume := 10000
  maxExtensions := 2
  blindLimit := 4
  minimumContrast := 300
  fallbackGuard := 1000
  maxMixingVolume := 60000
  settleVolume := 10000
  baselineRate := 4
  offsetLimit := 200
  lateLimit := 2000
  familySettle := 10
  reversalSettle := 20
  reliefOutlet := 9
  stillTime := 60
  silenceTime := 5
  maxMeterStep := 50000
  standGrowthRate := 500
  standGrowthCap := 10000

/-- The reset contents of the four tables (R17 to R20). -/
def resetTables : Tables :=
  ⟨Vector.replicate 16 emptyProduct, resetOutlets, Vector.replicate 64 ⟨0, 4000⟩, resetSegment⟩

/-- A reset port: HUNT, queues empty, transmitter idle (R164). -/
def resetPort : PortLink := ⟨.hunt, [], [], none⟩

/-- The LIU after a reset with link address `address` (R164). -/
def resetLink (address : Byte) : LinkUnit := ⟨address, resetPort, resetPort⟩

/-- The VC after a reset at time `now` (R15). -/
def resetVolume (now : Time) : VolumeCounter :=
  ⟨none, 0, resetSegment.evaluationStep.setWidth 48, .still, none, now, some now⟩

/-- The TS after a reset (R34). -/
def resetTableStore : TableStore := ⟨resetTables, resetTables, false, none⟩

/-- The DE after a reset (R68). -/
def resetEvaluator : DensityEvaluator := ⟨[], 0, none, none, none⟩

/-- A run at 0. -/
def zeroRun : Run := ⟨0, 0⟩

/-- The IT after a reset (R97). -/
def resetTracker : Tracker := ⟨.quiet, false, zeroRun, none, zeroRun, zeroRun, 0, [], [], none, false⟩

/-- The CS after a reset (R120). -/
def resetSequencer : Sequencer := ⟨[], .idle, none, none, none, none, [], none⟩

/-- A valve record's reset values (R139). -/
def resetValve : ValveRecord := ⟨none, .unknown, none, true⟩

/-- The MG after a reset (R139). -/
def resetGuard : ManifoldGuard := ⟨.manual, .manual, Vector.replicate 10 resetValve, []⟩

/-- The TU after a reset (R152). -/
def resetTickets : TicketUnit := ⟨none, none, [], [], 0⟩

/-- The MR after a reset (R174). -/
def resetResponder : Responder := ⟨.ready, none, none, none⟩

/-- The NU after a reset (R178). -/
def resetNotices : NoticeUnit := ⟨Vector.replicate 17 none, 0, false, 0xFF, false⟩

end Sys2Proof.Machine
end

