-- ==== Sys2Proof/Machine/State.lean ====
section
/-! DEFINITION. The state of the part: its eleven blocks, the reset input, and the model's own clock, counter of
settled orders and queue of commands. -/

namespace Sys2Proof.Machine

/-- The spec names no event that stops the part: a bad frame is dropped, a failing request is answered, a failing
valve takes the engine to a state. So there is no fault. -/
inductive Fault where
deriving DecidableEq, Repr

/-- Why a command is not run. -/
inductive Refusal where
  /-- Raised by exec for a command that has no meaning yet; safe. No arm of exec raises it now. -/
  | notModelled (mnemonic : String)
deriving DecidableEq, Repr

/-- The state of the part. -/
structure State where
  /-- Link Interface Unit -/
  liu : LinkUnit
  /-- Volume Counter -/
  vc : VolumeCounter
  /-- Table Store -/
  ts : TableStore
  /-- Batch Queue Unit: entry 0 first -/
  bq : List BatchRecord
  /-- Density Evaluator -/
  de : DensityEvaluator
  /-- Interface Tracker -/
  it : Tracker
  /-- Cut Sequencer -/
  cs : Sequencer
  /-- Manifold Guard -/
  mg : ManifoldGuard
  /-- Ticket Unit -/
  tu : TicketUnit
  /-- Management Responder -/
  mr : Responder
  /-- Notice Unit -/
  nu : NoticeUnit
  /-- whether the reset input is asserted (R174) -/
  inReset : Bool
  /-- the time in milliseconds (log 2) -/
  now : Time
  /-- how many open orders have been settled (log 6, log 7) -/
  races : Nat
  /-- the commands waiting, first in first out -/
  pending : List Instr
deriving DecidableEq, Repr

/-- The part right after a power-on reset (R174 and the reset rule of each chapter), at time 0 and with the address
pins at Config.resetPins (log 12). -/
def State.reset : State where
  liu := resetLink Config.resetPins
  vc := resetVolume 0
  ts := resetTableStore
  bq := []
  de := resetEvaluator
  it := resetTracker
  cs := resetSequencer
  mg := resetGuard
  tu := resetTickets
  mr := resetResponder
  nu := resetNotices
  inReset := false
  now := 0
  races := 0
  pending := []

end Sys2Proof.Machine
end

