-- ==== Sys2Proof/Machine/Update.lean ====
section
/-! DEFINITION. One update per part of State: every other part keeps its value. -/

namespace Sys2Proof.Machine

/-- `s` with its `liu` replaced. -/
def State.setLiu (s : State) (x : LinkUnit) : State := { s with liu := x }

/-- `s` with its `vc` replaced. -/
def State.setVc (s : State) (x : VolumeCounter) : State := { s with vc := x }

/-- `s` with its `ts` replaced. -/
def State.setTs (s : State) (x : TableStore) : State := { s with ts := x }

/-- `s` with its `bq` replaced. -/
def State.setBq (s : State) (x : List BatchRecord) : State := { s with bq := x }

/-- `s` with its `de` replaced. -/
def State.setDe (s : State) (x : DensityEvaluator) : State := { s with de := x }

/-- `s` with its `it` replaced. -/
def State.setIt (s : State) (x : Tracker) : State := { s with it := x }

/-- `s` with its `cs` replaced. -/
def State.setCs (s : State) (x : Sequencer) : State := { s with cs := x }

/-- `s` with its `mg` replaced. -/
def State.setMg (s : State) (x : ManifoldGuard) : State := { s with mg := x }

/-- `s` with its `tu` replaced. -/
def State.setTu (s : State) (x : TicketUnit) : State := { s with tu := x }

/-- `s` with its `mr` replaced. -/
def State.setMr (s : State) (x : Responder) : State := { s with mr := x }

/-- `s` with its `nu` replaced. -/
def State.setNu (s : State) (x : NoticeUnit) : State := { s with nu := x }

/-- `s` with its `inReset` replaced. -/
def State.setInReset (s : State) (x : Bool) : State := { s with inReset := x }

/-- `s` with its `now` replaced. -/
def State.setNow (s : State) (x : Time) : State := { s with now := x }

/-- `s` with its `races` replaced. -/
def State.setRaces (s : State) (x : Nat) : State := { s with races := x }

/-- `s` with its `pending` replaced. -/
def State.setPending (s : State) (x : List Instr) : State := { s with pending := x }

end Sys2Proof.Machine
end

