-- ==== Sys2Proof/Machine/Operands.lean ====
section
/-! DEFINITION. What the blocks read from the tables, the batch queue and each other: table entries by code or outlet,
destinations and head marks of batches, the routed outlet, phase times, and the codes reported outside. -/

namespace Sys2Proof.Machine

/-! ## Active tables -/

/-- The active tables: every block reads table contents from them (R16). -/
def State.active (s : State) : Tables := s.ts.active

/-- The active Segment Record (R20). -/
def State.segment (s : State) : SegmentRecord := s.ts.active.segment

/-- The active Outlet Table entry of an outlet (R18). -/
def State.outlet (s : State) (o : Outlet) : OutletEntry := s.ts.active.outlets[o]

/-- The non-empty product entry that holds a code (R17). -/
def productOf (t : Tables) (code : Byte) : Option ProductEntry :=
  t.products.toList.find? (fun p => p.code != 0 && p.code == code)

/-- The active entry of a product; a code that no entry holds reads as the empty entry, which the presence tests
keep from happening for a queued batch (R36; log 14). -/
def State.product (s : State) (code : Byte) : ProductEntry := (productOf s.ts.active code).getD emptyProduct

/-- R26: a product code counts as present for the BQ. -/
def codePresent (ts : TableStore) (code : Byte) : Bool :=
  (productOf ts.active code).isSome && (!ts.armed || (productOf ts.pending code).isSome)

/-- The part's lead volume as a distance. -/
def State.lead (s : State) : Mark := s.segment.leadVolume.setWidth 48

/-- The Outlet Table's outlets in order. -/
def allOutlets : List Outlet := [0, 1, 2, 3, 4, 5, 6, 7, 8, 9]

/-- The outlet a valve address names in a table (tests 6 and 7 of R24 keep it single). -/
def outletAtAddress (t : Tables) (a : Byte) : Option Outlet :=
  allOutlets.find? (fun o => t.outlets[o].valveAddress == a)

/-- An outlet is a lane. -/
def isLane (o : Outlet) : Bool := decide (o.val < 8)

/-- The outlet named by an outlet index byte; indexes above 9 do not come here. -/
def outletOfByte (b : Byte) : Outlet := if h : b.toNat < 10 then ⟨b.toNat, h⟩ else outletP

/-- The relief outlet named in the active Segment Record (R20). -/
def State.relief (s : State) : Outlet := outletOfByte s.segment.reliefOutlet

/-- R130: an outlet is usable when it is enabled and available. -/
def State.usable (s : State) (o : Outlet) : Bool := (s.outlet o).enabled == 1 && s.mg.valves[o].available

/-! ## Batches (Chapter 3) -/

/-- The head mark of a batch (R35). -/
def headMark (b : BatchRecord) : Mark := b.actual.getD b.predicted

/-- The head mark that R37 gives the entry behind `b`. -/
def nextPredicted (b : BatchRecord) : Mark := headMark b + b.nominal.setWidth 48

/-- The batch id of entry 0, or 0 when the queue is empty. -/
def State.entry0Id (s : State) : BatchId := (s.bq.head?.map (·.batchId)).getD 0

/-- The outlet of a batch's first destination (R36, R80): the product's lane, or P. -/
def State.firstOutlet (s : State) (b : BatchRecord) : Outlet :=
  let d := (s.product b.product).destination
  if b.disposition = .passBy then outletP else if d.toNat < 8 then outletOfByte d else outletP

/-- The delivery volume after which a batch goes on to its second destination, PASS (R36): only a DELIVER_PART batch
whose product has a lane has one. -/
def State.deliveryOf (s : State) (b : BatchRecord) : Option (BitVec 32) :=
  if b.disposition = .deliverPart ∧ isLane (s.firstOutlet b) then b.delivery else none

/-- The own lane of a batch's ticket (R140). -/
def State.ownLaneOf (s : State) (b : BatchRecord) : Option Outlet :=
  if isLane (s.firstOutlet b) then some (s.firstOutlet b) else none

/-- The reference density of a batch (R35, R62). -/
def State.referenceOf (s : State) (b : BatchRecord) : Int :=
  (b.certified.getD (s.product b.product).reference).toNat

/-- Entry 1's open mark: its head mark minus the active early margin (R73). -/
def State.openMarkOf (s : State) (b : BatchRecord) : Mark := headMark b - s.segment.earlyMargin.setWidth 48

/-- A disposition byte's meaning; bytes above 2 do not come here (R38). -/
def dispositionOfByte (b : Byte) : Disposition := if b == 0 then .deliver else if b == 1 then .deliverPart else .passBy

/-- The coding of a disposition (section 3.4). -/
def dispositionByte : Disposition → Byte
  | .deliver => 0
  | .deliverPart => 1
  | .passBy => 2

/-- A matrix disposition byte's meaning (R19). -/
def zoneOfByte (b : Byte) : ZoneRule :=
  if b == 0 then .transmix else if b == 1 then .intoRunning else if b == 2 then .intoArriving else .midpoint

/-- The coding of a matrix disposition (R96). -/
def zoneByte : ZoneRule → Byte
  | .transmix => 0
  | .intoRunning => 1
  | .intoArriving => 2
  | .midpoint => 3

/-- The matrix entry at (running family, arriving family) (R19). -/
def ruleAtFamilies (t : Tables) (running arriving : Byte) : RuleEntry :=
  (t.rules[running.toNat * 8 + arriving.toNat]?).getD ⟨0, 4000⟩

/-! ## The manifold -/

/-- The routed outlet: the last of the open order (R124). -/
def State.routed (s : State) : Option Outlet := s.mg.openOrder.getLast?

/-- The line is MOVING. -/
def State.moving (s : State) : Bool := s.vc.lineState == .moving

/-- R93: where the tracker reads the mode as MANUAL. -/
def State.manualForTracker (s : State) : Bool :=
  s.mg.mode == .manual || (s.mg.mode == .held && s.mg.resumeMode == .manual)

/-! ## Times (R105) -/

/-- One of an outlet's five times in milliseconds: units × 100, times the multiplier when the map's bit `bit` marks
it. -/
def unitsMs (e : OutletEntry) (units : Byte) (bit : Nat) : Nat :=
  units.toNat * 100 * (if e.map.getLsbD bit then e.multiplier.toNat else 1)

def openMs (e : OutletEntry) : Nat := unitsMs e e.openTime 0
def overlapMs (e : OutletEntry) : Nat := unitsMs e e.overlapTime 1
def closeMs (e : OutletEntry) : Nat := unitsMs e e.closeTime 2
def releaseMs (e : OutletEntry) : Nat := unitsMs e e.releaseSettle 3
def entryMs (e : OutletEntry) : Nat := unitsMs e e.entrySettle 4
def strokeMs (e : OutletEntry) : Nat := e.strokeTimeout.toNat * 1000

/-- A timer of length 0 expires as soon as it is started (R105); none is a timer that does not run. -/
def startTimer (now : Time) (length : Nat) : Option Timer := if length = 0 then none else some ⟨now, length⟩

/-! ## Codes -/

def modeByte : Mode → Byte
  | .manual => 0
  | .auto => 1
  | .held => 2

def engineByte : EngineState → Byte
  | .idle => 0
  | .openNew => 1
  | .overlap => 2
  | .closeOld => 3
  | .recovery => 4
  | .faulted => 5

/-- The tracker's code (R70). -/
def trackerByte (state : TrackerState) (excursion : Bool) : Byte :=
  match state with
  | .quiet => boolByte excursion
  | .watch => 2
  | .mixing => 3
  | .fallback => 4
  | .overdue => 5

/-- The code of an action's reason (R98). -/
def reasonCode : Reason → Nat
  | .head => 0
  | .tail => 1
  | .single => 2
  | .volume => 3
  | .forced => 4
  | .align => 5

/-- An outlet as a byte, 0xFF for none. -/
def outletByte (o : Option Outlet) : Byte := (o.map (fun x => BitVec.ofNat 8 x.val)).getD 0xFF

/-- A confirmed position in READ STATUS (R172). -/
def positionCode : Position → Nat
  | .unknown => 0
  | .closed => 1
  | .opened => 2
  | .fault => 3

/-- The payload byte of a valve command (R128). -/
def moveByte : ValveMove → Byte
  | .close => 0
  | .opens => 1

/-- The code of a cut mode (R96). -/
def cutModeByte : CutMode → Byte
  | .density => 0
  | .lowContrast => 1
  | .densityLost => 2

end Sys2Proof.Machine
end

