-- ==== Sys2Proof/Machine/Flags.lean ====
section
/-! DEFINITION. The Notice Unit's event latches and the raising of events (R175), the pending-event figure (R172) and
which latches may be reported (R176). -/

namespace Sys2Proof.Machine

/-- The events in the order of their numbers, 1 being the highest priority (R175). -/
def allEvents : List Event :=
  [.deadHead, .valveFault, .laneTrap, .offSpec, .lateCut, .densityLost, .interfaceWide, .windowMissed,
   .interfaceStart, .cutDone, .interfaceEnd, .ticketReady, .tablesApplied, .meter, .lineState, .manifoldOwned,
   .queueLow]

/-- The place of an event's latch: its number minus one (R175). -/
def eventIndex : Event → Fin 17
  | .deadHead => 0
  | .valveFault => 1
  | .laneTrap => 2
  | .offSpec => 3
  | .lateCut => 4
  | .densityLost => 5
  | .interfaceWide => 6
  | .windowMissed => 7
  | .interfaceStart => 8
  | .cutDone => 9
  | .interfaceEnd => 10
  | .ticketReady => 11
  | .tablesApplied => 12
  | .meter => 13
  | .lineState => 14
  | .manifoldOwned => 15
  | .queueLow => 16

/-- The number of an event (R175). -/
def eventNumber (e : Event) : Nat := (eventIndex e).val + 1

/-- The latch of an event. -/
def latchOf (nu : NoticeUnit) (e : Event) : Option Latch := nu.latches[eventIndex e]

/-- R175: a clear latch becomes set with the repeat flag clear; a set latch takes the new context and the repeat
flag. -/
def latchEvent (nu : NoticeUnit) (e : Event) (c : Context) : NoticeUnit :=
  { nu with latches := nu.latches.set (eventIndex e) (some ⟨c, (latchOf nu e).isSome⟩), testDue := true }

/-- An event is raised: latched whatever the enables (R175), its emission test to follow within the same event
(R176, log 8). -/
def raise (e : Event) (c : Context) (s : State) : State := s.setNu (latchEvent s.nu e c)

/-- R176: an event that may be reported: number 1, 2 or 3, or master enable and its own enable on. -/
def reportable (nu : NoticeUnit) (e : Event) : Bool :=
  decide ((eventIndex e).val < 3) || (nu.master && nu.enables.getLsbD (eventIndex e).val)

/-- A latch that is set and may be reported (R176). -/
def emittable (nu : NoticeUnit) (e : Event) : Bool := (latchOf nu e).isSome && reportable nu e

/-- The emittable latch of lowest number (R176). -/
def firstEmittable (nu : NoticeUnit) : Option Event := allEvents.find? (emittable nu)

/-- The pending events: the sum of 2^(n - 1) over each set latch n (R172). -/
def pendingEvents (nu : NoticeUnit) : Nat :=
  (allEvents.map (fun e => flag (latchOf nu e).isSome (2 ^ (eventIndex e).val))).sum

end Sys2Proof.Machine
end

