-- ==== Sys2Proof/Machine/Ops.lean ====
section
/-! DEFINITION. The operations the blocks share: the queues and transmitters of the link (Chapter 9), the forming of
notices (R176), what every event ends with, and the reset (R164, R173, R174). A block has no exception entry: its
raising of an event is `raise` in Flags.lean. -/

namespace Sys2Proof.Machine

/-! ## Link queues -/

/-- One port of the LIU. -/
def LinkUnit.port (l : LinkUnit) : Port → PortLink
  | .field => l.field
  | .control => l.control

/-- The LIU with one port replaced. -/
def LinkUnit.setPort (l : LinkUnit) (p : Port) (x : PortLink) : LinkUnit :=
  match p with
  | .field => { l with field := x }
  | .control => { l with control := x }

/-- The port of a state. -/
def State.port (s : State) (p : Port) : PortLink := s.liu.port p

/-- A state with one port replaced. -/
def State.setPort (s : State) (p : Port) (x : PortLink) : State := s.setLiu (s.liu.setPort p x)

/-- The forward queue of the port has a free place: it holds fewer than 8 frames (R157). -/
def forwardFree (s : State) (p : Port) : Bool := decide ((s.port p).forward.length < 8)

/-- An offer to the forward queue of the port: appended, or discarded when the queue holds 8 (R157). -/
def offerForward (p : Port) (f : Frame) (s : State) : State :=
  if forwardFree s p then s.setPort p { s.port p with forward := (s.port p).forward ++ [f] } else s

/-- The originated queue of the port has a free place: it holds fewer than 4 frames (R159). -/
def originatedFree (s : State) (p : Port) : Bool := decide ((s.port p).originated.length < 4)

/-- A frame appended to the originated queue of the port, where a place is free (R159). -/
def appendOriginated (p : Port) (f : Frame) (s : State) : State :=
  if originatedFree s p then s.setPort p { s.port p with originated := (s.port p).originated ++ [f] } else s

/-- R160: an idle transmitter begins the head of the originated queue, or otherwise the head of the forward queue. -/
def beginSending (l : PortLink) : PortLink :=
  match l.tx with
  | some _ => l
  | none =>
    if !l.originated.isEmpty then { l with tx := some .originated }
    else if !l.forward.isEmpty then { l with tx := some .forward }
    else l

/-- Both transmitters begin what they can (R160; at the end of an event, log 9). -/
def beginTransmissions (s : State) : State :=
  s.setLiu { s.liu with field := beginSending s.liu.field, control := beginSending s.liu.control }

/-- The frame a port is sending: the head of the queue its transmitter sends from (R160). -/
def frameSending (l : PortLink) : Option Frame :=
  match l.tx with
  | none => none
  | some .originated => l.originated.head?
  | some .forward => l.forward.head?

/-! ## Notices -/

/-- The notice formed from a latch (R176). -/
def noticeFrame (s : State) (e : Event) (l : Latch) : Frame where
  dst := s.nu.address
  src := s.liu.address
  kind := kindNotice
  payload := [BitVec.ofNat 8 (eventNumber e), BitVec.ofNat 8 (l.context.flags + flag l.again 128)]
    ++ beBytes 2 l.context.batch.toNat ++ beBytes 4 l.context.count.toNat
    ++ [outletByte l.context.outlet] ++ beBytes 4 (BitVec.ofInt 32 l.context.value).toNat

/-- R176: one notice formed when an emittable latch is set, a CONTROL originated place is free and the MR holds no
response. -/
def formNotice (s : State) : Option State :=
  if originatedFree s .control && s.mr.heldResponse.isNone then
    match firstEmittable s.nu with
    | none => none
    | some e =>
      match latchOf s.nu e with
      | none => none
      | some l =>
        some ((appendOriginated .control (noticeFrame s e l) s).setNu
          { s.nu with latches := s.nu.latches.set (eventIndex e) none })
  else none

/-- Notices formed one after another while the conditions of R176 hold, at most `n`. -/
def formNotices : Nat → State → State
  | 0, s => s
  | n + 1, s =>
    match formNotice s with
    | none => s
    | some s' => formNotices n s'

/-- The emission test of R176: at most 17 latches can be formed. -/
def emissionTest (s : State) : State := formNotices 17 s

/-- The emission test when an event was latched, or SET NOTICES served, within this event (R176, log 8). -/
def dueEmission (s : State) : State :=
  if s.nu.testDue then emissionTest (s.setNu { s.nu with testDue := false }) else s

/-- What every event ends with: the emission test that is due, then the transmitters (log 8, log 9). -/
def finish (s : State) : State := beginTransmissions (dueEmission s)

/-- While the reset input is asserted no event reaches a block (R174, log 11). -/
def unlessInReset (f : State → State) (s : State) : State := if s.inReset then s else finish (f s)

/-! ## Reset -/

/-- Every block at its reset values in one event, at the present time (R173, R174). The link address is given, and
the model's clock, counter and queue go on. -/
def resetAll (address : Byte) (s : State) : State :=
  { State.reset with
    liu := resetLink address
    vc := resetVolume s.now
    now := s.now
    races := s.races
    pending := s.pending }

end Sys2Proof.Machine
end

