-- ==== Sys2Proof/Machine/Valves.lean ====
section
/-! DEFINITION. The Manifold Guard's operations (Chapter 7): the part's valve commands (R106, R128), the withdrawal of
manifold commands (R126, R158), the lane trap (R130), the dead-head guard (R129), the valve records (R123, R124), and
the mode change at a failure (R134). -/

namespace Sys2Proof.Machine

/-! ## Valve records -/

/-- A state with one valve record replaced. -/
def State.setValve (s : State) (o : Outlet) (v : ValveRecord) : State :=
  s.setMg { s.mg with valves := s.mg.valves.set o v }

/-- The commanded position of an outlet set (R123). -/
def setCommanded (o : Outlet) (m : Option ValveMove) (s : State) : State :=
  s.setValve o { s.mg.valves[o] with commanded := m }

/-- The available flag of an outlet set (R131). -/
def setAvailable (o : Outlet) (b : Bool) (s : State) : State :=
  s.setValve o { s.mg.valves[o] with available := b }

/-- R123: what a report makes of a valve record. -/
def reportedRecord (r : Report) (v : ValveRecord) : ValveRecord :=
  match r with
  | .travel => { v with lastReport := some .travel }
  | .fault => { v with confirmed := .fault, lastReport := some .fault }
  | .opened =>
    if v.lastReport = some .opened ∧ v.confirmed ≠ .opened then { v with confirmed := .opened }
    else { v with lastReport := some .opened }
  | .closed =>
    if v.lastReport = some .closed ∧ v.confirmed ≠ .closed then { v with confirmed := .closed }
    else { v with lastReport := some .closed }

/-- R124: the open order after an outlet's confirmed position is `p`. -/
def orderAfter (o : Outlet) (p : Position) (order : List Outlet) : List Outlet :=
  if p = .opened then (if o ∈ order then order else order ++ [o]) else order.filter (· ≠ o)

/-- R123 and R124: a report taken into the outlet's record and the open order. -/
def takeReport (o : Outlet) (r : Report) (s : State) : State :=
  let v := reportedRecord r s.mg.valves[o]
  s.setMg { s.mg with valves := s.mg.valves.set o v, openOrder := orderAfter o v.confirmed s.mg.openOrder }

/-- The position byte of a report (section 7.2). -/
def reportOfByte (b : Byte) : Option Report :=
  match b.toNat with
  | 0 => some .closed
  | 1 => some .opened
  | 2 => some .travel
  | 3 => some .fault
  | _ => none

/-! ## The part's valve commands -/

/-- R106: a CLOSE for the only outlet confirmed OPEN on a moving line. -/
def closeBarred (s : State) (c : Command) : Bool :=
  c.move == .close && s.moving && s.mg.openOrder == [c.outlet]

/-- R128: a valve command as a frame. -/
def commandFrame (s : State) (c : Command) : Frame :=
  ⟨(s.outlet c.outlet).valveAddress, s.liu.address, kindValveCommand, [moveByte c.move]⟩

/-- The command is the one the present phase waits on: the OPEN of the new outlet in OPEN_NEW (R107), the CLOSE of the
old outlet in CLOSE_OLD (R109). -/
def isPhaseCommand (s : State) (c : Command) : Bool :=
  match s.cs.engine, s.cs.sequence with
  | .openNew, some q => c == ⟨q.newOutlet, .opens⟩
  | .closeOld, some q => c.move == .close && q.oldOutlet == some c.outlet
  | _, _ => false

/-- The confirmation that the present phase waits for stands (R107, R109). -/
def phaseConfirmed (s : State) : Bool :=
  match s.cs.engine, s.cs.sequence with
  | .openNew, some q => s.mg.valves[q.newOutlet].confirmed == .opened
  | .closeOld, some q => q.closeConfirmed
  | _, _ => false

/-- The engine's part of a command's entry: the stroke timer of R106, and the CLOSE that ends the watch of R108. -/
def noteEntry (c : Command) (s : State) : State :=
  if isPhaseCommand s c then
    s.setCs { s.cs with
      stroke := if phaseConfirmed s then s.cs.stroke else some ⟨s.now, strokeMs (s.outlet c.outlet)⟩
      sequence := s.cs.sequence.map (fun q => { q with closeSent := s.cs.engine == .closeOld }) }
  else s

/-- A command enters the FIELD originated queue; a CLOSE that fails the test of R106 is discarded instead. -/
def enterCommand (c : Command) (s : State) : State :=
  if closeBarred s c then s
  else noteEntry c (setCommanded c.outlet (some c.move) (appendOriginated .field (commandFrame s c) s))

/-- R106: a command formed. It replaces one for the same outlet in the list, in its place; otherwise it enters the
FIELD originated queue when a place is free, and waits at the tail of the list when none is. -/
def formCommand (c : Command) (s : State) : State :=
  if s.cs.commands.any (fun d => d.outlet == c.outlet) then
    s.setCs { s.cs with commands := s.cs.commands.map (fun d => if d.outlet = c.outlet then c else d) }
  else if originatedFree s .field then enterCommand c s
  else s.setCs { s.cs with commands := s.cs.commands ++ [c] }

/-- R106: commands of the list enter, oldest first, while a place is free; a CLOSE that fails its test leaves the
place to the next (log 21). -/
def enterCommands : List Command → State → State
  | [], s => s
  | c :: rest, s =>
    if originatedFree s .field then
      enterCommands rest (enterCommand c (s.setCs { s.cs with commands := rest }))
    else s

/-- A place has freed in the FIELD originated queue (R106, R159). -/
def offerCommands (s : State) : State := enterCommands s.cs.commands s

/-- A command taken out of the command list (R112, R113). -/
def dropCommand (c : Command) (s : State) : State :=
  s.setCs { s.cs with commands := s.cs.commands.filter (· ≠ c) }

/-! ## Withdrawal -/

/-- The outlet of a manifold command: a VALVE COMMAND to an active valve address (R126). -/
def manifoldOutlet (s : State) (f : Frame) : Option Outlet :=
  if f.kind = kindValveCommand then outletAtAddress s.active f.dst else none

/-- The position figure of MANIFOLD_OWNED: the byte when the payload is one byte 0 or 1, otherwise 2 (R137, log 25). -/
def positionFigure (payload : List Byte) : Nat :=
  match payload with
  | [b] => if b.toNat ≤ 1 then b.toNat else 2
  | _ => 2

/-- MANIFOLD_OWNED raised for a frame (R137). -/
def raiseOwned (o : Outlet) (f : Frame) (withdrawn : Bool) (s : State) : State :=
  raise .manifoldOwned
    { batch := s.entry0Id, count := s.vc.lineCount, outlet := some o,
      flags := positionFigure f.payload + flag withdrawn 4, value := f.src.toNat } s

/-- R126: what the MG does for one withdrawn frame. -/
def noteWithdrawn (s : State) (f : Frame) : State :=
  match manifoldOutlet s f with
  | some o => raiseOwned o f true (setCommanded o none s)
  | none => s

/-- The head of a forward queue is being sent and is a manifold command, to be cut off (R158, R161). -/
def cutsOff (s : State) : Bool :=
  s.liu.field.tx == some .forward && (s.liu.field.forward.head?.bind (manifoldOutlet s)).isSome

/-- R126 and R158: every manifold command leaves the FIELD forward queue. -/
def withdrawManifold (s : State) : State :=
  let gone := s.liu.field.forward.filter (fun f => (manifoldOutlet s f).isSome)
  let kept := s.liu.field.forward.filter (fun f => (manifoldOutlet s f).isNone)
  gone.foldl noteWithdrawn
    (s.setPort .field { s.liu.field with forward := kept, tx := if cutsOff s then none else s.liu.field.tx })

/-! ## The lane trap -/

/-- R130: where an action to an outlet goes. -/
def trapTarget (s : State) (o : Outlet) : Outlet :=
  if s.usable o then o else if s.usable outletT then outletT else s.relief

/-- R130: the lane trap on an action, at the moment coded `moment` (R137). The redirected action and the state with
LANE_TRAP raised when it is redirected. -/
def laneTrap (moment : Nat) (a : Action) (s : State) : Action × State :=
  let t := trapTarget s a.target
  if t = a.target then (a, s)
  else ({ a with target := t },
    raise .laneTrap
      { batch := a.batch, count := s.vc.lineCount, outlet := some t,
        flags := moment + flag (!s.usable outletT) 4, value := a.target.val } s)

/-- The lane trap on every action of a list that is to be trapped. -/
def trapEach (moment : Nat) (cond : Action → Bool) : List Action → State → List Action × State
  | [], s => ([], s)
  | a :: rest, s =>
    let p := if cond a then laneTrap moment a s else (a, s)
    let q := trapEach moment cond rest p.2
    (p.1 :: q.1, q.2)

/-! ## Mode changes and the guard -/

/-- A cause of HELD: outside HELD the mode becomes HELD, the resume mode the mode before, and manifold commands are
withdrawn; in HELD nothing changes (R121, R126, R134). -/
def enterHeld (s : State) : State :=
  if s.mg.mode = .held then s
  else withdrawManifold (s.setMg { s.mg with mode := .held, resumeMode := s.mg.mode })

/-- R115: the sequence abandoned, in the four states where the engine is under way. -/
def abandon (s : State) : State :=
  match s.cs.engine with
  | .idle => s
  | .faulted => s
  | _ => s.setCs { s.cs with engine := .faulted, sequence := none, phase := none, stroke := none, recovery := none }

/-- The relief outlet is commanded OPEN or has an OPEN waiting (R129). -/
def reliefOpening (s : State) : Bool :=
  s.mg.valves[s.relief].commanded == some .opens || s.cs.commands.contains ⟨s.relief, .opens⟩

/-- Step 1 of R129. -/
def openRelief (s : State) : State := if reliefOpening s then s else formCommand ⟨s.relief, .opens⟩ s

/-- Step 2 of R129; `byStart` when caused by the line starting to move (R137). The value is the mode as the guard
begins (log 24). -/
def raiseDeadHead (byStart : Bool) (s0 s : State) : State :=
  raise .deadHead
    { batch := s.entry0Id, count := s.vc.lineCount, outlet := some s0.relief,
      flags := flag (reliefOpening s0) 2 + flag byStart 4, value := (modeByte s0.mg.mode).toNat } s

/-- R129: the dead-head guard, acting when the line is MOVING and the open order is empty. -/
def guard (byStart : Bool) (s : State) : State :=
  if s.moving && s.mg.openOrder.isEmpty then
    let s1 := raiseDeadHead byStart s (openRelief s)
    abandon (if s1.mg.mode = .auto then enterHeld s1 else s1)
  else s

/-! ## Manifold commands of the station controller -/

/-- R127: an outlet standing open. -/
def standingOpen (s : State) (o : Outlet) : Bool :=
  s.mg.valves[o].confirmed == .opened && s.mg.valves[o].commanded != some .close

/-- R127: the CLOSE that would take the last outlet standing open off a moving line. -/
def closeWouldDeadHead (s : State) (o : Outlet) : Bool :=
  s.moving && standingOpen s o && allOutlets.all (fun p => p == o || !standingOpen s p)

/-- A manifold command offered to the FIELD forward queue; the commanded position is set when it enters (R127). -/
def forwardCommand (o : Outlet) (m : Option ValveMove) (f : Frame) (s : State) : State :=
  match m with
  | some _ => if forwardFree s .field then setCommanded o m (offerForward .field f s) else s
  | none => offerForward .field f s

/-- DEAD_HEAD for a blocked CLOSE (R137). -/
def blockClose (o : Outlet) (f : Frame) (s : State) : State :=
  raise .deadHead
    { batch := s.entry0Id, count := s.vc.lineCount, outlet := some o, flags := 1, value := f.src.toNat } s

/-- R126 and R127: a manifold command for outlet `o` judged. -/
def judgeManifold (o : Outlet) (f : Frame) (s : State) : State :=
  if s.mg.mode = .manual then
    match f.payload with
    | [b] =>
      if b = 1 then forwardCommand o (some .opens) f s
      else if b = 0 then
        if closeWouldDeadHead s o then blockClose o f s else forwardCommand o (some .close) f s
      else forwardCommand o none f s
    | _ => forwardCommand o none f s
  else raiseOwned o f false s

end Sys2Proof.Machine
end

