-- ==== Sys2Proof/Machine/Apply.lean ====
section
/-! DEFINITION. The Table Store's apply (R28 to R31, R12) and the tests of COMMIT (R24). -/

namespace Sys2Proof.Machine

/-! ## The tests of COMMIT -/

/-- A COMMIT test that failed: its number and index byte (R24). -/
structure Conflict where
  test  : Nat
  index : Nat
deriving DecidableEq, Repr

/-- The outlet indexes that meet a condition. -/
def outletsWhere (p : Outlet → Bool) : List Outlet := allOutlets.filter p

/-- The trim of an outlet as a signed number (R18). -/
def trimOf (t : Tables) (o : Outlet) : Int := t.outlets[o].trim.toInt

/-- The first of the outlets given that holds the smallest trim (test 3 of R24). -/
def smallestTrim (t : Tables) : List Outlet → Option Outlet
  | [] => none
  | o :: rest =>
    match smallestTrim t rest with
    | none => some o
    | some p => if trimOf t p < trimOf t o then some p else some o

/-- Test 1 of R24: T is enabled. -/
def commitTest1 (t : Tables) : Option Conflict := if t.outlets[outletT].enabled = 1 then none else some ⟨1, 8⟩

/-- Test 2 of R24: the relief outlet is enabled. -/
def commitTest2 (t : Tables) : Option Conflict :=
  let r := outletOfByte t.segment.reliefOutlet
  if t.outlets[r].enabled = 1 then none else some ⟨2, r.val⟩

/-- Test 3 of R24: a decision confirmed at the nominal step keeps its fire mark ahead of the line count. -/
def commitTest3 (t : Tables) : Option Conflict :=
  match smallestTrim t (outletsWhere (fun o => t.outlets[o].enabled == 1)) with
  | none => none
  | some o =>
    if (t.segment.leadVolume.toNat : Int) + trimOf t o
        ≤ ((t.segment.confirmationCount.toNat : Int) - 1) * t.segment.evaluationStep.toNat then some ⟨3, o.val⟩
    else none

/-- Test 4 of R24: every queued batch's product is held by a pending entry. -/
def commitTest4 (t : Tables) (bq : List BatchRecord) : Option Conflict :=
  (bq.findIdx? (fun b => (productOf t b.product).isNone)).map (fun i => ⟨4, i⟩)

/-- Test 5 of R24: no product's lane is disabled. -/
def commitTest5 (t : Tables) : Option Conflict :=
  (t.products.toList.findIdx? (fun p => p.code != 0 && decide (p.destination.toNat < 8)
    && t.outlets[outletOfByte p.destination].enabled == 0)).map (fun i => ⟨5, i⟩)

/-- Test 6 of R24: valve addresses are distinct. -/
def commitTest6 (t : Tables) : Option Conflict :=
  (allOutlets.find? (fun o => allOutlets.any (fun p => p != o && t.outlets[p].valveAddress == t.outlets[o].valveAddress))).map
    (fun o => ⟨6, o.val⟩)

/-- Test 7 of R24: no valve address is an instrument's or the part's own. -/
def commitTest7 (t : Tables) (address : Byte) : Option Conflict :=
  (allOutlets.find? (fun o => t.outlets[o].valveAddress == t.segment.meterAddress
    || t.outlets[o].valveAddress == t.segment.densityAddress || t.outlets[o].valveAddress == address)).map
    (fun o => ⟨7, o.val⟩)

/-- R24: the first test of COMMIT that fails on the pending copy. -/
def commitConflict (s : State) : Option Conflict :=
  let t := s.ts.pending
  (commitTest1 t).or <| (commitTest2 t).or <| (commitTest3 t).or <| (commitTest4 t s.bq).or <|
    (commitTest5 t).or <| (commitTest6 t).or (commitTest7 t s.liu.address)

/-! ## The expiries of the VC, which an apply can cause (R12) -/

/-- R8: the silence timer expires. -/
def silenceExpires (s : State) : State :=
  raise .meter
    { batch := s.entry0Id, count := s.vc.lineCount, outlet := none, flags := 1, value := s.segment.silenceTime.toNat }
    (s.setVc { s.vc with silenceTimer := none })

/-- R9: the still timer expires. -/
def stillExpires (s : State) : State :=
  raise .lineState
    { batch := s.entry0Id, count := s.vc.lineCount, outlet := none, flags := 0, value := s.segment.stillTime.toNat }
    (s.setVc { s.vc with stillTimer := none, lineState := .still })

/-! ## The apply -/

/-- The value of TABLES_APPLIED: which tables differed (R29). -/
def tablesDiffering (a b : Tables) : Nat :=
  flag (a.products != b.products) 1 + flag (a.outlets != b.outlets) 2 + flag (a.rules != b.rules) 4
    + flag (a.segment != b.segment) 8

/-- R31, DE: the offset clamped to the new limit, the ring emptied at a change of densitometer address. -/
def applyToEvaluator (old new : SegmentRecord) (de : DensityEvaluator) : DensityEvaluator :=
  { de with
    offset := clampInt (-(new.offsetLimit.toNat : Int)) new.offsetLimit.toNat de.offset
    ring := if old.densityAddress = new.densityAddress then de.ring else [] }

/-- R12, meter address: the last total absent and the silence timer restarted. -/
def applyMeterAddress (old new : SegmentRecord) (s : State) : State :=
  if old.meterAddress = new.meterAddress then s
  else s.setVc { s.vc with lastTotal := none, silenceTimer := some s.now }

/-- A running timer's elapsed time has reached `length` milliseconds. -/
def timerReached (now : Time) (start : Option Time) (length : Nat) : Bool :=
  start.any (fun t => decide (t + length ≤ now))

/-- R12, silence time: a running timer that has reached the changed time expires at the apply. -/
def applySilenceTime (old new : SegmentRecord) (s : State) : State :=
  if old.silenceTime ≠ new.silenceTime ∧ timerReached s.now s.vc.silenceTimer (new.silenceTime.toNat * 1000) then
    silenceExpires s
  else s

/-- R12, still time. -/
def applyStillTime (old new : SegmentRecord) (s : State) : State :=
  if old.stillTime ≠ new.stillTime ∧ timerReached s.now s.vc.stillTimer (new.stillTime.toNat * 1000) then
    stillExpires s
  else s

/-- R31, MG: outlets whose valve address changes take reset records, with their available flag kept. -/
def applyToGuard (old new : Tables) (mg : ManifoldGuard) : ManifoldGuard :=
  let changed := fun o : Outlet => old.outlets[o].valveAddress != new.outlets[o].valveAddress
  { mg with
    valves := Vector.ofFn (fun o =>
      if changed o then { resetValve with available := mg.valves[o].available } else mg.valves[o])
    openOrder := mg.openOrder.filter (fun o => !changed o) }

/-- R31, MG, with the dead-head guard (R125, R129) and the withdrawal in AUTO or HELD (R126),
the guard first (log 41). -/
def applyManifold (old new : Tables) (s : State) : State :=
  let s1 := s.setMg (applyToGuard old new s.mg)
  let s2 := if !s.mg.openOrder.isEmpty && s1.mg.openOrder.isEmpty then guard false s1 else s1
  if s2.mg.mode = .manual then s2 else withdrawManifold s2

/-- R31, CS: queued actions to outlets disabled in the new table go through the lane trap. -/
def applyToQueue (s : State) : State :=
  let p := trapEach 3 (fun a => (s.outlet a.target).enabled != 1) s.cs.queue s
  p.2.setCs { p.2.cs with queue := p.1 }

/-- R29: the apply; `window` when it is taken at a window opening (R30). The effects of R31 stand in the order of its
table (log 18), those of R12 in the order of its own: the silence timer restarts before it is compared (log 36). -/
def applyTables (window : Bool) (s : State) : State :=
  let old := s.ts.active
  let new := s.ts.pending
  let s1 := s.setTs { s.ts with active := new, armed := false }
  let s2 := s1.setDe (applyToEvaluator old.segment new.segment s1.de)
  let s3 := applyMeterAddress old.segment new.segment s2
  let s4 := applySilenceTime old.segment new.segment s3
  let s5 := applyStillTime old.segment new.segment s4
  let s6 := applyToQueue (applyManifold old new s5)
  raise .tablesApplied
    { batch := s6.entry0Id, count := s6.vc.lineCount, outlet := none, flags := flag window 1,
      value := tablesDiffering old new } s6

/-- A quiet point: the tracker QUIET and not in EXCURSION, the engine IDLE (R25). -/
def quietPoint (s : State) : Bool := s.it.state == .quiet && !s.it.excursion && s.cs.engine == .idle

/-- R28: the four conditions of an apply. -/
def applyDue (s : State) : Bool := s.ts.armed && quietPoint s && s.ts.sum.isNone

/-- R28: an armed apply performed when its conditions hold. -/
def applyIfDue (window : Bool) (s : State) : State := if applyDue s then applyTables window s else s

end Sys2Proof.Machine
end

