-- ==== Sys2Proof/Machine/Tickets.lean ====
section
/-! DEFINITION. The Ticket Unit (Chapter 8): booking, boundaries, reports and the completed list. -/

namespace Sys2Proof.Machine

/-! ## Booking -/

/-- R140: litres added to the column of the routed outlet. -/
def bookColumn (routed : Option Outlet) (n : Mark) (t : Ticket) : Ticket :=
  match routed with
  | none => { t with unrouted := t.unrouted + n }
  | some o =>
    if some o = t.account.ownLane then { t with ownLitres := t.ownLitres + n }
    else if o = outletT then { t with transmix := t.transmix + n }
    else if o = outletP then { t with pass := t.pass + n }
    else { t with otherLanes := t.otherLanes + n }

/-- R140: litres booked to the current ticket, or to the unticketed volume. -/
def book (routed : Option Outlet) (n : Mark) (tu : TicketUnit) : TicketUnit :=
  match tu.current with
  | some t => { tu with current := some (bookColumn routed n t) }
  | none => { tu with unticketed := tu.unticketed + n }

/-- The litres in the five volume columns of a ticket (R140). -/
def columnSum (t : Ticket) : Mark := t.ownLitres + t.transmix + t.pass + t.otherLanes + t.unrouted

/-- The columns of a ticket sum to the litres from its opened mark to `mark` (R142). -/
def sumsTo (mark : Mark) (t : Ticket) : Bool := decide (columnSum t = mark - t.opened)

/-- The sum that R142 and R151 give every ticket, at the line count `count`, with the bounds and the order of R141 and
R149. -/
def accountsInOrder (count : Mark) (tu : TicketUnit) : Bool :=
  decide (tu.boundaries.length ≤ 8)
    && ((tu.boundaries.map (·.mark)).zip (tu.boundaries.map (·.mark)).tail).all (fun p => !lower p.2 p.1)
    && decide (tu.completed.length ≤ 16)
    && tu.current.all (sumsTo count)
    && tu.closing.all (fun t => t.closed.any (sumsTo · t))
    && tu.completed.all (fun t => t.closed.any (sumsTo · t))

/-! ## The completed list -/

/-- The flags of TICKET_READY (R149). -/
def ticketFlags (t : Ticket) : Nat :=
  flag t.account.fallback 1 + flag t.account.overdue 2 + flag t.account.excursion 4 + flag t.account.wide 8

/-- Step 1 of R149: a full list loses its oldest ticket, and the next oldest is marked. -/
def discardOldest (l : List Ticket) : List Ticket :=
  if 16 ≤ l.length then
    match l.tail with
    | [] => []
    | t :: ts => { t with predecessorDiscarded := true } :: ts
  else l

/-- R149: a closed ticket enters the completed list and TICKET_READY is raised. -/
def completeTicket (t : Ticket) (s : State) : State :=
  let l := discardOldest s.tu.completed ++ [t]
  raise .ticketReady
    { batch := t.account.batch, count := t.closed.getD 0, outlet := t.account.ownLane, flags := ticketFlags t,
      value := l.length }
    (s.setTu { s.tu with completed := l })

/-! ## Boundaries -/

/-- A ticket opened with empty columns. -/
def openTicket (a : Account) (opened : Mark) : Ticket := ⟨a, opened, none, 0, 0, 0, 0, 0, false⟩

/-- The closing ticket, where one still waits, enters the completed list as it stands: a further ticket becomes closing,
and R144 has one at most (log 42). -/
def releaseWaiting (s : State) : State :=
  match s.tu.closing with
  | some w => completeTicket w (s.setTu { s.tu with closing := none })
  | none => s

/-- Step 1 of R144: the current ticket closes at `mark`; it enters the completed list when its tail interface has
been reported, and otherwise becomes the closing ticket. -/
def closeCurrent (mark : Mark) (s : State) : State :=
  match s.tu.current with
  | none => s
  | some t =>
    let t' := { t with closed := some mark }
    let s1 := s.setTu { s.tu with current := none }
    if t.account.tailReported then completeTicket t' s1
    else
      let s2 := releaseWaiting s1
      s2.setTu { s2.tu with closing := some t' }

/-- R144: boundary `b` is taken at `mark`, `rest` being the boundaries behind it. -/
def takeBoundary (b : Boundary) (rest : List Boundary) (mark : Mark) (s : State) : State :=
  let s1 := closeCurrent mark s
  s1.setTu { s1.tu with boundaries := rest, current := some (openTicket b.account mark) }

/-- R142: an advance from `before` to `after` booked in parts; `pos` is the point booked to so far and `bs` the
boundaries still pending. -/
def bookParts (routed : Option Outlet) (before after : Mark) : List Boundary → Mark → State → State
  | [], pos, s => s.setTu (book routed (after - pos) s.tu)
  | b :: rest, pos, s =>
    if crossed before after b.mark then
      bookParts routed before after rest b.mark
        (takeBoundary b rest b.mark (s.setTu (book routed (b.mark - pos) s.tu)))
    else s.setTu (book routed (after - pos) s.tu)

/-- R140 and R142: the TU books an advance, by one reading of the routed outlet. -/
def bookAdvance (routed : Option Outlet) (before after : Mark) (s : State) : State :=
  bookParts routed before after s.tu.boundaries before s

/-- R143: boundaries already reached are taken at once, at the line count. -/
def takeReached : List Boundary → State → State
  | [], s => s
  | b :: rest, s =>
    if reached s.vc.lineCount b.mark then takeReached rest (takeBoundary b rest s.vc.lineCount s) else s

/-- An account with nothing gathered. -/
def newAccount (batch : BatchId) (product : Byte) (ownLane : Option Outlet) : Account :=
  ⟨batch, product, ownLane, 0, none, none, false, false, false, false, false⟩

/-- R141: the mark of the boundary of a midpoint, raised to the last pending boundary's mark. -/
def boundaryMark (midpoint : Mark) (s : State) : Mark :=
  match s.tu.boundaries.getLast? with
  | some l => raiseTo l.mark (midpoint + s.lead)
  | none => midpoint + s.lead

/-- R141: in a full boundary list the oldest boundary is taken at once. -/
def makeRoom (s : State) : State :=
  match s.tu.boundaries with
  | b :: rest => if 8 ≤ s.tu.boundaries.length then takeBoundary b rest s.vc.lineCount s else s
  | [] => s

/-- A boundary appended to the list. -/
def addBoundary (b : Boundary) (s : State) : State :=
  s.setTu { s.tu with boundaries := s.tu.boundaries ++ [b] }

/-- R141: a midpoint forms a pending boundary for the arriving batch; one already reached is taken at once (R143). -/
def setBoundary (midpoint : Mark) (arriving : BatchRecord) (s : State) : State :=
  let mark := boundaryMark midpoint s
  let s1 := addBoundary ⟨mark, newAccount arriving.batchId arriving.product (s.ownLaneOf arriving)⟩ (makeRoom s)
  if reached s1.vc.lineCount mark then takeReached s1.tu.boundaries s1 else s1

/-- R145: the first ticket, at a scheduling into an empty queue. -/
def scheduleTicket (b : BatchRecord) (s : State) : State :=
  s.setTu { s.tu with
    current := some (openTicket (newAccount b.batchId b.product (s.ownLaneOf b)) s.vc.lineCount) }

/-! ## Reports -/

/-- The first pending boundary of a batch, oldest first, changed by `f`; none when there is none. -/
def updateBoundary (batch : BatchId) (f : Account → Account) : List Boundary → Option (List Boundary)
  | [] => none
  | b :: rest =>
    if b.account.batch = batch then some ({ b with account := f b.account } :: rest)
    else (updateBoundary batch f rest).map (b :: ·)

/-- A ticket holds the account of a batch; no holder has the id 0 (R147, R148). -/
def holds (batch : BatchId) (t : Option Ticket) : Bool :=
  batch != 0 && t.any (fun t => t.account.batch == batch)

/-- A ticket with its account changed. -/
def onTicket (f : Account → Account) (t : Ticket) : Ticket := { t with account := f t.account }

/-- R148: a report placed in the current ticket, the closing ticket or a pending boundary, in that order. -/
def placeReport (batch : BatchId) (f : Account → Account) (tu : TicketUnit) : TicketUnit :=
  if batch = 0 then tu
  else if holds batch tu.current then { tu with current := tu.current.map (onTicket f) }
  else if holds batch tu.closing then { tu with closing := tu.closing.map (onTicket f) }
  else { tu with boundaries := (updateBoundary batch f tu.boundaries).getD tu.boundaries }

/-- R148: the lateness of an action at its start. -/
def reportLateness (batch : BatchId) (lateness : Nat) (s : State) : State :=
  s.setTu (placeReport batch (fun a => { a with lateness := a.lateness + litres lateness }) s.tu)

/-- R148: an excursion of entry 0's batch. -/
def reportExcursion (batch : BatchId) (s : State) : State :=
  s.setTu (placeReport batch (fun a => { a with excursion := true }) s.tu)

/-- An interface width: end minus start, 0 when the difference is 2^47 or more (R146). -/
def interfaceWidth (start finish : Mark) : Mark := if (finish - start).toNat < 2 ^ 47 then finish - start else 0

/-- The flags an interface report sets (R147); a flag once set stays set. -/
def reportFlags (r : InterfaceRecord) (a : Account) : Account :=
  { a with
    fallback := a.fallback || r.cutMode != .density
    overdue := a.overdue || r.overdue
    wide := a.wide || r.widest }

/-- What an interface report writes for the running batch (R147). -/
def reportTail (r : InterfaceRecord) (finish : Mark) (a : Account) : Account :=
  { reportFlags r a with
    tailWidth := (r.startMark.map (interfaceWidth · finish)).or a.tailWidth
    tailReported := true }

/-- What an interface report writes for the arriving batch (R147). -/
def reportHead (r : InterfaceRecord) (finish : Mark) (a : Account) : Account :=
  { reportFlags r a with headWidth := (r.startMark.map (interfaceWidth · finish)).or a.headWidth }

/-- R147, the running batch: current ticket, closing ticket (which then enters the completed list), boundaries. -/
def placeTail (r : InterfaceRecord) (finish : Mark) (s : State) : State :=
  if holds r.runningId s.tu.current then
    s.setTu { s.tu with current := s.tu.current.map (onTicket (reportTail r finish)) }
  else if holds r.runningId s.tu.closing then
    match s.tu.closing with
    | some t => completeTicket (onTicket (reportTail r finish) t) (s.setTu { s.tu with closing := none })
    | none => s
  else if r.runningId = 0 then s
  else s.setTu { s.tu with
    boundaries := (updateBoundary r.runningId (reportTail r finish) s.tu.boundaries).getD s.tu.boundaries }

/-- R147, the arriving batch: current ticket, boundaries. -/
def placeHead (r : InterfaceRecord) (finish : Mark) (s : State) : State :=
  if holds r.arrivingId s.tu.current then
    s.setTu { s.tu with current := s.tu.current.map (onTicket (reportHead r finish)) }
  else if r.arrivingId = 0 then s
  else s.setTu { s.tu with
    boundaries := (updateBoundary r.arrivingId (reportHead r finish) s.tu.boundaries).getD s.tu.boundaries }

/-- R147: an interface end reported to the TU. -/
def reportInterface (r : InterfaceRecord) (finish : Mark) (s : State) : State :=
  placeHead r finish (placeTail r finish s)

end Sys2Proof.Machine
end

