-- ==== Sys2Proof/Machine/Engine.lean ====
section
/-! DEFINITION. The Cut Sequencer (Chapter 6): failures, phases, the start of an action, insertion, and the loop that
runs the engine as far as it can go within one event. -/

namespace Sys2Proof.Machine

/-- Seconds in milliseconds (R105). -/
def secondsMs (b : Byte) : Nat := b.toNat * 1000

/-! ## Events of the CS (R118) -/

/-- CUT_DONE for an action: `noMove` when removed at its start, `mismatch` when the old outlet differs from the from
outlet, `route` for a route sequence. -/
def raiseCutDone (a : Action) (lateness : Nat) (noMove mismatch route : Bool) (s : State) : State :=
  raise .cutDone
    { batch := a.batch, count := s.vc.lineCount, outlet := some a.target,
      flags := reasonCode a.reason + flag noMove 8 + flag mismatch 16 + flag route 32, value := stated31 lateness } s

/-- LATE_CUT at the start of an action. -/
def raiseLateCut (a : Action) (lateness : Nat) (mismatch : Bool) (s : State) : State :=
  raise .lateCut
    { batch := a.batch, count := s.vc.lineCount, outlet := some a.target,
      flags := reasonCode a.reason + flag mismatch 16, value := stated31 lateness } s

/-- VALVE_FAULT for an outlet, with its flags and the elapsed stroke time in seconds. -/
def raiseValveFault (batch : BatchId) (o : Outlet) (flags seconds : Nat) (s : State) : State :=
  raise .valveFault
    { batch := batch, count := s.vc.lineCount, outlet := some o, flags := flags, value := seconds } s

/-! ## Failures -/

/-- The elapsed stroke time in whole seconds, 0 when no stroke timer runs (R118). -/
def strokeSeconds (s : State) : Nat :=
  match s.cs.stroke with
  | some t => (s.now - t.start) / 1000
  | none => 0

/-- The phase and stroke timers stop. -/
def stopTimers (s : State) : State := s.setCs { s.cs with phase := none, stroke := none }

/-- R112: an open failure. `flags` are those of VALVE_FAULT. -/
def openFailure (flags : Nat) (s : State) : State :=
  match s.cs.sequence with
  | none => s
  | some q =>
    let s1 := formCommand ⟨q.newOutlet, .close⟩ (stopTimers s)
    let s2 := setAvailable q.newOutlet false s1
    let s3 := match q.oldOutlet with
      | some o => dropCommand ⟨o, .close⟩ s2
      | none => s2
    let s4 := enterHeld (s3.setCs { s3.cs with sequence := none, engine := .faulted })
    raiseValveFault q.action.batch q.newOutlet flags (strokeSeconds s) s4

/-- R113: a close failure. -/
def closeFailure (flags : Nat) (s : State) : State :=
  match s.cs.sequence with
  | none => s
  | some q =>
    match q.oldOutlet with
    | none => s
    | some o =>
      let s1 := dropCommand ⟨o, .close⟩ (setAvailable o false (stopTimers s))
      let s2 := s1.setCs { s1.cs with queue := s1.cs.queue.tail, sequence := none, engine := .faulted }
      raiseValveFault q.action.batch o (1 + flags) (strokeSeconds s) (enterHeld s2)

/-! ## Phases -/

/-- R108: OVERLAP begins. -/
def enterOverlap (q : Sequence) (s : State) : State :=
  s.setCs { s.cs with
    engine := .overlap, stroke := none, phase := startTimer s.now (overlapMs (s.outlet q.newOutlet)) }

/-- R109: CLOSE_OLD begins for the old outlet `o`. -/
def enterCloseOld (q : Sequence) (o : Outlet) (s : State) : State :=
  formCommand ⟨o, .close⟩
    (s.setCs { s.cs with
      engine := .closeOld
      phase := startTimer s.now (closeMs (s.outlet o))
      sequence := some { q with closeSent := false, closeConfirmed := s.mg.valves[o].confirmed == .closed } })

/-- The recovery time of a sequence: the highest of the terms that apply (step 2 of R110). -/
def recoveryMs (s : State) (q : Sequence) : Nat :=
  let release := match q.oldOutlet with
    | some o => releaseMs (s.outlet o)
    | none => 0
  let family :=
    if q.action.familyChange && (q.action.reason == .head || q.action.reason == .tail || q.action.reason == .single)
    then secondsMs s.segment.familySettle else 0
  let reversal := if s.cs.lastAway = some q.newOutlet then secondsMs s.segment.reversalSettle else 0
  max (max release (entryMs (s.outlet q.newOutlet))) (max family reversal)

/-- R110: RECOVERY begins. -/
def enterRecovery (q : Sequence) (s : State) : State :=
  let s1 := s.setCs { s.cs with
    engine := .recovery, queue := s.cs.queue.tail, sequence := none, phase := none, stroke := none
    lastAway := q.oldOutlet, recovery := startTimer s.now (recoveryMs s q) }
  raiseCutDone q.action q.lateness false q.mismatch q.isRoute s1

/-- R107: OPEN_NEW begins. -/
def enterOpenNew (q : Sequence) (s : State) : State :=
  formCommand ⟨q.newOutlet, .opens⟩
    (s.setCs { s.cs with
      engine := .openNew, sequence := some q, phase := startTimer s.now (openMs (s.outlet q.newOutlet)) })

/-! ## Starting an action -/

/-- R103: the start test. -/
def canStart (s : State) : Bool :=
  s.cs.engine == .idle && s.mg.mode == .auto && s.cs.queue.head?.any (fun a => reached s.vc.lineCount a.fire)

/-- R104: the head action starts; `route` for ROUTE (R116), which the CUT_DONE of an action removed at its start states
too (R118; log 39). -/
def startAction (route : Bool) (s : State) : State :=
  match s.cs.queue with
  | [] => s
  | a0 :: rest =>
    let p := laneTrap 1 a0 s
    let a := p.1
    let s1 := p.2.setCs { p.2.cs with queue := a :: rest }
    let lateness := (s1.vc.lineCount - a.fire).toNat
    let mismatch := s1.routed != a.source
    let s2 := reportLateness a.batch lateness s1
    let s3 := if s2.segment.lateLimit.toNat < lateness then raiseLateCut a lateness mismatch s2 else s2
    if some a.target = s3.routed then
      raiseCutDone a lateness true mismatch route (s3.setCs { s3.cs with queue := rest })
    else
      enterOpenNew ⟨a, route, a.target, s3.routed, mismatch, lateness, false, false⟩ s3

/-! ## The engine within one event -/

/-- At IDLE: a due apply and a possible start; where both stand together, either comes first (R111, R135; log 7). -/
def idleStep (s : State) : Option State :=
  if applyDue s then
    if canStart s then
      let s1 := s.setRaces (s.races + 1)
      some (if Config.freeApplyFirst s.races then applyTables false s1 else startAction false s1)
    else some (applyTables false s)
  else if canStart s then some (startAction false s)
  else none

/-- One transition the engine makes without waiting: a phase whose conditions are met ends (R107 to R110), an expired
recovery returns to IDLE (R111), and what IDLE allows happens. -/
def engineStep (s : State) : Option State :=
  match s.cs.engine, s.cs.sequence with
  | .idle, _ => idleStep s
  | .openNew, some q =>
    if s.cs.phase.isNone && phaseConfirmed s then some (enterOverlap q s) else none
  | .overlap, some q =>
    if s.cs.phase.isNone then
      some (match q.oldOutlet with
        | some o => enterCloseOld q o s
        | none => enterRecovery q s)
    else none
  | .closeOld, some q => if s.cs.phase.isNone && q.closeConfirmed then some (enterRecovery q s) else none
  | .recovery, _ => if s.cs.recovery.isNone then some (s.setCs { s.cs with engine := .idle }) else none
  | _, _ => none

/-- Transitions one after another, at most `n`. -/
def engineLoop : Nat → State → State
  | 0, s => s
  | n + 1, s =>
    match engineStep s with
    | none => s
    | some s' => engineLoop n s'

/-- The engine run as far as it goes within this event: at most five transitions for each of 8 actions, and an apply
(log 29). -/
def engineRun (s : State) : State := engineLoop 64 s

/-! ## Reports of valves -/

/-- Whether a FAULT report of an outlet fails its phase: its command is held in the list or its stroke timer runs
(R112, R113). -/
def commandPending (s : State) (c : Command) : Bool := s.cs.commands.contains c || s.cs.stroke.isSome

/-- The new outlet's report in OPEN_NEW (R107, R108, R112). `was` is its confirmed position before the report. -/
def openNewReport (q : Sequence) (was : Position) (isFault : Bool) (s : State) : State :=
  let now := s.mg.valves[q.newOutlet].confirmed
  if was = .opened then (if now = .opened then s else openFailure (4 + flag isFault 2) s)
  else if now = .opened then engineRun (s.setCs { s.cs with stroke := none })
  else if isFault && commandPending s ⟨q.newOutlet, .opens⟩ then openFailure 2 s
  else s

/-- The new outlet's report while R108 watches it: a loss by a FAULT report has both flags (log 20). -/
def watchedReport (q : Sequence) (was : Position) (isFault : Bool) (s : State) : State :=
  if was = .opened ∧ s.mg.valves[q.newOutlet].confirmed ≠ .opened then openFailure (4 + flag isFault 2) s else s

/-- The old outlet's report in CLOSE_OLD (R109, R113). -/
def closeOldReport (q : Sequence) (o : Outlet) (isFault : Bool) (s : State) : State :=
  if q.closeConfirmed then s
  else if s.mg.valves[o].confirmed = .closed then
    engineRun (s.setCs { s.cs with stroke := none, sequence := some { q with closeConfirmed := true } })
  else if isFault && commandPending s ⟨o, .close⟩ then closeFailure 2 s
  else s

/-- R125: the engine learns of a report of outlet `o` whose confirmed position was `was` before it; every FAULT report
reaches it (log 19). -/
def engineReport (o : Outlet) (was : Position) (isFault : Bool) (s : State) : State :=
  match s.cs.engine, s.cs.sequence with
  | .openNew, some q => if o = q.newOutlet then openNewReport q was isFault s else s
  | .overlap, some q => if o = q.newOutlet then watchedReport q was isFault s else s
  | .closeOld, some q =>
    if o = q.newOutlet then (if q.closeSent then s else watchedReport q was isFault s)
    else if q.oldOutlet = some o then closeOldReport q o isFault s
    else s
  | _, _ => s

/-! ## Insertion -/

/-- Step 2 of R99: the fire mark of an offer to outlet `target`. -/
def computedFire (s : State) (f : FireRule) (target : Outlet) : Mark :=
  match f with
  | .fromDecision d => d + s.lead + (s.outlet target).trim.signExtend 48
  | .given m => m
  | .now => s.vc.lineCount

/-- Step 3 of R99: held back to the fire mark of the last action. -/
def heldBack (queue : List Action) (fire : Mark) : Mark :=
  match queue.getLast? with
  | some l => raiseTo l.fire fire
  | none => fire

/-- The decision mark of an offer (R98): absent where the fire mark is given directly, a VOLUME action's (log 40). -/
def decisionOf : FireRule → Option Mark
  | .fromDecision d => some d
  | _ => none

/-- The offered action before insertion. -/
def offeredAction (o : Offer) : Action := ⟨o.reason, o.batch, o.source, o.target, decisionOf o.fire, 0, o.familyChange⟩

/-- Steps 1 to 4 of R99: the action as stored, and the state with it at the tail. -/
def appendAction (o : Offer) (s : State) : Action × State :=
  let p := laneTrap 0 (offeredAction o) s
  let a := { p.1 with fire := heldBack s.cs.queue (computedFire s o.fire p.1.target) }
  (a, p.2.setCs { p.2.cs with queue := p.2.cs.queue ++ [a] })

/-- R99: an insertion with the start test of step 5, and the fire mark stored. -/
def insertAction (o : Offer) (s : State) : Mark × State :=
  let p := appendAction o s
  (p.1.fire, if s.cs.queue.isEmpty then engineRun p.2 else p.2)

/-- R100: the VOLUME action of a pair; its from outlet is the lane of the delivery, its to outlet P. -/
def volumeOffer (o : Offer) (fire : Mark) : Offer :=
  ⟨.volume, o.batch, some o.target, outletP, .given fire, false, none⟩

/-- R99 and R100: an offer of an action or a pair, refused (none) when the places are not free. -/
def offerAction (o : Offer) (s : State) : Option State :=
  match o.volume with
  | none => if s.cs.queue.length < 8 then some (insertAction o s).2 else none
  | some v =>
    if s.cs.queue.length ≤ 6 then
      let p := insertAction o s
      some (insertAction (volumeOffer o (p.1 + v.setWidth 48)) p.2).2
    else none

/-- R101: the queue emptied but for the action of a sequence in service. -/
def emptyQueue (s : State) : State :=
  s.setCs { s.cs with queue := if s.cs.sequence.isSome then s.cs.queue.take 1 else [] }

end Sys2Proof.Machine
end

