-- ==== Sys2Proof/Machine/Queue.lean ====
section
/-! DEFINITION. The Batch Queue Unit's marks (R37, R46 to R48) and the Density Evaluator (Chapter 4): samples, pair
references and the figures of an evaluation. -/

namespace Sys2Proof.Machine

/-! ## Predicted head marks (R37) -/

/-- The predicted head marks of the batches behind `b` computed anew, from the head toward the tail. -/
def relinkBehind (b : BatchRecord) : List BatchRecord → List BatchRecord
  | [] => []
  | c :: rest =>
    let c' := { c with predicted := nextPredicted b }
    c' :: relinkBehind c' rest

/-- The predicted head marks of every entry behind position `k` computed anew. -/
def relinkFrom : Nat → List BatchRecord → List BatchRecord
  | _, [] => []
  | 0, b :: rest => b :: relinkBehind b rest
  | k + 1, b :: rest => b :: relinkFrom k rest

/-- R46: entry 1 re-anchored at a midpoint, with the drift. -/
def reanchor (m : Mark) (bq : List BatchRecord) : List BatchRecord × Int :=
  match bq with
  | b0 :: b1 :: rest => (relinkFrom 1 (b0 :: { b1 with actual := some m } :: rest), (m - b1.predicted).toInt)
  | _ => (bq, 0)

/-- R47 and R48: entry 0 leaves the queue; QUEUE_LOW is raised when one batch is left. -/
def removeRunning (s : State) : State :=
  let s1 := s.setBq s.bq.tail
  match s1.bq with
  | [b] => raise .queueLow { batch := b.batchId, count := s1.vc.lineCount, outlet := none, flags := 0, value := 1 } s1
  | _ => s1

/-! ## Samples (R53 to R57) -/

/-- The correction of R56 for coefficient `beta` at clamped temperature `t`. -/
def correction (beta : Nat) (t : Int) : Int := roundHalfAway ((beta : Int) * (t - 1500)) 1000

/-- The product whose coefficient corrects a sample (R55): entry 0's, or entry 1's in a window whose last fraction is
500 or more; none when the queue is empty. -/
def sampleProduct (s : State) : Option Byte :=
  match s.it.record with
  | some r => if 500 ≤ r.lastFraction then (s.bq[1]?).map (·.product) else s.bq.head?.map (·.product)
  | none => s.bq.head?.map (·.product)

/-- The coefficient of R55. -/
def sampleBeta (s : State) : Nat :=
  match sampleProduct s with
  | some code => (s.product code).beta.toNat
  | none => 0

/-- R57: a sample stored as the newest, the oldest of eight giving way. -/
def storeSample (x : Sample) (ring : List Sample) : List Sample :=
  (if 8 ≤ ring.length then ring.tail else ring) ++ [x]

/-- R54 to R57: an accepted sample taken. -/
def takeSample (density : Nat) (temperature : Int) (s : State) : State :=
  let c := correction (sampleBeta s) (clampInt (-4000) 8000 temperature)
  s.setDe { s.de with ring := storeSample ⟨density + c, true⟩ s.de.ring }

/-! ## Pair references (R62) -/

/-- The pair references of two batches. -/
def pairOf (s : State) (b0 b1 : BatchRecord) : PairReferences :=
  let dH := s.referenceOf b0
  let dT := s.referenceOf b1
  ⟨dH, dT, dT - dH, decide ((dT - dH).natAbs < s.segment.minimumContrast.toNat)⟩

/-! ## Evaluation (R58 to R67) -/

/-- The kind of figure due in the tracker's state (step 3 of R58). -/
inductive FigureDue where
  | none
  | deviation
  | fraction
deriving DecidableEq, Repr

/-- Step 3 of R58. -/
def figureDue (s : State) : FigureDue :=
  match s.it.state with
  | .quiet => if s.bq.isEmpty then .none else .deviation
  | .fallback => .none
  | _ => .fraction

/-- The figure a blind evaluation carries forward: the last one when it is of the kind due (R59), also where a window
has opened and ended since (log 37). -/
def carriedFigure (due : FigureDue) (last : Figure) : Figure :=
  match due, last with
  | .deviation, .deviation x => .deviation x
  | .fraction, .fraction f => .fraction f
  | _, _ => .absent

/-- The newest `m` densities of the ring. -/
def newestDensities (m : Nat) (ring : List Sample) : List Int :=
  (ring.drop (ring.length - m)).map (·.density)

/-- R60: the mean of samples, `half` of their number being added before the division. -/
def meanOf (xs : List Int) : Int := (xs.sum + (xs.length / 2 : Nat)) / xs.length

/-- R60 and R61: mean, offset-corrected density and samples used. -/
def readingOf (s : State) : Reading :=
  let xs := newestDensities (min s.segment.averagingDepth.toNat s.de.ring.length) s.de.ring
  ⟨meanOf xs, meanOf xs - s.de.offset, xs.length⟩

/-- R63: the fraction of a density between the pair references. -/
def fractionOf (p : PairReferences) (d : Int) : Int :=
  clampInt 0 1000 (roundHalfAway (1000 * (d - p.running)) p.contrast)

/-- The figure of a non-blind evaluation (R63, R64). -/
def figureOf (s : State) (d : Int) : Figure :=
  match figureDue s, s.bq.head?, s.de.pair with
  | .deviation, some b, _ => .deviation (d - s.referenceOf b)
  | .fraction, _, some p => .fraction (fractionOf p d)
  | _, _, _ => .absent

/-- The excursion limit of entry 0's product (R66, R91). -/
def excursionLimit (s : State) : Nat :=
  match s.bq.head? with
  | some b => (s.product b.product).excursionLimit.toNat
  | none => 0

/-- R65: the settle origin is present and its settle volume reached by the line count. -/
def settled (s : State) : Bool :=
  s.de.settleOrigin.any (fun o => reached s.vc.lineCount (o + s.segment.settleVolume.setWidth 48))

/-- R66: a deviation allows the update of the offset. -/
def offsetMayMove (s : State) (deviation : Int) : Bool :=
  s.it.state == .quiet && !s.it.excursion && s.segment.baselineRate != 0
    && decide (deviation.natAbs ≤ excursionLimit s) && settled s

/-- R67: the updated offset, from the mean and the reference of entry 0. -/
def updatedOffset (s : State) (raw : Int) : Int :=
  let limit : Int := s.segment.offsetLimit.toNat
  clampInt (-limit) limit
    (s.de.offset + roundHalfAway (raw - s.de.offset) ((2 ^ s.segment.baselineRate.toNat : Nat) : Int))

/-- Step 4 of R58 for a non-blind evaluation: raw is mean minus reference, which is d plus offset minus reference. -/
def nextOffset (s : State) (r : Reading) (f : Figure) : Int :=
  match f with
  | .deviation x => if offsetMayMove s x then updatedOffset s (r.mean - (r.d - x)) else s.de.offset
  | _ => s.de.offset

/-- The result of a blind evaluation (R59). -/
def blindResult (s : State) (mark : Mark) : EvalResult :=
  match s.de.last with
  | some l => ⟨mark, true, l.reading, carriedFigure (figureDue s) l.figure⟩
  | none => ⟨mark, true, none, .absent⟩

/-- Steps 1 to 3 of R58: the result of an evaluation at `mark`. -/
def evalResult (s : State) (mark : Mark) : EvalResult :=
  if s.de.ring.any (·.isNew) then
    let r := readingOf s
    ⟨mark, false, some r, figureOf s r.d⟩
  else blindResult s mark

/-- The offset after an evaluation: only a non-blind one can move it (R59, R66). -/
def offsetAfter (s : State) (res : EvalResult) : Int :=
  match res.blind, res.reading with
  | false, some r => nextOffset s r res.figure
  | _, _ => s.de.offset

/-- Steps 4 to 6 of R58 in the DE: the offset, the new marks and the last result. -/
def noteEvaluation (s : State) (res : EvalResult) : State :=
  s.setDe { s.de with
    offset := offsetAfter s res
    ring := s.de.ring.map (fun x => { x with isNew := false })
    last := some res }

end Sys2Proof.Machine
end

