-- ==== Sys2Proof/Machine/Tracker.lean ====
section
/-! DEFINITION. The Interface Tracker (Chapter 5). -/

namespace Sys2Proof.Machine

/-! ## Updates -/

/-- A state with its active interface record changed. -/
def State.mapRecord (s : State) (f : InterfaceRecord → InterfaceRecord) : State :=
  s.setIt { s.it with record := s.it.record.map f }

/-- A state with the tracker's state changed. -/
def State.setTracker (s : State) (t : TrackerState) : State := s.setIt { s.it with state := t }

/-- A run whose condition holds at `mark` (R81). -/
def Run.rise (r : Run) (mark : Mark) : Run := if r.count = 0 then ⟨1, mark⟩ else { r with count := r.count + 1 }

/-- A run after an evaluation at `mark` (R81, R91). -/
def Run.next (r : Run) (holds : Bool) (mark : Mark) : Run := if holds then r.rise mark else zeroRun

/-- The confirmation count K (R20). -/
def State.confirmations (s : State) : Nat := s.segment.confirmationCount.toNat

/-! ## Offering (R82, R90, R93) -/

/-- Held actions offered again, oldest first, each while a place is free (R82). -/
def offerHeld : List Offer → State → State
  | [], s => s.setIt { s.it with held := [] }
  | o :: rest, s =>
    match offerAction o s with
    | some s' => offerHeld rest s'
    | none => s.setIt { s.it with held := o :: rest }

/-- An action offered, or held behind what is held (R82). -/
def offerOrHold (o : Offer) (s : State) : State :=
  if s.it.held.isEmpty then
    match offerAction o s with
    | some s' => s'
    | none => s.setIt { s.it with held := [o] }
  else s.setIt { s.it with held := s.it.held ++ [o] }

/-- Every held action discarded at the moment the mode becomes MANUAL (R82, R93). -/
def discardHeld (s : State) : State := s.setIt { s.it with held := [] }

/-- R90: the VOLUME action offered alone once its moment has come: the routing decision made and the midpoint
present (log 23). Its fire mark is the midpoint mark plus the lead volume plus the delivery volume, also where step 2 of
R141 has raised the booking boundary above that midpoint plus lead volume (log 44). -/
def offerVolumeAlone (s : State) : State :=
  match s.it.volumeDue, s.it.record.bind (·.midpoint), s.bq[1]? with
  | true, some m, some b =>
    let s1 := s.setIt { s.it with volumeDue := false }
    if s.manualForTracker then s1
    else
      match s.deliveryOf b with
      | some v =>
        offerOrHold ⟨.volume, b.batchId, some (s.firstOutlet b), outletP, .given (m + s.lead + v.setWidth 48), false, none⟩ s1
      | none => s1
  | _, _, _ => s

/-! ## The midpoint (R79) -/

/-- The midpoint recorded: entry 1 re-anchored and the drift stored, the booking boundary placed, a VOLUME action that
waited for it offered. -/
def setMidpoint (m : Mark) (s : State) : State :=
  let p := reanchor m s.bq
  let s1 := (s.setBq p.1).mapRecord (fun r => { r with midpoint := some m, drift := some p.2 })
  let s2 := match s1.bq[1]? with
    | some b => setBoundary m b s1
    | none => s1
  offerVolumeAlone s2

/-! ## Decisions (R80 to R82) -/

/-- A decision by where its mark is recorded: as head cut mark or as tail cut mark (R80). -/
inductive Place where
  | headCut
  | tailCut
deriving DecidableEq, Repr

/-- The disposition makes a decision recorded at the place (R80). -/
def hasDecision (z : ZoneRule) : Place → Bool
  | .headCut => z == .transmix || z == .intoArriving
  | .tailCut => z == .transmix || z == .intoRunning || z == .midpoint

/-- The mark recorded at a place. -/
def InterfaceRecord.cutMark (r : InterfaceRecord) : Place → Option Mark
  | .headCut => r.headCut
  | .tailCut => r.tailCut

/-- The record with a decision mark recorded at a place. -/
def InterfaceRecord.setCut (r : InterfaceRecord) (p : Place) (m : Mark) : InterfaceRecord :=
  match p with
  | .headCut => { r with headCut := some m }
  | .tailCut => { r with tailCut := some m }

/-- A decision of the record still to be made. -/
def outstanding (r : InterfaceRecord) (p : Place) : Bool := hasDecision r.disposition p && (r.cutMark p).isNone

/-- Every decision of the disposition has been made (R83). -/
def allDecided (r : InterfaceRecord) : Bool := !outstanding r .headCut && !outstanding r .tailCut

/-- A decision mark raised to the decision marks already recorded (R81). -/
def raisedMark (r : InterfaceRecord) (m : Mark) : Mark :=
  let m1 := match r.headCut with
    | some h => raiseTo h m
    | none => m
  match r.tailCut with
  | some t => raiseTo t m1
  | none => m1

/-- The move's reason (R80). -/
def cutReason (z : ZoneRule) (p : Place) : Reason :=
  match z, p with
  | .transmix, .headCut => .head
  | .intoArriving, .headCut => .single
  | .midpoint, _ => .single
  | _, _ => .tail

/-- The move's from and to outlets: R to T, T to A or R to A (R80). -/
def cutMove (z : ZoneRule) (p : Place) (r a : Outlet) : Outlet × Outlet :=
  match z, p with
  | .transmix, .headCut => (r, outletT)
  | .transmix, .tailCut => (outletT, a)
  | _, _ => (r, a)

/-- R80: every decision but the TRANSMIX head cut routes the flow to the arriving batch's outlet. -/
def routesArriving (z : ZoneRule) (p : Place) : Bool := !(z == .transmix && p == .headCut)

/-- The families of two batches' products differ (R98). -/
def familiesDiffer (s : State) (b0 b1 : BatchRecord) : Bool :=
  (s.product b0.product).family != (s.product b1.product).family

/-- The offer of a decision between batches `b0` and `b1`, with its VOLUME action (R80, R90). -/
def cutOffer (s : State) (z : ZoneRule) (p : Place) (b0 b1 : BatchRecord) (m : Mark) : Offer :=
  let move := cutMove z p (s.firstOutlet b0) (s.firstOutlet b1)
  { reason := cutReason z p
    batch := if cutReason z p = .head then b0.batchId else b1.batchId
    source := some move.1, target := move.2, fire := .fromDecision m
    familyChange := familiesDiffer s b0 b1
    volume := if routesArriving z p then s.deliveryOf b1 else none }

/-- What a decision offers (R82, R90): nothing in MANUAL; the VOLUME action alone, when its moment comes, where R
equals A; otherwise the action, as a pair with the VOLUME action where there is one. -/
def offerDecision (z : ZoneRule) (p : Place) (b0 b1 : BatchRecord) (m : Mark) (s : State) : State :=
  if s.manualForTracker then s
  else if s.firstOutlet b0 = s.firstOutlet b1 then
    if routesArriving z p && (s.deliveryOf b1).isSome then
      offerVolumeAlone (s.setIt { s.it with volumeDue := true })
    else s
  else offerOrHold (cutOffer s z p b0 b1 m) s

/-- A decision made at `mark`: raised, recorded, its run no longer counted, and offered (R81, R82, R93). -/
def decideAt (p : Place) (mark : Mark) (s : State) : State :=
  match s.it.record, s.bq with
  | some r, b0 :: b1 :: _ =>
    let m := raisedMark r mark
    let r' := { r.setCut p m with manual := r.manual || s.manualForTracker }
    let it := { s.it with
      record := some r'
      headRun := if p = .headCut then zeroRun else s.it.headRun
      tailRun := if p = .tailCut then zeroRun else s.it.tailRun }
    offerDecision r.disposition p b0 b1 m (s.setIt it)
  | _, _ => s

/-- A decision made at `mark` when it is outstanding. -/
def decideIfOutstanding (p : Place) (mark : Mark) (s : State) : State :=
  if s.it.record.any (outstanding · p) then decideAt p mark s else s

/-! ## Interface end (R89) -/

/-- The flags of INTERFACE_END (R94). -/
def endFlags (r : InterfaceRecord) : Nat :=
  (match r.cutMode with
    | .density => 0
    | .lowContrast => 1
    | .densityLost => 2) + flag r.forcedEnd 4

/-- Steps 1 to 6 of R89 in the IT: the record in the history and the tracker QUIET. -/
def closeRecord (r : InterfaceRecord) (it : Tracker) : Tracker :=
  { it with
    state := .quiet, excursion := false, excRun := zeroRun, record := none, headRun := zeroRun, tailRun := zeroRun
    endRun := 0, held := [], history := (r :: it.history).take 4, endDue := none, volumeDue := false }

/-- R89: the end taken with end mark `m`. The reports of step 7 are followed by the marks of the new state, which the
caller tests. -/
def endInterface (m : Mark) (s : State) : State :=
  match s.it.record with
  | none => s
  | some r0 =>
    let r := { r0 with endMark := some m }
    let s1 := s.setDe { s.de with pair := none, settleOrigin := some m }
    let s2 := reportInterface r m s1
    let s3 := raise .interfaceEnd
      { batch := r.arrivingId, count := m, outlet := none, flags := endFlags r, value := stated32 (r.drift.getD 0) }
      (s2.setIt (closeRecord r s2.it))
    removeRunning (applyIfDue false s3)

/-- An end reached: taken at once, or postponed while an action is held (R85, R88; log 22). -/
def reachEnd (m : Mark) (s : State) : State :=
  if s.it.held.isEmpty then endInterface m s else s.setIt { s.it with endDue := some m }

/-! ## Window opening (R74) -/

/-- OFF_SPEC (R94). -/
def raiseOffSpec (mark : Mark) (o : Outlet) (flags : Nat) (deviation : Int) (s : State) : State :=
  raise .offSpec { batch := s.entry0Id, count := mark, outlet := some o, flags := flags, value := deviation } s

/-- The mark and deviation of the last evaluation, which OFF_SPEC names when a window ends an excursion (log 15). -/
def lastDeviation (s : State) : Mark × Int :=
  match s.de.last with
  | some ⟨m, _, _, .deviation x⟩ => (m, x)
  | some l => (l.mark, 0)
  | none => (0, 0)

/-- Step 1 of R74: an excursion ends without a return action, and the excursion run is cleared; the entry run of a tracker
that is not in EXCURSION is cleared as well (log 43). -/
def endExcursionAtWindow (b0 : BatchRecord) (s : State) : State :=
  let s1 := s.setIt { s.it with excursion := false, excRun := zeroRun }
  if s.it.excursion then
    raiseOffSpec (lastDeviation s).1 (s.firstOutlet b0) 3 (lastDeviation s).2 s1
  else s1

/-- The interface record of steps 4 and 5 of R74. -/
def newRecord (s : State) (b0 b1 : BatchRecord) : InterfaceRecord :=
  let e := ruleAtFamilies s.active (s.product b0.product).family (s.product b1.product).family
  { runningId := b0.batchId, arrivingId := b1.batchId, disposition := zoneOfByte e.disposition
    expectedWidth := e.expectedWidth, predicted := b1.predicted, openMark := s.openMarkOf b1
    closeMark := headMark b1 + s.segment.lateMargin.setWidth 48, extensions := 0, standExt := 0
    cutMode := if (pairOf s b0 b1).lowContrast then .lowContrast else .density
    startMark := none, headCut := none, midpoint := none, tailCut := none, endMark := none, drift := none
    lastFraction := 0, blindCount := 0, widest := false, overdue := false, forcedEnd := false, manual := false }

/-- Steps 3 to 6 of R74. -/
def openRecord (b0 b1 : BatchRecord) (s : State) : State :=
  let p := pairOf s b0 b1
  let s1 := s.setDe { s.de with pair := some p }
  s1.setIt { s.it with
    state := if p.lowContrast then .fallback else .watch
    record := some (newRecord s b0 b1), headRun := zeroRun, tailRun := zeroRun, endRun := 0, held := []
    endDue := none, volumeDue := false }

/-- R74 but for its last step: the marks of the new state are tested by the caller. -/
def openWindow (b0 b1 : BatchRecord) (s : State) : State :=
  openRecord b0 b1 (applyIfDue true (endExcursionAtWindow b0 s))

/-! ## The marks of each state (R71) -/

/-- R76: the close mark acted on, for record `r`. -/
def closeMarkReached (r : InterfaceRecord) (s : State) : State :=
  let missed := fun (final used : Nat) (s : State) => raise .windowMissed
    { batch := r.arrivingId, count := s.vc.lineCount, outlet := none, flags := final, value := used } s
  if r.extensions < s.segment.maxExtensions.toNat then
    missed 0 (r.extensions + 1) (s.mapRecord (fun r => { r with
      closeMark := r.closeMark + s.segment.extensionVolume.setWidth 48, extensions := r.extensions + 1 }))
  else
    missed 1 r.extensions ((s.mapRecord (fun r => { r with overdue := true })).setTracker .overdue)

/-- The wide mark (R84) and the forced-end mark (R85). -/
def wideMark (s : State) (start : Mark) : Mark := start + s.segment.maxMixingVolume.setWidth 48
def forcedMark (s : State) (start : Mark) : Mark := start + s.segment.maxMixingVolume.setWidth 48 * 2

/-- The midpoint set when it is absent (R84, R88). -/
def setMidpointIfAbsent (m : Mark) (s : State) : State :=
  if s.it.record.any (fun r => r.midpoint.isNone) then setMidpoint m s else s

/-- R84: the wide mark `m` acted on, for record `r`. -/
def wideReached (r : InterfaceRecord) (m : Mark) (s : State) : State :=
  let s1 := raise .interfaceWide
    { batch := r.arrivingId, count := m, outlet := none, flags := 0, value := r.lastFraction }
    (s.mapRecord (fun r => { r with widest := true }))
  let s2 := decideIfOutstanding .tailCut m (decideIfOutstanding .headCut m (setMidpointIfAbsent m s1))
  s2.setIt { s2.it with headRun := zeroRun, tailRun := zeroRun }

/-- R85: the forced-end mark `m` acted on. -/
def forcedReached (m : Mark) (s : State) : State :=
  reachEnd m (s.mapRecord (fun r => { r with forcedEnd := true }))

/-- R87: P, half of W and the guard as distances. -/
def fallbackCentre (r : InterfaceRecord) : Mark := r.midpoint.getD r.predicted
def fallbackHalf (r : InterfaceRecord) : Mark := litres ((r.expectedWidth.toNat + r.standExt) / 2)
def State.fallbackGuard (s : State) : Mark := s.segment.fallbackGuard.setWidth 48

/-- R87: the fallback end mark. -/
def fallbackEnd (s : State) (r : InterfaceRecord) : Mark := fallbackCentre r + fallbackHalf r + s.fallbackGuard

/-- R87: the fallback mark of a decision. -/
def fallbackMark (s : State) (r : InterfaceRecord) (p : Place) : Mark :=
  match r.disposition, p with
  | .midpoint, _ => fallbackCentre r
  | _, .headCut => fallbackCentre r - fallbackHalf r - s.fallbackGuard
  | _, .tailCut => fallbackEnd s r

/-- The fallback mark of an outstanding decision is reached. -/
def fallbackDue (s : State) (r : InterfaceRecord) (p : Place) : Bool :=
  outstanding r p && reached s.vc.lineCount (fallbackMark s r p)

/-- R88: the fallback end mark acted on: a midpoint still absent is set to P, then the end is taken or postponed. -/
def fallbackEndReached (r : InterfaceRecord) (s : State) : State :=
  reachEnd (fallbackEnd s r) (setMidpointIfAbsent (fallbackCentre r) s)

/-- A postponed end whose held actions are gone (R85, R88; log 22). -/
def postponedEnd (s : State) : Option Mark := if s.it.held.isEmpty then s.it.endDue else none

/-- One mark of the tracker's present state acted on, or none when none is reached (R71). -/
def markStep (s : State) : Option State :=
  let c := s.vc.lineCount
  match s.it.state, s.it.record with
  | .quiet, _ =>
    match s.bq with
    | b0 :: b1 :: _ => if reached c (s.openMarkOf b1) then some (openWindow b0 b1 s) else none
    | _ => none
  | .watch, some r => if reached c r.closeMark then some (closeMarkReached r s) else none
  | .mixing, some r =>
    match r.startMark with
    | none => none
    | some start =>
      if !r.widest && reached c (wideMark s start) then some (wideReached r (wideMark s start) s)
      else
        match postponedEnd s with
        | some m => some (endInterface m s)
        | none =>
          if !r.forcedEnd && reached c (forcedMark s start) then some (forcedReached (forcedMark s start) s) else none
  | .fallback, some r =>
    if fallbackDue s r .headCut then some (decideAt .headCut (fallbackMark s r .headCut) s)
    else if fallbackDue s r .tailCut then some (decideAt .tailCut (fallbackMark s r .tailCut) s)
    else
      match postponedEnd s with
      | some m => some (endInterface m s)
      | none =>
        if s.it.endDue.isNone && reached c (fallbackEnd s r) then some (fallbackEndReached r s) else none
  | _, _ => none

/-- Marks acted on one after another, at most `n`. -/
def markLoop : Nat → State → State
  | 0, s => s
  | n + 1, s =>
    match markStep s with
    | none => s
    | some s' => markLoop n s'

/-- R71: every reached mark of the tracker's state, and of the states that follow from it, acted on. Each window needs
at most 12 marks, and every window but the last removes a batch (log 29). -/
def testMarks (s : State) : State := markLoop (12 * (s.bq.length + 1)) s

/-- R41: the tracker told of a change at position 1 or of entry 1's head mark. -/
def reportChange (s : State) : State := if s.it.state = .quiet then testMarks s else s

/-! ## Evaluations in a window (R78 to R86) -/

/-- R86: density lost at `mark`; the fallback marks are then tested at once. -/
def loseDensity (r : InterfaceRecord) (mark : Mark) (s : State) : State :=
  let s1 := s.setIt { s.it with
    state := .fallback, record := s.it.record.map (fun r => { r with cutMode := .densityLost })
    headRun := zeroRun, tailRun := zeroRun, endRun := 0 }
  testMarks (raise .densityLost
    { batch := r.arrivingId, count := mark, outlet := none, flags := 0, value := r.blindCount } s1)

/-- Step 2 of R78, and R86: a blind evaluation in a density-mode state. -/
def blindEvaluation (mark : Mark) (s : State) : State :=
  let s1 := s.mapRecord (fun r => { r with blindCount := r.blindCount + 1 })
  match s1.it.record with
  | some r => if s1.segment.blindLimit.toNat ≤ r.blindCount then loseDensity r mark s1 else s1
  | none => s1

/-- The condition of a decision at fraction `f` (R80), the gate of the TRANSMIX tail cut left out. -/
def cutCondition (s : State) (r : InterfaceRecord) (b0 b1 : BatchRecord) (p : Place) (f : Int) : Bool :=
  match r.disposition, p with
  | .midpoint, _ => decide (500 ≤ f)
  | _, .headCut => decide ((s.product b0.product).tolerance.toNat < f)
  | _, .tailCut => decide (1000 - (s.product b1.product).tolerance.toNat ≤ f)

/-- The gate of the TRANSMIX tail cut: the head cut decided or its condition holding (R80, R81). -/
def tailGate (r : InterfaceRecord) (headHolds : Bool) : Bool :=
  r.disposition != .transmix || r.headCut.isSome || headHolds

/-- A decision made when its run has reached K (R81). -/
def confirmRun (p : Place) (run : Run) (s : State) : State :=
  if s.confirmations ≤ run.count then decideAt p run.first s else s

/-- R81: the head-cut run at an evaluation. -/
def advanceHead (mark : Mark) (holds : Bool) (s : State) : State :=
  if s.it.record.any (outstanding · .headCut) then
    let run := s.it.headRun.next holds mark
    confirmRun .headCut run (s.setIt { s.it with headRun := run })
  else s

/-- R81: the tail-cut run at an evaluation. -/
def advanceTail (mark : Mark) (holds : Bool) (s : State) : State :=
  if s.it.record.any (outstanding · .tailCut) then
    let run := s.it.tailRun.next holds mark
    confirmRun .tailCut run (s.setIt { s.it with tailRun := run })
  else s

/-- The decision runs at an evaluation in MIXING, the head cut before the tail cut (R81). -/
def advanceDecisions (mark : Mark) (f : Int) (s : State) : State :=
  match s.it.record, s.bq with
  | some r, b0 :: b1 :: _ =>
    let headHolds := cutCondition s r b0 b1 .headCut f
    let s1 := advanceHead mark headHolds s
    match s1.it.record with
    | some r1 => advanceTail mark (cutCondition s r b0 b1 .tailCut f && tailGate r1 headHolds) s1
    | none => s1
  | _, _ => s

/-- R83: the end run at fraction `f`. -/
def nextEndRun (s : State) (f : Int) : Nat :=
  if 1000 - (s.segment.endThreshold.toNat : Int) ≤ f then min 8 (s.it.endRun + 1) else 0

/-- R83: the end run and the end. A postponed end keeps its own end mark, and the end run confirms none (R85;
log 22). -/
def advanceEnd (mark : Mark) (f : Int) (s : State) : State :=
  let s1 := s.setIt { s.it with endRun := nextEndRun s f }
  if s1.confirmations ≤ s1.it.endRun ∧ s1.it.record.any allDecided ∧ s1.it.held = [] ∧ s1.it.endDue = none then
    testMarks (endInterface mark s1)
  else s1

/-- Step 5 of R78: an evaluation in MIXING. -/
def mixingEvaluation (mark : Mark) (f : Int) (s : State) : State :=
  let s1 := if 500 ≤ f then setMidpointIfAbsent mark s else s
  advanceEnd mark f (advanceDecisions mark f s1)

/-- Step 4 of R78: a start detected. -/
def detectStart (r : InterfaceRecord) (mark : Mark) (f : Int) (s : State) : State :=
  raise .interfaceStart { batch := r.arrivingId, count := mark, outlet := none, flags := 0, value := f }
    ((s.mapRecord (fun r => { r with startMark := some mark })).setTracker .mixing)

/-- Steps 3 to 5 of R78: a non-blind evaluation in a density-mode state. -/
def densityEvaluation (mark : Mark) (f : Int) (s : State) : State :=
  let s1 := s.mapRecord (fun r => { r with blindCount := 0, lastFraction := f })
  match s1.it.record with
  | none => s1
  | some r =>
    if s1.it.state = .mixing then mixingEvaluation mark f s1
    else if (s1.segment.startThreshold.toNat : Int) ≤ f then mixingEvaluation mark f (detectStart r mark f s1)
    else s1

/-! ## Excursions (R91, R92) -/

/-- A FORCED action of an excursion offered: not in MANUAL, and against a held one, which is discarded (R82, R93). -/
def offerForced (batch : BatchId) (source target : Outlet) (decision : Mark) (s : State) : State :=
  if s.manualForTracker then s
  else if s.it.held.isEmpty then
    offerOrHold ⟨.forced, batch, some source, target, .fromDecision decision, false, none⟩ s
  else s.setIt { s.it with held := [] }

/-- R91: the excursion confirmed at `mark`. -/
def enterExcursion (b0 : BatchRecord) (first mark : Mark) (deviation : Int) (s : State) : State :=
  let s1 := s.setIt { s.it with excursion := true, excRun := zeroRun }
  let s2 := offerForced b0.batchId (s.firstOutlet b0) outletT first s1
  reportExcursion b0.batchId (raiseOffSpec mark outletT 0 deviation s2)

/-- R92: the return confirmed at `mark`; an apply that it makes due follows (R28; log 17). -/
def leaveExcursion (b0 : BatchRecord) (first mark : Mark) (deviation : Int) (s : State) : State :=
  let s1 := s.setIt { s.it with excRun := zeroRun }
  let s2 := offerForced b0.batchId outletT (s.firstOutlet b0) first s1
  let s3 := raiseOffSpec mark (s.firstOutlet b0) 1 deviation s2
  applyIfDue false (s3.setIt { s3.it with excursion := false })

/-- R91 and R92: a deviation tested in QUIET. -/
def quietEvaluation (mark : Mark) (deviation : Int) (s : State) : State :=
  match s.bq.head? with
  | none => s
  | some b0 =>
    let beyond := decide (excursionLimit s < deviation.natAbs)
    let run := s.it.excRun.next (beyond != s.it.excursion) mark
    if s.confirmations ≤ run.count then
      if s.it.excursion then leaveExcursion b0 run.first mark deviation s
      else enterExcursion b0 run.first mark deviation s
    else s.setIt { s.it with excRun := run }

/-! ## The evaluation event (R58, R71, R78) -/

/-- What the result brings about after the held actions were offered. A blind one ends before the test of the end, also
where the last held action has just found its place (R78, R83; log 38). -/
def takeResult (res : EvalResult) (s : State) : State :=
  match s.it.state with
  | .quiet =>
    match res.blind, res.figure with
    | false, .deviation x => quietEvaluation res.mark x s
    | _, _ => s
  | .fallback => s.mapRecord (fun r => { r with blindCount := if res.blind then r.blindCount + 1 else 0 })
  | _ =>
    match res.blind, res.figure with
    | true, _ => blindEvaluation res.mark s
    | false, .fraction f => densityEvaluation res.mark f s
    | _, _ => s

/-- An end that waited for the held actions, which have found their places, is taken (R85, R88). -/
def takePostponed (s : State) : State := if (postponedEnd s).isSome then testMarks s else s

/-- The tracker takes an evaluation result: held actions are offered first, then the result is taken (R78, R82), and a
postponed end comes last, so that the evaluation is counted in the window it was taken in (R72, R86; log 22). -/
def trackerEvaluate (res : EvalResult) (s : State) : State := takePostponed (takeResult res (offerHeld s.it.held s))

/-- R58: one evaluation at the line count. -/
def evaluate (s : State) : State :=
  let res := evalResult s s.vc.lineCount
  trackerEvaluate res (noteEvaluation s res)

/-! ## Still durations (R77) -/

/-- R77: the stand extension after a still duration. -/
def grownExtension (s : State) (r : InterfaceRecord) (seconds : Nat) : Nat :=
  min (r.standExt + s.segment.standGrowthRate.toNat * seconds / 3600) s.segment.standGrowthCap.toNat

/-- R77: a still duration reported to the tracker. -/
def standStill (seconds : Nat) (s : State) : State :=
  s.mapRecord (fun r => { r with
    standExt := grownExtension s r seconds
    closeMark := r.closeMark + litres (grownExtension s r seconds - r.standExt) })

end Sys2Proof.Machine
end

