-- ==== Sys2Proof/Machine/Volume.lean ====
section
/-! DEFINITION. The Volume Counter (Chapter 1): the classes of meter frames, the increment, the line state, and the
delivery of an advance to the four blocks that act on it (R6). -/

namespace Sys2Proof.Machine

/-! ## The four receivers of an advance -/

/-- The CS at an advance: the start test (R103). -/
def sequencerAdvance (s : State) : State := engineRun s

/-- The IT at an advance: the marks of its state (R71). -/
def trackerAdvance (s : State) : State := testMarks s

/-- The next evaluation mark is reached (R11). -/
def evaluationDue (s : State) : Bool := reached s.vc.lineCount s.vc.nextEval

/-- The DE at an advance: one evaluation when its mark is reached; the next mark lies one evaluation step on (R11).
The step is that of the tables active after the evaluation, also where its own result brought about an apply (log 35). -/
def evaluatorAdvance (s : State) : State :=
  if evaluationDue s then
    let s1 := evaluate s
    s1.setVc { s1.vc with nextEval := s1.vc.lineCount + s1.segment.evaluationStep.setWidth 48 }
  else s

/-- CS, IT and DE in the six orders in which they may take an advance (R30, R72, R103). -/
def receivers : Nat → List (State → State)
  | 0 => [sequencerAdvance, trackerAdvance, evaluatorAdvance]
  | 1 => [sequencerAdvance, evaluatorAdvance, trackerAdvance]
  | 2 => [trackerAdvance, sequencerAdvance, evaluatorAdvance]
  | 3 => [trackerAdvance, evaluatorAdvance, sequencerAdvance]
  | 4 => [evaluatorAdvance, sequencerAdvance, trackerAdvance]
  | _ => [evaluatorAdvance, trackerAdvance, sequencerAdvance]

/-- Blocks that act one after another. -/
def runAll (blocks : List (State → State)) (s : State) : State := blocks.foldl (fun t f => f t) s

/-- An advance from `before` taken by the three in order `order`, the TU booking it after `place` of them, by the
routed outlet as it was when the advance was taken (R140, R151). -/
def deliverTurns (before : Mark) (order place : Nat) (s : State) : State :=
  runAll ((receivers order).drop place)
    (bookAdvance s.routed before s.vc.lineCount (runAll ((receivers order).take place) s))

/-- The order numbered `k`, from 0 to 23. One in which a ticket would not keep the sum of R142 is none that R151
allows, and the TU then books first (log 6). -/
def deliverInOrder (before : Mark) (k : Nat) (s : State) : State :=
  let t := deliverTurns before (k % 6) (k / 6) s
  if k < 6 || accountsInOrder s.vc.lineCount t.tu then t else deliverTurns before (k % 6) 0 s

/-- How many of the three have anything to do. -/
def advanceWork (s : State) : Nat :=
  flag (engineStep s).isSome 1 + flag (markStep s).isSome 1 + flag (evaluationDue s) 1

/-- How many orders are open: where no boundary is crossed the TU's place makes no difference (R151; log 6). -/
def openOrders (before : Mark) (s : State) : Nat :=
  if s.tu.boundaries.any (fun b => crossed before s.vc.lineCount b.mark) then 24 else 6

/-- The order makes no difference: none of the three has anything to do, or all open orders come to the same. -/
def orderIrrelevant (before : Mark) (s : State) : Bool :=
  decide (advanceWork s = 0)
    || (List.range (openOrders before s)).all
        (fun k => decide (deliverInOrder before k s = deliverInOrder before 0 s))

/-- TU, CS, IT and DE take the advance from `before`; where the order matters it is a free value (log 6). -/
def deliverAdvance (before : Mark) (s : State) : State :=
  if orderIrrelevant before s then deliverInOrder before 0 s
  else deliverInOrder before ((Config.freeOrder s.races).val % openOrders before s) (s.setRaces (s.races + 1))

/-! ## Increments -/

/-- METER with cause JUMP (R7, R13), with the line count after the increment; its batch id by log 34. -/
def raiseJump (increment : Nat) (s : State) : State :=
  raise .meter
    { batch := s.entry0Id, count := s.vc.lineCount, outlet := none, flags := 0, value := stated31 increment } s

/-- The still duration in whole seconds (step 1 of R10). -/
def stillDuration (s : State) : Nat := min ((s.now - s.vc.origin) / 1000) 4294967295

/-- R9: a non-zero increment restarts the still timer and moves the movement origin. -/
def restartMovement (s : State) : State :=
  s.setVc { s.vc with lineState := .moving, stillTimer := some s.now, origin := s.now }

/-- R10, steps 1 to 5: a non-zero increment on a STILL line, before it is counted (R13; the batch id by log 34). -/
def startMoving (s : State) : State :=
  let seconds := stillDuration s
  let s1 := raise .lineState
    { batch := s.entry0Id, count := s.vc.lineCount, outlet := none, flags := 1, value := stated31 seconds }
    (restartMovement s)
  guard true (standStill seconds s1)

/-- The line state settled by a non-zero increment (R6, R9, R10). -/
def settleLine (s : State) : State := if s.moving then restartMovement s else startMoving s

/-- R4 to R7: a non-zero increment. -/
def advance (increment : BitVec 32) (s : State) : State :=
  let s1 := settleLine s
  let before := s1.vc.lineCount
  let s2 := s1.setVc { s1.vc with lineCount := before + increment.setWidth 48 }
  let s3 := if s2.segment.maxMeterStep.toNat < increment.toNat then raiseJump increment.toNat s2 else s2
  deliverAdvance before s3

/-- R2 and R3: a good total taken. -/
def takeTotal (total : BitVec 32) (s : State) : State :=
  let s1 := s.setVc { s.vc with lastTotal := some total, silenceTimer := some s.now }
  match s.vc.lastTotal with
  | none => s1
  | some last => if total = last then s1 else advance (total - last) s1

/-- The classes of a METER TOTAL frame (R1). -/
inductive MeterClass where
  | foreign
  | fault
  | good
deriving DecidableEq, Repr

/-- R1: the class of a METER TOTAL frame. -/
def meterClass (s : State) (src : Byte) (payload : List Byte) : MeterClass :=
  if src ≠ s.segment.meterAddress ∨ payload.length ≠ 5 then .foreign
  else if payload[4]? = some 0 then .good else .fault

/-- R1: the VC observes a METER TOTAL frame. -/
def observeMeter (src : Byte) (payload : List Byte) (s : State) : State :=
  match meterClass s src payload with
  | .good => takeTotal (paramAt payload 0 4) s
  | _ => s

/-- The classes of a DENSITY SAMPLE frame (R53). -/
inductive SampleClass where
  | foreign
  | rejected
  | accepted
deriving DecidableEq, Repr

/-- The density of a sample payload (section 4.1). -/
def sampleDensity (payload : List Byte) : Nat := beNat (payload.take 4)

/-- R53: the class of a DENSITY SAMPLE frame. -/
def sampleClass (s : State) (src : Byte) (payload : List Byte) : SampleClass :=
  if src ≠ s.segment.densityAddress ∨ payload.length ≠ 7 then .foreign
  else if payload[6]? = some 0 ∧ within 50000 110000 (sampleDensity payload) then .accepted
  else .rejected

/-- R53: the DE observes a DENSITY SAMPLE frame. -/
def observeSample (src : Byte) (payload : List Byte) (s : State) : State :=
  match sampleClass s src payload with
  | .accepted => takeSample (sampleDensity payload) (paramAt (w := 16) payload 4 2).toInt s
  | _ => s

/-- R122: the outlet and position a VALVE STATUS frame reports. -/
def reportOf (s : State) (src : Byte) (payload : List Byte) : Option (Outlet × Report) :=
  match outletAtAddress s.active src, payload with
  | some o, [b] => (reportOfByte b).map (fun r => (o, r))
  | _, _ => none

/-- R123 to R125: a report taken; the engine's handling comes first and the guard's after it. -/
def valveReport (o : Outlet) (r : Report) (s : State) : State :=
  let was := s.mg.valves[o].confirmed
  let s1 := takeReport o r s
  let s2 := engineReport o was (r == .fault) s1
  if !s.mg.openOrder.isEmpty && s1.mg.openOrder.isEmpty then guard false s2 else s2

/-- R122: the MG observes a VALVE STATUS frame. -/
def observeValve (src : Byte) (payload : List Byte) (s : State) : State :=
  match reportOf s src payload with
  | some p => valveReport p.1 p.2 s
  | none => s

end Sys2Proof.Machine
end

