-- ==== Sys2Proof/Machine/Requests.lean ====
section
/-! DEFINITION. What each management request does in the block that owns it, with its answer: the tables (Chapter 2),
the batch queue (Chapter 3), the interface records, the manifold (Chapter 7), the tickets, the status and the notices
(Chapter 10). -/

namespace Sys2Proof.Machine

/-! ## Answers (R166) -/

/-- The detail of a refusal. -/
inductive Detail where
  | range
  | state
  | full
  | notFound
  | duplicate
  | pendingLocked
  | conflict
deriving DecidableEq, Repr

/-- The code of a detail (R166). -/
def detailByte : Detail → Byte
  | .range => 1
  | .state => 2
  | .full => 3
  | .notFound => 4
  | .duplicate => 5
  | .pendingLocked => 6
  | .conflict => 7

/-- An answer: status, detail and data (R166). -/
inductive Answer where
  | done (data : List Byte)
  | refused (detail : Detail) (data : List Byte)
  | unknown
  | busy
deriving DecidableEq, Repr

/-- The payload of a response, with the echoed request kind (R166). -/
def answerPayload (kind : Byte) : Answer → List Byte
  | .done data => [0, kind, 0] ++ data
  | .refused detail data => [1, kind, detailByte detail] ++ data
  | .unknown => [2, kind, 0]
  | .busy => [3, kind, 0]

/-- What a request comes to: the state after it and its answer. -/
abbrev Outcome := State × Answer

/-- A refusal leaves the state as it was. -/
def refuse (detail : Detail) (data : List Byte) (s : State) : Outcome := (s, .refused detail data)

/-- A number as one data byte. -/
def oneByte (n : Nat) : List Byte := [BitVec.ofNat 8 n]

/-! ## PING, IDENT, READ STATUS, SET NOTICES -/

/-- R171: PING. -/
def performPing (params : List Byte) (s : State) : Outcome :=
  if params.length ≤ 197 then (s, .done params) else (s, .unknown)

/-- R171: IDENT. -/
def performIdent (s : State) : Outcome :=
  (s, .done (fieldBytes 2 Config.vendorCode ++ fieldBytes 2 Config.partCode ++ [Config.revision, s.liu.address]))

/-- R172: an outlet's byte in READ STATUS. -/
def outletStatus (s : State) (o : Outlet) : Byte :=
  BitVec.ofNat 8 (positionCode s.mg.valves[o].confirmed + flag (!s.mg.valves[o].available) 16)

/-- The pending events as three bytes (R172). -/
def pendingBytes (s : State) : List Byte := beBytes 3 (pendingEvents s.nu)

/-- R172: the 29 data bytes of READ STATUS. -/
def statusData (s : State) : List Byte :=
  [modeByte s.mg.mode, trackerByte s.it.state s.it.excursion, engineByte s.cs.engine, outletByte s.routed]
    ++ fieldBytes 6 s.vc.lineCount ++ [boolByte s.moving]
    ++ fieldBytes 2 (BitVec.ofInt 16 s.de.offset) ++ oneByte s.bq.length ++ [boolByte s.ts.armed]
    ++ allOutlets.map (outletStatus s) ++ pendingBytes s ++ [boolByte s.nu.master]

/-- R172: READ STATUS. -/
def performReadStatus (s : State) : Outcome := (s, .done (statusData s))

/-- R177: the enables of events 4 to 17 in a request; those of events 1 to 3 are disregarded. -/
def keptEnables (e : BitVec 24) : BitVec 24 := e &&& 0x01FFF8#24

/-- R177: SET NOTICES from source address `src`. -/
def performSetNotices (src master : Byte) (enables : BitVec 24) (s : State) : Outcome :=
  if 1 < master.toNat then refuse .range [0] s
  else if 2 ^ 17 ≤ enables.toNat then refuse .range [1] s
  else
    let s1 := s.setNu { s.nu with master := master == 1, enables := keptEnables enables, address := src, testDue := true }
    (s1, .done (pendingBytes s1))

/-! ## Tables -/

/-- R21: the lock and range tests of a PUT, its own further test, and its effect on the pending copy. -/
def performPut (ranges : List (Nat × Bool)) (duplicate : Bool) (f : Tables → Tables) (s : State) : Outcome :=
  if s.ts.armed then refuse .pendingLocked [] s
  else
    match firstBad ranges with
    | some off => refuse .range (oneByte off) s
    | none =>
      if duplicate then refuse .duplicate [] s
      else (s.setTs { s.ts with pending := f s.ts.pending }, .done [])

/-- R22: another non-empty pending entry holds the code. -/
def productDuplicate (t : Tables) (index : Byte) (code : Byte) : Bool :=
  code != 0 && (List.range 16).any (fun i => i != index.toNat && (t.products[i]?).any (fun p => p.code == code))

/-- A pending product entry replaced; code 0 empties it (R22). -/
def setProduct (index : Byte) (e : ProductEntry) (t : Tables) : Tables :=
  { t with products := t.products.setIfInBounds index.toNat (if e.code = 0 then emptyProduct else e) }

/-- R22: PUT PRODUCT. -/
def performPutProduct (index : Byte) (e : ProductEntry) (s : State) : Outcome :=
  performPut (productRanges index e) (productDuplicate s.ts.pending index e.code) (setProduct index e) s

/-- R23: PUT OUTLET. -/
def performPutOutlet (index : Byte) (e : OutletEntry) (s : State) : Outcome :=
  performPut (outletRanges index e) false (fun t => { t with outlets := t.outlets.setIfInBounds index.toNat e }) s

/-- R23: PUT RULE. -/
def performPutRule (running arriving : Byte) (e : RuleEntry) (s : State) : Outcome :=
  performPut (ruleRanges running arriving e) false
    (fun t => { t with rules := t.rules.setIfInBounds (running.toNat * 8 + arriving.toNat) e }) s

/-- R23: PUT SEGMENT. -/
def performPutSegment (r : SegmentRecord) (s : State) : Outcome :=
  performPut (segmentRanges r) false (fun t => { t with segment := r }) s

/-- R24 and R25: COMMIT. -/
def performCommit (s : State) : Outcome :=
  if s.ts.armed then (s, .done [2])
  else
    match commitConflict s with
    | some c => refuse .conflict [BitVec.ofNat 8 c.test, BitVec.ofNat 8 c.index] s
    | none =>
      let s1 := s.setTs { s.ts with armed := true }
      (applyIfDue false s1, .done [boolByte (applyDue s1)])

/-- R27: WITHDRAW. -/
def performWithdraw (s : State) : Outcome :=
  (s.setTs { s.ts with armed := false }, .done [boolByte s.ts.armed])

/-- R33: the tables as the bytes that SUM TABLES sums. -/
def tablesBytes (t : Tables) : List Byte :=
  t.products.toList.flatMap productBytes ++ t.outlets.toList.flatMap outletBytes
    ++ t.rules.toList.flatMap ruleBytes ++ segmentBytes t.segment

/-- R32 and R33: the data of the SUM TABLES response for a computation. -/
def sumData (s : State) (j : SumJob) : List Byte :=
  boolByte j.selectsActive :: fieldBytes 2 (crc16 (tablesBytes (if j.selectsActive then s.ts.active else s.ts.pending)))

/-! ## The batch queue -/

/-- A delivery volume or certified density of 0 is absent (R39). -/
def givenOf (x : BitVec 32) : Option (BitVec 32) := if x = 0 then none else some x

/-- A batch record from the fields of a request (R39, R44). -/
def recordOf (f : BatchFields) (predicted : Mark) (actual : Option Mark) : BatchRecord :=
  ⟨f.batchId, f.product, f.nominal, dispositionOfByte f.disposition, givenOf f.delivery, givenOf f.certified,
    predicted, actual⟩

/-- The position of a batch in the queue. -/
def positionOf (s : State) (batchId : BatchId) : Option Nat := s.bq.findIdx? (fun b => b.batchId == batchId)

/-- A position and a mark as seven data bytes (R39, R44). -/
def positionData (k : Nat) (m : Mark) : List Byte := oneByte k ++ fieldBytes 6 m

/-- R39: the answer to ADD BATCH: position and predicted head mark as they stand after the tracker's effects. -/
def addedData (s : State) (batchId : BatchId) : List Byte :=
  match positionOf s batchId with
  | some k => positionData k ((s.bq[k]?).map (·.predicted) |>.getD 0)
  | none => positionData 0 0

/-- R40: the scheduling of a batch into an empty queue. -/
def scheduleBatch (f : BatchFields) (s : State) : State :=
  let b := recordOf f s.vc.lineCount none
  let s1 := scheduleTicket b (s.setBq [b])
  s1.setDe { s1.de with settleOrigin := some (s1.de.settleOrigin.getD s1.vc.lineCount) }

/-- R39: a batch appended behind the last one; in a queue of one it is the new arriving batch (R41). -/
def appendBatch (f : BatchFields) (last : BatchRecord) (s : State) : State :=
  let s1 := s.setBq (s.bq ++ [recordOf f (nextPredicted last) none])
  if s.bq.length = 1 then reportChange s1 else s1

/-- R39 and R40: an accepted ADD BATCH. -/
def addBatch (f : BatchFields) (s : State) : State :=
  match s.bq.getLast? with
  | none => scheduleBatch f s
  | some last => appendBatch f last s

/-- R38 to R41: ADD BATCH. -/
def performAddBatch (f : BatchFields) (s : State) : Outcome :=
  match firstBad (batchRanges f) with
  | some off => refuse .range (oneByte off) s
  | none =>
    if 32 ≤ s.bq.length then refuse .full [] s
    else
      match positionOf s f.batchId with
      | some k => refuse .duplicate (oneByte k) s
      | none =>
        if !codePresent s.ts f.product then refuse .notFound [1] s
        else
          let s1 := addBatch f s
          (s1, .done (addedData s1 f.batchId))

/-- R43: the position test of AMEND BATCH. -/
def positionTest (s : State) (k : Nat) (b : BatchRecord) (f : BatchFields) : Bool :=
  if 2 ≤ k then true
  else if s.it.state != .quiet then false
  else if k = 1 then true
  else b.product == f.product && b.disposition == dispositionOfByte f.disposition && b.delivery == givenOf f.delivery

/-- R44: an accepted AMEND BATCH of the batch `b` at position `k`. -/
def amendBatch (k : Nat) (b : BatchRecord) (f : BatchFields) (s : State) : State :=
  let bq := s.bq.set k (recordOf f b.predicted b.actual)
  if b.nominal = f.nominal then s.setBq bq
  else
    let s1 := s.setBq (relinkFrom k bq)
    if k = 0 then reportChange s1 else s1

/-- R44: the answer to AMEND BATCH from the queue as it stands after the tracker's effects; free when the batch has
left the queue within the event (log 16). -/
def answerAmend (batchId : BatchId) (s : State) : Outcome :=
  match positionOf s batchId with
  | some k => (s, .done (positionData k (((s.bq[k + 1]?).map (·.predicted)).getD 0)))
  | none => (s.setRaces (s.races + 1), .done (fieldBytes 7 (Config.freeAmendAnswer s.races)))

/-- R42 to R44: AMEND BATCH. -/
def performAmendBatch (f : BatchFields) (s : State) : Outcome :=
  match firstBad (batchRanges f) with
  | some off => refuse .range (oneByte off) s
  | none =>
    match positionOf s f.batchId with
    | none => refuse .notFound [0] s
    | some k =>
      match s.bq[k]? with
      | none => refuse .notFound [0] s
      | some b =>
        if !positionTest s k b f then refuse .state (oneByte k) s
        else if !codePresent s.ts f.product then refuse .notFound [1] s
        else answerAmend f.batchId (amendBatch k b f s)

/-- R45: the batch at position `k` dropped. -/
def dropBatch (k : Nat) (s : State) : State :=
  let s1 := s.setBq (relinkFrom (k - 1) (s.bq.eraseIdx k))
  if k = 1 then reportChange s1 else s1

/-- R45: DROP BATCH. -/
def performDropBatch (batchId : BatchId) (s : State) : Outcome :=
  if batchId = 0 then refuse .range [0] s
  else
    match positionOf s batchId with
    | none => refuse .notFound [0] s
    | some k =>
      if k = 0 then refuse .state [0] s
      else if k = 1 ∧ s.it.state ≠ .quiet then refuse .state [1] s
      else (dropBatch k s, .done (oneByte k))

/-- The second destination of a batch in READ BATCH: 9 for PASS, 0xFF for none (R36, R49). -/
def secondDestination (s : State) (b : BatchRecord) : Byte := if (s.deliveryOf b).isSome then 9 else 0xFF

/-- R49: the 33 data bytes of READ BATCH. -/
def batchData (s : State) (position : Byte) (b : BatchRecord) : List Byte :=
  oneByte s.bq.length ++ [position] ++ fieldBytes 2 b.batchId ++ [b.product] ++ fieldBytes 4 b.nominal
    ++ [dispositionByte b.disposition] ++ fieldBytes 4 (b.delivery.getD 0) ++ fieldBytes 4 (b.certified.getD 0)
    ++ fieldBytes 6 b.predicted ++ [boolByte b.actual.isSome] ++ fieldBytes 6 (b.actual.getD 0)
    ++ [outletByte (some (s.firstOutlet b)), secondDestination s b]

/-- R49: READ BATCH. -/
def performReadBatch (position : Byte) (s : State) : Outcome :=
  if 31 < position.toNat then refuse .range [0] s
  else
    match s.bq[position.toNat]? with
    | none => refuse .notFound [0] s
    | some b => (s, .done (batchData s position b))

/-! ## Interface records and tickets -/

/-- The marks present in a record (R96). -/
def marksPresent (r : InterfaceRecord) : Nat :=
  flag r.startMark.isSome 1 + flag r.headCut.isSome 2 + flag r.midpoint.isSome 4 + flag r.tailCut.isSome 8
    + flag r.endMark.isSome 16 + flag r.drift.isSome 32

/-- The flags of a record (R96). -/
def recordFlags (r : InterfaceRecord) : Nat :=
  flag r.widest 1 + flag r.overdue 2 + flag r.forcedEnd 4 + flag r.manual 8

/-- An optional mark in six bytes, 0 when absent (R96). -/
def markBytes (m : Option Mark) : List Byte := fieldBytes 6 (m.getD 0)

/-- R96: the 76 data bytes of READ INTERFACE; `state` is the code of the tracker's state, 0 for history. -/
def interfaceData (selector state : Byte) (r : InterfaceRecord) : List Byte :=
  [selector, state] ++ fieldBytes 2 r.runningId ++ fieldBytes 2 r.arrivingId ++ [zoneByte r.disposition]
    ++ fieldBytes 4 r.expectedWidth ++ fieldBytes 6 r.predicted ++ fieldBytes 6 r.openMark ++ fieldBytes 6 r.closeMark
    ++ oneByte r.extensions ++ beBytes 4 r.standExt ++ [cutModeByte r.cutMode] ++ oneByte (marksPresent r)
    ++ markBytes r.startMark ++ markBytes r.headCut ++ markBytes r.midpoint ++ markBytes r.tailCut
    ++ markBytes r.endMark ++ fieldBytes 6 (BitVec.ofInt 48 (r.drift.getD 0))
    ++ fieldBytes 2 (BitVec.ofInt 16 r.lastFraction) ++ oneByte (min r.blindCount 255) ++ oneByte (recordFlags r)

/-- R96: the record a selector names. -/
def selectedRecord (s : State) (selector : Byte) : Option InterfaceRecord :=
  if selector = 0 then s.it.record else s.it.history[selector.toNat - 1]?

/-- R96: READ INTERFACE. -/
def performReadInterface (selector : Byte) (s : State) : Outcome :=
  if 4 < selector.toNat then refuse .range [0] s
  else
    match selectedRecord s selector with
    | none => refuse .notFound [0] s
    | some r =>
      let code := if selector = 0 then trackerByte s.it.state s.it.excursion else 0
      (s, .done (interfaceData selector code r))

/-- An interface width in four bytes: 0 when absent, 4 294 967 295 when larger (R150). -/
def widthBytes (w : Option Mark) : List Byte := beBytes 4 (min (w.getD 0).toNat 4294967295)

/-- R150: the 69 data bytes of TAKE TICKET for the ticket removed, `remaining` being left. -/
def ticketData (remaining : Nat) (t : Ticket) (unticketed : Mark) : List Byte :=
  oneByte remaining ++ fieldBytes 2 t.account.batch ++ [t.account.product, outletByte t.account.ownLane]
    ++ fieldBytes 6 t.opened ++ fieldBytes 6 (t.closed.getD 0) ++ fieldBytes 6 t.ownLitres ++ fieldBytes 6 t.transmix
    ++ fieldBytes 6 t.pass ++ fieldBytes 6 t.otherLanes ++ fieldBytes 6 t.unrouted
    ++ oneByte (flag t.account.headWidth.isSome 1 + flag t.account.tailWidth.isSome 2)
    ++ widthBytes t.account.headWidth ++ widthBytes t.account.tailWidth ++ fieldBytes 6 t.account.lateness
    ++ oneByte (ticketFlags t + flag t.predecessorDiscarded 16) ++ fieldBytes 6 unticketed

/-- R150: TAKE TICKET. -/
def performTakeTicket (s : State) : Outcome :=
  match s.tu.completed with
  | [] => refuse .notFound (fieldBytes 6 s.tu.unticketed) s
  | t :: rest => (s.setTu { s.tu with completed := rest }, .done (ticketData rest.length t s.tu.unticketed))

/-! ## The manifold -/

/-- R132: the first test of SET MODE AUTO that fails, by its data byte; the mode is not AUTO. -/
def autoRefusal (s : State) : Option Byte :=
  if s.mg.mode = .held then some 4
  else if s.it.state ≠ .quiet ∨ s.it.excursion then some 1
  else if s.bq = [] then some 2
  else if s.routed = none then some 3
  else if s.cs.engine = .faulted then some 5
  else none

/-- Step 2 of R132: the ALIGN action, when the routed outlet differs from entry 0's first destination. -/
def alignOffer (s : State) : Option Offer :=
  match s.bq.head? with
  | some b =>
    if s.routed = some (s.firstOutlet b) then none
    else some ⟨.align, b.batchId, s.routed, s.firstOutlet b, .now, false, none⟩
  | none => none

/-- R132: the steps of SET MODE AUTO in MANUAL, and whether an ALIGN action was inserted. -/
def takeManifold (s : State) : State × Bool :=
  let s1 := withdrawManifold (s.setMg { s.mg with mode := .auto })
  match (alignOffer s1).bind (offerAction · s1) with
  | some s2 => (engineRun s2, true)
  | none => (engineRun s1, false)

/-- The two data bytes of SET MODE (R132). -/
def modeData (s : State) (aligned : Bool) : List Byte := [modeByte s.mg.mode, boolByte aligned]

/-- R132: SET MODE AUTO. -/
def performModeAuto (s : State) : Outcome :=
  if s.mg.mode = .auto then (s, .done (modeData s false))
  else
    match autoRefusal s with
    | some d => refuse .state [d] s
    | none =>
      let p := takeManifold s
      (p.1, .done (modeData p.1 p.2))

/-- R133: the mode becomes MANUAL; the queue is emptied (R101) and held actions are discarded (R82). -/
def giveUpManifold (s : State) : State := discardHeld (emptyQueue (s.setMg { s.mg with mode := .manual }))

/-- R133: SET MODE MANUAL. -/
def performModeManual (s : State) : Outcome :=
  let s1 := if s.mg.mode = .manual then s else giveUpManifold s
  (s1, .done (modeData s1 false))

/-- R132: SET MODE with its parameter byte. -/
def performSetMode (value : Byte) (s : State) : Outcome :=
  if value = 0 then performModeManual s
  else if value = 1 then performModeAuto s
  else refuse .range [0] s

/-- R135: the reached actions, an unbroken run from the head. -/
def reachedRun (s : State) : List Action := s.cs.queue.takeWhile (fun a => reached s.vc.lineCount a.fire)

/-- R135: the greatest lateness of actions at the line count. -/
def greatestLateness (count : Mark) (l : List Action) : Nat :=
  l.foldl (fun m a => max m (count - a.fire).toNat) 0

/-- R135: the collapsed action, formed from the last of the reached run. -/
def collapsedAction (s : State) (last : Action) : Action :=
  { reason := last.reason, batch := last.batch, source := s.routed, target := last.target, decision := none
    fire := s.vc.lineCount, familyChange := false }

/-- Steps 1 and 2 of R135. -/
def collapse (s : State) : State :=
  match (reachedRun s).getLast? with
  | none => s
  | some last =>
    let p := laneTrap 2 (collapsedAction s last) s
    p.2.setCs { p.2.cs with queue := p.1 :: s.cs.queue.drop (reachedRun s).length }

/-- The engine returned to IDLE at RESUME, with nothing in service (R114, R135). -/
def returnToIdle (s : State) : State :=
  s.setCs { s.cs with engine := .idle, sequence := none, phase := none, stroke := none, recovery := none }

/-- Steps 1 to 4 of R135, in HELD with resume mode AUTO. -/
def resumeAuto (s : State) : State :=
  let s1 := collapse s
  engineRun (returnToIdle (s1.setMg { s1.mg with mode := .auto }))

/-- R135 with resume mode MANUAL, or in MANUAL with the engine FAULTED. An apply may be due; nothing starts. -/
def resumeManual (s : State) : State :=
  let s1 := s.setCs { s.cs with sequence := none, queue := [] }
  engineRun (returnToIdle (s1.setMg { s1.mg with mode := .manual }))

/-- The five data bytes of RESUME (R135). -/
def resumeData (s : State) (l : List Action) : List Byte :=
  oneByte l.length ++ beBytes 4 (stated31 (greatestLateness s.vc.lineCount l)).toNat

/-- R135: RESUME. -/
def performResume (s : State) : Outcome :=
  if s.mg.mode = .auto ∨ (s.mg.mode = .manual ∧ s.cs.engine ≠ .faulted) then refuse .state [1] s
  else if s.mg.openOrder = [] then refuse .state [2] s
  else if s.mg.mode = .held ∧ s.mg.resumeMode = .auto then (resumeAuto s, .done (resumeData s (reachedRun s)))
  else (resumeManual s, .done (resumeData s []))

/-- R131: CLEAR OUTLET. -/
def performClearOutlet (index : Byte) (s : State) : Outcome :=
  if 9 < index.toNat then refuse .range [0] s
  else
    let o := outletOfByte index
    (setAvailable o true s, .done [boolByte (!s.mg.valves[o].available)])

/-- R116: the FORCED action of ROUTE to an outlet. -/
def routeOffer (s : State) (o : Outlet) : Offer := ⟨.forced, s.entry0Id, s.routed, o, .now, false, none⟩

/-- R116 and R136: the route action inserted and started; its to outlet after the lane trap and whether a sequence
began. In MANUAL with the engine IDLE the queue is empty, so the action always finds a place (R136; log 30). -/
def routeTo (o : Outlet) (s : State) : State × List Byte :=
  if s.cs.queue.length < 8 then
    let p := appendAction (routeOffer s o) s
    let s1 := startAction true p.2
    (engineRun s1, [outletByte (some p.1.target), boolByte (s1.cs.engine != .idle)])
  else (s, [outletByte (some o), 0])

/-- R136: ROUTE. -/
def performRoute (index : Byte) (s : State) : Outcome :=
  if 9 < index.toNat then refuse .range [0] s
  else if s.mg.mode ≠ .manual then refuse .state [1] s
  else if s.cs.engine ≠ .idle then refuse .state [2] s
  else
    let p := routeTo (outletOfByte index) s
    (p.1, .done p.2)

end Sys2Proof.Machine
end

