-- ==== Sys2Proof/Machine/Responses.lean ====
section
/-! DEFINITION. The Management Responder: serving requests in its four states (R167 to R170), SUM TABLES and RESTART,
and the reading of a request from its payload. -/

namespace Sys2Proof.Machine

/-- A management response frame (R162, R166). -/
def responseFrame (s : State) (src kind : Byte) (a : Answer) : Frame :=
  ⟨src, s.liu.address, kindResponse, answerPayload kind a⟩

/-- R169: a formed response offered: it enters the queue and the MR is READY, or it is held. `service` is the request
it answers. -/
def offerResponse (f : Frame) (service : Service) (s : State) : State :=
  if originatedFree s .control then
    let s1 := appendOriginated .control f s
    s1.setMr { s1.mr with state := .ready, service := none, heldResponse := none }
  else s.setMr { s.mr with state := .holding, service := some service, heldResponse := some f }

/-- R170: a BUSY response, discarded when it finds no place. -/
def answerBusy (src kind : Byte) (s : State) : State :=
  appendOriginated .control (responseFrame s src kind .busy) s

/-- What a request meets in each responder state (R168); `taken` is what READY does with it. -/
def inReady (src kind : Byte) (taken : State → State) (s : State) : State :=
  match s.mr.state with
  | .ready => taken s
  | .summing => answerBusy src kind s
  | .holding => s
  | .restartPending => s

/-- R167: a request taken in READY, performed and answered. -/
def answer (src kind : Byte) (perform : State → Outcome) (s : State) : State :=
  let p := perform s
  offerResponse (responseFrame p.1 src kind p.2) ⟨src, kind⟩ p.1

/-- R167 and R168: a request handed over. -/
def serve (src kind : Byte) (perform : State → Outcome) (s : State) : State :=
  inReady src kind (answer src kind perform) s

/-- An UNKNOWN answer: no block sees the request (R167). -/
def performUnknown (s : State) : Outcome := (s, .unknown)

/-- R32 and R168: SUM TABLES taken in READY. -/
def takeSumTables (src selector : Byte) (s : State) : State :=
  if 1 < selector.toNat then answer src 0x16 (refuse .range [0]) s
  else
    let s1 := s.setTs { s.ts with sum := some ⟨selector == 1, s.now⟩ }
    s1.setMr { s1.mr with state := .summing, service := some ⟨src, 0x16⟩ }

/-- R173: RESTART taken in READY: its response is recorded as the restart response and offered, or held. -/
def takeRestart (src : Byte) (s : State) : State :=
  let f := responseFrame s src 0x05 (.done [])
  let held := if originatedFree s .control then none else some f
  let s1 := appendOriginated .control f s
  s1.setMr ⟨.restartPending, some ⟨src, 0x05⟩, held, some f⟩

/-- R32 and R170: the computation completes: its answer is formed and offered, then an apply that is due follows. -/
def completeSum (s : State) : State :=
  match s.ts.sum with
  | none => s
  | some j =>
    let data := sumData s j
    let s1 := s.setTs { s.ts with sum := none }
    let s2 := match s1.mr.state, s1.mr.service with
      | .summing, some q => offerResponse (responseFrame s1 q.src q.kind (.done data)) q s1
      | _, _ => s1
    applyIfDue false s2

/-! ## Requests from their bytes -/

/-- A parsed request handed over (R166, R167). -/
def serveRequest (src : Byte) (q : Request) (s : State) : State :=
  match q with
  | .ping params => serve src 0x01 (performPing params) s
  | .ident => serve src 0x02 performIdent s
  | .readStatus => serve src 0x03 performReadStatus s
  | .setNotices master enables => serve src 0x04 (performSetNotices src master enables) s
  | .restart => inReady src 0x05 (takeRestart src) s
  | .putProduct index e => serve src 0x10 (performPutProduct index e) s
  | .putOutlet index e => serve src 0x11 (performPutOutlet index e) s
  | .putRule running arriving e => serve src 0x12 (performPutRule running arriving e) s
  | .putSegment r => serve src 0x13 (performPutSegment r) s
  | .commit => serve src 0x14 performCommit s
  | .withdraw => serve src 0x15 performWithdraw s
  | .sumTables selector => inReady src 0x16 (takeSumTables src selector) s
  | .addBatch f => serve src 0x20 (performAddBatch f) s
  | .amendBatch f => serve src 0x21 (performAmendBatch f) s
  | .dropBatch batchId => serve src 0x22 (performDropBatch batchId) s
  | .readBatch position => serve src 0x23 (performReadBatch position) s
  | .readInterface selector => serve src 0x30 (performReadInterface selector) s
  | .takeTicket => serve src 0x40 performTakeTicket s
  | .setMode value => serve src 0x50 (performSetMode value) s
  | .resume => serve src 0x51 performResume s
  | .clearOutlet index => serve src 0x52 (performClearOutlet index) s
  | .route index => serve src 0x53 (performRoute index) s

/-- A MANAGEMENT REQUEST payload handed over: UNKNOWN where tests 1 to 3 of R167 fail. -/
def handOverRequest (src : Byte) (payload : List Byte) (s : State) : State :=
  match parseRequest payload with
  | some q => serveRequest src q s
  | none => serve src (echoedKind payload) performUnknown s

end Sys2Proof.Machine
end

