-- ==== Sys2Proof/Machine/Link.lean ====
section
/-! DEFINITION. The Link Interface Unit's events (Chapter 9): handing on a good frame from either port (R155, R156),
the receivers (R153), the end of a transmission (R159, R160, R163), and the reset input (R174). -/

namespace Sys2Proof.Machine

/-! ## Handing on -/

/-- What the observer of a field frame does (R155). -/
def observeField (f : Frame) (s : State) : State :=
  if f.kind = kindMeterTotal then observeMeter f.src f.payload s
  else if f.kind = kindDensitySample then observeSample f.src f.payload s
  else if f.kind = kindValveStatus then observeValve f.src f.payload s
  else s

/-- R155: a good frame from FIELD, forwarded and observed. -/
def handOnField (f : Frame) (s : State) : State := observeField f (offerForward .control f s)

/-- R156: a good frame from CONTROL, by the first line of its table that matches. -/
def handOnControl (f : Frame) (s : State) : State :=
  if f.dst = s.liu.address then
    if f.kind = kindRequest then handOverRequest f.src f.payload s else s
  else
    match manifoldOutlet s f with
    | some o => judgeManifold o f s
    | none => offerForward .field f s

/-- A good frame handed on from a port. -/
def handOn : Port → Frame → State → State
  | .field => handOnField
  | .control => handOnControl

/-! ## Receivers -/

/-- The receiver of a port back in HUNT: a reception has ended (R153). -/
def endReception (p : Port) (s : State) : State := s.setPort p { s.port p with rx := .hunt }

/-- A payload longer than a frame can carry makes a frame that fails its judgement (R154). -/
def handOnFrame (p : Port) (f : Frame) (s : State) : State :=
  if f.payload.length ≤ 200 then handOn p f s else s

/-- The reception of a frame ends on a port: the frame is handed on, within one event (R154). -/
def receiveFrame (p : Port) (f : Frame) (s : State) : State := handOnFrame p f (endReception p s)

/-- The reception of these bytes ends on a port: judged, and handed on when good (R154). -/
def receiveBytes (p : Port) (bytes : List Byte) (s : State) : State :=
  match judgeFrame bytes with
  | some f => receiveFrame p f s
  | none => endReception p s

/-- A frame still being collected ends at a gap (R153); one that ran past 207 bytes fails. -/
def endAtGap (p : Port) (s : State) : State :=
  match (s.port p).rx with
  | .hunt => s
  | .receiving bytes overrun => if overrun then endReception p s else receiveBytes p bytes s

/-- A byte kept by a receiver that is collecting: 207 at most (R153). -/
def keepByte (bytes : List Byte) (overrun : Bool) (b : Byte) : Receiver :=
  if bytes.length < 207 then .receiving (bytes ++ [b]) overrun else .receiving bytes true

/-- R153: a byte that follows no gap: kept in RECEIVING, disregarded in HUNT, which waits for a gap. -/
def laterByte (p : Port) (b : Byte) (s : State) : State :=
  match (s.port p).rx with
  | .hunt => s
  | .receiving bytes overrun => s.setPort p { s.port p with rx := keepByte bytes overrun b }

/-- R153: the first byte after a gap. -/
def firstByte (p : Port) (b : Byte) (s : State) : State :=
  s.setPort p { s.port p with rx := .receiving [b] false }

/-! ## Transmitters -/

/-- The head frame's transmission ends on a port: it leaves its queue and the transmitter is idle (R160). -/
def releaseHead (l : PortLink) : PortLink :=
  match l.tx with
  | some .originated => { l with originated := l.originated.tail, tx := none }
  | some .forward => { l with forward := l.forward.tail, tx := none }
  | none => l

/-- R159: a place freed in the CONTROL originated queue: a held response takes it first; then the NU's test. -/
def controlPlaceFreed (s : State) : State :=
  let s1 := match s.mr.heldResponse with
    | some f =>
      let s1 := appendOriginated .control f s
      s1.setMr { s1.mr with
        heldResponse := none
        state := if s.mr.state = ResponderState.restartPending then .restartPending else .ready
        service := if s.mr.state = ResponderState.restartPending then s.mr.service else none }
    | none => s
  s1.setNu { s1.nu with testDue := true }

/-- R163 and R173: the frame whose transmission ends is the restart response. -/
def endsRestart (s : State) (sent : Option Frame) : Bool :=
  s.mr.state == .restartPending && s.mr.heldResponse.isNone && sent.isSome && sent == s.mr.restartResponse

/-- R160: the end of the transmission of the frame a port is sending. -/
def endTransmission (p : Port) (s : State) : State :=
  let l := s.port p
  let s1 := s.setPort p (releaseHead l)
  match p, l.tx with
  | .field, some .originated => offerCommands s1
  | .control, some .originated =>
    if endsRestart s (frameSending l) then resetAll s.liu.address s1 else controlPlaceFreed s1
  | _, _ => s1

/-! ## The reset input -/

/-- R174: while the reset input is asserted both lines are idle and what was under way is lost. -/
def assertReset (s : State) : State := (resetAll s.liu.address s).setInReset true

end Sys2Proof.Machine
end

