-- ==== Sys2Proof/Machine/ControlFrames.lean ====
section
/-! DEFINITION. The meanings of the frame commands on CONTROL (R126, R127, R156). -/

namespace Sys2Proof.Machine

/-- VALVE_COMMAND: sorted by R156, and judged by the MG when its destination is a manifold valve (R126, R127). -/
def execValveCommand (dst src : Byte) (payload : List Byte) (s : State) : Host.Outcome State Fault Refusal :=
  .next (unlessInReset (receiveFrame .control ⟨dst, src, kindValveCommand, payload⟩) s)

/-- CONTROL_FRAME: sorted by R156, and offered to the FIELD forward queue when it is neither for the part nor a
manifold command. -/
def execControlFrame (frame : Frame) (s : State) : Host.Outcome State Fault Refusal :=
  .next (unlessInReset (receiveFrame .control frame) s)

/-- CONSUMED_FRAME: a frame to the part's link address, consumed and discarded unless it is a request (R156). -/
def execConsumedFrame (src kind : Byte) (payload : List Byte) (s : State) : Host.Outcome State Fault Refusal :=
  .next (unlessInReset (receiveFrame .control ⟨s.liu.address, src, kind, payload⟩) s)

end Sys2Proof.Machine
end

