-- ==== Sys2Proof/Machine/FieldFrames.lean ====
section
/-! DEFINITION. The meanings of the frame commands on FIELD and of a dropped frame (R1, R53, R122, R154, R155). -/

namespace Sys2Proof.Machine

/-- DROPPED_FRAME: a frame that fails its judgement is discarded whole (R154); bytes that pass it after all are a good
frame and are handed on. -/
def execDroppedFrame (port : Port) (bytes : List Byte) (s : State) : Host.Outcome State Fault Refusal :=
  .next (unlessInReset (receiveBytes port bytes) s)

/-- METER_TOTAL: forwarded, and taken by the VC (R1 to R11, R155). -/
def execMeterTotal (dst src : Byte) (payload : List Byte) (s : State) : Host.Outcome State Fault Refusal :=
  .next (unlessInReset (receiveFrame .field ⟨dst, src, kindMeterTotal, payload⟩) s)

/-- DENSITY_SAMPLE: forwarded, and taken by the DE (R53 to R57, R155). -/
def execDensitySample (dst src : Byte) (payload : List Byte) (s : State) : Host.Outcome State Fault Refusal :=
  .next (unlessInReset (receiveFrame .field ⟨dst, src, kindDensitySample, payload⟩) s)

/-- VALVE_STATUS: forwarded, and taken by the MG (R122 to R125, R155). -/
def execValveStatus (dst src : Byte) (payload : List Byte) (s : State) : Host.Outcome State Fault Refusal :=
  .next (unlessInReset (receiveFrame .field ⟨dst, src, kindValveStatus, payload⟩) s)

/-- FIELD_FRAME: a frame of any other kind, forwarded (R155). -/
def execFieldFrame (frame : Frame) (s : State) : Host.Outcome State Fault Refusal :=
  .next (unlessInReset (receiveFrame .field frame) s)

end Sys2Proof.Machine
end

