-- ==== Sys2Proof/Machine/LinkEvents.lean ====
section
/-! DEFINITION. The meanings of the resets, of the end of a transmission and of a received byte (R153, R160, R164,
R174). -/

namespace Sys2Proof.Machine

/-- POWER_ON_RESET: power-up, or the release of the reset input; the link address is latched from the pins (R164,
R174). -/
def execPowerOnReset (pins : Byte) (s : State) : Host.Outcome State Fault Refusal := .next (resetAll pins s)

/-- RESET_ASSERTED: the reset input is asserted (R174). -/
def execResetAsserted (s : State) : Host.Outcome State Fault Refusal := .next (assertReset s)

/-- FRAME_TRANSMITTED: the last byte of the frame that the port is sending has been sent (R159, R160, R163). -/
def execFrameTransmitted (port : Port) (s : State) : Host.Outcome State Fault Refusal :=
  .next (unlessInReset (endTransmission port) s)

/-- The state in which a byte is taken: where it follows a gap, a frame still being collected has ended in an event of
its own (R153). -/
def beforeByte (port : Port) (afterGap : Bool) (s : State) : State :=
  if afterGap then finish (endAtGap port s) else s

/-- FRAME_BYTE_RECEIVED: a byte on a port's receive line, after a gap of at least two character times or not (R153). -/
def execFrameByteReceived (port : Port) (afterGap : Bool) (byte : Byte) (s : State) :
    Host.Outcome State Fault Refusal :=
  .next (unlessInReset (fun s =>
    if afterGap then firstByte port byte (beforeByte port afterGap s) else laterByte port byte s) s)

end Sys2Proof.Machine
end

