-- ==== Sys2Proof/Machine/Management.lean ====
section
/-! DEFINITION. The meanings of the management requests: each is the end of the reception of its frame on CONTROL,
handed over to the Management Responder (R156, R166 to R170). -/

namespace Sys2Proof.Machine

/-- A request handed over within the event that ends its reception (R154, R156). -/
def requestEvent (handOver : State → State) (s : State) : Host.Outcome State Fault Refusal :=
  .next (unlessInReset (fun s => handOver (endReception .control s)) s)

/-- UNKNOWN_REQUEST: answered UNKNOWN (R166, R167); a payload that spells a request is that request. -/
def execUnknownRequest (src : Byte) (payload : List Byte) (s : State) : Host.Outcome State Fault Refusal :=
  requestEvent (handOverRequest src payload) s

/-- PING (R171). -/
def execPing (src : Byte) (params : List Byte) (s : State) : Host.Outcome State Fault Refusal :=
  requestEvent (serve src 0x01 (performPing params)) s

/-- IDENT (R171). -/
def execIdent (src : Byte) (s : State) : Host.Outcome State Fault Refusal :=
  requestEvent (serve src 0x02 performIdent) s

/-- READ_STATUS (R172). -/
def execReadStatus (src : Byte) (s : State) : Host.Outcome State Fault Refusal :=
  requestEvent (serve src 0x03 performReadStatus) s

/-- SET_NOTICES (R177). -/
def execSetNotices (src master : Byte) (enables : BitVec 24) (s : State) : Host.Outcome State Fault Refusal :=
  requestEvent (serve src 0x04 (performSetNotices src master enables)) s

/-- RESTART (R173). -/
def execRestart (src : Byte) (s : State) : Host.Outcome State Fault Refusal :=
  requestEvent (inReady src 0x05 (takeRestart src)) s

/-- PUT_PRODUCT (R21, R22). -/
def execPutProduct (src index : Byte) (entry : ProductEntry) (s : State) : Host.Outcome State Fault Refusal :=
  requestEvent (serve src 0x10 (performPutProduct index entry)) s

/-- PUT_OUTLET (R21, R23). -/
def execPutOutlet (src index : Byte) (entry : OutletEntry) (s : State) : Host.Outcome State Fault Refusal :=
  requestEvent (serve src 0x11 (performPutOutlet index entry)) s

/-- PUT_RULE (R21, R23). -/
def execPutRule (src running arriving : Byte) (entry : RuleEntry) (s : State) : Host.Outcome State Fault Refusal :=
  requestEvent (serve src 0x12 (performPutRule running arriving entry)) s

/-- PUT_SEGMENT (R21, R23). -/
def execPutSegment (src : Byte) (record : SegmentRecord) (s : State) : Host.Outcome State Fault Refusal :=
  requestEvent (serve src 0x13 (performPutSegment record)) s

/-- COMMIT (R24, R25). -/
def execCommit (src : Byte) (s : State) : Host.Outcome State Fault Refusal :=
  requestEvent (serve src 0x14 performCommit) s

/-- WITHDRAW (R27). -/
def execWithdraw (src : Byte) (s : State) : Host.Outcome State Fault Refusal :=
  requestEvent (serve src 0x15 performWithdraw) s

/-- SUM_TABLES (R32). -/
def execSumTables (src selector : Byte) (s : State) : Host.Outcome State Fault Refusal :=
  requestEvent (inReady src 0x16 (takeSumTables src selector)) s

/-- ADD_BATCH (R38 to R41). -/
def execAddBatch (src : Byte) (fields : BatchFields) (s : State) : Host.Outcome State Fault Refusal :=
  requestEvent (serve src 0x20 (performAddBatch fields)) s

/-- AMEND_BATCH (R42 to R44). -/
def execAmendBatch (src : Byte) (fields : BatchFields) (s : State) : Host.Outcome State Fault Refusal :=
  requestEvent (serve src 0x21 (performAmendBatch fields)) s

/-- DROP_BATCH (R45). -/
def execDropBatch (src : Byte) (batchId : BatchId) (s : State) : Host.Outcome State Fault Refusal :=
  requestEvent (serve src 0x22 (performDropBatch batchId)) s

/-- READ_BATCH (R49). -/
def execReadBatch (src position : Byte) (s : State) : Host.Outcome State Fault Refusal :=
  requestEvent (serve src 0x23 (performReadBatch position)) s

/-- READ_INTERFACE (R96). -/
def execReadInterface (src selector : Byte) (s : State) : Host.Outcome State Fault Refusal :=
  requestEvent (serve src 0x30 (performReadInterface selector)) s

/-- TAKE_TICKET (R150). -/
def execTakeTicket (src : Byte) (s : State) : Host.Outcome State Fault Refusal :=
  requestEvent (serve src 0x40 performTakeTicket) s

/-- SET_MODE_AUTO: SET MODE with its parameter byte, 1 for AUTO (R132; log 26). -/
def execSetModeAuto (src value : Byte) (s : State) : Host.Outcome State Fault Refusal :=
  requestEvent (serve src 0x50 (performSetMode value)) s

/-- SET_MODE_MANUAL (R133). -/
def execSetModeManual (src : Byte) (s : State) : Host.Outcome State Fault Refusal :=
  requestEvent (serve src 0x50 performModeManual) s

/-- RESUME (R135). -/
def execResume (src : Byte) (s : State) : Host.Outcome State Fault Refusal :=
  requestEvent (serve src 0x51 performResume) s

/-- CLEAR_OUTLET (R131). -/
def execClearOutlet (src index : Byte) (s : State) : Host.Outcome State Fault Refusal :=
  requestEvent (serve src 0x52 (performClearOutlet index)) s

/-- ROUTE (R116, R136). -/
def execRoute (src index : Byte) (s : State) : Host.Outcome State Fault Refusal :=
  requestEvent (serve src 0x53 (performRoute index)) s

/-- SUM_COMPLETE: the SUM TABLES computation completes (R32, R170). -/
def execSumComplete (s : State) : Host.Outcome State Fault Refusal := .next (unlessInReset completeSum s)

end Sys2Proof.Machine
end

