-- ==== Sys2Proof/Machine/TimerEvents.lean ====
section
/-! DEFINITION. The meanings of the timer expiries (R8, R9, R107 to R113). The expiry of a running timer happens at
the moment its length is reached, so the clock is carried on to that moment (log 4); a stopped timer does not expire. -/

namespace Sys2Proof.Machine

/-- The clock carried on to a moment. -/
def atTime (t : Time) (s : State) : State := s.setNow (max s.now t)

/-- The silence timer, when running, expires (R8). -/
def silenceExpiry (s : State) : State :=
  match s.vc.silenceTimer with
  | some t => silenceExpires (atTime (t + s.segment.silenceTime.toNat * 1000) s)
  | none => s

/-- The still timer, when running, expires (R9). -/
def stillExpiry (s : State) : State :=
  match s.vc.stillTimer with
  | some t => stillExpires (atTime (t + s.segment.stillTime.toNat * 1000) s)
  | none => s

/-- The phase timer, when running in the engine state given, expires, and the engine runs on. -/
def phaseExpiry (e : EngineState) (s : State) : State :=
  match s.cs.phase with
  | some t =>
    if s.cs.engine = e then
      let s1 := atTime (t.start + t.length) s
      engineRun (s1.setCs { s1.cs with phase := none })
    else s
  | none => s

/-- The stroke timer, when running, expires: the sequence fails (R112, R113). -/
def strokeExpiry (s : State) : State :=
  match s.cs.stroke with
  | some t =>
    let s1 := atTime (t.start + t.length) s
    match s.cs.engine with
    | .openNew => openFailure 0 s1
    | .closeOld => closeFailure 0 s1
    | _ => s1.setCs { s1.cs with stroke := none }
  | none => s

/-- The recovery timer, when running, expires: the engine returns to IDLE (R111). -/
def recoveryExpires (s : State) : State :=
  match s.cs.recovery with
  | some t =>
    let s1 := atTime (t.start + t.length) s
    engineRun (s1.setCs { s1.cs with recovery := none })
  | none => s

/-- SILENCE_TIMER_EXPIRY (R8). -/
def execSilenceTimerExpiry (s : State) : Host.Outcome State Fault Refusal := .next (unlessInReset silenceExpiry s)

/-- STILL_TIMER_EXPIRY (R9). -/
def execStillTimerExpiry (s : State) : Host.Outcome State Fault Refusal := .next (unlessInReset stillExpiry s)

/-- OPEN_TIME_EXPIRY: the phase timer expires in OPEN_NEW (R107). -/
def execOpenTimeExpiry (s : State) : Host.Outcome State Fault Refusal := .next (unlessInReset (phaseExpiry .openNew) s)

/-- OVERLAP_EXPIRY: the phase timer expires in OVERLAP (R108). -/
def execOverlapExpiry (s : State) : Host.Outcome State Fault Refusal := .next (unlessInReset (phaseExpiry .overlap) s)

/-- CLOSE_TIME_EXPIRY: the phase timer expires in CLOSE_OLD (R109). -/
def execCloseTimeExpiry (s : State) : Host.Outcome State Fault Refusal :=
  .next (unlessInReset (phaseExpiry .closeOld) s)

/-- STROKE_TIMER_EXPIRY (R112, R113). -/
def execStrokeTimerExpiry (s : State) : Host.Outcome State Fault Refusal := .next (unlessInReset strokeExpiry s)

/-- RECOVERY_EXPIRY (R111). -/
def execRecoveryExpiry (s : State) : Host.Outcome State Fault Refusal := .next (unlessInReset recoveryExpires s)

end Sys2Proof.Machine
end

