-- ==== Sys2Proof/Machine/Dispatch.lean ====
section
/-! DEFINITION. exec: one arm per command, each the direct call of its meaning. -/

namespace Sys2Proof.Machine

def exec (i : Instr) (s : State) : Host.Outcome State Fault Refusal :=
  match i with
  | .powerOnReset pins => Sys2Proof.Machine.execPowerOnReset pins s
  | .resetAsserted => Sys2Proof.Machine.execResetAsserted s
  | .droppedFrame port bytes => Sys2Proof.Machine.execDroppedFrame port bytes s
  | .meterTotal dst src payload => Sys2Proof.Machine.execMeterTotal dst src payload s
  | .densitySample dst src payload => Sys2Proof.Machine.execDensitySample dst src payload s
  | .valveStatus dst src payload => Sys2Proof.Machine.execValveStatus dst src payload s
  | .fieldFrame frame => Sys2Proof.Machine.execFieldFrame frame s
  | .valveCommand dst src payload => Sys2Proof.Machine.execValveCommand dst src payload s
  | .controlFrame frame => Sys2Proof.Machine.execControlFrame frame s
  | .consumedFrame src kind payload => Sys2Proof.Machine.execConsumedFrame src kind payload s
  | .unknownRequest src payload => Sys2Proof.Machine.execUnknownRequest src payload s
  | .ping src params => Sys2Proof.Machine.execPing src params s
  | .ident src => Sys2Proof.Machine.execIdent src s
  | .readStatus src => Sys2Proof.Machine.execReadStatus src s
  | .setNotices src master enables => Sys2Proof.Machine.execSetNotices src master enables s
  | .restart src => Sys2Proof.Machine.execRestart src s
  | .putProduct src index entry => Sys2Proof.Machine.execPutProduct src index entry s
  | .putOutlet src index entry => Sys2Proof.Machine.execPutOutlet src index entry s
  | .putRule src running arriving entry => Sys2Proof.Machine.execPutRule src running arriving entry s
  | .putSegment src record => Sys2Proof.Machine.execPutSegment src record s
  | .commit src => Sys2Proof.Machine.execCommit src s
  | .withdraw src => Sys2Proof.Machine.execWithdraw src s
  | .sumTables src selector => Sys2Proof.Machine.execSumTables src selector s
  | .sumComplete => Sys2Proof.Machine.execSumComplete s
  | .addBatch src fields => Sys2Proof.Machine.execAddBatch src fields s
  | .amendBatch src fields => Sys2Proof.Machine.execAmendBatch src fields s
  | .dropBatch src batchId => Sys2Proof.Machine.execDropBatch src batchId s
  | .readBatch src position => Sys2Proof.Machine.execReadBatch src position s
  | .readInterface src selector => Sys2Proof.Machine.execReadInterface src selector s
  | .takeTicket src => Sys2Proof.Machine.execTakeTicket src s
  | .setModeAuto src value => Sys2Proof.Machine.execSetModeAuto src value s
  | .setModeManual src => Sys2Proof.Machine.execSetModeManual src s
  | .resume src => Sys2Proof.Machine.execResume src s
  | .clearOutlet src index => Sys2Proof.Machine.execClearOutlet src index s
  | .route src index => Sys2Proof.Machine.execRoute src index s
  | .frameTransmitted port => Sys2Proof.Machine.execFrameTransmitted port s
  | .silenceTimerExpiry => Sys2Proof.Machine.execSilenceTimerExpiry s
  | .stillTimerExpiry => Sys2Proof.Machine.execStillTimerExpiry s
  | .openTimeExpiry => Sys2Proof.Machine.execOpenTimeExpiry s
  | .overlapExpiry => Sys2Proof.Machine.execOverlapExpiry s
  | .closeTimeExpiry => Sys2Proof.Machine.execCloseTimeExpiry s
  | .strokeTimerExpiry => Sys2Proof.Machine.execStrokeTimerExpiry s
  | .recoveryExpiry => Sys2Proof.Machine.execRecoveryExpiry s
  | .frameByteReceived port afterGap byte => Sys2Proof.Machine.execFrameByteReceived port afterGap byte s

end Sys2Proof.Machine
end

