-- ==== Sys2Proof/Machine/Idle.lean ====
section
/-! DEFINITION. What an idle step does: which of the part's own timers has reached its length, and the passing of time
(log 2, log 3, log 5). -/

namespace Sys2Proof.Machine

/-- The expiry `c` where its timer runs and has reached its length. -/
def dueIn (now : Time) (timer : Option Timer) (c : Instr) : List Instr :=
  match timer with
  | some t => if t.start + t.length ≤ now then [c] else []
  | none => []

/-- A timer of the VC, which runs for a number of seconds of the active Segment Record (R8, R9). -/
def secondsTimer (start : Option Time) (seconds : Nat) : Option Timer := start.map (fun t => ⟨t, seconds * 1000⟩)

/-- The phase timer's expiry (R107 to R109). -/
def duePhase (s : State) : List Instr :=
  match s.cs.engine with
  | .openNew => dueIn s.now s.cs.phase .openTimeExpiry
  | .overlap => dueIn s.now s.cs.phase .overlapExpiry
  | .closeOld => dueIn s.now s.cs.phase .closeTimeExpiry
  | _ => []

/-- The expiries that are due: each running timer whose elapsed time has reached its length (R8, R9, R105), and the
SUM TABLES computation at its limit (R32). -/
def dueExpiries (s : State) : List Instr :=
  dueIn s.now (secondsTimer s.vc.silenceTimer s.segment.silenceTime.toNat) .silenceTimerExpiry
  ++ dueIn s.now (secondsTimer s.vc.stillTimer s.segment.stillTime.toNat) .stillTimerExpiry
  ++ duePhase s
  ++ dueIn s.now s.cs.stroke .strokeTimerExpiry
  ++ dueIn s.now s.cs.recovery .recoveryExpiry
  ++ dueIn s.now (s.ts.sum.map (fun j => ⟨j.start, Config.sumLimitMs⟩)) .sumComplete

/-- The expiry that an idle step takes: none when none is due or the reset input is asserted, the one that is due, or
one of several by a free value, since either may be taken first (log 3). -/
def dueExpiry (s : State) : Option Instr :=
  if s.inReset then none else
    match dueExpiries s with
    | [] => none
    | [c] => some c
    | c :: cs => (c :: cs)[Config.freeExpiry s.races % (cs.length + 1)]?

/-- The state with the counter of settled orders advanced when several expiries were due. -/
def countRaces (s : State) : State := if (dueExpiries s).length ≤ 1 then s else s.setRaces (s.races + 1)

/-- One millisecond passes (log 2). -/
def passTime (s : State) : State := s.setNow (s.now + 1)

end Sys2Proof.Machine
end

