-- ==== Sys2Proof/Machine/Step.lean ====
section
/-! DEFINITION. One step: the command at the front of the queue, or, on an empty queue, a due timer or the passing of
one millisecond (log 2, log 3). -/

namespace Sys2Proof.Machine

/-- One step of the part. -/
def step (s : State) : Host.Outcome State Fault Refusal :=
  match s.pending with
  | c :: rest => exec c (s.setPending rest)
  | [] =>
    match dueExpiry s with
    | some c => exec c (countRaces s)
    | none => .next (passTime s)

/-- The state with the command that a word spells put at the front of its queue; unchanged where the word spells
none (log 27, log 32). -/
def State.withFetchWord (s : State) (nbits w : Nat) : State :=
  match decodeTableWord nbits w with
  | some c => s.setPending (c :: s.pending)
  | none => s

end Sys2Proof.Machine
end

