-- ==== Sys2Proof/Safety.lean ====
section
/-! DEFINITION. What counts as a sound state: the capacities and consistencies that the spec states of each block and
that every step keeps. -/

namespace Sys2Proof.Machine

/-- The queues of one port keep within their places (R157, R159). -/
structure PortBounded (l : PortLink) : Prop where
  forward : l.forward.length ≤ 8
  originated : l.originated.length ≤ 4

/-- Each batch's predicted head mark is the head mark plus the nominal volume of the batch before it (R37). -/
def Linked : List BatchRecord → Prop
  | [] => True
  | [_] => True
  | b :: c :: rest => c.predicted = headMark b + b.nominal.setWidth 48 ∧ Linked (c :: rest)

/-- The given fields of a batch record lie in the ranges of R35, a delivery volume is present exactly with
DELIVER_PART. -/
structure RecordOk (b : BatchRecord) : Prop where
  batchId : b.batchId ≠ 0
  product : b.product ≠ 0
  nominal : 1000 ≤ b.nominal.toNat ∧ b.nominal.toNat ≤ 100000000
  present : b.delivery.isSome = true ↔ b.disposition = .deliverPart
  delivery : ∀ v, b.delivery = some v → 1000 ≤ v.toNat ∧ v.toNat ≤ b.nominal.toNat
  certified : ∀ v, b.certified = some v → 50000 ≤ v.toNat ∧ v.toNat ≤ 110000

/-- The batch queue holds at most 32 batches, no two of one id (R38), each in range (R35), and its predicted head marks
are linked (R37). -/
structure BatchesOk (bq : List BatchRecord) : Prop where
  records : ∀ b ∈ bq, RecordOk b
  bounded : bq.length ≤ 32
  distinct : (bq.map (·.batchId)).Nodup
  linked : Linked bq

/-- The ring holds at most 8 samples (R57), and the offset lies within the active offset limit (R31, R67). -/
structure EvaluatorOk (segment : SegmentRecord) (de : DensityEvaluator) : Prop where
  ring : de.ring.length ≤ 8
  offset : -(segment.offsetLimit.toNat : Int) ≤ de.offset ∧ de.offset ≤ segment.offsetLimit.toNat

/-- A record is active exactly in a window state, an excursion lasts only in QUIET (R70), and the history holds at
most 4 records (R95). -/
structure TrackerOk (it : Tracker) : Prop where
  active : it.record.isSome = (it.state != .quiet)
  excursion : it.excursion = true → it.state = .quiet
  history : it.history.length ≤ 4

/-- The engine states in which a sequence is in service (R102). -/
def inService : EngineState → Bool
  | .openNew => true
  | .overlap => true
  | .closeOld => true
  | _ => false

/-- Marks none of which is lower than the one before it (step 3 of R99, step 2 of R141). -/
def InOrder : List Mark → Prop
  | [] => True
  | [_] => True
  | a :: b :: rest => lower b a = false ∧ InOrder (b :: rest)

/-- The action queue holds at most 8 actions, in the order of their fire marks (R99). -/
structure QueueOk (queue : List Action) : Prop where
  bounded : queue.length ≤ 8
  ordered : InOrder (queue.map (·.fire))

/-- The action queue is in order, and a sequence is in service exactly in the states of R102. -/
structure SequencerOk (cs : Sequencer) : Prop where
  queue : QueueOk cs.queue
  sequence : cs.sequence.isSome = inService cs.engine

/-- The open order names each outlet confirmed OPEN, and no other, once (R124). -/
structure GuardOk (mg : ManifoldGuard) : Prop where
  once : mg.openOrder.Nodup
  opened : ∀ o : Outlet, o ∈ mg.openOrder ↔ mg.valves[o].confirmed = .opened

/-- A closed ticket's columns sum to its closed mark minus its opened mark (R142). -/
def Balanced (t : Ticket) : Prop := ∃ m, t.closed = some m ∧ columnSum t = m - t.opened

/-- At most 8 boundaries are pending, in line order (R141), and at most 16 tickets completed (R149); the columns of the
current ticket sum to the litres from its opened mark to the line count `count`, those of every other ticket to the
litres between its marks (R142). -/
structure TicketsOk (count : Mark) (tu : TicketUnit) : Prop where
  boundaries : tu.boundaries.length ≤ 8
  ordered : InOrder (tu.boundaries.map (·.mark))
  completed : tu.completed.length ≤ 16
  current : ∀ t, tu.current = some t → columnSum t = count - t.opened
  closing : ∀ t, tu.closing = some t → Balanced t
  closed : ∀ t ∈ tu.completed, Balanced t

/-- A sound state. -/
structure Sound (s : State) : Prop where
  field : PortBounded s.liu.field
  control : PortBounded s.liu.control
  bq : BatchesOk s.bq
  de : EvaluatorOk s.ts.active.segment s.de
  it : TrackerOk s.it
  cs : SequencerOk s.cs
  mg : GuardOk s.mg
  tu : TicketsOk s.vc.lineCount s.tu

/-! ## Notices and manifold commands -/

/-- R176: the latch of event `e` may be reported: its number is 1, 2 or 3, or the master enable and its own enable are
on. -/
def Reported (nu : NoticeUnit) (e : Event) : Prop :=
  (eventIndex e).val + 1 ≤ 3 ∨ (nu.master = true ∧ nu.enables.getLsbD (eventIndex e).val = true)

/-- R176: the latch of event `e` is emittable: it is set and may be reported. -/
def Emittable (nu : NoticeUnit) (e : Event) : Prop := nu.latches[eventIndex e] ≠ none ∧ Reported nu e

/-- R176: the three conditions do not hold together: no latch is emittable, or the CONTROL originated queue has no free
place, or the MR holds a response. -/
def NoticesDone (s : State) : Prop :=
  (∀ e : Event, ¬ Emittable s.nu e) ∨ 4 ≤ s.liu.control.originated.length ∨ s.mr.heldResponse ≠ none

/-- Between two events no notice is left to form (R176), and a response is held only in HOLDING and RESTART_PENDING
(R169, R173). -/
structure NoticesSettled (s : State) : Prop where
  done : NoticesDone s
  held : s.mr.heldResponse ≠ none → s.mr.state = .holding ∨ s.mr.state = .restartPending

/-- The FIELD forward queue holds no manifold command (R126). -/
def NoManifoldCommand (s : State) : Prop :=
  ∀ f ∈ s.liu.field.forward, f.kind = 0x32 → ∀ o : Outlet, s.ts.active.outlets[o].valveAddress ≠ f.dst

/-- While the mode is AUTO or HELD no manifold command waits for the field (R126). -/
def ManifoldBarred (s : State) : Prop := s.mg.mode = .manual ∨ NoManifoldCommand s

/-! ## Tables -/

/-- Every entry of a copy of the tables passes the range tests of its PUT request (R17 to R21). -/
structure TablesOk (t : Tables) : Prop where
  products : ∀ i : Fin 16, firstBad (productRanges (BitVec.ofNat 8 i.val) t.products[i]) = none
  outlets : ∀ i : Outlet, firstBad (outletRanges (BitVec.ofNat 8 i.val) t.outlets[i]) = none
  rules : ∀ i : Fin 64, firstBad (ruleRanges 0 0 t.rules[i]) = none
  segment : firstBad (segmentRanges t.segment) = none

/-- Both copies of the tables hold entries in range only. -/
structure TablesSound (s : State) : Prop where
  active : TablesOk s.ts.active
  pending : TablesOk s.ts.pending

end Sys2Proof.Machine
end

