-- ==== Sys2Proof/Safety/Outcomes.lean ====
section
/-! DEFINITION. The words in which the statements say what an event does to the link: a port kept, a reception ended, a
frame forwarded, a request answered. Everything else of the state a statement says itself. -/

namespace Sys2Proof.Machine

/-- The part between two events with the reset input not asserted: no emission test is left to make (R176, log 8). -/
structure Running (s : State) : Prop where
  released : s.inReset = false
  settled : s.nu.testDue = false

/-- The part running with no request in service: a request handed over is taken (R168). -/
structure Serving (s : State) : Prop where
  released : s.inReset = false
  settled : s.nu.testDue = false
  ready : s.mr.state = .ready

/-- `m` is the port `l` with the same receiver and queues; an idle transmitter may have begun (R160). -/
structure PortKept (l m : PortLink) : Prop where
  rx : m.rx = l.rx
  forward : m.forward = l.forward
  originated : m.originated = l.originated
  sending : ∀ x, l.tx = some x → m.tx = some x

/-- `m` is the port `l` after a reception ended on it: the receiver is in HUNT (R153). -/
structure PortEnded (l m : PortLink) : Prop where
  rx : m.rx = .hunt
  forward : m.forward = l.forward
  originated : m.originated = l.originated
  sending : ∀ x, l.tx = some x → m.tx = some x

/-- `m` is the port `l` after frame `f` was offered to its forward queue: appended when the queue held fewer than 8,
discarded otherwise (R157). -/
structure PortForwards (f : Frame) (l m : PortLink) : Prop where
  rx : m.rx = l.rx
  forward : m.forward = if l.forward.length < 8 then l.forward ++ [f] else l.forward
  originated : m.originated = l.originated
  sending : ∀ x, l.tx = some x → m.tx = some x

/-- A frame received on FIELD and offered to the CONTROL forward queue, and nothing else on the link (R155). -/
structure ForwardedFromField (f : Frame) (s t : State) : Prop where
  address : t.liu.address = s.liu.address
  field : PortEnded s.liu.field t.liu.field
  control : PortForwards f s.liu.control t.liu.control

/-- A frame received on CONTROL and offered to the FIELD forward queue, and nothing else on the link (R156). -/
structure ForwardedFromControl (f : Frame) (s t : State) : Prop where
  address : t.liu.address = s.liu.address
  control : PortEnded s.liu.control t.liu.control
  field : PortForwards f s.liu.field t.liu.field

/-- A frame received on CONTROL that goes no further on the link (R156). -/
structure EndedOnControl (s t : State) : Prop where
  address : t.liu.address = s.liu.address
  control : PortEnded s.liu.control t.liu.control
  field : PortKept s.liu.field t.liu.field

/-- A management response as a frame (R162, R166). -/
def responseOf (s : State) (src : Byte) (payload : List Byte) : Frame := ⟨src, s.liu.address, 0x42, payload⟩

/-- A request from `src` of kind `kind`, taken in READY, was answered with a response of payload `payload`: the response
stands next in the CONTROL originated queue and the MR is READY, or the queue was full and the response is held (R169).
Notices may have been formed behind the response. -/
structure Answered (src kind : Byte) (payload : List Byte) (s t : State) : Prop where
  address : t.liu.address = s.liu.address
  rx : t.liu.control.rx = .hunt
  forward : t.liu.control.forward = s.liu.control.forward
  sending : ∀ x, s.liu.control.tx = some x → t.liu.control.tx = some x
  placed : s.liu.control.originated.length < 4 →
    (s.liu.control.originated ++ [responseOf s src payload]) <+: t.liu.control.originated
      ∧ t.mr = { s.mr with state := .ready, service := none, heldResponse := none }
  held : 4 ≤ s.liu.control.originated.length →
    t.liu.control.originated = s.liu.control.originated
      ∧ t.mr = { s.mr with state := .holding, service := some ⟨src, kind⟩, heldResponse := some (responseOf s src payload) }

/-- A request answered, the FIELD port left as it was, and no notice formed: the response is the last of its queue. -/
structure AnsweredOnly (src kind : Byte) (payload : List Byte) (s t : State) : Prop where
  answered : Answered src kind payload s t
  field : PortKept s.liu.field t.liu.field
  last : s.liu.control.originated.length < 4 →
    t.liu.control.originated = s.liu.control.originated ++ [responseOf s src payload]

/-- R140: `n` litres booked to the column of a ticket that the routed outlet names. -/
def columnBooked (routed : Option Outlet) (n : Mark) (k : Ticket) : Ticket :=
  match routed with
  | none => { k with unrouted := k.unrouted + n }
  | some o =>
    if k.account.ownLane = some o then { k with ownLitres := k.ownLitres + n }
    else if o = 8 then { k with transmix := k.transmix + n }
    else if o = 9 then { k with pass := k.pass + n }
    else { k with otherLanes := k.otherLanes + n }

/-- R140: `n` litres booked to the current ticket, or to the unticketed volume where there is none. -/
def volumeBooked (routed : Option Outlet) (n : Mark) (tu : TicketUnit) : TicketUnit :=
  match tu.current with
  | none => { tu with unticketed := tu.unticketed + n }
  | some k => { tu with current := some (columnBooked routed n k) }

/-- R140: where an advance of `n` litres is booked while no boundary is pending. -/
def bookedAdvance (s : State) (n : Mark) : TicketUnit := volumeBooked s.mg.openOrder.getLast? n s.tu

/-- The VC after an increment on a MOVING line that raises nothing (R3, R4, R8, R9). -/
def countedAdvance (s : State) (total n : BitVec 32) : VolumeCounter :=
  { s.vc with
    lastTotal := some total, silenceTimer := some s.now, stillTimer := some s.now, origin := s.now
    lineCount := s.vc.lineCount + n.setWidth 48 }

/-- The latch of an event after it was raised with a context (R175). -/
def latchedAfter (nu : NoticeUnit) (e : Event) (c : Context) : Option Latch :=
  some ⟨c, (nu.latches[eventIndex e]).isSome⟩

/-! ## Requests -/

/-- The parameter length of a request kind (R166): none for a code that is not in the table, and for PING, whose length
is 0 … 197. -/
def requestLength (code : Byte) : Option Nat :=
  if code ∈ [0x02, 0x03, 0x05, 0x14, 0x15, 0x40, 0x51] then some 0
  else if code ∈ [0x16, 0x23, 0x30, 0x50, 0x52, 0x53] then some 1
  else if code = 0x22 then some 2
  else if code = 0x04 then some 4
  else if code = 0x12 then some 7
  else if code = 0x11 then some 13
  else if code = 0x10 then some 14
  else if code = 0x20 ∨ code = 0x21 then some 16
  else if code = 0x13 then some 63
  else none

/-- The bytes of a field, most significant byte first. -/
def bytesOf {w : Nat} (k : Nat) (x : BitVec w) : List Byte := beBytes k x.toNat

/-- The seven fields of a product entry in the order and widths of R17. -/
def productEntryBytes (e : ProductEntry) : List Byte :=
  [e.code, e.family] ++ bytesOf 4 e.reference ++ bytesOf 2 e.beta ++ bytesOf 2 e.tolerance
    ++ bytesOf 2 e.excursionLimit ++ [e.destination]

/-- The eleven fields of an outlet entry in the order and widths of R18. -/
def outletEntryBytes (e : OutletEntry) : List Byte :=
  [e.enabled, e.valveAddress, e.openTime, e.overlapTime, e.closeTime, e.releaseSettle, e.entrySettle, e.multiplier,
    e.map, e.strokeTimeout] ++ bytesOf 2 e.trim

/-- The two fields of a matrix entry in the order and widths of R19. -/
def ruleEntryBytes (e : RuleEntry) : List Byte := [e.disposition] ++ bytesOf 4 e.expectedWidth

/-- The 28 fields of the Segment Record in the order and widths of R20. -/
def segmentRecordBytes (r : SegmentRecord) : List Byte :=
  [r.meterAddress, r.densityAddress] ++ bytesOf 4 r.leadVolume ++ bytesOf 2 r.evaluationStep
    ++ [r.confirmationCount, r.averagingDepth] ++ bytesOf 2 r.startThreshold ++ bytesOf 2 r.endThreshold
    ++ bytesOf 4 r.earlyMargin ++ bytesOf 4 r.lateMargin ++ bytesOf 4 r.extensionVolume
    ++ [r.maxExtensions, r.blindLimit] ++ bytesOf 2 r.minimumContrast ++ bytesOf 2 r.fallbackGuard
    ++ bytesOf 4 r.maxMixingVolume ++ bytesOf 4 r.settleVolume ++ [r.baselineRate] ++ bytesOf 2 r.offsetLimit
    ++ bytesOf 4 r.lateLimit ++ [r.familySettle, r.reversalSettle, r.reliefOutlet] ++ bytesOf 2 r.stillTime
    ++ [r.silenceTime] ++ bytesOf 4 r.maxMeterStep ++ bytesOf 2 r.standGrowthRate ++ bytesOf 4 r.standGrowthCap

/-- The payload of a request: its kind and its parameters in the order and widths of its rule (R166, R17 to R20, R38,
R45, R49, R96, R131, R132, R136, R177). -/
def requestBytes (q : Request) : List Byte :=
  match q with
  | .ping ps => 0x01 :: ps
  | .ident => [0x02]
  | .readStatus => [0x03]
  | .setNotices master enables => 0x04 :: master :: bytesOf 3 enables
  | .restart => [0x05]
  | .putProduct index e => [0x10, index] ++ productEntryBytes e
  | .putOutlet index e => [0x11, index] ++ outletEntryBytes e
  | .putRule running arriving e => [0x12, running, arriving] ++ ruleEntryBytes e
  | .putSegment r => 0x13 :: segmentRecordBytes r
  | .commit => [0x14]
  | .withdraw => [0x15]
  | .sumTables selector => [0x16, selector]
  | .addBatch f => 0x20 :: batchBytes f
  | .amendBatch f => 0x21 :: batchBytes f
  | .dropBatch batchId => 0x22 :: bytesOf 2 batchId
  | .readBatch position => [0x23, position]
  | .readInterface selector => [0x30, selector]
  | .takeTicket => [0x40]
  | .setMode value => [0x50, value]
  | .resume => [0x51]
  | .clearOutlet index => [0x52, index]
  | .route index => [0x53, index]
where
  /-- The sixteen parameter bytes of ADD BATCH and AMEND BATCH (section 3.4). -/
  batchBytes (f : BatchFields) : List Byte :=
    bytesOf 2 f.batchId ++ [f.product] ++ bytesOf 4 f.nominal ++ [f.disposition] ++ bytesOf 4 f.delivery
      ++ bytesOf 4 f.certified

/-- The command of a request from `src`: SET MODE with 0 is SET_MODE_MANUAL, with any other byte SET_MODE_AUTO
(log 26). -/
def commandOf (src : Byte) (q : Request) : Instr :=
  match q with
  | .ping ps => .ping src ps
  | .ident => .ident src
  | .readStatus => .readStatus src
  | .setNotices master enables => .setNotices src master enables
  | .restart => .restart src
  | .putProduct index e => .putProduct src index e
  | .putOutlet index e => .putOutlet src index e
  | .putRule running arriving e => .putRule src running arriving e
  | .putSegment r => .putSegment src r
  | .commit => .commit src
  | .withdraw => .withdraw src
  | .sumTables selector => .sumTables src selector
  | .addBatch f => .addBatch src f
  | .amendBatch f => .amendBatch src f
  | .dropBatch batchId => .dropBatch src batchId
  | .readBatch position => .readBatch src position
  | .readInterface selector => .readInterface src selector
  | .takeTicket => .takeTicket src
  | .setMode value => if value = 0 then .setModeManual src else .setModeAuto src value
  | .resume => .resume src
  | .clearOutlet index => .clearOutlet src index
  | .route index => .route src index

/-- The source and the kind byte of a command that is a request. -/
def requestOfCommand (c : Instr) : Option (Byte × Byte) :=
  match c with
  | .unknownRequest src payload => some (src, payload.headD 0)
  | .ping src _ => some (src, 0x01)
  | .ident src => some (src, 0x02)
  | .readStatus src => some (src, 0x03)
  | .setNotices src _ _ => some (src, 0x04)
  | .restart src => some (src, 0x05)
  | .putProduct src _ _ => some (src, 0x10)
  | .putOutlet src _ _ => some (src, 0x11)
  | .putRule src _ _ _ => some (src, 0x12)
  | .putSegment src _ => some (src, 0x13)
  | .commit src => some (src, 0x14)
  | .withdraw src => some (src, 0x15)
  | .sumTables src _ => some (src, 0x16)
  | .addBatch src _ => some (src, 0x20)
  | .amendBatch src _ => some (src, 0x21)
  | .dropBatch src _ => some (src, 0x22)
  | .readBatch src _ => some (src, 0x23)
  | .readInterface src _ => some (src, 0x30)
  | .takeTicket src => some (src, 0x40)
  | .setModeAuto src _ => some (src, 0x50)
  | .setModeManual src => some (src, 0x50)
  | .resume src => some (src, 0x51)
  | .clearOutlet src _ => some (src, 0x52)
  | .route src _ => some (src, 0x53)
  | _ => none

/-- The pending events as three bytes: the sum of 2^(n - 1) over each set latch n (R172). -/
def pendingLatchBytes (s : State) : List Byte :=
  beBytes 3 ((List.finRange 17).map (fun i => if s.nu.latches[i].isSome then 2 ^ i.val else 0)).sum

/-- The code of a manifold mode (R121). -/
def modeCode : Mode → Byte
  | .manual => 0
  | .auto => 1
  | .held => 2

/-- The code of the tracker's state, EXCURSION counted as 1 (R70). -/
def trackerCode (s : State) : Byte :=
  match s.it.state with
  | .quiet => if s.it.excursion then 1 else 0
  | .watch => 2
  | .mixing => 3
  | .fallback => 4
  | .overdue => 5

/-- The code of the engine's state (R102). -/
def engineCode : EngineState → Byte
  | .idle => 0
  | .openNew => 1
  | .overlap => 2
  | .closeOld => 3
  | .recovery => 4
  | .faulted => 5

/-- An outlet as a byte, 0xFF for none. -/
def outletCode : Option Outlet → Byte
  | some o => BitVec.ofNat 8 o.val
  | none => 0xFF

/-- An outlet's byte in READ STATUS: its confirmed position, plus 16 when it is not available (R172). -/
def outletState (s : State) (o : Outlet) : Byte :=
  BitVec.ofNat 8
    ((match s.mg.valves[o].confirmed with
      | .unknown => 0
      | .closed => 1
      | .opened => 2
      | .fault => 3) + if s.mg.valves[o].available then 0 else 16)

/-- The byte 1 or 0. -/
def bitByte (b : Bool) : Byte := if b then 1 else 0

/-- The 29 data bytes of READ STATUS (R172). -/
def statusBytes (s : State) : List Byte :=
  [modeCode s.mg.mode, trackerCode s, engineCode s.cs.engine, outletCode s.mg.openOrder.getLast?]
    ++ beBytes 6 s.vc.lineCount.toNat ++ [bitByte (s.vc.lineState == .moving)]
    ++ beBytes 2 (BitVec.ofInt 16 s.de.offset).toNat ++ [BitVec.ofNat 8 s.bq.length, bitByte s.ts.armed]
    ++ (List.finRange 10).map (outletState s) ++ pendingLatchBytes s ++ [bitByte s.nu.master]

/-! ## Batches, interfaces and tickets -/

/-- A delivery volume or certified density of 0 is stored as absent (R39, R44). -/
def storedOption (x : BitVec 32) : Option (BitVec 32) := if x = 0 then none else some x

/-- A disposition byte (section 3.4). -/
def dispositionCode : Disposition → Byte
  | .deliver => 0
  | .deliverPart => 1
  | .passBy => 2

/-- The record of a request's fields (R39, R44). -/
def recordWith (f : BatchFields) (predicted : Mark) (actual : Option Mark) : BatchRecord where
  batchId := f.batchId
  product := f.product
  nominal := f.nominal
  disposition := if f.disposition = 0 then .deliver else if f.disposition = 1 then .deliverPart else .passBy
  delivery := storedOption f.delivery
  certified := storedOption f.certified
  predicted := predicted
  actual := actual

/-- A product code counts as present: an active entry holds it, and while an apply is armed a pending one too (R26). -/
def Present (s : State) (code : Byte) : Prop :=
  code ≠ 0 ∧ (∃ i : Fin 16, s.ts.active.products[i].code = code)
    ∧ (s.ts.armed = true → ∃ i : Fin 16, s.ts.pending.products[i].code = code)

/-- The destination of a batch's product: that of the first active entry that holds its code (R17, R36). -/
def destinationOf (s : State) (b : BatchRecord) : Byte :=
  match s.ts.active.products.toList.find? (fun p => p.code != 0 && p.code == b.product) with
  | some p => p.destination
  | none => 0

/-- First destination as READ BATCH states it: 0 … 7 for a lane, 9 for PASS (R36). -/
def firstDestination (s : State) (b : BatchRecord) : Byte :=
  if b.disposition = .passBy then 9 else if (destinationOf s b).toNat < 8 then destinationOf s b else 9

/-- Second destination as READ BATCH states it: 9 for a DELIVER_PART batch whose product has a lane (R36). -/
def secondDestinationCode (s : State) (b : BatchRecord) : Byte :=
  if b.disposition = .deliverPart ∧ (destinationOf s b).toNat < 8 then 9 else 0xFF

/-- The 33 data bytes of READ BATCH (R49). -/
def batchRecordBytes (s : State) (position : Byte) (b : BatchRecord) : List Byte :=
  [BitVec.ofNat 8 s.bq.length, position] ++ bytesOf 2 b.batchId ++ [b.product] ++ bytesOf 4 b.nominal
    ++ [dispositionCode b.disposition] ++ bytesOf 4 (b.delivery.getD 0) ++ bytesOf 4 (b.certified.getD 0)
    ++ bytesOf 6 b.predicted ++ [bitByte b.actual.isSome] ++ bytesOf 6 (b.actual.getD 0)
    ++ [firstDestination s b, secondDestinationCode s b]

/-- A number as the sum of the values of the conditions that hold. -/
def sumOf (l : List (Bool × Nat)) : Byte := BitVec.ofNat 8 (l.map (fun x => if x.1 then x.2 else 0)).sum

/-- The 76 data bytes of READ INTERFACE (R96); `state` is the tracker's code, 0 for a history record. -/
def interfaceRecordBytes (selector state : Byte) (r : InterfaceRecord) : List Byte :=
  [selector, state] ++ bytesOf 2 r.runningId ++ bytesOf 2 r.arrivingId
    ++ [match r.disposition with
        | .transmix => (0 : Byte)
        | .intoRunning => 1
        | .intoArriving => 2
        | .midpoint => 3]
    ++ bytesOf 4 r.expectedWidth ++ bytesOf 6 r.predicted ++ bytesOf 6 r.openMark ++ bytesOf 6 r.closeMark
    ++ [BitVec.ofNat 8 r.extensions] ++ beBytes 4 r.standExt
    ++ [match r.cutMode with
        | .density => (0 : Byte)
        | .lowContrast => 1
        | .densityLost => 2,
        sumOf [(r.startMark.isSome, 1), (r.headCut.isSome, 2), (r.midpoint.isSome, 4), (r.tailCut.isSome, 8),
          (r.endMark.isSome, 16), (r.drift.isSome, 32)]]
    ++ bytesOf 6 (r.startMark.getD 0) ++ bytesOf 6 (r.headCut.getD 0) ++ bytesOf 6 (r.midpoint.getD 0)
    ++ bytesOf 6 (r.tailCut.getD 0) ++ bytesOf 6 (r.endMark.getD 0) ++ bytesOf 6 (BitVec.ofInt 48 (r.drift.getD 0))
    ++ bytesOf 2 (BitVec.ofInt 16 r.lastFraction)
    ++ [BitVec.ofNat 8 (min r.blindCount 255),
        sumOf [(r.widest, 1), (r.overdue, 2), (r.forcedEnd, 4), (r.manual, 8)]]

/-- An interface width as four bytes: 0 when absent, the greatest figure when larger (R150). -/
def statedWidth (w : Option Mark) : List Byte :=
  beBytes 4 (match w with
    | none => 0
    | some m => if 4294967295 < m.toNat then 4294967295 else m.toNat)

/-- The 69 data bytes of TAKE TICKET, `remaining` tickets being left (R150). -/
def ticketBytes (remaining : Nat) (t : Ticket) (unticketed : Mark) : List Byte :=
  [BitVec.ofNat 8 remaining] ++ bytesOf 2 t.account.batch ++ [t.account.product, outletCode t.account.ownLane]
    ++ bytesOf 6 t.opened ++ bytesOf 6 (t.closed.getD 0) ++ bytesOf 6 t.ownLitres ++ bytesOf 6 t.transmix
    ++ bytesOf 6 t.pass ++ bytesOf 6 t.otherLanes ++ bytesOf 6 t.unrouted
    ++ [sumOf [(t.account.headWidth.isSome, 1), (t.account.tailWidth.isSome, 2)]]
    ++ statedWidth t.account.headWidth ++ statedWidth t.account.tailWidth ++ bytesOf 6 t.account.lateness
    ++ [sumOf [(t.account.fallback, 1), (t.account.overdue, 2), (t.account.excursion, 4), (t.account.wide, 8),
          (t.predecessorDiscarded, 16)]]
    ++ bytesOf 6 unticketed

/-- The open mark that a batch has at position 1: its head mark minus the early margin (R73). -/
def openMarkAt (s : State) (b : BatchRecord) : Mark := headMark b - s.ts.active.segment.earlyMargin.setWidth 48

/-- No window opens when `b` stands at position 1: a window is open already, or the open mark is not reached (R73). -/
def NoWindowAt (s : State) (b : BatchRecord) : Prop :=
  s.it.state ≠ .quiet ∨ reached s.vc.lineCount (openMarkAt s b) = false

/-- The empty ticket of a batch with own lane `lane`, opened at `opened` (R144, R145). -/
def emptyTicket (batchId : BatchId) (product : Byte) (lane : Option Outlet) (opened : Mark) : Ticket where
  account := ⟨batchId, product, lane, 0, none, none, false, false, false, false, false⟩
  opened := opened
  closed := none
  ownLitres := 0
  transmix := 0
  pass := 0
  otherLanes := 0
  unrouted := 0
  predecessorDiscarded := false

/-- The batches of `t` are those of `s` from position `i` of `s` and `j` of `t` on, but for predicted head marks. -/
def MovedUp (s t : List BatchRecord) (i j : Nat) : Prop :=
  ∀ n c, s[i + n]? = some c → ∃ m, t[j + n]? = some { c with predicted := m }

/-- The predicted head marks from position `k` on are linked (R37). -/
def LinkedFrom (bq : List BatchRecord) (k : Nat) : Prop :=
  ∀ n b c, k ≤ n → bq[n]? = some b → bq[n + 1]? = some c → c.predicted = headMark b + b.nominal.setWidth 48

/-- R44: the queue `new` is `old` with the fields `f` given to its record `b` at position `k`; where the nominal volume
changed, the predicted head marks behind it are linked anew. -/
structure QueueAmended (f : BatchFields) (k : Nat) (b : BatchRecord) (old new : List BatchRecord) : Prop where
  length : new.length = old.length
  ahead : ∀ i, i < k → new[i]? = old[i]?
  amended : new[k]? = some (recordWith f b.predicted b.actual)
  behind : if b.nominal = f.nominal then ∀ i, k < i → new[i]? = old[i]?
    else MovedUp old new (k + 1) (k + 1) ∧ LinkedFrom new k

/-- R45: the queue `new` is `old` without its record at position `k`, the records behind it moved up and linked anew. -/
structure QueueShortened (k : Nat) (old new : List BatchRecord) : Prop where
  length : new.length + 1 = old.length
  ahead : ∀ i, i < k → new[i]? = old[i]?
  moved : MovedUp old new (k + 1) k
  linked : LinkedFrom new (k - 1)

/-- The position test of AMEND BATCH for the batch `b` at position `k` (R43). -/
def MayBeAmended (s : State) (k : Nat) (b : BatchRecord) (f : BatchFields) : Prop :=
  2 ≤ k ∨ (s.it.state = .quiet ∧ (k = 1 ∨ (k = 0 ∧ b.product = f.product
    ∧ b.disposition = (recordWith f 0 none).disposition ∧ b.delivery = storedOption f.delivery)))

/-- The reference density of a batch (R35). -/
def referenceDensity (s : State) (b : BatchRecord) : Int :=
  match b.certified with
  | some x => x.toNat
  | none => (s.product b.product).reference.toNat

/-- The interface record of a window between `b0` and `b1` that opens in density mode (R74, R75). -/
def densityRecord (s : State) (b0 b1 : BatchRecord) (e : RuleEntry) : InterfaceRecord where
  runningId := b0.batchId
  arrivingId := b1.batchId
  disposition := if e.disposition = 0 then .transmix else if e.disposition = 1 then .intoRunning
    else if e.disposition = 2 then .intoArriving else .midpoint
  expectedWidth := e.expectedWidth
  predicted := b1.predicted
  openMark := openMarkAt s b1
  closeMark := headMark b1 + s.ts.active.segment.lateMargin.setWidth 48
  extensions := 0
  standExt := 0
  cutMode := .density
  startMark := none
  headCut := none
  midpoint := none
  tailCut := none
  endMark := none
  drift := none
  lastFraction := 0
  blindCount := 0
  widest := false
  overdue := false
  forcedEnd := false
  manual := false

/-! ## Samples and evaluations -/

/-- A quotient rounded half away from zero (Conventions). -/
def roundedQuotient (num den : Int) : Int :=
  if 0 ≤ num * den then ((2 * num.natAbs + den.natAbs) / (2 * den.natAbs) : Nat)
  else -((2 * num.natAbs + den.natAbs) / (2 * den.natAbs) : Nat)

/-- The β in force for a sample (R55): entry 0's, or entry 1's in a window whose last fraction is 500 or more. -/
def betaInForce (s : State) : Nat :=
  let entry := match s.it.state, s.it.record with
    | .quiet, _ => s.bq.head?
    | _, some r => if r.lastFraction < 500 then s.bq.head? else s.bq[1]?
    | _, none => s.bq.head?
  match entry with
  | some b => (s.product b.product).beta.toNat
  | none => 0

/-- The correction of R56 with the temperature clamp of R54. -/
def correctionAt (beta : Nat) (temperature : Int) : Int :=
  roundedQuotient
    (beta * ((if temperature < -4000 then -4000 else if 8000 < temperature then 8000 else temperature) - 1500)) 1000

/-- The newest `n` densities of the ring, newest first. -/
def newestOf (n : Nat) (ring : List Sample) : List Int := (ring.reverse.take n).map (·.density)

/-- The figure due at a non-blind evaluation with offset-corrected density `d` (R58, R63, R64). -/
def figureAt (s : State) (d : Int) : Figure :=
  match s.it.state, s.bq.head?, s.de.pair with
  | .quiet, some b, _ => .deviation (d - referenceDensity s b)
  | .quiet, none, _ => .absent
  | .fallback, _, _ => .absent
  | _, _, some p => .fraction (max 0 (min 1000 (roundedQuotient (1000 * (d - p.running)) p.contrast)))
  | _, _, none => .absent

/-! ## The manifold -/

/-- Valve address `a` is that of outlet `o` and of no other (tests 6 and 7 of R24). -/
def AddressOf (s : State) (o : Outlet) (a : Byte) : Prop :=
  ∀ p : Outlet, s.ts.active.outlets[p].valveAddress = a ↔ p = o

/-- What a report with position byte `b` makes of a valve record (the table of R123). -/
def recordAfter (b : Byte) (v : ValveRecord) : ValveRecord :=
  if b = 3 then { v with confirmed := .fault, lastReport := some .fault }
  else if b = 2 then { v with lastReport := some .travel }
  else if b = 1 then
    (if v.lastReport = some .opened ∧ v.confirmed ≠ .opened then { v with confirmed := .opened }
    else { v with lastReport := some .opened })
  else
    (if v.lastReport = some .closed ∧ v.confirmed ≠ .closed then { v with confirmed := .closed }
    else { v with lastReport := some .closed })

/-- R124: the open order after an outlet's confirmed position went from `was` to `is`. -/
def openOrderAfter (o : Outlet) (was is : Position) (order : List Outlet) : List Outlet :=
  if was ≠ .opened ∧ is = .opened then order ++ [o]
  else if was = .opened ∧ is ≠ .opened then order.filter (fun p => p ≠ o)
  else order

/-- R127: an outlet is standing open. -/
def StandsOpen (s : State) (o : Outlet) : Prop :=
  s.mg.valves[o].confirmed = .opened ∧ s.mg.valves[o].commanded ≠ some .close

/-- R127: a CLOSE for outlet `o` would take the last outlet standing open off a moving line. -/
def LastStandingOpen (s : State) (o : Outlet) : Prop :=
  s.vc.lineState = .moving ∧ StandsOpen s o ∧ ∀ p : Outlet, p ≠ o → ¬ StandsOpen s p

/-- R130: an outlet is usable. -/
def Usable (s : State) (o : Outlet) : Prop :=
  s.ts.active.outlets[o].enabled = 1 ∧ s.mg.valves[o].available = true

/-- A valve command of the part joined the FIELD originated queue (R106, R128). -/
structure CommandSent (o : Outlet) (move : ValveMove) (s t : State) : Prop where
  rx : t.liu.field.rx = s.liu.field.rx
  forward : t.liu.field.forward = s.liu.field.forward
  originated : t.liu.field.originated = s.liu.field.originated
    ++ [⟨s.ts.active.outlets[o].valveAddress, s.liu.address, 0x32, [if move = .opens then 1 else 0]⟩]
  sending : ∀ x, s.liu.field.tx = some x → t.liu.field.tx = some x

/-- A command for outlet `o` can enter the FIELD originated queue at once (R106). -/
def CommandEnters (s : State) (o : Outlet) : Prop :=
  s.liu.field.originated.length < 4 ∧ ∀ c ∈ s.cs.commands, c.outlet ≠ o

/-- Outlet `o` with commanded position `move` (R123). -/
def commandedAs (s : State) (o : Outlet) (move : ValveMove) : Vector ValveRecord 10 :=
  s.mg.valves.set o { s.mg.valves[o] with commanded := some move }

/-! ## The sequence engine -/

/-- One of an outlet's times in milliseconds: units of 100 ms, times the multiplier where its map bit is set (R105). -/
def timeMs (e : OutletEntry) (units : Byte) (bit : Nat) : Nat :=
  units.toNat * 100 * (if e.map.getLsbD bit then e.multiplier.toNat else 1)

/-- The recovery time of a sequence: the highest of its terms (R110). -/
def recoveryTime (s : State) (q : Sequence) : Nat :=
  let e := s.ts.active.outlets[q.newOutlet]
  max (max
      (match q.oldOutlet with
        | some o => timeMs s.ts.active.outlets[o] s.ts.active.outlets[o].releaseSettle 3
        | none => 0)
      (timeMs e e.entrySettle 4))
    (max
      (if q.action.familyChange = true ∧ q.action.reason ∈ [Reason.head, .tail, .single]
        then s.ts.active.segment.familySettle.toNat * 1000 else 0)
      (if s.cs.lastAway = some q.newOutlet then s.ts.active.segment.reversalSettle.toNat * 1000 else 0))

/-- The CS in RECOVERY from moment `now` after sequence `q` (R110). -/
def recovering (s : State) (q : Sequence) (now : Time) : Sequencer :=
  { s.cs with
    engine := .recovery, queue := s.cs.queue.tail, sequence := none, phase := none, stroke := none
    lastAway := q.oldOutlet
    recovery := if recoveryTime s q = 0 then none else some ⟨now, recoveryTime s q⟩ }

/-- The code of a reason (R98). -/
def reasonNumber : Reason → Nat
  | .head => 0
  | .tail => 1
  | .single => 2
  | .volume => 3
  | .forced => 4
  | .align => 5

/-- The context of CUT_DONE at the end of sequence `q` (R118). -/
def cutDoneContext (s : State) (q : Sequence) : Context where
  batch := q.action.batch
  count := s.vc.lineCount
  outlet := some q.action.target
  flags := reasonNumber q.action.reason + (if q.mismatch then 16 else 0) + (if q.isRoute then 32 else 0)
  value := (min q.lateness 2147483647 : Nat)

/-- The CS in OPEN_NEW: action `a`, alone in the queue, began to move the flow to its to outlet (R104, R107). -/
def openingFor (s : State) (a : Action) (isRoute : Bool) : Sequencer :=
  let e := s.ts.active.outlets[a.target]
  { s.cs with
    queue := [a], engine := .openNew
    sequence := some ⟨a, isRoute, a.target, s.mg.openOrder.getLast?, false, 0, false, false⟩
    phase := some ⟨s.now, timeMs e e.openTime 0⟩
    stroke := if s.mg.valves[a.target].confirmed = .opened then s.cs.stroke
      else some ⟨s.now, e.strokeTimeout.toNat * 1000⟩ }

/-- The action that moves the flow from the routed outlet to `o` now (R116, R132). -/
def moveNow (s : State) (reason : Reason) (o : Outlet) : Action :=
  ⟨reason, (s.bq.head?.map (·.batchId)).getD 0, s.mg.openOrder.getLast?, o, none, s.vc.lineCount, false⟩

end Sys2Proof.Machine
end

