-- ==== Sys2Proof/Safety/Effects.lean ====
section
/-! DEFINITION. The words in which the statements say what the blocks do within one event: an advance counted and booked,
an action inserted and started, a failure, a window with its decisions and its end, an apply; and which expiry is due
while nothing is commanded. -/

namespace Sys2Proof.Machine

/-! ## Time -/

/-- The expiry `c` is due: its timer runs and has reached its length (R8, R9, R105), the engine being in the phase that
the expiry ends; or the sum in progress has run for 10 ms (R32; log 5). -/
inductive ExpiryDue (s : State) : Instr → Prop where
  | silence (start : Time) : s.vc.silenceTimer = some start →
      start + s.ts.active.segment.silenceTime.toNat * 1000 ≤ s.now → ExpiryDue s .silenceTimerExpiry
  | still (start : Time) : s.vc.stillTimer = some start →
      start + s.ts.active.segment.stillTime.toNat * 1000 ≤ s.now → ExpiryDue s .stillTimerExpiry
  | openTime (tm : Timer) : s.cs.phase = some tm → s.cs.engine = .openNew → tm.start + tm.length ≤ s.now →
      ExpiryDue s .openTimeExpiry
  | overlap (tm : Timer) : s.cs.phase = some tm → s.cs.engine = .overlap → tm.start + tm.length ≤ s.now →
      ExpiryDue s .overlapExpiry
  | closeTime (tm : Timer) : s.cs.phase = some tm → s.cs.engine = .closeOld → tm.start + tm.length ≤ s.now →
      ExpiryDue s .closeTimeExpiry
  | stroke (tm : Timer) : s.cs.stroke = some tm → tm.start + tm.length ≤ s.now → ExpiryDue s .strokeTimerExpiry
  | recovery (tm : Timer) : s.cs.recovery = some tm → tm.start + tm.length ≤ s.now → ExpiryDue s .recoveryExpiry
  | sum (j : SumJob) : s.ts.sum = some j → j.start + 10 ≤ s.now → ExpiryDue s .sumComplete

/-! ## Events and the end of an event -/

/-- `s` with event `e` latched with context `c`; the emission test is due (R175, R176). -/
def raised (e : Event) (c : Context) (s : State) : State :=
  { s with nu := { s.nu with latches := s.nu.latches.set (eventIndex e) (latchedAfter s.nu e c), testDue := true } }

/-- The id of entry 0, or 0 when the queue is empty. -/
def headId (s : State) : BatchId := (s.bq.head?.map (·.batchId)).getD 0

/-- The notice of event `e` formed from latch `l` (R176). -/
def noticeOf (s : State) (e : Event) (l : Latch) : Frame :=
  ⟨s.nu.address, s.liu.address, 0x51,
    [BitVec.ofNat 8 ((eventIndex e).val + 1), BitVec.ofNat 8 (l.context.flags + (if l.again then 128 else 0))]
      ++ bytesOf 2 l.context.batch ++ beBytes 4 l.context.count.toNat ++ [outletCode l.context.outlet]
      ++ beBytes 4 (BitVec.ofInt 32 l.context.value).toNat⟩

/-- R176: one notice formed: the three conditions hold, and the emittable latch of lowest number is cleared, its notice
last in the CONTROL originated queue. -/
def NoticeFormed (s t : State) : Prop :=
  s.liu.control.originated.length < 4 ∧ s.mr.heldResponse = none
  ∧ ∃ (e : Event) (l : Latch), s.nu.latches[eventIndex e] = some l ∧ Reported s.nu e
    ∧ (∀ d : Event, (eventIndex d).val < (eventIndex e).val → ¬ Emittable s.nu d)
    ∧ t = { s with
        nu := { s.nu with latches := s.nu.latches.set (eventIndex e) none }
        liu := { s.liu with control := { s.liu.control with
          originated := s.liu.control.originated ++ [noticeOf s e l] } } }

/-- The emission test of R176: notices are formed one after another while the three conditions hold together. -/
inductive NoticesFormed : State → State → Prop where
  | done (s : State) : NoticesDone s → NoticesFormed s s
  | formed (s t u : State) : NoticeFormed s t → NoticesFormed t u → NoticesFormed s u

/-- R160: an idle transmitter begins the head of its originated queue, or else of its forward queue (log 9). -/
def begun (l : PortLink) : PortLink :=
  { l with tx := match l.tx with
    | some x => some x
    | none =>
      if l.originated ≠ [] then some .originated else if l.forward ≠ [] then some .forward else none }

/-- `t` is `u` at the end of the event: the emission test, where one is due (R176, log 8), then both transmitters. -/
def EndsEvent (u t : State) : Prop :=
  ∃ w : State,
    (if u.nu.testDue = true then NoticesFormed { u with nu := { u.nu with testDue := false } } w else w = u)
    ∧ t = { w with liu := { w.liu with field := begun w.liu.field, control := begun w.liu.control } }

/-- `s` with the emission test due (R176). -/
def tested (s : State) : State := { s with nu := { s.nu with testDue := true } }

/-- A reception on CONTROL ended: the receiver in HUNT (R153). -/
def received (s : State) : State :=
  { s with liu := { s.liu with control := { s.liu.control with rx := .hunt } } }

/-- R169: the response of payload `payload` offered: last in the CONTROL originated queue and the MR READY, or held and
the MR in HOLDING where that queue is full. -/
def responseOffered (src kind : Byte) (payload : List Byte) (u : State) : State :=
  if u.liu.control.originated.length < 4 then
    { u with
      liu := { u.liu with control := { u.liu.control with
        originated := u.liu.control.originated ++ [responseOf u src payload] } }
      mr := { u.mr with state := .ready, service := none, heldResponse := none } }
  else { u with mr := { u.mr with
    state := .holding, service := some ⟨src, kind⟩, heldResponse := some (responseOf u src payload) } }

/-- `t` is `u` at the end of a request's event: the response is offered before the emission test (R169). -/
def EndsRequest (src kind : Byte) (payload : List Byte) (u t : State) : Prop :=
  EndsEvent (responseOffered src kind payload u) t

/-- R155: a frame received on FIELD and offered to the CONTROL forward queue. -/
def forwarded (f : Frame) (s : State) : State :=
  { s with liu := { s.liu with
      field := { s.liu.field with rx := .hunt }
      control := { s.liu.control with
        forward := if s.liu.control.forward.length < 8 then s.liu.control.forward ++ [f] else s.liu.control.forward } } }

/-! ## Destinations and the lane trap -/

/-- The outlet of a batch's first destination (R36, R80). -/
def destinationOutlet (s : State) (b : BatchRecord) : Outlet :=
  if h : (firstDestination s b).toNat < 10 then ⟨(firstDestination s b).toNat, h⟩ else 9

/-- The own lane of a batch's ticket (R36, R140). -/
def laneOf (s : State) (b : BatchRecord) : Option Outlet :=
  if (destinationOutlet s b).val < 8 then some (destinationOutlet s b) else none

/-- The delivery volume after which a batch goes on from its lane to P (R36, R90). -/
def deliveryVolume (s : State) (b : BatchRecord) : Option (BitVec 32) :=
  if b.disposition = .deliverPart ∧ (destinationOutlet s b).val < 8 then b.delivery else none

/-- The relief outlet (R20). -/
def reliefOf (s : State) : Outlet :=
  if h : s.ts.active.segment.reliefOutlet.toNat < 10 then ⟨s.ts.active.segment.reliefOutlet.toNat, h⟩ else 9

/-- R130: where an action to outlet `o` goes: there when it is usable, else to T when T is, else to the relief
outlet. -/
def goesTo (s : State) (o : Outlet) : Outlet :=
  if s.ts.active.outlets[o].enabled = 1 ∧ s.mg.valves[o].available = true then o
  else if s.ts.active.outlets[(8 : Outlet)].enabled = 1 ∧ s.mg.valves[(8 : Outlet)].available = true then 8
  else reliefOf s

/-- R130 and R137: LANE_TRAP raised where the action is redirected, at the moment coded `moment`. -/
def trapNoted (moment : Nat) (batch : BatchId) (o : Outlet) (s : State) : State :=
  if goesTo s o = o then s
  else raised .laneTrap
    ⟨batch, s.vc.lineCount, some (goesTo s o),
      moment + (if s.ts.active.outlets[(8 : Outlet)].enabled = 1 ∧ s.mg.valves[(8 : Outlet)].available = true then 0
        else 4), o.val⟩ s

/-! ## Manifold commands and valve commands -/

/-- R126: the outlet that a manifold command names: a VALVE COMMAND to its valve address in the active table. -/
def manifoldTo (s : State) (f : Frame) : Option Outlet :=
  if f.kind = 0x32 then (List.finRange 10).find? (fun o => s.ts.active.outlets[o].valveAddress == f.dst) else none

/-- R126, R158 and R161: the manifold commands withdrawn from the FIELD forward queue: the frames remaining close up, one
that was being sent is cut off, and for each the commanded position becomes NONE and MANIFOLD_OWNED is raised. -/
def withdrawn (s : State) : State :=
  let left : State := { s with liu := { s.liu with field := { s.liu.field with
    forward := s.liu.field.forward.filter (fun f => (manifoldTo s f).isNone)
    tx := if s.liu.field.tx = some .forward ∧ (s.liu.field.forward.head?.any (fun f => (manifoldTo s f).isSome)) = true
      then none else s.liu.field.tx } } }
  (s.liu.field.forward.filter (fun f => (manifoldTo s f).isSome)).foldl (fun t f =>
    match manifoldTo s f with
    | none => t
    | some o =>
      raised .manifoldOwned
        ⟨headId s, s.vc.lineCount, some o,
          (if f.payload = [0] then 0 else if f.payload = [1] then 1 else 2) + 4, f.src.toNat⟩
        { t with mg := { t.mg with valves := t.mg.valves.set o { t.mg.valves[o] with commanded := none } } }) left

/-- R121 and R134: a cause of HELD: outside HELD the resume mode is the mode before, and manifold commands are
withdrawn. -/
def heldEntered (s : State) : State :=
  if s.mg.mode = .held then s else withdrawn { s with mg := { s.mg with mode := .held, resumeMode := s.mg.mode } }

/-- R105: a timer started with a length; of length 0 it expires at once. -/
def timerOf (now : Time) (length : Nat) : Option Timer := if length = 0 then none else some ⟨now, length⟩

/-- The sequence whose present phase waits for command `c` (R107, R109). -/
def awaiting (c : Command) (s : State) : Option Sequence :=
  s.cs.sequence.filter (fun q =>
    (s.cs.engine == .openNew && c == ⟨q.newOutlet, .opens⟩)
      || (s.cs.engine == .closeOld && c.move == .close && q.oldOutlet == some c.outlet))

/-- R106 and R128: command `c` enters the FIELD originated queue; the one that the phase waits for starts its stroke timer
unless its confirmation stands. -/
def commandSent (c : Command) (s : State) : State :=
  let e := s.ts.active.outlets[c.outlet]
  { s with
    liu := { s.liu with field := { s.liu.field with
      originated := s.liu.field.originated
        ++ [⟨e.valveAddress, s.liu.address, 0x32, [if c.move = .opens then 1 else 0]⟩] } }
    mg := { s.mg with valves := commandedAs s c.outlet c.move }
    cs := { s.cs with
      sequence := match awaiting c s with
        | some q => some { q with closeSent := s.cs.engine == .closeOld }
        | none => s.cs.sequence
      stroke := match awaiting c s with
        | some q =>
          if (if s.cs.engine = .openNew then s.mg.valves[q.newOutlet].confirmed = .opened else q.closeConfirmed = true) then
            s.cs.stroke
          else some ⟨s.now, e.strokeTimeout.toNat * 1000⟩
        | none => s.cs.stroke } }

/-- R106: command `c` formed: it replaces one for its outlet in the command list; otherwise it enters the FIELD originated
queue when a place is free, but for a CLOSE of the only outlet confirmed OPEN on a moving line, which is discarded; and
waits at the tail of the list when none is. -/
def commandFormed (c : Command) (s : State) : State :=
  if s.cs.commands.any (fun d => d.outlet == c.outlet) then
    { s with cs := { s.cs with commands := s.cs.commands.map (fun d => if d.outlet = c.outlet then c else d) } }
  else if s.liu.field.originated.length < 4 then
    (if c.move = .close ∧ s.vc.lineState = .moving ∧ s.mg.openOrder = [c.outlet] then s else commandSent c s)
  else { s with cs := { s.cs with commands := s.cs.commands ++ [c] } }

/-- R129, R115 and R137: what the dead-head guard does: the OPEN for the relief outlet unless it is commanded OPEN or has
one waiting, DEAD_HEAD, HELD from AUTO, and the sequence abandoned. -/
def guardActed (byStart : Bool) (s : State) : State :=
  let opening : Bool := s.mg.valves[reliefOf s].commanded == some .opens || s.cs.commands.contains ⟨reliefOf s, .opens⟩
  let a := raised .deadHead
    ⟨headId s, s.vc.lineCount, some (reliefOf s), (if opening then 2 else 0) + (if byStart then 4 else 0),
      (modeCode s.mg.mode).toNat⟩
    (if opening then s else commandFormed ⟨reliefOf s, .opens⟩ s)
  let b := if s.mg.mode = .auto then heldEntered a else a
  if s.cs.engine = .idle ∨ s.cs.engine = .faulted then b
  else { b with cs := { b.cs with
    engine := .faulted, sequence := none, phase := none, stroke := none, recovery := none } }

/-- R129: the guard acts when the line is MOVING and the open order is empty. -/
def guarded (byStart : Bool) (s : State) : State :=
  if s.vc.lineState = .moving ∧ s.mg.openOrder = [] then guardActed byStart s else s

/-! ## An advance -/

/-- R77: the stand extension grows by the still duration, within its cap, and the close mark with it. -/
def standGrown (seconds : Nat) (s : State) : State :=
  let grown := fun r : InterfaceRecord =>
    min (r.standExt + s.ts.active.segment.standGrowthRate.toNat * seconds / 3600) s.ts.active.segment.standGrowthCap.toNat
  { s with it := { s.it with record := s.it.record.map (fun r => { r with
      standExt := grown r, closeMark := r.closeMark + BitVec.ofNat 48 (grown r - r.standExt) }) } }

/-- R9 and R10: the line settled by a non-zero increment; one that ends a still period raises LINE_STATE with the still
duration, reports it to the tracker, and lets the dead-head guard act (R129). -/
def lineSettled (s : State) : State :=
  let counting := { s with vc := { s.vc with lineState := .moving, stillTimer := some s.now, origin := s.now } }
  let seconds := min ((s.now - s.vc.origin) / 1000) 4294967295
  if s.vc.lineState = .moving then counting
  else guarded true (standGrown seconds
    (raised .lineState ⟨headId s, s.vc.lineCount, none, 1, (min seconds 2147483647 : Nat)⟩ counting))

/-- R3, R4 and R7: a total taken that lies `n` litres, not 0, above the last one: the line is settled, the line count
advances, and a jump raises METER. -/
def counted (total n : BitVec 32) (s : State) : State :=
  let a := lineSettled { s with vc := { s.vc with lastTotal := some total, silenceTimer := some s.now } }
  let b := { a with vc := { a.vc with lineCount := a.vc.lineCount + n.setWidth 48 } }
  if b.ts.active.segment.maxMeterStep.toNat < n.toNat then
    raised .meter ⟨headId b, b.vc.lineCount, none, 0, (min n.toNat 2147483647 : Nat)⟩ b
  else b

/-- R11: the DE's part of an advance: one evaluation when its mark is reached, and the next mark one evaluation step
further on (for an apply within the evaluation, log 35). -/
def evaluationTurn (u : State) : State :=
  if reached u.vc.lineCount u.vc.nextEval then
    let v := evaluate u
    { v with vc := { v.vc with nextEval := v.vc.lineCount + v.ts.active.segment.evaluationStep.setWidth 48 } }
  else u

/-! ## Tickets -/

/-- R149: a closed ticket in the completed list, the oldest of sixteen giving way, and TICKET_READY raised. -/
def ticketCompleted (k : Ticket) (s : State) : State :=
  let kept := if 16 ≤ s.tu.completed.length then
      (match s.tu.completed with
        | _ :: b :: rest => { b with predecessorDiscarded := true } :: rest
        | _ => [])
    else s.tu.completed
  raised .ticketReady
    ⟨k.account.batch, k.closed.getD 0, k.account.ownLane,
      (if k.account.fallback then 1 else 0) + (if k.account.overdue then 2 else 0)
        + (if k.account.excursion then 4 else 0) + (if k.account.wide then 8 else 0), (kept.length + 1 : Nat)⟩
    { s with tu := { s.tu with completed := kept ++ [k] } }

/-- R144: the boundary `b` taken at `mark`: the current ticket closes, completed when its tail interface was reported and
closing otherwise, and the boundary's ticket opens; `rest` stays pending. -/
def boundaryTaken (b : Boundary) (rest : List Boundary) (mark : Mark) (s : State) : State :=
  let a := match s.tu.current with
    | none => s
    | some k =>
      if k.account.tailReported then
        ticketCompleted { k with closed := some mark } { s with tu := { s.tu with current := none } }
      else { s with tu := { s.tu with current := none, closing := some { k with closed := some mark } } }
  { a with tu := { a.tu with
      boundaries := rest
      current := some { emptyTicket b.account.batch b.account.product b.account.ownLane mark with account := b.account } } }

/-- R147 and R148: a report for batch `batch` placed in the first pending boundary of that batch. -/
def boundaryReported (batch : BatchId) (f : Account → Account) (tu : TicketUnit) : TicketUnit :=
  match tu.boundaries.findIdx? (fun b => b.account.batch == batch) with
  | some i => { tu with boundaries := tu.boundaries.modify i (fun b => { b with account := f b.account }) }
  | none => tu

/-- R148: a report placed in the current ticket, the closing ticket or a pending boundary; id 0 has no holder. -/
def accountReported (batch : BatchId) (f : Account → Account) (tu : TicketUnit) : TicketUnit :=
  if batch = 0 then tu
  else if tu.current.any (fun k => k.account.batch == batch) then
    { tu with current := tu.current.map (fun k => { k with account := f k.account }) }
  else if tu.closing.any (fun k => k.account.batch == batch) then
    { tu with closing := tu.closing.map (fun k => { k with account := f k.account }) }
  else boundaryReported batch f tu

/-- R146 and R147: what the end of an interface at `m` writes for its flags. -/
def flagsReported (r : InterfaceRecord) (a : Account) : Account :=
  { a with
    fallback := a.fallback || r.cutMode != .density
    overdue := a.overdue || r.overdue
    wide := a.wide || r.widest }

/-- R146: an interface width, 0 when the difference is 2^47 or more, absent without a start mark. -/
def widthOf (r : InterfaceRecord) (m : Mark) : Option Mark :=
  r.startMark.map (fun start => if (m - start).toNat < 2 ^ 47 then m - start else 0)

/-- R147: the end of an interface at `m` reported for its running batch: in the current ticket, in the closing ticket,
which is completed, or in a boundary. -/
def tailPlaced (r : InterfaceRecord) (m : Mark) (s : State) : State :=
  let write := fun a : Account => { flagsReported r a with tailWidth := (widthOf r m).or a.tailWidth, tailReported := true }
  if r.runningId = 0 then s
  else if s.tu.current.any (fun k => k.account.batch == r.runningId) then
    { s with tu := { s.tu with current := s.tu.current.map (fun k => { k with account := write k.account }) } }
  else
    match s.tu.closing with
    | some k =>
      if k.account.batch = r.runningId then
        ticketCompleted { k with account := write k.account } { s with tu := { s.tu with closing := none } }
      else { s with tu := boundaryReported r.runningId write s.tu }
    | none => { s with tu := boundaryReported r.runningId write s.tu }

/-- R147: the end of an interface at `m` reported for its arriving batch: in the current ticket or in a boundary. -/
def headPlaced (r : InterfaceRecord) (m : Mark) (s : State) : State :=
  let write := fun a : Account => { flagsReported r a with headWidth := (widthOf r m).or a.headWidth }
  if r.arrivingId = 0 then s
  else if s.tu.current.any (fun k => k.account.batch == r.arrivingId) then
    { s with tu := { s.tu with current := s.tu.current.map (fun k => { k with account := write k.account }) } }
  else { s with tu := boundaryReported r.arrivingId write s.tu }

/-! ## Marks -/

/-- Mark `m`, raised to mark `l` when there is one and `m` is lower (step 3 of R99, R81, R141). -/
def atLeast (l : Option Mark) (m : Mark) : Mark :=
  match l with
  | some x => if 1 ≤ (x - m).toNat ∧ (x - m).toNat < 2 ^ 47 then x else m
  | none => m

/-! ## Actions -/

/-- R99: the action of an offer as it is stored: through the lane trap, with its fire mark not lower than the last
one. -/
def storedAction (o : Offer) (s : State) : Action where
  reason := o.reason
  batch := o.batch
  source := o.source
  target := goesTo s o.target
  decision := match o.fire with
    | .fromDecision d => some d
    | _ => none
  fire := atLeast (s.cs.queue.getLast?.map (·.fire))
    (match o.fire with
      | .fromDecision d => d + s.ts.active.segment.leadVolume.setWidth 48
          + s.ts.active.outlets[goesTo s o.target].trim.signExtend 48
      | .given m => m
      | .now => s.vc.lineCount)
  familyChange := o.familyChange

/-- R99: an offer inserted at the tail of the queue. -/
def inserted (o : Offer) (s : State) : State :=
  let a := trapNoted 0 o.batch o.target s
  { a with cs := { a.cs with queue := a.cs.queue ++ [storedAction o s] } }

/-- R99: an offer inserted; where it stands at the head, the engine's start test is made at once. -/
def insertedNow (o : Offer) (s : State) : State :=
  if s.cs.queue = [] then engineRun (inserted o s) else inserted o s

/-- R90 and R100: the VOLUME action of a pair with `o`, its fire mark given. -/
def volumeOf (o : Offer) (fire : Mark) : Offer := ⟨.volume, o.batch, some o.target, 9, .given fire, false, none⟩

/-- R99 and R100: an offer accepted: its action inserted, and its VOLUME action behind it, a delivery volume beyond the
fire mark stored. -/
def accepted (o : Offer) (s : State) : State :=
  match o.volume with
  | none => insertedNow o s
  | some v => insertedNow (volumeOf o ((storedAction o s).fire + v.setWidth 48)) (insertedNow o s)

/-- R99 and R100: the places for an offer are free: one for an action, two for a pair. -/
abbrev PlacesFree (o : Offer) (s : State) : Prop :=
  s.cs.queue.length + (if o.volume = none then 1 else 2) ≤ 8

/-- R82, R99 and R100: an offer of the tracker: accepted while its places are free and nothing is held, and held
otherwise. -/
def offerTaken (o : Offer) (s : State) : State :=
  if s.it.held = [] ∧ PlacesFree o s then accepted o s
  else { s with it := { s.it with held := s.it.held ++ [o] } }

/-- R104 and R107: the move of sequence `q` begun, its action at the head of `queue`: OPEN_NEW with its phase timer, and
the OPEN formed. -/
def moveBegun (q : Sequence) (queue : List Action) (s : State) : State :=
  let e := s.ts.active.outlets[q.newOutlet]
  commandFormed ⟨q.newOutlet, .opens⟩ { s with cs := { s.cs with
    queue := queue, engine := .openNew, sequence := some q, phase := timerOf s.now (timeMs e e.openTime 0) } }

/-- R104: the head action `a` starts, `rest` behind it: through the lane trap, its lateness reported, LATE_CUT beyond the
late limit; removed with CUT_DONE where the flow is there already, and otherwise its move begins (for the route flag of
an action so removed, log 39). -/
def actionStarted (isRoute : Bool) (a : Action) (rest : List Action) (s : State) : State :=
  let d := goesTo s a.target
  let late := (s.vc.lineCount - a.fire).toNat
  let mismatch := s.mg.openOrder.getLast? != a.source
  let figure : Int := (min late 2147483647 : Nat)
  let s1 := trapNoted 1 a.batch a.target s
  let s2 := { s1 with
    tu := accountReported a.batch (fun x => { x with lateness := x.lateness + BitVec.ofNat 48 late }) s1.tu }
  let s3 := if s.ts.active.segment.lateLimit.toNat < late then
      raised .lateCut ⟨a.batch, s.vc.lineCount, some d, reasonNumber a.reason + (if mismatch then 16 else 0), figure⟩ s2
    else s2
  if s.mg.openOrder.getLast? = some d then
    raised .cutDone
      ⟨a.batch, s.vc.lineCount, some d,
        reasonNumber a.reason + 8 + (if mismatch then 16 else 0) + (if isRoute then 32 else 0), figure⟩
      { s3 with cs := { s3.cs with queue := rest } }
  else moveBegun ⟨{ a with target := d }, isRoute, d, s.mg.openOrder.getLast?, mismatch, late, false, false⟩
    ({ a with target := d } :: rest) s3

/-- The start of action `a` meets no obstacle: where the flow is not there already, the OPEN can enter at once and the
open time is not 0. -/
def StartsFreely (a : Action) (s : State) : Prop :=
  s.mg.openOrder.getLast? = some (goesTo s a.target) ∨
    (CommandEnters s (goesTo s a.target)
      ∧ timeMs s.ts.active.outlets[goesTo s a.target] s.ts.active.outlets[goesTo s a.target].openTime 0 ≠ 0)

/-- R106: at the end of a transmission from the FIELD originated queue the oldest command in the list, `c` before `rest`,
took the freed place. -/
def commandEntered (c : Command) (rest : List Command) (s : State) : State :=
  commandSent c { s with
    liu := { s.liu with field := { s.liu.field with tx := none, originated := s.liu.field.originated.tail } }
    cs := { s.cs with commands := rest } }

/-! ## Phases -/

/-- R108: OVERLAP begun. -/
def overlapBegun (q : Sequence) (s : State) : State :=
  let e := s.ts.active.outlets[q.newOutlet]
  { s with cs := { s.cs with
    engine := .overlap, stroke := none, phase := timerOf s.now (timeMs e e.overlapTime 1) } }

/-- R109: CLOSE_OLD begun for the old outlet `o`: its phase timer, and the CLOSE formed. -/
def closingBegun (q : Sequence) (o : Outlet) (s : State) : State :=
  let e := s.ts.active.outlets[o]
  commandFormed ⟨o, .close⟩ { s with cs := { s.cs with
    engine := .closeOld, phase := timerOf s.now (timeMs e e.closeTime 2)
    sequence := some { q with closeSent := false, closeConfirmed := s.mg.valves[o].confirmed == .closed } } }

/-- R110: RECOVERY begun, with CUT_DONE. -/
def recoveryBegun (q : Sequence) (s : State) : State :=
  raised .cutDone (cutDoneContext s q) { s with cs := recovering s q s.now }

/-! ## Failures and reports -/

/-- R112, R118 and R134: the open failure of sequence `q`: CLOSE formed for the new outlet, which becomes unavailable, a
CLOSE of the old outlet dropped, the engine FAULTED, the mode HELD, and VALVE_FAULT. -/
def openFailed (q : Sequence) (flags seconds : Nat) (u : State) : State :=
  let a := commandFormed ⟨q.newOutlet, .close⟩ { u with cs := { u.cs with phase := none, stroke := none } }
  raised .valveFault ⟨q.action.batch, u.vc.lineCount, some q.newOutlet, flags, (seconds : Int)⟩
    (heldEntered { a with
      mg := { a.mg with
        valves := a.mg.valves.set q.newOutlet { a.mg.valves[q.newOutlet] with available := false } }
      cs := { a.cs with
        engine := .faulted, sequence := none
        commands := a.cs.commands.filter (fun c => !decide (q.oldOutlet = some c.outlet ∧ c.move = .close)) } })

/-- R113, R118 and R134: the close failure of sequence `q` with old outlet `o`: the outlet unavailable, its CLOSE dropped,
the action removed, the engine FAULTED, the mode HELD, and VALVE_FAULT. -/
def closeFailed (q : Sequence) (o : Outlet) (flags seconds : Nat) (u : State) : State :=
  raised .valveFault ⟨q.action.batch, u.vc.lineCount, some o, flags, (seconds : Int)⟩
    (heldEntered { u with
      mg := { u.mg with valves := u.mg.valves.set o { u.mg.valves[o] with available := false } }
      cs := { u.cs with
        engine := .faulted, sequence := none, phase := none, stroke := none, queue := u.cs.queue.tail
        commands := u.cs.commands.filter (fun c => c ≠ ⟨o, .close⟩) } })

/-- R123 to R125: the state with a report of outlet `o` taken into its record and the open order, the frame forwarded. -/
def reportTaken (f : Frame) (o : Outlet) (b : Byte) (s : State) : State :=
  let v := recordAfter b s.mg.valves[o]
  { forwarded f s with mg := { s.mg with
      valves := s.mg.valves.set o v, openOrder := openOrderAfter o s.mg.valves[o].confirmed v.confirmed s.mg.openOrder } }

/-- R129: `x` once the guard had its chance: it acts where the report that took `s` to `u` took the last outlet out of
the open order of a moving line. -/
def afterReport (s u x : State) : State :=
  if s.mg.openOrder ≠ [] ∧ u.mg.openOrder = [] then guarded false x else x

/-- The whole seconds a stroke timer has run, 0 when none runs (R118). -/
def strokeElapsed (s : State) : Nat :=
  match s.cs.stroke with
  | some tm => (s.now - tm.start) / 1000
  | none => 0

/-- R109: a FAULT report of `c`'s outlet fails its phase: the command waits in the list, or its stroke timer runs. -/
def Underway (s : State) (c : Command) : Prop := c ∈ s.cs.commands ∨ s.cs.stroke ≠ none

/-! ## An apply -/

/-- R28: an apply is due. -/
abbrev ApplyDue (s : State) : Prop :=
  s.ts.armed = true ∧ s.it.state = .quiet ∧ s.it.excursion = false ∧ s.cs.engine = .idle ∧ s.ts.sum = none

/-- R31: the DE at an apply: the offset within the new limit, and the ring emptied at a change of address. -/
def appliedEvaluator (s : State) : DensityEvaluator :=
  let limit : Int := s.ts.pending.segment.offsetLimit.toNat
  { s.de with
    offset := if s.de.offset < -limit then -limit else if limit < s.de.offset then limit else s.de.offset
    ring := if s.ts.active.segment.densityAddress = s.ts.pending.segment.densityAddress then s.de.ring else [] }

/-- R12: at an apply a running timer that began at `start` has reached its changed time. -/
abbrev ReachedAnew (now : Time) (start : Option Time) (old new : Nat) : Prop :=
  old ≠ new ∧ start.any (fun x => decide (x + new * 1000 ≤ now)) = true

/-- R31: the MG at an apply: the record of an outlet whose valve address changes is reset but for its available flag, and
leaves the open order. -/
def appliedGuard (s : State) : ManifoldGuard :=
  let changes := fun o : Outlet => s.ts.active.outlets[o].valveAddress != s.ts.pending.outlets[o].valveAddress
  { s.mg with
    valves := Vector.ofFn (fun o : Outlet =>
      if changes o then ⟨none, .unknown, none, s.mg.valves[o].available⟩ else s.mg.valves[o])
    openOrder := s.mg.openOrder.filter (fun o => !changes o) }

/-- R12: the VC at an apply: a new meter address makes the last total absent and restarts the silence timer, and a running
timer that has reached its changed time then expires (log 36). -/
def appliedTimers (s : State) : State :=
  let old := s.ts.active.segment
  let new := s.ts.pending.segment
  let moved : Bool := old.meterAddress != new.meterAddress
  let a : State := { s with vc := { s.vc with
    lastTotal := if moved then none else s.vc.lastTotal
    silenceTimer := if moved then some s.now else s.vc.silenceTimer } }
  let b := if ReachedAnew s.now a.vc.silenceTimer old.silenceTime.toNat new.silenceTime.toNat then
      raised .meter ⟨headId s, s.vc.lineCount, none, 1, new.silenceTime.toNat⟩
        { a with vc := { a.vc with silenceTimer := none } }
    else a
  if ReachedAnew s.now s.vc.stillTimer old.stillTime.toNat new.stillTime.toNat then
    raised .lineState ⟨headId s, s.vc.lineCount, none, 0, new.stillTime.toNat⟩
      { b with vc := { b.vc with stillTimer := none, lineState := .still } }
  else b

/-- R31, R130 and R137: the queued actions to an outlet that is disabled go through the lane trap, LANE_TRAP raised with
moment 3 for each. -/
def queueTrapped (s : State) : State :=
  let shut := fun a : Action => s.ts.active.outlets[a.target].enabled != 1
  let a := (s.cs.queue.filter shut).foldl (fun t a => trapNoted 3 a.batch a.target t) s
  { a with cs := { a.cs with
    queue := s.cs.queue.map (fun a => if shut a then { a with target := goesTo s a.target } else a) } }

/-- R29, R12, R31, R125, R126 and R129: the apply, `window` when it is taken at a window opening (R30): the pending copy
active, the effects on the DE, the VC and the MG, the guard and the withdrawal (log 41), the action queue, and
TABLES_APPLIED with the tables that differed (for the order, log 18). -/
def applied (window : Bool) (s : State) : State :=
  let old := s.ts.active
  let new := s.ts.pending
  let a := appliedTimers s
  let b : State := { a with
    ts := { s.ts with active := new, armed := false }, de := appliedEvaluator s, mg := appliedGuard s }
  let c := if s.mg.openOrder ≠ [] ∧ b.mg.openOrder = [] then guarded false b else b
  let d := if c.mg.mode = .manual then c else withdrawn c
  raised .tablesApplied
    ⟨headId s, s.vc.lineCount, none, if window then 1 else 0,
      ((if old.products = new.products then 0 else 1) + (if old.outlets = new.outlets then 0 else 2)
        + (if old.rules = new.rules then 0 else 4) + (if old.segment = new.segment then 0 else 8) : Nat)⟩
    (queueTrapped d)

/-- R28: the apply performed when it is due. -/
def applyChecked (window : Bool) (s : State) : State := if ApplyDue s then applied window s else s

/-! ## The engine -/

/-- R103: the start test: the head action `a`, `rest` behind it, may start. -/
abbrev StartDue (a : Action) (rest : List Action) (s : State) : Prop :=
  s.cs.engine = .idle ∧ s.mg.mode = .auto ∧ s.cs.queue = a :: rest ∧ reached s.vc.lineCount a.fire = true

/-- The moves that the engine makes without waiting: at IDLE an apply that is due (R28, R111) or the start of the head
action (R103), either first where both may be (log 7); the end of a phase whose timer has ended and whose confirmation
stands (R107 to R110); and the return to IDLE at the end of the recovery time (R111). -/
inductive EngineMoves (s : State) : State → Prop where
  | applies : ApplyDue s → (∀ a rest, ¬ StartDue a rest s) → EngineMoves s (applied false s)
  | starts (a : Action) (rest : List Action) : StartDue a rest s → ¬ ApplyDue s →
      EngineMoves s (actionStarted false a rest s)
  | appliesFirst (a : Action) (rest : List Action) : ApplyDue s → StartDue a rest s →
      EngineMoves s (applied false { s with races := s.races + 1 })
  | startsFirst (a : Action) (rest : List Action) : ApplyDue s → StartDue a rest s →
      EngineMoves s (actionStarted false a rest { s with races := s.races + 1 })
  | overlaps (q : Sequence) : s.cs.engine = .openNew → s.cs.sequence = some q → s.cs.phase = none →
      s.mg.valves[q.newOutlet].confirmed = .opened → EngineMoves s (overlapBegun q s)
  | closes (q : Sequence) (o : Outlet) : s.cs.engine = .overlap → s.cs.sequence = some q → s.cs.phase = none →
      q.oldOutlet = some o → EngineMoves s (closingBegun q o s)
  | recovers (q : Sequence) : s.cs.engine = .overlap → s.cs.sequence = some q → s.cs.phase = none →
      q.oldOutlet = none → EngineMoves s (recoveryBegun q s)
  | closed (q : Sequence) : s.cs.engine = .closeOld → s.cs.sequence = some q → s.cs.phase = none →
      q.closeConfirmed = true → EngineMoves s (recoveryBegun q s)
  | idles : s.cs.engine = .recovery → s.cs.recovery = none →
      EngineMoves s { s with cs := { s.cs with engine := .idle } }

/-- The engine run as far as it goes within one event. -/
inductive EngineRuns : State → State → Prop where
  | stops (s : State) : (∀ t, ¬ EngineMoves s t) → EngineRuns s s
  | moves (s t u : State) : EngineMoves s t → EngineRuns t u → EngineRuns s u

/-! ## A window -/

/-- The state with the active interface record changed. -/
def recordChanged (f : InterfaceRecord → InterfaceRecord) (s : State) : State :=
  { s with it := { s.it with record := s.it.record.map f } }

/-- R62 and steps 3 to 6 of R74: the window between `b0` and `b1` opened, with the rule entry `e`. That the excursion run is
0 then, also where no excursion ended, is the model's choice (log 43). -/
def windowOpened (b0 b1 : BatchRecord) (e : RuleEntry) (s : State) : State :=
  let contrast := referenceDensity s b1 - referenceDensity s b0
  let low : Bool := decide (contrast.natAbs < s.ts.active.segment.minimumContrast.toNat)
  { s with
    de := { s.de with pair := some ⟨referenceDensity s b0, referenceDensity s b1, contrast, low⟩ }
    it := { s.it with
      state := if low then .fallback else .watch, excursion := false, excRun := ⟨0, 0⟩
      record := some { densityRecord s b0 b1 e with cutMode := if low then .lowContrast else .density }
      headRun := ⟨0, 0⟩, tailRun := ⟨0, 0⟩, endRun := 0, held := [], endDue := none, volumeDue := false } }

/-- A decision's run after an evaluation at `mark` at which its condition holds or fails (R81); an excursion run's, too
(R91, R92). -/
def runAfter (run : Run) (holds : Bool) (mark : Mark) : Run :=
  if holds then (if run.count = 0 then ⟨1, mark⟩ else ⟨run.count + 1, run.first⟩) else ⟨0, 0⟩

/-- R93: where the tracker reads the mode as MANUAL. -/
abbrev ReadAsManual (s : State) : Prop := s.mg.mode = .manual ∨ (s.mg.mode = .held ∧ s.mg.resumeMode = .manual)

/-- R82, R91 to R93: an excursion's FORCED action offered: not in MANUAL, and a held one is discarded instead. -/
def excursionOffered (o : Offer) (s : State) : State :=
  if ReadAsManual s then s
  else if s.it.held = [] then offerTaken o s
  else { s with it := { s.it with held := [] } }

/-- R65 and R66: a deviation `x` from the reference of entry 0, `b`, moves the offset. -/
def OffsetMoves (s : State) (b : BatchRecord) (x : Int) : Prop :=
  s.it.state = .quiet ∧ s.it.excursion = false ∧ s.ts.active.segment.baselineRate ≠ 0
    ∧ x.natAbs ≤ (s.product b.product).excursionLimit.toNat
    ∧ ∃ o, s.de.settleOrigin = some o
        ∧ reached s.vc.lineCount (o + s.ts.active.segment.settleVolume.setWidth 48) = true

/-- The move of a decision of the disposition `z` (the table of R80): its reason, its batch id, and its outlets between
`r` and `a`. -/
def decisionMove (z : ZoneRule) (p : Place) (running arriving : BatchId) (r a : Outlet) :
    Option (Reason × BatchId × Outlet × Outlet) :=
  match z, p with
  | .transmix, .headCut => some (.head, running, r, 8)
  | .transmix, .tailCut => some (.tail, arriving, 8, a)
  | .intoRunning, .tailCut => some (.tail, arriving, r, a)
  | .intoArriving, .headCut => some (.single, arriving, r, a)
  | .midpoint, .tailCut => some (.single, arriving, r, a)
  | _, _ => none

/-- A decision of record `r` is still to be made (R80). -/
def Outstanding (r : InterfaceRecord) : Place → Prop
  | .headCut => r.headCut = none ∧ (r.disposition = .transmix ∨ r.disposition = .intoArriving)
  | .tailCut => r.tailCut = none
      ∧ (r.disposition = .transmix ∨ r.disposition = .intoRunning ∨ r.disposition = .midpoint)

/-- The families of two batches' products differ (R98). -/
def familyChanges (s : State) (b0 b1 : BatchRecord) : Bool := (s.product b0.product).family != (s.product b1.product).family

/-- The delivery volume that a decision's move carries: none for the move to T (R90). -/
def carriedVolume (b1 : BatchRecord) (move : Reason × BatchId × Outlet × Outlet) (s : State) : Option (BitVec 32) :=
  if move.2.2.2 = 8 then none else deliveryVolume s b1

/-- R80, R82 and R90: the offer of a decision with mark `m` whose move is `(reason, batch, source, target)`. -/
def decisionOffer (m : Mark) (b0 b1 : BatchRecord) (move : Reason × BatchId × Outlet × Outlet) (s : State) : Offer :=
  ⟨move.1, move.2.1, some move.2.2.1, move.2.2.2, .fromDecision m, familyChanges s b0 b1, carriedVolume b1 move s⟩

/-- R90: a VOLUME action that waits for the midpoint `m` is offered alone for the arriving batch `b`; in MANUAL it is not
offered (log 23). That its fire mark is counted from the midpoint plus the lead volume, also where the booking boundary was
raised (R141), is the model's choice (log 44). -/
def volumeOffered (m : Mark) (b : BatchRecord) (s : State) : State :=
  let a : State := { s with it := { s.it with volumeDue := false } }
  if s.it.volumeDue = false then s
  else if ReadAsManual s then a
  else
    match deliveryVolume s b with
    | none => a
    | some v =>
      offerTaken ⟨.volume, b.batchId, some (destinationOutlet s b), 9,
        .given (m + s.ts.active.segment.leadVolume.setWidth 48 + v.setWidth 48), false, none⟩ a

/-- R81, R82, R90 and R93: the decision recorded at `p` with mark `m` for record `r` between `b0` and `b1`, and its move
offered: nothing in MANUAL; where both batches go to one outlet the VOLUME action alone, once the midpoint is present, and
none without a delivery volume (log 23). -/
def decisionMade (p : Place) (m : Mark) (r : InterfaceRecord) (b0 b1 : BatchRecord)
    (move : Reason × BatchId × Outlet × Outlet) (s : State) : State :=
  let s1 : State := { s with it := { s.it with
    record := some { r with
      headCut := if p = .headCut then some m else r.headCut
      tailCut := if p = .tailCut then some m else r.tailCut
      manual := r.manual || decide (ReadAsManual s) }
    headRun := if p = .headCut then ⟨0, 0⟩ else s.it.headRun
    tailRun := if p = .tailCut then ⟨0, 0⟩ else s.it.tailRun } }
  if ReadAsManual s then s1
  else if destinationOutlet s b0 = destinationOutlet s b1 then
    if carriedVolume b1 move s = none then s1
    else
      let s2 : State := { s1 with it := { s1.it with volumeDue := true } }
      match r.midpoint with
      | none => s2
      | some mid => volumeOffered mid b1 s2
  else offerTaken (decisionOffer m b0 b1 move s) s1

/-- R89: the interface of record `r` ended at `m`, an apply that this makes due performed (R28), and entry 0 removed (R47,
R48). -/
def interfaceEnded (m : Mark) (r : InterfaceRecord) (s : State) : State :=
  let r' := { r with endMark := some m }
  let a := headPlaced r' m (tailPlaced r' m { s with de := { s.de with pair := none, settleOrigin := some m } })
  let drift := r.drift.getD 0
  let b := raised .interfaceEnd
    ⟨r.arrivingId, m, none,
      (match r.cutMode with
        | .density => 0
        | .lowContrast => 1
        | .densityLost => 2) + (if r.forcedEnd then 4 else 0),
      if drift < -2147483648 then -2147483648 else if 2147483647 < drift then 2147483647 else drift⟩
    { a with it := { a.it with
        state := .quiet, excursion := false, excRun := ⟨0, 0⟩, record := none, headRun := ⟨0, 0⟩, tailRun := ⟨0, 0⟩
        endRun := 0, held := [], history := (r' :: a.it.history).take 4, endDue := none, volumeDue := false } }
  let d := applyChecked false b
  let c := { d with bq := d.bq.tail }
  match c.bq with
  | [x] => raised .queueLow ⟨x.batchId, c.vc.lineCount, none, 0, 1⟩ c
  | _ => c

/-- Half of a record's width, rounded down (R87). -/
def halfWidth (r : InterfaceRecord) : Mark := BitVec.ofNat 48 ((r.expectedWidth.toNat + r.standExt) / 2)

/-- The fallback mark of a decision, and of the end (R87). -/
def fallbackDecision (s : State) (r : InterfaceRecord) (p : Place) : Mark :=
  match r.disposition, p with
  | .midpoint, _ => r.midpoint.getD r.predicted
  | _, .headCut => r.midpoint.getD r.predicted - halfWidth r - s.ts.active.segment.fallbackGuard.setWidth 48
  | _, .tailCut => r.midpoint.getD r.predicted + halfWidth r + s.ts.active.segment.fallbackGuard.setWidth 48

/-- R71: `n` marks acted on one after another, each as the tracker's state then asks for it, until none is reached. -/
inductive MarksActed : Nat → State → State → Prop where
  | done (s : State) : markStep s = none → MarksActed 0 s s
  | acted (n : Nat) (s t u : State) : markStep s = some t → MarksActed n t u → MarksActed (n + 1) s u

/-- R41: the tracker told of a change at position 1 or of entry 1's head mark: in QUIET it tests its mark at once, and the
marks that follow from it (R71, R73); a window has no open mark. -/
def changeReported (s : State) : State := if s.it.state = .quiet then testMarks s else s

/-! ## The tests of COMMIT -/

/-- Test `n` of COMMIT fails with index byte `i` (the table of R24). -/
def CommitFails (s : State) (n i : Nat) : Prop :=
  let t := s.ts.pending
  match n with
  | 1 => t.outlets[(8 : Outlet)].enabled ≠ 1 ∧ i = 8
  | 2 => ∃ o : Outlet, o.val = t.segment.reliefOutlet.toNat ∧ t.outlets[o].enabled ≠ 1 ∧ i = o.val
  | 3 => ∃ o : Outlet, t.outlets[o].enabled = 1 ∧ i = o.val
      ∧ (∀ p : Outlet, t.outlets[p].enabled = 1 → t.outlets[o].trim.toInt ≤ t.outlets[p].trim.toInt)
      ∧ (∀ p : Outlet, p < o → t.outlets[p].enabled = 1 → t.outlets[o].trim.toInt < t.outlets[p].trim.toInt)
      ∧ t.segment.leadVolume.toNat + t.outlets[o].trim.toInt
          ≤ ((t.segment.confirmationCount.toNat : Int) - 1) * t.segment.evaluationStep.toNat
  | 4 => ∃ b, s.bq[i]? = some b ∧ ¬ Held t b.product ∧ ∀ j c, j < i → s.bq[j]? = some c → Held t c.product
  | 5 => ∃ k : Fin 16, i = k.val ∧ LaneShut t k ∧ ∀ l : Fin 16, l < k → ¬ LaneShut t l
  | 6 => ∃ o : Outlet, i = o.val ∧ AddressShared t o ∧ ∀ p : Outlet, p < o → ¬ AddressShared t p
  | 7 => ∃ o : Outlet, i = o.val ∧ AddressTaken t o ∧ ∀ p : Outlet, p < o → ¬ AddressTaken t p
  | _ => False
where
  /-- A product code is held by a non-empty entry. -/
  Held (t : Tables) (code : Byte) : Prop := code ≠ 0 ∧ ∃ k : Fin 16, t.products[k].code = code
  /-- A non-empty product entry has a lane as destination that is disabled. -/
  LaneShut (t : Tables) (k : Fin 16) : Prop :=
    t.products[k].code ≠ 0 ∧ ∃ o : Outlet, o.val < 8 ∧ o.val = t.products[k].destination.toNat ∧ t.outlets[o].enabled = 0
  /-- Another outlet holds the same valve address. -/
  AddressShared (t : Tables) (o : Outlet) : Prop :=
    ∃ p : Outlet, p ≠ o ∧ t.outlets[p].valveAddress = t.outlets[o].valveAddress
  /-- The valve address is an instrument's or the part's own. -/
  AddressTaken (t : Tables) (o : Outlet) : Prop :=
    t.outlets[o].valveAddress = t.segment.meterAddress ∨ t.outlets[o].valveAddress = t.segment.densityAddress
      ∨ t.outlets[o].valveAddress = s.liu.address

end Sys2Proof.Machine
end

