-- ==== Sys2Proof/WellFormed.lean ====
section
/-! DEFINITION. Which commands the world outside can send: the frame rows carry frames of their own row (R154 to
R156), and the request rows carry requests of their own row (R166, R167). Whether a frame on CONTROL is for the part
or for a manifold valve depends on the state, so that part of the sorting of R156 is made by the meanings. -/

namespace Sys2Proof

open Sys2Proof.Machine

/-- A payload a frame can carry: 0 … 200 bytes (section 9.1). -/
def payloadOk (payload : List Byte) : Bool := decide (payload.length ≤ 200)

/-- The checks on the operands of a command. -/
def WellFormed (i : Instr) : Bool :=
  match i with
  | .droppedFrame _ bytes => (judgeFrame bytes).isNone
  | .meterTotal _ _ payload => payloadOk payload
  | .densitySample _ _ payload => payloadOk payload
  | .valveStatus _ _ payload => payloadOk payload
  | .fieldFrame f => payloadOk f.payload && f.kind != kindMeterTotal && f.kind != kindDensitySample
      && f.kind != kindValveStatus
  | .valveCommand _ _ payload => payloadOk payload
  | .controlFrame f => payloadOk f.payload
  | .consumedFrame _ kind payload => payloadOk payload && kind != kindRequest
  | .unknownRequest _ payload => payloadOk payload && (parseRequest payload).isNone
  | .ping _ params => decide (params.length ≤ 197)
  | .setModeAuto _ value => value != 0
  | .powerOnReset _ | .resetAsserted | .ident _ | .readStatus _ | .setNotices _ _ _ | .restart _
  | .putProduct _ _ _ | .putOutlet _ _ _ | .putRule _ _ _ _ | .putSegment _ _ | .commit _ | .withdraw _
  | .sumTables _ _ | .sumComplete | .addBatch _ _ | .amendBatch _ _ | .dropBatch _ _ | .readBatch _ _
  | .readInterface _ _ | .takeTicket _ | .setModeManual _ | .resume _ | .clearOutlet _ _ | .route _ _
  | .frameTransmitted _ | .silenceTimerExpiry | .stillTimerExpiry | .openTimeExpiry | .overlapExpiry
  | .closeTimeExpiry | .strokeTimerExpiry | .recoveryExpiry | .frameByteReceived _ _ _ => true

end Sys2Proof
end

