-- ==== Sys2Proof/Certificates/Slice0/Obligations.lean ====
section
/-! DEFINITION. The statements for the provers. Each says what a rule of the spec says a command or the part does; the
words for the link (PortKept, Answered, …) stand in Sys2Proof/Safety/Outcomes.lean, those for what the blocks do within
one event in Sys2Proof/Safety/Effects.lean. A frame is written as an equation: t is s but for the parts named. -/

open Sys2Proof Sys2Proof.Machine

/-! ## Commands, reset and time -/

/-- The block takes the command at the front of its queue. -/
def Obligations.StepTakesTheFrontCommand : Prop :=
  ∀ (c : Instr) (rest : List Instr) (s : State), step (s.setPending (c :: rest)) = exec c (s.setPending rest)

/-- The model's choice (log 2, log 3): with no command waiting, a step passes one millisecond while no running timer (the
silence timer, R8; the still timer, R9; the phase, the stroke and the recovery timer, R105) has reached its length and
no sum in progress has run for its 10 ms (R32; log 5); where exactly one has, the step is its expiry; where several
have, it is the expiry of one of them, which one being open (log 3). While the reset input is asserted nothing expires
(R174) and a step passes one millisecond. -/
def Obligations.IdleStepPassesTime : Prop :=
  (∀ s : State, s.pending = [] → s.inReset = true → step s = .next { s with now := s.now + 1 })
  ∧ (∀ s : State, s.pending = [] → s.inReset = false → (∀ c, ¬ ExpiryDue s c) →
      step s = .next { s with now := s.now + 1 })
  ∧ (∀ (c : Instr) (s : State), s.pending = [] → s.inReset = false → ExpiryDue s c → (∀ d, ExpiryDue s d → d = c) →
      step s = exec c s)
  ∧ (∀ (c d : Instr) (s : State), s.pending = [] → s.inReset = false → ExpiryDue s c → ExpiryDue s d → c ≠ d →
      ∃ e, ExpiryDue s e ∧ step s = exec e { s with races := s.races + 1 })

/-- What the tables hold after a reset (R17 to R20, R34): empty products, TRANSMIX and 4 000 litres in every rule, T and
P enabled and the lanes not, the addresses and the 28 fields of the Segment Record. -/
def Obligations.ResetTableContents : Prop :=
  (∀ i : Fin 16, State.reset.ts.active.products[i] = ⟨0, 0, 0, 0, 0, 0, 0⟩)
  ∧ (∀ i : Fin 64, State.reset.ts.active.rules[i] = ⟨0, 4000⟩)
  ∧ (∀ i : Fin 10, State.reset.ts.active.outlets[i] =
      ⟨if i.val < 8 then 0 else 1, if i.val < 8 then 0xE0 + BitVec.ofNat 8 i.val else 0xE8 + BitVec.ofNat 8 i.val,
        10, 10, 10, 10, 10, 1, 0, 30, 0⟩)
  ∧ State.reset.ts.active.segment =
      { meterAddress := 0x10, densityAddress := 0x20, leadVolume := 30000, evaluationStep := 2000
        confirmationCount := 3, averagingDepth := 4, startThreshold := 5, endThreshold := 5, earlyMargin := 20000
        lateMargin := 20000, extensionVolume := 10000, maxExtensions := 2, blindLimit := 4, minimumContrast := 300
        fallbackGuard := 1000, maxMixingVolume := 60000, settleVolume := 10000, baselineRate := 4
        offsetLimit := 200, lateLimit := 2000, familySettle := 10, reversalSettle := 20, reliefOutlet := 9
        stillTime := 60, silenceTime := 5, maxMeterStep := 50000, standGrowthRate := 500, standGrowthCap := 10000 }
  ∧ State.reset.ts.pending = State.reset.ts.active

/-- Power-on: every block takes its reset values at once, with the link address the pins show (R15, R34, R52, R68, R97,
R120, R139, R152, R164, R174, R178); the model's clock, counter and queue of commands go on. -/
def Obligations.PowerOnSetsResetValues : Prop :=
  ∀ (pins : Byte) (s : State),
    exec (.powerOnReset pins) s = .next
      { liu := ⟨pins, ⟨.hunt, [], [], none⟩, ⟨.hunt, [], [], none⟩⟩
        vc := ⟨none, 0, 2000, .still, none, s.now, some s.now⟩
        ts := ⟨State.reset.ts.active, State.reset.ts.active, false, none⟩
        bq := []
        de := ⟨[], 0, none, none, none⟩
        it := ⟨.quiet, false, ⟨0, 0⟩, none, ⟨0, 0⟩, ⟨0, 0⟩, 0, [], [], none, false⟩
        cs := ⟨[], .idle, none, none, none, none, [], none⟩
        mg := ⟨.manual, .manual, Vector.replicate 10 ⟨none, .unknown, none, true⟩, []⟩
        tu := ⟨none, none, [], [], 0⟩
        mr := ⟨.ready, none, none, none⟩
        nu := ⟨Vector.replicate 17 none, 0, false, 0xFF, false⟩
        inReset := false, now := s.now, races := s.races, pending := s.pending }

/-- R174: while the reset input is asserted the part neither receives nor transmits. RESET_ASSERTED completes in every
state: it leaves what POWER_ON_RESET leaves, with the link address kept and the input asserted. That what was under way
is lost at the assertion, and that nothing at all happens until the release, is the model's choice (log 11). -/
def Obligations.AssertedResetStopsThePart : Prop :=
  (∀ (pins : Byte) (s : State), ∃ t, exec (.powerOnReset pins) s = .next t
    ∧ exec .resetAsserted s = .next { t with liu := { t.liu with address := s.liu.address }, inReset := true })
  ∧ (∀ (c : Instr) (s : State), s.inReset = true → (∀ pins, c ≠ .powerOnReset pins) → c ≠ .resetAsserted →
      exec c s = .next s)

/-- R173: at the end of the restart response's transmission every block takes its reset values; the link address is
kept. -/
def Obligations.RestartTakesEffectAtItsResponse : Prop :=
  ∀ (s : State) (f : Frame), s.inReset = false → s.mr.state = .restartPending → s.mr.heldResponse = none →
    s.mr.restartResponse = some f → s.liu.control.tx = some .originated → s.liu.control.originated.head? = some f →
    exec (.frameTransmitted .control) s = exec (.powerOnReset s.liu.address) s

/-! ## The link -/

/-- R33: the two check values that the rule gives for its CRC-16, and the bytes over which SUM TABLES computes: the
products, the outlets, the rules row by row and the Segment Record, each with its fields in the order and widths of its
PUT request (R17 to R20), 711 in all. -/
def Obligations.CrcAndItsTableBytes : Prop :=
  crc16 [0x31, 0x32, 0x33, 0x34, 0x35, 0x36, 0x37, 0x38, 0x39] = 0x29B1 ∧ crc16 [0x00] = 0xE1F0
  ∧ (∀ t : Tables, (tablesBytes t).length = 711)
  ∧ ∀ t : Tables, tablesBytes t = t.products.toList.flatMap productEntryBytes
      ++ t.outlets.toList.flatMap outletEntryBytes ++ t.rules.toList.flatMap ruleEntryBytes
      ++ segmentRecordBytes t.segment

/-- Section 9.1 and R154: the bytes of a reception are judged a good frame exactly when they are that frame as it is
laid out: sync, destination, source, kind, length, payload of at most 200 bytes, and the CRC of all but the sync, most
significant byte first. -/
def Obligations.FrameJudgementInvertsLayout : Prop :=
  ∀ (bytes : List Byte) (f : Frame),
    judgeFrame bytes = some f ↔
      f.payload.length ≤ 200 ∧
      bytes = [0xA5, f.dst, f.src, f.kind, BitVec.ofNat 8 f.payload.length] ++ f.payload
        ++ [BitVec.ofNat 8 ((crc16 ([f.dst, f.src, f.kind, BitVec.ofNat 8 f.payload.length] ++ f.payload)).toNat / 256),
            BitVec.ofNat 8 (crc16 ([f.dst, f.src, f.kind, BitVec.ofNat 8 f.payload.length] ++ f.payload)).toNat]

/-- R154: a frame in which one byte was changed on its way is dropped. -/
def Obligations.OneCorruptByteIsDropped : Prop :=
  ∀ (f : Frame) (i : Nat) (b : Byte), f.payload.length ≤ 200 → i < (frameBytes f).length →
    (frameBytes f)[i]? ≠ some b → judgeFrame ((frameBytes f).set i b) = none

/-- R153: a byte that follows no gap is kept by a collecting receiver, 207 bytes at most, and disregarded in HUNT; a
byte after a gap begins a frame in HUNT. Nothing else of the part changes but a transmitter that may begin. -/
def Obligations.ReceiverCollectsBytes : Prop :=
  ∀ (p : Port) (b : Byte) (s : State), Running s →
    (∀ gap : Bool, ∃ t, exec (.frameByteReceived p gap b) s = .next t)
    ∧ ((s.port p).rx = .hunt → ∀ t, exec (.frameByteReceived p false b) s = .next t →
        t = { s with liu := t.liu } ∧ t.liu.address = s.liu.address ∧ ∀ q, PortKept (s.port q) (t.port q))
    ∧ (∀ bytes overrun, (s.port p).rx = .receiving bytes overrun →
        ∀ t, exec (.frameByteReceived p false b) s = .next t →
          t = { s with liu := t.liu } ∧ t.liu.address = s.liu.address
          ∧ (t.port p).rx = (if bytes.length < 207 then .receiving (bytes ++ [b]) overrun else .receiving bytes true)
          ∧ ∀ q, PortKept { s.port q with rx := (t.port q).rx } (t.port q) ∧ (q ≠ p → (t.port q).rx = (s.port q).rx))
    ∧ ((s.port p).rx = .hunt → ∀ t, exec (.frameByteReceived p true b) s = .next t →
        t = { s with liu := t.liu } ∧ t.liu.address = s.liu.address ∧ (t.port p).rx = .receiving [b] false
        ∧ ∀ q, PortKept { s.port q with rx := (t.port q).rx } (t.port q) ∧ (q ≠ p → (t.port q).rx = (s.port q).rx))

/-- R153 and R154: a byte after a gap ends the frame that was being collected, which is judged in an event of its own as
the bytes received, and then begins the next frame (log 13). A frame that ran past 207 bytes is dropped there whole: it is
not handed on, and nothing changes but the receiver, which begins the next frame. A frame whose bytes judge good is handed
on as the frame they carry: from FIELD with its kind's observer (R155), from CONTROL as R156 sorts it. -/
def Obligations.GapEndsTheCollectedFrame : Prop :=
  (∀ (p : Port) (b : Byte) (bytes : List Byte) (s t u : State), Running s →
    (s.port p).rx = .receiving bytes false →
    exec (.droppedFrame p bytes) s = .next t →
    exec (.frameByteReceived p true b) s = .next u →
    u = t.setPort p { t.port p with rx := .receiving [b] false })
  ∧ (∀ (p : Port) (b : Byte) (bytes : List Byte) (s : State), Running s → (s.port p).rx = .receiving bytes true →
      ∃ u, exec (.frameByteReceived p true b) s = .next u ∧ u = { s with liu := u.liu }
        ∧ u.liu.address = s.liu.address ∧ (u.port p).rx = .receiving [b] false
        ∧ ∀ q, PortKept { s.port q with rx := (u.port q).rx } (u.port q) ∧ (q ≠ p → (u.port q).rx = (s.port q).rx))
  ∧ (∀ (bytes : List Byte) (f : Frame) (s : State), judgeFrame bytes = some f →
      exec (.droppedFrame .field bytes) s = exec (.fieldFrame f) s
      ∧ exec (.droppedFrame .control bytes) s = exec (.controlFrame f) s)
  ∧ (∀ (dst src : Byte) (payload : List Byte) (s : State),
      exec (.fieldFrame ⟨dst, src, 0x11, payload⟩) s = exec (.meterTotal dst src payload) s
      ∧ exec (.fieldFrame ⟨dst, src, 0x21, payload⟩) s = exec (.densitySample dst src payload) s
      ∧ exec (.fieldFrame ⟨dst, src, 0x31, payload⟩) s = exec (.valveStatus dst src payload) s)

/-- R154: a frame that fails its judgement is discarded whole: only the receiver returns to HUNT. -/
def Obligations.FailedFrameIsDiscarded : Prop :=
  ∀ (p : Port) (bytes : List Byte) (s : State), Running s → judgeFrame bytes = none →
    ∃ t, exec (.droppedFrame p bytes) s = .next t ∧ t = { s with liu := t.liu } ∧ t.liu.address = s.liu.address
      ∧ PortEnded (s.port p) (t.port p) ∧ ∀ q, q ≠ p → PortKept (s.port q) (t.port q)

/-- R155: a good frame from FIELD of a kind that no block observes is offered to the CONTROL forward queue, and nothing
else happens, whatever its destination. -/
def Obligations.FieldFrameIsForwarded : Prop :=
  ∀ (f : Frame) (s : State), Running s → WellFormed (.fieldFrame f) = true →
    ∃ t, exec (.fieldFrame f) s = .next t ∧ t = { s with liu := t.liu } ∧ ForwardedFromField f s t

/-- R156: a good frame from CONTROL to another address, no valve command to a manifold valve, is offered to the FIELD
forward queue; a frame to the part itself that is no request is consumed and discarded. -/
def Obligations.ControlFrameIsSorted : Prop :=
  (∀ (f : Frame) (s : State), Running s → f.payload.length ≤ 200 → f.dst ≠ s.liu.address →
      (f.kind = 0x32 → ∀ o : Outlet, s.ts.active.outlets[o].valveAddress ≠ f.dst) →
      ∃ t, exec (.controlFrame f) s = .next t ∧ t = { s with liu := t.liu } ∧ ForwardedFromControl f s t)
  ∧ (∀ (src kind : Byte) (payload : List Byte) (s : State), Running s → payload.length ≤ 200 → kind ≠ 0x41 →
      exec (.controlFrame ⟨s.liu.address, src, kind, payload⟩) s = exec (.consumedFrame src kind payload) s
      ∧ ∃ t, exec (.consumedFrame src kind payload) s = .next t ∧ t = { s with liu := t.liu } ∧ EndedOnControl s t)
  ∧ (∀ (dst src : Byte) (payload : List Byte) (s : State),
      exec (.controlFrame ⟨dst, src, 0x32, payload⟩) s = exec (.valveCommand dst src payload) s)

/-- R160: after any event a transmitter is idle only when both queues of its port are empty, and a transmitter that was
idle before the event and now sends a forwarded frame does so with an empty originated queue. That both transmitters begin
what they can at the end of the event, the originated frame first, is the model's choice (log 9, DEDUCED), on which both
clauses rest. -/
def Obligations.OriginatedFramesGoFirst : Prop :=
  ∀ (c : Instr) (s t : State) (p : Port), s.inReset = false → exec c s = .next t →
    ((t.port p).tx = none → (t.port p).originated = [] ∧ (t.port p).forward = [])
    ∧ ((s.port p).tx = none → (t.port p).tx = some .forward → (t.port p).originated = [])

/-- R160: the end of a transmission on FIELD, or of a forwarded frame on CONTROL: the frame sent leaves the head of
its queue; with the command list empty nothing else changes but the frame next begun. R106 and R159: a place freed in
the FIELD originated queue goes to the oldest command in the list, which sets the commanded position; the command that
the present phase waits for starts the stroke timer where its confirmation does not stand already, and another starts
none; a CLOSE for the only outlet confirmed OPEN on a moving line is discarded instead. How an event ends
(`EndsEvent`) is logs 8 and 9. -/
def Obligations.SentFrameLeavesItsQueue : Prop :=
  (∀ (p : Port) (s : State) (x : TxSource), Running s → (s.port p).tx = some x → s.cs.commands = [] →
    (p = .control → x = .forward) →
    ∃ t, exec (.frameTransmitted p) s = .next t ∧ t = { s with liu := t.liu } ∧ t.liu.address = s.liu.address
      ∧ (t.port p).rx = (s.port p).rx
      ∧ (t.port p).originated = (if x = .originated then (s.port p).originated.tail else (s.port p).originated)
      ∧ (t.port p).forward = (if x = .forward then (s.port p).forward.tail else (s.port p).forward)
      ∧ ∀ q, q ≠ p → PortKept (s.port q) (t.port q))
  ∧ (∀ (s : State) (c : Command) (rest : List Command), Running s → s.liu.field.tx = some .originated →
      s.liu.field.originated.length = 4 → s.cs.commands = c :: rest →
      ¬ (c.move = .close ∧ s.vc.lineState = .moving ∧ s.mg.openOrder = [c.outlet]) →
      ∃ t, exec (.frameTransmitted .field) s = .next t ∧ EndsEvent (commandEntered c rest s) t)
  ∧ (∀ (s : State) (c : Command), Running s → s.liu.field.tx = some .originated → s.liu.field.originated.length = 4 →
      s.cs.commands = [c] → c.move = .close → s.vc.lineState = .moving → s.mg.openOrder = [c.outlet] →
      ∃ t, exec (.frameTransmitted .field) s = .next t
        ∧ EndsEvent { s with
            liu := { s.liu with field := { s.liu.field with originated := s.liu.field.originated.tail, tx := none } }
            cs := { s.cs with commands := [] } } t)

/-- R159, R169 and R176: a place freed in the CONTROL originated queue goes to a held response before any notice; the
MR is then READY, or stays in RESTART_PENDING, and the NU makes its emission test behind the response. With no
response held, and no restart ended, the NU makes its test at once. Nothing else changes. How an event ends
(`EndsEvent`) is logs 8 and 9. -/
def Obligations.HeldResponseTakesTheFreedPlace : Prop :=
  (∀ (s : State) (f : Frame), Running s → s.liu.control.tx = some .originated →
    s.liu.control.originated.length ≤ 4 → s.mr.heldResponse = some f →
    ∃ t, exec (.frameTransmitted .control) s = .next t
      ∧ EndsEvent (tested { s with
          liu := { s.liu with control := { s.liu.control with
            originated := s.liu.control.originated.tail ++ [f], tx := none } }
          mr := { s.mr with
            heldResponse := none
            state := if s.mr.state = .restartPending then .restartPending else .ready
            service := if s.mr.state = .restartPending then s.mr.service else none } }) t)
  ∧ (∀ s : State, Running s → s.liu.control.tx = some .originated → s.mr.heldResponse = none →
      (s.mr.state ≠ .restartPending ∨ s.liu.control.originated = []
        ∨ s.mr.restartResponse ≠ s.liu.control.originated.head?) →
      ∃ t, exec (.frameTransmitted .control) s = .next t
        ∧ EndsEvent (tested { s with liu := { s.liu with control := { s.liu.control with
            originated := s.liu.control.originated.tail, tx := none } } }) t)

/-! ## The Volume Counter -/

/-- R5: an increment below 2^32 crosses exactly the marks that lie 1 … n litres ahead of the line count. -/
def Obligations.AdvanceCrossesTheMarksAhead : Prop :=
  ∀ (before m : Mark) (n : BitVec 32),
    crossed before (before + n.setWidth 48) m = true ↔ 1 ≤ (m - before).toNat ∧ (m - before).toNat ≤ n.toNat

/-- R1: a METER TOTAL frame from another source, of another length or with a status other than 0 is forwarded and
changes nothing of the Volume Counter; the silence timer is left as it is. -/
def Obligations.UnusableMeterFrameOnlyPasses : Prop :=
  ∀ (dst src : Byte) (payload : List Byte) (s : State), Running s → payload.length ≤ 200 →
    (src ≠ s.ts.active.segment.meterAddress ∨ payload.length ≠ 5 ∨ payload[4]? ≠ some 0) →
    ∃ t, exec (.meterTotal dst src payload) s = .next t ∧ t = { s with liu := t.liu }
      ∧ ForwardedFromField ⟨dst, src, 0x11, payload⟩ s t

/-- R2 and R3: a good total that finds the last total absent, or equal to itself, is stored, restarts the silence timer
and does nothing else. -/
def Obligations.FirstOrEqualTotalCountsNothing : Prop :=
  ∀ (dst b3 b2 b1 b0 : Byte) (s : State), Running s →
    (s.vc.lastTotal = none ∨ s.vc.lastTotal = some (b3 ++ b2 ++ b1 ++ b0)) →
    ∃ t, exec (.meterTotal dst s.ts.active.segment.meterAddress [b3, b2, b1, b0, 0]) s = .next t
      ∧ t = { s with
          liu := t.liu
          vc := { s.vc with lastTotal := some (b3 ++ b2 ++ b1 ++ b0), silenceTimer := some s.now } }
      ∧ ForwardedFromField ⟨dst, s.ts.active.segment.meterAddress, 0x11, [b3, b2, b1, b0, 0]⟩ s t

/-- R3 and R4: a good total advances the line count by the total minus the last total, modulo 2^32, whatever else the
advance brings about; with no apply armed the tables stay as they are. The advance reaches no request: the CONTROL
port's receiver, the responder and the notice settings are left alone. R6, R7 and R9 to R11: an increment other than 0
settles the line (after a still period with LINE_STATE, the stand extension of R77 and the dead-head guard), is
counted, raises METER as a jump when it exceeds the maximum meter step (both events naming entry 0 as it is then, log
34), and is then taken by the TU, the CS, the IT and the DE one after another: the booking, the engine's start test,
the tracker's marks, and one evaluation when its mark is reached. The rules leave the order of the four open, and the
statement holds of whichever is taken (log 6). The mark after an evaluation lies one active evaluation step on (R11);
that this is the step active once the evaluation and its effects are over, the new one where the evaluation's own
result brought about an apply, is the model's choice (log 35, DEDUCED: R11 and R12 do not say which step), on which the
DE's turn rests. How an event ends (`EndsEvent`) is logs 8 and 9; where an apply and a start stand together either
comes first (log 7). -/
def Obligations.TotalAdvancesTheLineCount : Prop :=
  (∀ (dst b3 b2 b1 b0 : Byte) (last : BitVec 32) (s : State), s.inReset = false → s.vc.lastTotal = some last →
    ∃ t, exec (.meterTotal dst s.ts.active.segment.meterAddress [b3, b2, b1, b0, 0]) s = .next t
      ∧ t.vc.lineCount = s.vc.lineCount + ((b3 ++ b2 ++ b1 ++ b0) - last).setWidth 48
      ∧ (s.ts.armed = false → t.ts = s.ts)
      ∧ t.mr = s.mr ∧ t.liu.address = s.liu.address ∧ t.liu.control.rx = s.liu.control.rx
      ∧ t.nu.master = s.nu.master ∧ t.nu.enables = s.nu.enables ∧ t.nu.address = s.nu.address ∧ t.now = s.now)
  ∧ (∀ (dst b3 b2 b1 b0 : Byte) (last n : BitVec 32) (c s : State), Running s → s.vc.lastTotal = some last →
      n = (b3 ++ b2 ++ b1 ++ b0) - last → n ≠ 0 →
      c = counted (b3 ++ b2 ++ b1 ++ b0) n
        (forwarded ⟨dst, s.ts.active.segment.meterAddress, 0x11, [b3, b2, b1, b0, 0]⟩ s) →
      ∃ (turns : List (State → State)) (r : Nat) (t : State),
        turns.Perm [bookAdvance c.mg.openOrder.getLast? s.vc.lineCount c.vc.lineCount, engineRun, testMarks, evaluationTurn]
        ∧ (r = s.races ∨ r = s.races + 1)
        ∧ exec (.meterTotal dst s.ts.active.segment.meterAddress [b3, b2, b1, b0, 0]) s = .next t
        ∧ EndsEvent (turns.foldl (fun u f => f u) { c with races := r }) t)

/-- R3, R4, R6, R9 and R140: an increment on a MOVING line that reaches no evaluation mark, with at most one batch
queued, no boundary pending, the tracker QUIET, the action queue empty, the engine IDLE and no apply armed, is counted
and booked to the column of the routed outlet, and nothing else happens. What the TU and the CS do with an advance
besides (TotalAdvancesTheLineCount delivers it to them): R142: an advance is booked in parts, each boundary that it
crosses being taken at its mark. R144 and R149: taking a boundary closes the current ticket, completed with
TICKET_READY when its tail interface was reported and closing otherwise, and opens the boundary's. R141 and R143: a
midpoint forms a boundary one lead volume behind it, not lower than the last one; one already reached is taken at the
line count; in a full list the oldest is taken first. R99 and R100: an offer is inserted through the lane trap with
its fire mark while fewer than 8 actions are queued, a pair while 6 or fewer are, and is otherwise refused (a VOLUME
action has no decision mark, log 40). R103 and R104: in AUTO with the engine IDLE the head action whose fire mark is
reached starts; otherwise nothing starts. R99, step 5: an action inserted at the head is tested at once, and one whose
fire mark is reached starts there and then and goes on through its phases. -/
def Obligations.PlainAdvanceIsCountedAndBooked : Prop :=
  (∀ (dst b3 b2 b1 b0 : Byte) (last n : BitVec 32) (s : State), Running s → s.vc.lastTotal = some last →
    n = (b3 ++ b2 ++ b1 ++ b0) - last → n ≠ 0 → n.toNat ≤ s.ts.active.segment.maxMeterStep.toNat →
    s.vc.lineState = .moving → reached (s.vc.lineCount + n.setWidth 48) s.vc.nextEval = false →
    s.bq.length ≤ 1 → s.it.state = .quiet → s.tu.boundaries = [] → s.cs.queue = [] → s.cs.engine = .idle →
    s.ts.armed = false →
    ∃ t, exec (.meterTotal dst s.ts.active.segment.meterAddress [b3, b2, b1, b0, 0]) s = .next t
      ∧ t = { s with
          liu := t.liu, vc := countedAdvance s (b3 ++ b2 ++ b1 ++ b0) n, tu := bookedAdvance s (n.setWidth 48) }
      ∧ ForwardedFromField ⟨dst, s.ts.active.segment.meterAddress, 0x11, [b3, b2, b1, b0, 0]⟩ s t)
  ∧ (∀ (routed : Option Outlet) (before after : Mark) (s : State),
      bookAdvance routed before after s = bookParts routed before after s.tu.boundaries before s
      ∧ ∀ pos : Mark, bookParts routed before after [] pos s = { s with tu := volumeBooked routed (after - pos) s.tu }
        ∧ ∀ (b : Boundary) (rest : List Boundary),
            bookParts routed before after (b :: rest) pos s =
              if crossed before after b.mark then
                bookParts routed before after rest b.mark
                  (takeBoundary b rest b.mark { s with tu := volumeBooked routed (b.mark - pos) s.tu })
              else { s with tu := volumeBooked routed (after - pos) s.tu })
  ∧ (∀ (b : Boundary) (rest : List Boundary) (mark : Mark) (s : State),
      (s.tu.closing = none ∨ ∀ k, s.tu.current = some k → k.account.tailReported = true) →
      takeBoundary b rest mark s = boundaryTaken b rest mark s)
  ∧ (∀ (midpoint : Mark) (x : BatchRecord) (b : Boundary) (s : State), s.tu.boundaries.length < 8 →
      b = ⟨atLeast (s.tu.boundaries.getLast?.map (·.mark)) (midpoint + s.ts.active.segment.leadVolume.setWidth 48),
        ⟨x.batchId, x.product, laneOf s x, 0, none, none, false, false, false, false, false⟩⟩ →
      (reached s.vc.lineCount b.mark = false →
        setBoundary midpoint x s = { s with tu := { s.tu with boundaries := s.tu.boundaries ++ [b] } })
      ∧ (reached s.vc.lineCount b.mark = true → s.tu.boundaries = [] →
        setBoundary midpoint x s = takeBoundary b [] s.vc.lineCount s))
  ∧ (∀ (midpoint : Mark) (x : BatchRecord) (b o l : Boundary) (rest : List Boundary) (s : State),
      s.tu.boundaries = o :: rest → rest.length = 7 → rest.getLast? = some l →
      b = ⟨atLeast (some l.mark) (midpoint + s.ts.active.segment.leadVolume.setWidth 48),
        ⟨x.batchId, x.product, laneOf s x, 0, none, none, false, false, false, false, false⟩⟩ →
      reached s.vc.lineCount b.mark = false →
      setBoundary midpoint x s =
        let a := takeBoundary o rest s.vc.lineCount s
        { a with tu := { a.tu with boundaries := rest ++ [b] } })
  ∧ (∀ (o : Offer) (s : State), offerAction o s = if PlacesFree o s then some (accepted o s) else none)
  ∧ (∀ (o : Offer) (s : State), o.volume = none → s.cs.queue = [] → s.cs.engine = .idle → s.mg.mode = .auto →
      s.ts.armed = false → reached s.vc.lineCount (storedAction o s).fire = true →
      offerAction o s = some (engineRun (actionStarted false (storedAction o s) [] (inserted o s))))
  ∧ (∀ (a : Action) (rest : List Action) (s : State), s.cs.engine = .idle → s.mg.mode = .auto → s.ts.armed = false →
      s.cs.queue = a :: rest → reached s.vc.lineCount a.fire = true → StartsFreely a s →
      (∀ x, rest.head? = some x → reached s.vc.lineCount x.fire = false) →
      engineRun s = actionStarted false a rest s)
  ∧ (∀ s : State, s.ts.armed = false →
      (s.cs.engine = .faulted ∨ (s.cs.engine = .idle
        ∧ (s.mg.mode = .auto → ∀ a, s.cs.queue.head? = some a → reached s.vc.lineCount a.fire = false))) →
      engineRun s = s)

/-- R175: raising an event sets its latch with the new context and the repeat flag of a latch already set, whatever
the enables, and changes no other latch and no other part of the state. R176: a notice is formed exactly when a place
is free, no response is held and a latch is emittable (set, and numbered 1 to 3 or with the master enable and its own
enable on); it is formed from the emittable latch of lowest number, with the 13 payload bytes of the rule, and clears
that latch alone. Where the emission test is due (an event latched, SET NOTICES served, a place freed, a held response
placed) the end of the event forms notices until the three conditions no longer hold together; that the test is made
at the end of the event is the model's choice (log 8). So no step leaves a notice to form, when none was left to form
before it. The transmitters that `EndsEvent` lets begin are log 9. -/
def Obligations.EventsAreLatchedAndReported : Prop :=
  (∀ (e : Event) (c : Context) (s : State),
    raise e c s = { s with nu := (raise e c s).nu }
    ∧ (raise e c s).nu.latches[eventIndex e] = latchedAfter s.nu e c
    ∧ (∀ d : Event, d ≠ e → (raise e c s).nu.latches[eventIndex d] = s.nu.latches[eventIndex d])
    ∧ (raise e c s).nu.enables = s.nu.enables ∧ (raise e c s).nu.master = s.nu.master
    ∧ (raise e c s).nu.address = s.nu.address)
  ∧ (∀ s t : State, formNotice s = some t ↔ NoticeFormed s t)
  ∧ (∀ s : State, formNotice s = none ↔ NoticesDone s)
  ∧ (∀ (s : State) (e : Event) (l : Latch), s.liu.control.originated.length < 4 → s.mr.heldResponse = none →
    s.nu.latches[eventIndex e] = some l →
    ((eventIndex e).val + 1 ≤ 3 ∨ (s.nu.master = true ∧ s.nu.enables.getLsbD (eventIndex e).val = true)) →
    (∀ d : Event, (eventIndex d).val < (eventIndex e).val →
      s.nu.latches[eventIndex d] = none
        ∨ (3 < (eventIndex d).val + 1 ∧ (s.nu.master = false ∨ s.nu.enables.getLsbD (eventIndex d).val = false))) →
    formNotice s = some { s with
      nu := { s.nu with latches := s.nu.latches.set (eventIndex e) none }
      liu := { s.liu with control := { s.liu.control with
        originated := s.liu.control.originated ++ [⟨s.nu.address, s.liu.address, 0x51,
          [BitVec.ofNat 8 ((eventIndex e).val + 1), BitVec.ofNat 8 (l.context.flags + (if l.again then 128 else 0))]
          ++ beBytes 2 l.context.batch.toNat ++ beBytes 4 l.context.count.toNat
          ++ [match l.context.outlet with | some o => BitVec.ofNat 8 o.val | none => 0xFF]
          ++ beBytes 4 (BitVec.ofInt 32 l.context.value).toNat⟩] } } })
  ∧ (∀ u : State, EndsEvent u (finish u) ∧ ∀ t, EndsEvent u t → t = finish u)
  ∧ (∀ u : State, u.nu.testDue = true → NoticesDone (finish u))
  ∧ (∀ s t : State, NoticesSettled s → step s = .next t → NoticesSettled t)

/-- R8: the silence timer's expiry stops it and raises METER with flags 1 and the silence time, and nothing else. That
the command carries the clock on to the moment the timer ends, and that a stopped timer does not expire, is the
model's choice (log 4). How an event ends (`EndsEvent`) is logs 8 and 9. -/
def Obligations.SilenceIsReportedOnce : Prop :=
  (∀ (s : State) (start : Time), Running s → s.vc.silenceTimer = some start →
    ∃ t, exec .silenceTimerExpiry s = .next t
      ∧ EndsEvent (raised .meter
          ⟨(s.bq.head?.map (·.batchId)).getD 0, s.vc.lineCount, none, 1, s.ts.active.segment.silenceTime.toNat⟩
          { s with
            vc := { s.vc with silenceTimer := none }
            now := max s.now (start + s.ts.active.segment.silenceTime.toNat * 1000) }) t)
  ∧ (∀ s : State, Running s → s.vc.silenceTimer = none → ∃ t, exec .silenceTimerExpiry s = .next t ∧ EndsEvent s t)

/-- R9: the still timer's expiry makes the line STILL, stops the timer and raises LINE_STATE with flags 0 and the
still time, and nothing else. That the command carries the clock on to the moment the timer ends, and that a stopped
timer does not expire, is the model's choice (log 4). How an event ends (`EndsEvent`) is logs 8 and 9. -/
def Obligations.LineFallsStill : Prop :=
  (∀ (s : State) (start : Time), Running s → s.vc.stillTimer = some start →
    ∃ t, exec .stillTimerExpiry s = .next t
      ∧ EndsEvent (raised .lineState
          ⟨(s.bq.head?.map (·.batchId)).getD 0, s.vc.lineCount, none, 0, s.ts.active.segment.stillTime.toNat⟩
          { s with
            vc := { s.vc with stillTimer := none, lineState := .still }
            now := max s.now (start + s.ts.active.segment.stillTime.toNat * 1000) }) t)
  ∧ (∀ s : State, Running s → s.vc.stillTimer = none → ∃ t, exec .stillTimerExpiry s = .next t ∧ EndsEvent s t)

/-! ## Requests and the responder -/

/-- R166 and the parameter layouts of R17 to R20, R38, R45, R49, R96, R131, R132, R136 and R177: a MANAGEMENT REQUEST
frame to the part whose payload is laid out for a request is exactly that request's command. That SET MODE with 0 is the
command SET_MODE_MANUAL, and with any other byte SET_MODE_AUTO, is the model's choice (log 26). -/
def Obligations.RequestFrameIsItsCommand : Prop :=
  ∀ (src : Byte) (q : Request) (s : State), (requestBytes q).length ≤ 198 →
    parseRequest (requestBytes q) = some q
    ∧ exec (.controlFrame ⟨s.liu.address, src, 0x41, requestBytes q⟩) s = exec (commandOf src q) s

/-- R166 and R167: a request with no kind byte, of a kind that is not in the table, or with a parameter length its kind
does not allow is answered UNKNOWN with the kind byte echoed, and no block sees it. A request frame with such a payload is
handed over so (R156). -/
def Obligations.UnknownRequestIsAnsweredUnknown : Prop :=
  (∀ (src : Byte) (s : State), Serving s →
    ∃ t, exec (.unknownRequest src []) s = .next t ∧ t = { s with liu := t.liu, mr := t.mr }
      ∧ AnsweredOnly src 0 [2, 0, 0] s t)
  ∧ (∀ (src kind : Byte) (ps : List Byte) (s : State), Serving s →
      (kind ≠ 0x01 → requestLength kind ≠ some ps.length) → (kind = 0x01 → 197 < ps.length) →
      ∃ t, exec (.unknownRequest src (kind :: ps)) s = .next t ∧ t = { s with liu := t.liu, mr := t.mr }
        ∧ AnsweredOnly src kind [2, kind, 0] s t)
  ∧ (∀ (src : Byte) (payload : List Byte) (s : State), payload.length ≤ 200 →
      exec (.controlFrame ⟨s.liu.address, src, 0x41, payload⟩) s = exec (.unknownRequest src payload) s)

/-- R168 and R170: a request handed over in SUMMING is answered BUSY, without any test, when a place is free, and its
answer is discarded when none is; in HOLDING and RESTART_PENDING it is discarded unanswered. Nothing else changes. -/
def Obligations.RequestMeetsABusyResponder : Prop :=
  (∀ (c : Instr) (src kind : Byte) (s : State), Running s → requestOfCommand c = some (src, kind) →
    s.mr.state = .summing →
    ∃ t, exec c s = .next t ∧ t = { s with liu := t.liu } ∧ t.liu.address = s.liu.address
      ∧ PortKept s.liu.field t.liu.field ∧ t.liu.control.rx = .hunt ∧ t.liu.control.forward = s.liu.control.forward
      ∧ t.liu.control.originated = (if s.liu.control.originated.length < 4 then
          s.liu.control.originated ++ [responseOf s src [3, kind, 0]] else s.liu.control.originated))
  ∧ (∀ (c : Instr) (src kind : Byte) (s : State), Running s → requestOfCommand c = some (src, kind) →
      s.mr.state = .holding ∨ s.mr.state = .restartPending →
      ∃ t, exec c s = .next t ∧ t = { s with liu := t.liu } ∧ EndedOnControl s t)

/-- R171: PING echoes its parameters, IDENT gives the six identification bytes; neither changes anything. -/
def Obligations.PingEchoesAndIdentIdentifies : Prop :=
  (∀ (src : Byte) (ps : List Byte) (s : State), Serving s → ps.length ≤ 197 →
    ∃ t, exec (.ping src ps) s = .next t ∧ t = { s with liu := t.liu, mr := t.mr }
      ∧ AnsweredOnly src 0x01 ([0, 0x01, 0] ++ ps) s t)
  ∧ (∀ (src : Byte) (ps : List Byte) (s : State), Serving s → 197 < ps.length →
      ∃ t, exec (.ping src ps) s = .next t ∧ t = { s with liu := t.liu, mr := t.mr }
        ∧ AnsweredOnly src 0x01 [2, 0x01, 0] s t)
  ∧ (∀ (src : Byte) (s : State), Serving s →
      ∃ t, exec (.ident src) s = .next t ∧ t = { s with liu := t.liu, mr := t.mr }
        ∧ AnsweredOnly src 0x02 [0, 0x02, 0, 0x0B, 0x24, 0x24, 0x00, 0x01, s.liu.address] s t)

/-- R172: READ STATUS answers DONE with its 29 data bytes and changes nothing; in SUMMING it is not answered DONE. -/
def Obligations.StatusIsReadWhole : Prop :=
  (∀ (src : Byte) (s : State), Serving s →
    ∃ t, exec (.readStatus src) s = .next t ∧ t = { s with liu := t.liu, mr := t.mr }
      ∧ AnsweredOnly src 0x03 ([0, 0x03, 0] ++ statusBytes s) s t)
  ∧ (∀ (src : Byte) (s t : State), Running s → s.mr.state = .summing → exec (.readStatus src) s = .next t →
      t.liu.control.originated = s.liu.control.originated
        ∨ t.liu.control.originated = s.liu.control.originated ++ [responseOf s src [3, 0x03, 0]])

/-- R177: SET NOTICES replaces the master enable, the enables of events 4 to 17 and the notice address, and answers
with the pending events; a bad parameter is refused. The emission test of R176 follows the response: every latch is as
it was, or it is clear, its event may be reported, and its notice stands in the queue behind the response; with three
frames or more queued before the request, none is cleared. How the event ends (`EndsRequest`) is logs 8 and 9. -/
def Obligations.NoticesAreSet : Prop :=
  (∀ (src master : Byte) (enables : BitVec 24) (s : State), Serving s → master.toNat ≤ 1 → enables.toNat < 2 ^ 17 →
    ∃ (t : State) (e : BitVec 24), exec (.setNotices src master enables) s = .next t
      ∧ (∀ n, n < 24 → e.getLsbD n = (decide (3 ≤ n) && enables.getLsbD n))
      ∧ EndsRequest src 0x04 ([0, 0x04, 0] ++ pendingLatchBytes s)
          (tested { received s with nu := { s.nu with master := master == 1, enables := e, address := src } }) t
      ∧ Answered src 0x04 ([0, 0x04, 0] ++ pendingLatchBytes s) s t
      ∧ t = { s with liu := t.liu, mr := t.mr, nu := t.nu } ∧ PortKept s.liu.field t.liu.field
      ∧ t.nu.master = (master == 1) ∧ t.nu.address = src ∧ t.nu.enables = e
      ∧ (∀ d : Event, t.nu.latches[eventIndex d] = s.nu.latches[eventIndex d]
          ∨ ∃ l, s.nu.latches[eventIndex d] = some l ∧ t.nu.latches[eventIndex d] = none ∧ Reported t.nu d
            ∧ noticeOf t d l ∈ t.liu.control.originated.drop (s.liu.control.originated.length + 1))
      ∧ (3 ≤ s.liu.control.originated.length → t.nu.latches = s.nu.latches))
  ∧ (∀ (src master : Byte) (enables : BitVec 24) (s : State), Serving s → 1 < master.toNat →
      ∃ t, exec (.setNotices src master enables) s = .next t ∧ t = { s with liu := t.liu, mr := t.mr }
        ∧ AnsweredOnly src 0x04 [1, 0x04, 1, 0] s t)
  ∧ (∀ (src master : Byte) (enables : BitVec 24) (s : State), Serving s → master.toNat ≤ 1 → 2 ^ 17 ≤ enables.toNat →
      ∃ t, exec (.setNotices src master enables) s = .next t ∧ t = { s with liu := t.liu, mr := t.mr }
        ∧ AnsweredOnly src 0x04 [1, 0x04, 1, 1] s t)

/-- R173: RESTART records its DONE response as the restart response and offers or holds it; the MR is RESTART_PENDING,
and no other block changes. -/
def Obligations.RestartWaitsForItsResponse : Prop :=
  ∀ (src : Byte) (s : State), Serving s →
    ∃ t, exec (.restart src) s = .next t ∧ t = { s with liu := t.liu, mr := t.mr }
      ∧ t.liu.address = s.liu.address ∧ PortKept s.liu.field t.liu.field ∧ t.liu.control.rx = .hunt
      ∧ t.liu.control.forward = s.liu.control.forward
      ∧ t.mr.state = .restartPending ∧ t.mr.service = some ⟨src, 0x05⟩
      ∧ t.mr.restartResponse = some (responseOf s src [0, 0x05, 0])
      ∧ (if s.liu.control.originated.length < 4 then
          t.mr.heldResponse = none
            ∧ t.liu.control.originated = s.liu.control.originated ++ [responseOf s src [0, 0x05, 0]]
        else t.mr.heldResponse = some (responseOf s src [0, 0x05, 0])
            ∧ t.liu.control.originated = s.liu.control.originated)

/-! ## The tables -/

/-- R21 to R23 for PUT PRODUCT, PUT OUTLET and PUT RULE: with an apply armed PENDING_LOCKED; otherwise the first field
out of range names its byte; a product code that another pending entry holds is a DUPLICATE; otherwise the pending entry
is replaced whole. -/
def Obligations.PutReplacesOnePendingEntry : Prop :=
  (∀ (src index : Byte) (e : ProductEntry) (s : State), Serving s →
    ∃ t, exec (.putProduct src index e) s = .next t ∧
      if s.ts.armed then AnsweredOnly src 0x10 [1, 0x10, 6] s t ∧ t = { s with liu := t.liu, mr := t.mr }
      else match firstBad (productRanges index e) with
        | some off => AnsweredOnly src 0x10 [1, 0x10, 1, BitVec.ofNat 8 off] s t ∧ t = { s with liu := t.liu, mr := t.mr }
        | none =>
          if e.code ≠ 0 ∧ ∃ i : Fin 16, i.val ≠ index.toNat ∧ s.ts.pending.products[i].code = e.code then
            AnsweredOnly src 0x10 [1, 0x10, 5] s t ∧ t = { s with liu := t.liu, mr := t.mr }
          else AnsweredOnly src 0x10 [0, 0x10, 0] s t
            ∧ t = { s with liu := t.liu, mr := t.mr, ts := { s.ts with pending := { s.ts.pending with
                products := t.ts.pending.products } } }
            ∧ ∀ i : Fin 16, t.ts.pending.products[i] =
                if i.val = index.toNat then (if e.code = 0 then ⟨0, 0, 0, 0, 0, 0, 0⟩ else e)
                else s.ts.pending.products[i])
  ∧ (∀ (src index : Byte) (e : OutletEntry) (s : State), Serving s →
    ∃ t, exec (.putOutlet src index e) s = .next t ∧
      if s.ts.armed then AnsweredOnly src 0x11 [1, 0x11, 6] s t ∧ t = { s with liu := t.liu, mr := t.mr }
      else match firstBad (outletRanges index e) with
        | some off => AnsweredOnly src 0x11 [1, 0x11, 1, BitVec.ofNat 8 off] s t ∧ t = { s with liu := t.liu, mr := t.mr }
        | none => AnsweredOnly src 0x11 [0, 0x11, 0] s t
            ∧ t = { s with liu := t.liu, mr := t.mr, ts := { s.ts with pending := { s.ts.pending with
                outlets := t.ts.pending.outlets } } }
            ∧ ∀ i : Fin 10, t.ts.pending.outlets[i] = if i.val = index.toNat then e else s.ts.pending.outlets[i])
  ∧ (∀ (src running arriving : Byte) (e : RuleEntry) (s : State), Serving s →
    ∃ t, exec (.putRule src running arriving e) s = .next t ∧
      if s.ts.armed then AnsweredOnly src 0x12 [1, 0x12, 6] s t ∧ t = { s with liu := t.liu, mr := t.mr }
      else match firstBad (ruleRanges running arriving e) with
        | some off => AnsweredOnly src 0x12 [1, 0x12, 1, BitVec.ofNat 8 off] s t ∧ t = { s with liu := t.liu, mr := t.mr }
        | none => AnsweredOnly src 0x12 [0, 0x12, 0] s t
            ∧ t = { s with liu := t.liu, mr := t.mr, ts := { s.ts with pending := { s.ts.pending with
                rules := t.ts.pending.rules } } }
            ∧ ∀ i : Fin 64, t.ts.pending.rules[i] =
                if i.val = running.toNat * 8 + arriving.toNat then e else s.ts.pending.rules[i])

/-- R21 and R23 for PUT SEGMENT: PENDING_LOCKED, the first field out of range, or the pending record replaced whole. -/
def Obligations.PutSegmentReplacesTheRecord : Prop :=
  ∀ (src : Byte) (r : SegmentRecord) (s : State), Serving s →
    ∃ t, exec (.putSegment src r) s = .next t ∧
      if s.ts.armed then AnsweredOnly src 0x13 [1, 0x13, 6] s t ∧ t = { s with liu := t.liu, mr := t.mr }
      else match firstBad (segmentRanges r) with
        | some off => AnsweredOnly src 0x13 [1, 0x13, 1, BitVec.ofNat 8 off] s t ∧ t = { s with liu := t.liu, mr := t.mr }
        | none => AnsweredOnly src 0x13 [0, 0x13, 0] s t
            ∧ t = { s with liu := t.liu, mr := t.mr, ts := { s.ts with pending := { s.ts.pending with segment := r } } }

/-- R17 to R20, R22 and R23: the range tests of PUT PRODUCT, PUT OUTLET, PUT RULE and PUT SEGMENT name the first field out of
range by the offset of its first byte. -/
def Obligations.RangeTestsNameTheFirstBadField : Prop :=
  (∀ (index : Byte) (e : ProductEntry), firstBad (productRanges index e) =
    if 15 < index.toNat then some 0
    else if e.code = 0 then none
    else if 7 < e.family.toNat then some 2
    else if e.reference.toNat < 50000 ∨ 110000 < e.reference.toNat then some 3
    else if 2000 < e.beta.toNat then some 7
    else if 500 < e.tolerance.toNat then some 9
    else if e.excursionLimit.toNat < 50 ∨ 5000 < e.excursionLimit.toNat then some 11
    else if 7 < e.destination.toNat ∧ e.destination ≠ 9 then some 13
    else none)
  ∧ (∀ (index : Byte) (e : OutletEntry), firstBad (outletRanges index e) =
    if 9 < index.toNat then some 0
    else if 1 < e.enabled.toNat then some 1
    else if e.valveAddress = 0 ∨ e.valveAddress = 255 then some 2
    else if e.multiplier ∉ [1, 2, 4, 8, 16] then some 8
    else if 31 < e.map.toNat then some 9
    else if e.strokeTimeout = 0 then some 10
    else if e.trim.toInt < -5000 ∨ 5000 < e.trim.toInt then some 11
    else none)
  ∧ (∀ (running arriving : Byte) (e : RuleEntry), firstBad (ruleRanges running arriving e) =
    if 7 < running.toNat then some 0
    else if 7 < arriving.toNat then some 1
    else if 3 < e.disposition.toNat then some 2
    else if 200000 < e.expectedWidth.toNat then some 3
    else none)
  ∧ (∀ r : SegmentRecord, firstBad (segmentRanges r) =
    if r.meterAddress = 0 ∨ r.meterAddress = 255 then some 0
    else if r.densityAddress = 0 ∨ r.densityAddress = 255 then some 1
    else if r.leadVolume.toNat < 5000 ∨ 400000 < r.leadVolume.toNat then some 2
    else if r.evaluationStep.toNat < 500 ∨ 20000 < r.evaluationStep.toNat then some 6
    else if r.confirmationCount.toNat < 1 ∨ 8 < r.confirmationCount.toNat then some 8
    else if r.averagingDepth ∉ [1, 2, 4, 8] then some 9
    else if r.startThreshold.toNat < 1 ∨ 100 < r.startThreshold.toNat then some 10
    else if r.endThreshold.toNat < 1 ∨ 100 < r.endThreshold.toNat then some 12
    else if 2000000 < r.earlyMargin.toNat then some 14
    else if 2000000 < r.lateMargin.toNat then some 18
    else if 2000000 < r.extensionVolume.toNat then some 22
    else if 3 < r.maxExtensions.toNat then some 26
    else if r.blindLimit.toNat < 1 ∨ 16 < r.blindLimit.toNat then some 27
    else if r.minimumContrast.toNat < 50 ∨ 2000 < r.minimumContrast.toNat then some 28
    else if 50000 < r.fallbackGuard.toNat then some 30
    else if r.maxMixingVolume.toNat < 1000 ∨ 500000 < r.maxMixingVolume.toNat then some 32
    else if 500000 < r.settleVolume.toNat then some 36
    else if 8 < r.baselineRate.toNat then some 40
    else if 500 < r.offsetLimit.toNat then some 41
    else if 100000 < r.lateLimit.toNat then some 43
    else if r.reliefOutlet ≠ 8 ∧ r.reliefOutlet ≠ 9 then some 49
    else if r.stillTime.toNat < 10 ∨ 600 < r.stillTime.toNat then some 50
    else if r.silenceTime.toNat < 1 ∨ 60 < r.silenceTime.toNat then some 52
    else if r.maxMeterStep.toNat < 1 ∨ 1000000 < r.maxMeterStep.toNat then some 53
    else if 20000 < r.standGrowthRate.toNat then some 57
    else if 200000 < r.standGrowthCap.toNat then some 59
    else none)

/-- R24 and R25: COMMIT with no apply armed. A failing test refuses it with CONFLICT, the test's number and index
byte; otherwise the apply is armed, and performed at once at a quiet point: the active copy is then the pending one.
R12, R29 and R31, in whatever mode and with whatever actions queued (the order of the effects is log 18): the offset
is clamped and a ring of another address emptied; a new meter address makes the last total absent and restarts the
silence timer, and a running timer that has reached its changed time expires (with a new meter address beside a new
silence time, log 36); valve records and the open order lose the outlets whose address changes, the dead-head guard
acts where that leaves a moving line without an outlet (R129), and in AUTO and HELD manifold commands to the new
addresses are withdrawn (R126, R158, R161; the guard before the withdrawal, log 41); queued actions to an outlet that
is now disabled go through the lane trap, each with LANE_TRAP and moment 3 (R130, R137); TABLES_APPLIED states which
tables differed. The test for an apply, wherever it is made, performs it exactly when it is due (R28). How the event
ends (`EndsRequest`) is logs 8 and 9. -/
def Obligations.CommitArmsOrApplies : Prop :=
  (∀ (src : Byte) (c : Conflict) (s : State), Serving s → s.ts.armed = false → commitConflict s = some c →
    ∃ t, exec (.commit src) s = .next t ∧ t = { s with liu := t.liu, mr := t.mr }
      ∧ AnsweredOnly src 0x14 [1, 0x14, 7, BitVec.ofNat 8 c.test, BitVec.ofNat 8 c.index] s t)
  ∧ (∀ (src : Byte) (s : State), Serving s → s.ts.armed = false → commitConflict s = none → s.ts.sum = none →
      (s.it.state ≠ .quiet ∨ s.it.excursion = true ∨ s.cs.engine ≠ .idle) →
      ∃ t, exec (.commit src) s = .next t
        ∧ t = { s with liu := t.liu, mr := t.mr, ts := { s.ts with armed := true } }
        ∧ AnsweredOnly src 0x14 [0, 0x14, 0, 0] s t)
  ∧ (∀ (src : Byte) (s : State), Serving s → s.ts.armed = false → commitConflict s = none → s.ts.sum = none →
      s.it.state = .quiet → s.it.excursion = false → s.cs.engine = .idle →
      ∃ t, exec (.commit src) s = .next t
        ∧ t.ts = { s.ts with active := s.ts.pending, armed := false }
        ∧ Answered src 0x14 [0, 0x14, 0, 1] s t
        ∧ t.vc.lineCount = s.vc.lineCount ∧ t.bq = s.bq ∧ t.it = s.it ∧ t.tu = s.tu)
  ∧ (∀ (src : Byte) (s : State), Serving s → s.ts.armed = true →
      ∃ t, exec (.commit src) s = .next t ∧ t = { s with liu := t.liu, mr := t.mr }
        ∧ AnsweredOnly src 0x14 [0, 0x14, 0, 2] s t)
  ∧ (∀ (src : Byte) (s : State), Serving s → s.ts.armed = false → commitConflict s = none → s.ts.sum = none →
      s.it.state = .quiet → s.it.excursion = false → s.cs.engine = .idle →
      ∃ t, exec (.commit src) s = .next t
        ∧ EndsRequest src 0x14 [0, 0x14, 0, 1] (applied false { received s with ts := { s.ts with armed := true } }) t)
  ∧ (∀ (window : Bool) (s : State), applyIfDue window s = applyChecked window s)

/-- R24: COMMIT answers with the first of the seven tests that fails on the pending copy and its index byte: T or the relief
outlet disabled, the outlet with the smallest trim, the queue position of a product not held, the product whose lane is
disabled, the lowest outlet that shares its valve address, the lowest whose address is an instrument's or the part's own.
Tests 1 and 2 are also stated apart, and that with no conflict all valve addresses differ. -/
def Obligations.CommitTestsNameTheirOutlet : Prop :=
  ∀ s : State,
    ((s.ts.pending.outlets[(8 : Fin 10)]).enabled ≠ 1 → commitConflict s = some ⟨1, 8⟩)
    ∧ ((s.ts.pending.outlets[(8 : Fin 10)]).enabled = 1 → s.ts.pending.segment.reliefOutlet = 9 →
        (s.ts.pending.outlets[(9 : Fin 10)]).enabled ≠ 1 → commitConflict s = some ⟨2, 9⟩)
    ∧ (commitConflict s = none → ∀ o p : Fin 10, o ≠ p →
        s.ts.pending.outlets[o].valveAddress ≠ s.ts.pending.outlets[p].valveAddress)
    ∧ (∀ n i : Nat, s.ts.pending.segment.reliefOutlet.toNat < 10 →
        (commitConflict s = some ⟨n, i⟩ ↔ CommitFails s n i ∧ ∀ m j : Nat, m < n → ¬ CommitFails s m j))

/-- R27: WITHDRAW disarms an armed apply, answers whether one was armed, and leaves both copies as they stand, so that
with none armed it changes nothing; while a sum is in progress it is answered BUSY and changes nothing. -/
def Obligations.WithdrawDisarms : Prop :=
  (∀ (src : Byte) (s : State), Serving s →
    ∃ t, exec (.withdraw src) s = .next t
      ∧ t = { s with liu := t.liu, mr := t.mr, ts := { s.ts with armed := false } }
      ∧ AnsweredOnly src 0x15 [0, 0x15, 0, if s.ts.armed then 1 else 0] s t)
  ∧ (∀ (src : Byte) (s : State), Running s → s.mr.state = .summing →
      ∃ t, exec (.withdraw src) s = .next t ∧ t = { s with liu := t.liu }
        ∧ t.liu.control.originated = (if s.liu.control.originated.length < 4 then
            s.liu.control.originated ++ [responseOf s src [3, 0x15, 0]] else s.liu.control.originated))

/-- R32 and R168: SUM TABLES with selector 0 or 1 begins the computation over the copy it selects and puts the MR in
SUMMING; another selector is refused. -/
def Obligations.SumTablesStartsTheSum : Prop :=
  (∀ (src selector : Byte) (s : State), Serving s → selector.toNat ≤ 1 →
    ∃ t, exec (.sumTables src selector) s = .next t
      ∧ t = { s with
          liu := t.liu, ts := { s.ts with sum := some ⟨selector == 1, s.now⟩ }
          mr := { s.mr with state := .summing, service := some ⟨src, 0x16⟩ } }
      ∧ EndedOnControl s t)
  ∧ (∀ (src selector : Byte) (s : State), Serving s → 1 < selector.toNat →
      ∃ t, exec (.sumTables src selector) s = .next t ∧ t = { s with liu := t.liu, mr := t.mr }
        ∧ AnsweredOnly src 0x16 [1, 0x16, 1, 0] s t)

/-- R32 and R170: the computation's completion clears the sum and forms the DONE response with the selector and the
CRC of the selected copy, which is placed or held. With no apply armed nothing else happens; an armed apply at a quiet
point follows. That a completion with no sum in progress does nothing is the model's choice (log 28). The effects of
an apply are those of CommitArmsOrApplies (logs 18, 36 and 41); how an event ends (`EndsEvent`) is logs 8 and 9. -/
def Obligations.SumCompletionAnswers : Prop :=
  (∀ (s : State) (j : SumJob) (src : Byte), Running s → s.ts.sum = some j → s.mr.state = .summing →
    s.mr.service = some ⟨src, 0x16⟩ → s.ts.armed = false →
    ∃ t, exec .sumComplete s = .next t
      ∧ t = { s with liu := t.liu, mr := t.mr, ts := { s.ts with sum := none } }
      ∧ t.liu.address = s.liu.address ∧ PortKept s.liu.field t.liu.field
      ∧ t.liu.control.rx = s.liu.control.rx ∧ t.liu.control.forward = s.liu.control.forward
      ∧ (let response := responseOf s src ([0, 0x16, 0, if j.selectsActive then 1 else 0]
            ++ beBytes 2 (crc16 (tablesBytes (if j.selectsActive then s.ts.active else s.ts.pending))).toNat)
          if s.liu.control.originated.length < 4 then
            t.liu.control.originated = s.liu.control.originated ++ [response]
              ∧ t.mr = { s.mr with state := .ready, service := none, heldResponse := none }
          else t.liu.control.originated = s.liu.control.originated
              ∧ t.mr = { s.mr with state := .holding, heldResponse := some response }))
  ∧ (∀ (s : State) (j : SumJob), Running s → s.ts.sum = some j → s.ts.armed = true → s.it.state = .quiet →
      s.it.excursion = false → s.cs.engine = .idle →
      ∃ t, exec .sumComplete s = .next t ∧ t.ts = ⟨s.ts.pending, s.ts.pending, false, none⟩)
  ∧ (∀ (s : State) (j : SumJob) (src : Byte), Running s → s.ts.sum = some j → s.mr.state = .summing →
      s.mr.service = some ⟨src, 0x16⟩ →
      ∃ t, exec .sumComplete s = .next t
        ∧ EndsEvent (applyChecked false (responseOffered src 0x16 ([0, 0x16, 0, if j.selectsActive then 1 else 0]
            ++ beBytes 2 (crc16 (tablesBytes (if j.selectsActive then s.ts.active else s.ts.pending))).toNat)
          { s with ts := { s.ts with sum := none } })) t)
  ∧ (∀ s : State, Running s → s.ts.sum = none →
      ∃ t, exec .sumComplete s = .next t ∧ t = { s with liu := t.liu } ∧ t.liu.address = s.liu.address
        ∧ ∀ p, PortKept (s.port p) (t.port p))

/-! ## The batch queue -/

/-- R38: the tests of ADD BATCH in their order; a refused request changes nothing but the responder. -/
def Obligations.BatchAddRefusals : Prop :=
  (∀ f : BatchFields, firstBad (batchRanges f) =
    if f.batchId = 0 then some 0
    else if f.product = 0 then some 2
    else if f.nominal.toNat < 1000 ∨ 100000000 < f.nominal.toNat then some 3
    else if 2 < f.disposition.toNat then some 7
    else if (f.disposition = 1 ∧ (f.delivery.toNat < 1000 ∨ f.nominal.toNat < f.delivery.toNat))
        ∨ (f.disposition ≠ 1 ∧ f.delivery ≠ 0) then some 8
    else if f.certified ≠ 0 ∧ (f.certified.toNat < 50000 ∨ 110000 < f.certified.toNat) then some 12
    else none)
  ∧ (∀ (src : Byte) (f : BatchFields) (off : Nat) (s : State), Serving s → firstBad (batchRanges f) = some off →
      ∃ t, exec (.addBatch src f) s = .next t ∧ t = { s with liu := t.liu, mr := t.mr }
        ∧ AnsweredOnly src 0x20 [1, 0x20, 1, BitVec.ofNat 8 off] s t)
  ∧ (∀ (src : Byte) (f : BatchFields) (s : State), Serving s → firstBad (batchRanges f) = none → 32 ≤ s.bq.length →
      ∃ t, exec (.addBatch src f) s = .next t ∧ t = { s with liu := t.liu, mr := t.mr }
        ∧ AnsweredOnly src 0x20 [1, 0x20, 3] s t)
  ∧ (∀ (src : Byte) (f : BatchFields) (k : Nat) (s : State), Serving s → firstBad (batchRanges f) = none →
      s.bq.length < 32 → s.bq.findIdx? (fun b => b.batchId == f.batchId) = some k →
      ∃ t, exec (.addBatch src f) s = .next t ∧ t = { s with liu := t.liu, mr := t.mr }
        ∧ AnsweredOnly src 0x20 [1, 0x20, 5, BitVec.ofNat 8 k] s t)
  ∧ (∀ (src : Byte) (f : BatchFields) (s : State), Serving s → firstBad (batchRanges f) = none → s.bq.length < 32 →
      (∀ b ∈ s.bq, b.batchId ≠ f.batchId) → ¬ Present s f.product →
      ∃ t, exec (.addBatch src f) s = .next t ∧ t = { s with liu := t.liu, mr := t.mr }
        ∧ AnsweredOnly src 0x20 [1, 0x20, 4, 1] s t)

/-- R39 and R40: an accepted ADD BATCH into an empty queue is a scheduling: entry 0 with the line count as predicted
head mark, an empty current ticket opened there, and the settle origin set when it is absent. -/
def Obligations.FirstBatchIsScheduled : Prop :=
  ∀ (src : Byte) (f : BatchFields) (s : State), Serving s → firstBad (batchRanges f) = none → s.bq = [] →
    Present s f.product →
    ∃ t lane, exec (.addBatch src f) s = .next t
      ∧ outletCode lane = (if firstDestination s (recordWith f s.vc.lineCount none) = 9 then 0xFF
          else firstDestination s (recordWith f s.vc.lineCount none))
      ∧ t = { s with
          liu := t.liu, mr := t.mr
          bq := [recordWith f s.vc.lineCount none]
          tu := { s.tu with current := some (emptyTicket f.batchId f.product lane s.vc.lineCount) }
          de := { s.de with settleOrigin := some (s.de.settleOrigin.getD s.vc.lineCount) } }
      ∧ AnsweredOnly src 0x20 ([0, 0x20, 0, 0] ++ bytesOf 6 s.vc.lineCount) s t

/-- R39 and R41: an accepted ADD BATCH behind a batch is appended with the head mark that R37 gives it; where it opens
no window nothing else changes. In every case its answer states where it stands: that the answer is formed from the queue
as it is after the tracker's effects is the model's choice (log 16, DEDUCED), on which the last two clauses rest. Behind
a single batch it is a change at position 1, which the tracker is told of (R41): in QUIET the open mark is tested at
once, and what WindowOpensAtItsMark says of the marks happens in the same event, before the answer. How the event ends
(EndsRequest) is logs 8 and 9. -/
def Obligations.BatchIsAppended : Prop :=
  (∀ (src : Byte) (f : BatchFields) (last : BatchRecord) (s : State), Serving s → firstBad (batchRanges f) = none →
    s.bq.getLast? = some last → s.bq.length < 32 → (∀ b ∈ s.bq, b.batchId ≠ f.batchId) → Present s f.product →
    (2 ≤ s.bq.length ∨ NoWindowAt s (recordWith f (headMark last + last.nominal.setWidth 48) none)) →
    ∃ t, exec (.addBatch src f) s = .next t
      ∧ t = { s with
          liu := t.liu, mr := t.mr
          bq := s.bq ++ [recordWith f (headMark last + last.nominal.setWidth 48) none] }
      ∧ AnsweredOnly src 0x20 ([0, 0x20, 0, BitVec.ofNat 8 s.bq.length]
          ++ bytesOf 6 (headMark last + last.nominal.setWidth 48)) s t)
  ∧ (∀ (src : Byte) (f : BatchFields) (s : State), Serving s → firstBad (batchRanges f) = none →
      s.bq.length < 32 → (∀ b ∈ s.bq, b.batchId ≠ f.batchId) → Present s f.product →
      ∃ t, exec (.addBatch src f) s = .next t
        ∧ ∀ k b, t.bq.findIdx? (fun b => b.batchId == f.batchId) = some k → t.bq[k]? = some b →
          Answered src 0x20 ([0, 0x20, 0, BitVec.ofNat 8 k] ++ bytesOf 6 b.predicted) s t)
  ∧ (∀ (src : Byte) (f : BatchFields) (b0 : BatchRecord) (s : State), Serving s → firstBad (batchRanges f) = none →
      s.bq = [b0] → b0.batchId ≠ f.batchId → Present s f.product →
      ∃ (k : Nat) (b : BatchRecord) (u t : State),
        u = changeReported { received s with
          bq := [b0, recordWith f (headMark b0 + b0.nominal.setWidth 48) none] }
        ∧ u.bq.findIdx? (fun b => b.batchId == f.batchId) = some k ∧ u.bq[k]? = some b
        ∧ exec (.addBatch src f) s = .next t
        ∧ EndsRequest src 0x20 ([0, 0x20, 0, BitVec.ofNat 8 k] ++ bytesOf 6 b.predicted) u t)

/-- R41, R73 to R75: a batch added behind a single one while the tracker is QUIET opens a window at once when its open
mark is reached; with the contrast wide enough, the close mark not reached, no excursion and no apply armed, the
tracker is in WATCH with the record of R74 and the DE holds the pair references of R62. The marks of R71, one at a
time: in QUIET the open mark (an excursion ends, the mark and deviation of its OFF_SPEC being log 15; an armed apply
comes first, R30), in WATCH the close mark (R76), in MIXING the wide and the forced-end mark (R84, R85; a postponed
end by log 22), in FALLBACK the fallback marks and the end (R87, R88), in OVERDUE none. R46 and R79: a midpoint
re-anchors entry 1, links the marks behind it, stores the drift and forms the booking boundary. R78 to R83: an
evaluation in MIXING sets the midpoint at 500, moves the runs of the outstanding decisions, the head cut first, makes
a decision at its K-th count, moves the end run and confirms the end. R80 to R82, R90 and R93: a decision is recorded
and its move offered, with its VOLUME action (alone, by log 23, where both batches go to one outlet; its fire mark then
by log 44 where R141 raised the boundary). R89: the end of an interface. An end performs an apply that it makes due before entry 0 is removed (log 17; its effects by logs 18, 36
and 41); the bound on the marks of one event is log 29; that a window opening clears the excursion run also where no
excursion ends is log 43. -/
def Obligations.WindowOpensAtItsMark : Prop :=
  (∀ (src : Byte) (f : BatchFields) (b0 : BatchRecord) (e : RuleEntry) (s : State), Serving s →
    firstBad (batchRanges f) = none → s.bq = [b0] → b0.batchId ≠ f.batchId → Present s f.product →
    s.ts.armed = false → s.it.state = .quiet → s.it.excursion = false →
    let b1 := recordWith f (headMark b0 + b0.nominal.setWidth 48) none
    let dH := referenceDensity s b0
    let dT := referenceDensity s b1
    reached s.vc.lineCount (openMarkAt s b1) = true →
    s.ts.active.segment.minimumContrast.toNat ≤ (dT - dH).natAbs →
    reached s.vc.lineCount (headMark b1 + s.ts.active.segment.lateMargin.setWidth 48) = false →
    e = ruleAtFamilies s.ts.active (s.product b0.product).family (s.product b1.product).family →
    ∃ t, exec (.addBatch src f) s = .next t
      ∧ t = { s with
          liu := t.liu, mr := t.mr
          bq := [b0, b1]
          de := { s.de with pair := some ⟨dH, dT, dT - dH, false⟩ }
          it := { s.it with
            state := .watch, excRun := ⟨0, 0⟩, record := some (densityRecord s b0 b1 e)
            headRun := ⟨0, 0⟩, tailRun := ⟨0, 0⟩, endRun := 0
            held := [], endDue := none, volumeDue := false } }
      ∧ AnsweredOnly src 0x20 ([0, 0x20, 0, 1] ++ bytesOf 6 b1.predicted) s t)
  ∧ (∀ s : State, (markStep s = none → testMarks s = s)
      ∧ (∀ u, markStep s = some u → markStep u = none → testMarks s = u)
      ∧ ∀ (n : Nat) (t : State), MarksActed n s t → n ≤ 12 * (s.bq.length + 1) → testMarks s = t)
  ∧ (∀ s : State, s.it.state = .quiet → s.bq.length ≤ 1 → markStep s = none)
  ∧ (∀ (b0 b1 : BatchRecord) (rest : List BatchRecord) (s : State), s.it.state = .quiet → s.bq = b0 :: b1 :: rest →
      (reached s.vc.lineCount (openMarkAt s b1) = false → markStep s = none)
      ∧ (reached s.vc.lineCount (openMarkAt s b1) = true → ∃ (mark : Mark) (deviation : Int),
          let a := { s with it := { s.it with excursion := false, excRun := ⟨0, 0⟩ } }
          let b := if s.it.excursion then
              raised .offSpec ⟨b0.batchId, mark, some (destinationOutlet s b0), 3, deviation⟩ a else a
          let c := applyChecked true b
          markStep s = some (windowOpened b0 b1
            (ruleAtFamilies c.ts.active (c.product b0.product).family (c.product b1.product).family) c)))
  ∧ (∀ (r : InterfaceRecord) (s : State), s.it.record = some r → s.it.state = .watch →
      (reached s.vc.lineCount r.closeMark = false → markStep s = none)
      ∧ (reached s.vc.lineCount r.closeMark = true → r.extensions < s.ts.active.segment.maxExtensions.toNat →
          markStep s = some (raised .windowMissed ⟨r.arrivingId, s.vc.lineCount, none, 0, (r.extensions + 1 : Nat)⟩
            (recordChanged (fun r => { r with
              closeMark := r.closeMark + s.ts.active.segment.extensionVolume.setWidth 48
              extensions := r.extensions + 1 }) s)))
      ∧ (reached s.vc.lineCount r.closeMark = true → s.ts.active.segment.maxExtensions.toNat ≤ r.extensions →
          markStep s = some (raised .windowMissed ⟨r.arrivingId, s.vc.lineCount, none, 1, r.extensions⟩
            { s with it := { s.it with state := .overdue, record := some { r with overdue := true } } })))
  ∧ (∀ s : State, s.it.state = .overdue → markStep s = none)
  ∧ (∀ (r : InterfaceRecord) (start wide forced : Mark) (s : State), s.it.record = some r → s.it.state = .mixing →
      r.startMark = some start → wide = start + s.ts.active.segment.maxMixingVolume.setWidth 48 →
      forced = start + s.ts.active.segment.maxMixingVolume.setWidth 48 * 2 →
      (r.widest = false → reached s.vc.lineCount wide = true →
        let a := raised .interfaceWide ⟨r.arrivingId, wide, none, 0, r.lastFraction⟩
          (recordChanged (fun r => { r with widest := true }) s)
        let b := if r.midpoint = none then setMidpoint wide a else a
        let c := if r.headCut = none ∧ (r.disposition = .transmix ∨ r.disposition = .intoArriving) then
            decideAt .headCut wide b else b
        let d := if r.tailCut = none ∧ r.disposition ≠ .intoArriving then decideAt .tailCut wide c else c
        markStep s = some { d with it := { d.it with headRun := ⟨0, 0⟩, tailRun := ⟨0, 0⟩ } })
      ∧ ((r.widest = true ∨ reached s.vc.lineCount wide = false) →
        (∀ m, s.it.endDue = some m → s.it.held = [] → markStep s = some (endInterface m s))
        ∧ (s.it.endDue = none ∨ s.it.held ≠ [] →
          (r.forcedEnd = true ∨ reached s.vc.lineCount forced = false → markStep s = none)
          ∧ (r.forcedEnd = false → reached s.vc.lineCount forced = true →
            let a := recordChanged (fun r => { r with forcedEnd := true }) s
            markStep s = some (if s.it.held = [] then endInterface forced a
              else { a with it := { a.it with endDue := some forced } })))))
  ∧ (∀ (r : InterfaceRecord) (finish : Mark) (s : State), s.it.record = some r → s.it.state = .fallback →
      finish = r.midpoint.getD r.predicted + halfWidth r + s.ts.active.segment.fallbackGuard.setWidth 48 →
      (Outstanding r .headCut → reached s.vc.lineCount (fallbackDecision s r .headCut) = true →
        markStep s = some (decideAt .headCut (fallbackDecision s r .headCut) s))
      ∧ ((¬ Outstanding r .headCut ∨ reached s.vc.lineCount (fallbackDecision s r .headCut) = false) →
        (Outstanding r .tailCut → reached s.vc.lineCount (fallbackDecision s r .tailCut) = true →
          markStep s = some (decideAt .tailCut (fallbackDecision s r .tailCut) s))
        ∧ ((¬ Outstanding r .tailCut ∨ reached s.vc.lineCount (fallbackDecision s r .tailCut) = false) →
          (∀ m, s.it.endDue = some m → s.it.held = [] → markStep s = some (endInterface m s))
          ∧ (s.it.endDue ≠ none → s.it.held ≠ [] → markStep s = none)
          ∧ (s.it.endDue = none → reached s.vc.lineCount finish = false → markStep s = none)
          ∧ (s.it.endDue = none → reached s.vc.lineCount finish = true →
            let a := if r.midpoint = none then setMidpoint r.predicted s else s
            markStep s = some (if a.it.held = [] then endInterface finish a
              else { a with it := { a.it with endDue := some finish } })))))
  ∧ (∀ (mark : Mark) (r : InterfaceRecord) (b0 b1 : BatchRecord) (rest : List BatchRecord) (s : State),
      s.it.record = some r → s.bq = b0 :: b1 :: rest →
      ∃ bq' : List BatchRecord, bq'.length = s.bq.length ∧ bq'[0]? = some b0
        ∧ bq'[1]? = some { b1 with actual := some mark } ∧ MovedUp s.bq bq' 2 2 ∧ LinkedFrom bq' 1
        ∧ setMidpoint mark s = volumeOffered mark { b1 with actual := some mark }
            (setBoundary mark { b1 with actual := some mark } { s with
              bq := bq'
              it := { s.it with
                record := some { r with midpoint := some mark, drift := some (mark - b1.predicted).toInt } } }))
  ∧ (∀ (n : Mark) (f : Int) (r : InterfaceRecord) (b0 b1 : BatchRecord) (rest : List BatchRecord) (s : State),
      s.it.state = .mixing → s.it.record = some r → s.bq = b0 :: b1 :: rest →
      s.ts.active.segment.confirmationCount ≠ 0 →
      let K := s.ts.active.segment.confirmationCount.toNat
      let outHead : Bool := r.headCut.isNone && (r.disposition == .transmix || r.disposition == .intoArriving)
      let outTail : Bool := r.tailCut.isNone && r.disposition != .intoArriving
      let head : Bool := decide (((s.product b0.product).tolerance.toNat : Int) < f)
      let tail : Bool := if r.disposition = .midpoint then decide (500 ≤ f)
        else decide (1000 - ((s.product b1.product).tolerance.toNat : Int) ≤ f)
          && (r.disposition != .transmix || r.headCut.isSome || head)
      let headRun := runAfter s.it.headRun head n
      let tailRun := runAfter s.it.tailRun tail n
      let a := if outHead then
          (let x := { s with it := { s.it with headRun := headRun } }
            if K ≤ headRun.count then decideAt .headCut headRun.first x else x)
        else s
      advanceDecisions n f s =
        if outTail then
          (let x := { a with it := { a.it with tailRun := tailRun } }
            if K ≤ tailRun.count then decideAt .tailCut tailRun.first x else x)
        else a)
  ∧ (∀ (n : Mark) (f : Int) (s : State),
      mixingEvaluation n f s = advanceEnd n f (advanceDecisions n f
        (if 500 ≤ f ∧ s.it.record.any (fun r => r.midpoint.isNone) = true then setMidpoint n s else s)))
  ∧ (∀ (n : Mark) (f : Int) (r : InterfaceRecord) (s : State), s.it.record = some r →
      let run := if 1000 - (s.ts.active.segment.endThreshold.toNat : Int) ≤ f then min 8 (s.it.endRun + 1) else 0
      let a := { s with it := { s.it with endRun := run } }
      advanceEnd n f s =
        if s.ts.active.segment.confirmationCount.toNat ≤ run
            ∧ ¬ (r.headCut = none ∧ (r.disposition = .transmix ∨ r.disposition = .intoArriving))
            ∧ ¬ (r.tailCut = none ∧ r.disposition ≠ .intoArriving)
            ∧ s.it.held = [] ∧ s.it.endDue = none then testMarks (endInterface n a) else a)
  ∧ (∀ (p : Place) (mark m : Mark) (r : InterfaceRecord) (b0 b1 : BatchRecord) (rest : List BatchRecord)
      (move : Reason × BatchId × Outlet × Outlet) (s : State),
      s.it.record = some r → s.bq = b0 :: b1 :: rest →
      decisionMove r.disposition p b0.batchId b1.batchId (destinationOutlet s b0) (destinationOutlet s b1) = some move →
      m = atLeast r.tailCut (atLeast r.headCut mark) →
      decideAt p mark s = decisionMade p m r b0 b1 move s)
  ∧ (∀ (m : Mark) (r : InterfaceRecord) (s : State), s.it.record = some r → endInterface m s = interfaceEnded m r s)

/-- R41 to R44: AMEND BATCH refuses in the order of R42; an accepted one replaces the given fields, keeps the position
and the marks of the batch, and links the predicted head marks behind it anew; where it opens no window nothing else
changes. A new nominal volume of entry 0 changes entry 1's head mark, which the tracker is told of (R41): in QUIET the
open mark is tested at once, and what WindowOpensAtItsMark says of the marks happens in the same event, before the answer.
The answer is formed from the queue as it is then; where the amended batch has left the queue within the event, its
seven data bytes are open (log 16). How the event ends (EndsRequest) is logs 8 and 9. -/
def Obligations.BatchIsAmended : Prop :=
  (∀ (src : Byte) (f : BatchFields) (off : Nat) (s : State), Serving s → firstBad (batchRanges f) = some off →
    ∃ t, exec (.amendBatch src f) s = .next t ∧ t = { s with liu := t.liu, mr := t.mr }
      ∧ AnsweredOnly src 0x21 [1, 0x21, 1, BitVec.ofNat 8 off] s t)
  ∧ (∀ (src : Byte) (f : BatchFields) (s : State), Serving s → firstBad (batchRanges f) = none →
      (∀ b ∈ s.bq, b.batchId ≠ f.batchId) →
      ∃ t, exec (.amendBatch src f) s = .next t ∧ t = { s with liu := t.liu, mr := t.mr }
        ∧ AnsweredOnly src 0x21 [1, 0x21, 4, 0] s t)
  ∧ (∀ (src : Byte) (f : BatchFields) (k : Nat) (b : BatchRecord) (s : State), Serving s →
      firstBad (batchRanges f) = none → s.bq.findIdx? (fun b => b.batchId == f.batchId) = some k →
      s.bq[k]? = some b → ¬ MayBeAmended s k b f →
      ∃ t, exec (.amendBatch src f) s = .next t ∧ t = { s with liu := t.liu, mr := t.mr }
        ∧ AnsweredOnly src 0x21 [1, 0x21, 2, BitVec.ofNat 8 k] s t)
  ∧ (∀ (src : Byte) (f : BatchFields) (k : Nat) (b : BatchRecord) (s : State), Serving s →
      firstBad (batchRanges f) = none → s.bq.findIdx? (fun b => b.batchId == f.batchId) = some k →
      s.bq[k]? = some b → MayBeAmended s k b f → ¬ Present s f.product →
      ∃ t, exec (.amendBatch src f) s = .next t ∧ t = { s with liu := t.liu, mr := t.mr }
        ∧ AnsweredOnly src 0x21 [1, 0x21, 4, 1] s t)
  ∧ (∀ (src : Byte) (f : BatchFields) (k : Nat) (b : BatchRecord) (s : State), Serving s →
      firstBad (batchRanges f) = none → s.bq.findIdx? (fun b => b.batchId == f.batchId) = some k →
      s.bq[k]? = some b → MayBeAmended s k b f → Present s f.product →
      (k = 0 → b.nominal ≠ f.nominal → ∀ c, s.bq[1]? = some c →
        NoWindowAt s { c with predicted := headMark b + f.nominal.setWidth 48 }) →
      ∃ t, exec (.amendBatch src f) s = .next t ∧ t = { s with liu := t.liu, mr := t.mr, bq := t.bq }
        ∧ QueueAmended f k b s.bq t.bq
        ∧ AnsweredOnly src 0x21 ([0, 0x21, 0, BitVec.ofNat 8 k]
            ++ bytesOf 6 (match t.bq[k + 1]? with | some c => c.predicted | none => 0)) s t)
  ∧ (∀ (src : Byte) (f : BatchFields) (k : Nat) (b : BatchRecord) (s : State), Serving s →
      firstBad (batchRanges f) = none → s.bq.findIdx? (fun b => b.batchId == f.batchId) = some k →
      s.bq[k]? = some b → MayBeAmended s k b f → Present s f.product →
      ∃ (bq : List BatchRecord) (u t : State), QueueAmended f k b s.bq bq
        ∧ u = (if k = 0 ∧ b.nominal ≠ f.nominal then changeReported { received s with bq := bq }
            else { received s with bq := bq })
        ∧ exec (.amendBatch src f) s = .next t
        ∧ (∀ j, u.bq.findIdx? (fun b => b.batchId == f.batchId) = some j →
          EndsRequest src 0x21 ([0, 0x21, 0, BitVec.ofNat 8 j]
            ++ bytesOf 6 (match u.bq[j + 1]? with | some c => c.predicted | none => 0)) u t)
        ∧ (u.bq.findIdx? (fun b => b.batchId == f.batchId) = none → ∃ data : List Byte, data.length = 7
          ∧ EndsRequest src 0x21 ([0, 0x21, 0] ++ data) { u with races := u.races + 1 } t))

/-- R41 and R45: DROP BATCH refuses the id 0, an id that is not queued, entry 0, and entry 1 of an open window; otherwise
the batches behind the dropped one move up and their predicted head marks are linked anew; where that opens no window
nothing else changes. At position 1 the removal is a change that the tracker is told of (R41): in QUIET the open mark of
the batch moved up is tested at once, and what WindowOpensAtItsMark says of the marks happens in the same event, before
the answer. How the event ends (EndsRequest) is logs 8 and 9. -/
def Obligations.BatchIsDropped : Prop :=
  (∀ (src : Byte) (s : State), Serving s →
    ∃ t, exec (.dropBatch src 0) s = .next t ∧ t = { s with liu := t.liu, mr := t.mr }
      ∧ AnsweredOnly src 0x22 [1, 0x22, 1, 0] s t)
  ∧ (∀ (src : Byte) (batchId : BatchId) (s : State), Serving s → batchId ≠ 0 → (∀ b ∈ s.bq, b.batchId ≠ batchId) →
      ∃ t, exec (.dropBatch src batchId) s = .next t ∧ t = { s with liu := t.liu, mr := t.mr }
        ∧ AnsweredOnly src 0x22 [1, 0x22, 4, 0] s t)
  ∧ (∀ (src : Byte) (batchId : BatchId) (s : State), Serving s → batchId ≠ 0 →
      s.bq.findIdx? (fun b => b.batchId == batchId) = some 0 →
      ∃ t, exec (.dropBatch src batchId) s = .next t ∧ t = { s with liu := t.liu, mr := t.mr }
        ∧ AnsweredOnly src 0x22 [1, 0x22, 2, 0] s t)
  ∧ (∀ (src : Byte) (batchId : BatchId) (s : State), Serving s → batchId ≠ 0 →
      s.bq.findIdx? (fun b => b.batchId == batchId) = some 1 → s.it.state ≠ .quiet →
      ∃ t, exec (.dropBatch src batchId) s = .next t ∧ t = { s with liu := t.liu, mr := t.mr }
        ∧ AnsweredOnly src 0x22 [1, 0x22, 2, 1] s t)
  ∧ (∀ (src : Byte) (batchId : BatchId) (k : Nat) (s : State), Serving s → batchId ≠ 0 →
      s.bq.findIdx? (fun b => b.batchId == batchId) = some k → 1 ≤ k → (k = 1 → s.it.state = .quiet) →
      (k = 1 → ∀ b c, s.bq[0]? = some b → s.bq[2]? = some c →
        NoWindowAt s { c with predicted := headMark b + b.nominal.setWidth 48 }) →
      ∃ t, exec (.dropBatch src batchId) s = .next t ∧ t = { s with liu := t.liu, mr := t.mr, bq := t.bq }
        ∧ QueueShortened k s.bq t.bq ∧ AnsweredOnly src 0x22 [0, 0x22, 0, BitVec.ofNat 8 k] s t)
  ∧ (∀ (src : Byte) (batchId : BatchId) (k : Nat) (s : State), Serving s → batchId ≠ 0 →
      s.bq.findIdx? (fun b => b.batchId == batchId) = some k → 1 ≤ k → (k = 1 → s.it.state = .quiet) →
      ∃ (bq : List BatchRecord) (u t : State), QueueShortened k s.bq bq
        ∧ u = (if k = 1 then changeReported { received s with bq := bq } else { received s with bq := bq })
        ∧ exec (.dropBatch src batchId) s = .next t ∧ EndsRequest src 0x22 [0, 0x22, 0, BitVec.ofNat 8 k] u t)

/-- R49: READ BATCH answers with the 33 bytes of the record at a position; a position above 31, one beyond the queue and
a wrong parameter length are answered as the rule says; nothing but the responder changes. The record holds a delivery
volume exactly with DELIVER_PART (R35), which SoundnessIsKept states of every queue. -/
def Obligations.BatchIsRead : Prop :=
  (∀ (src position : Byte) (b : BatchRecord) (s : State), Serving s → position.toNat ≤ 31 →
    s.bq[position.toNat]? = some b → (b.delivery.isSome = true ↔ b.disposition = .deliverPart) →
    ∃ t, exec (.readBatch src position) s = .next t ∧ t = { s with liu := t.liu, mr := t.mr }
      ∧ AnsweredOnly src 0x23 ([0, 0x23, 0] ++ batchRecordBytes s position b) s t)
  ∧ (∀ (src position : Byte) (s : State), Serving s → 31 < position.toNat →
      ∃ t, exec (.readBatch src position) s = .next t ∧ t = { s with liu := t.liu, mr := t.mr }
        ∧ AnsweredOnly src 0x23 [1, 0x23, 1, 0] s t)
  ∧ (∀ (src position : Byte) (s : State), Serving s → position.toNat ≤ 31 → s.bq.length ≤ position.toNat →
      ∃ t, exec (.readBatch src position) s = .next t ∧ t = { s with liu := t.liu, mr := t.mr }
        ∧ AnsweredOnly src 0x23 [1, 0x23, 4, 0] s t)
  ∧ (∀ (src : Byte) (ps : List Byte) (s : State), Serving s → ps.length ≠ 1 →
      ∃ t, exec (.unknownRequest src (0x23 :: ps)) s = .next t ∧ t = { s with liu := t.liu, mr := t.mr }
        ∧ AnsweredOnly src 0x23 [2, 0x23, 0] s t)

/-! ## Interface records and tickets -/

/-- R96: READ INTERFACE answers with the 76 bytes of the active record (selector 0) or of a history record (1 to 4); a
selector above 4, an absent record and a wrong parameter length are answered as the rule says; nothing but the responder
changes. -/
def Obligations.InterfaceIsRead : Prop :=
  (∀ (src : Byte) (r : InterfaceRecord) (s : State), Serving s → s.it.record = some r →
    ∃ t, exec (.readInterface src 0) s = .next t ∧ t = { s with liu := t.liu, mr := t.mr }
      ∧ AnsweredOnly src 0x30 ([0, 0x30, 0] ++ interfaceRecordBytes 0 (trackerCode s) r) s t)
  ∧ (∀ (src selector : Byte) (r : InterfaceRecord) (s : State), Serving s → 1 ≤ selector.toNat → selector.toNat ≤ 4 →
      s.it.history[selector.toNat - 1]? = some r →
      ∃ t, exec (.readInterface src selector) s = .next t ∧ t = { s with liu := t.liu, mr := t.mr }
        ∧ AnsweredOnly src 0x30 ([0, 0x30, 0] ++ interfaceRecordBytes selector 0 r) s t)
  ∧ (∀ (src selector : Byte) (s : State), Serving s → 4 < selector.toNat →
      ∃ t, exec (.readInterface src selector) s = .next t ∧ t = { s with liu := t.liu, mr := t.mr }
        ∧ AnsweredOnly src 0x30 [1, 0x30, 1, 0] s t)
  ∧ (∀ (src selector : Byte) (s : State), Serving s → selector.toNat ≤ 4 →
      (selector = 0 → s.it.record = none) → (selector ≠ 0 → s.it.history.length ≤ selector.toNat - 1) →
      ∃ t, exec (.readInterface src selector) s = .next t ∧ t = { s with liu := t.liu, mr := t.mr }
        ∧ AnsweredOnly src 0x30 [1, 0x30, 4, 0] s t)
  ∧ (∀ (src : Byte) (ps : List Byte) (s : State), Serving s → ps.length ≠ 1 →
      ∃ t, exec (.unknownRequest src (0x30 :: ps)) s = .next t ∧ t = { s with liu := t.liu, mr := t.mr }
        ∧ AnsweredOnly src 0x30 [2, 0x30, 0] s t)

/-- R150: TAKE TICKET removes the oldest completed ticket and answers with its 69 bytes; an empty list is refused
NOT_FOUND with the unticketed volume, and parameters are answered UNKNOWN. -/
def Obligations.TicketIsTaken : Prop :=
  (∀ (src : Byte) (k : Ticket) (rest : List Ticket) (s : State), Serving s → s.tu.completed = k :: rest →
    ∃ t, exec (.takeTicket src) s = .next t
      ∧ t = { s with liu := t.liu, mr := t.mr, tu := { s.tu with completed := rest } }
      ∧ AnsweredOnly src 0x40 ([0, 0x40, 0] ++ ticketBytes rest.length k s.tu.unticketed) s t)
  ∧ (∀ (src : Byte) (s : State), Serving s → s.tu.completed = [] →
      ∃ t, exec (.takeTicket src) s = .next t ∧ t = { s with liu := t.liu, mr := t.mr }
        ∧ AnsweredOnly src 0x40 ([1, 0x40, 4] ++ bytesOf 6 s.tu.unticketed) s t)
  ∧ (∀ (src p : Byte) (ps : List Byte) (s : State), Serving s →
      ∃ t, exec (.unknownRequest src (0x40 :: p :: ps)) s = .next t ∧ t = { s with liu := t.liu, mr := t.mr }
        ∧ AnsweredOnly src 0x40 [2, 0x40, 0] s t)

/-! ## Samples and evaluations -/

/-- R53 to R57: an accepted sample is clamped, corrected with the β in force and stored as the newest of at most 8; a
foreign or rejected one changes nothing; every one is forwarded. A record is active exactly in a window. -/
def Obligations.SampleIsCorrectedAndStored : Prop :=
  (∀ (dst d3 d2 d1 d0 t1 t0 : Byte) (s : State), Running s → s.de.ring.length ≤ 8 →
    s.it.record.isSome = (s.it.state != .quiet) →
    50000 ≤ (d3 ++ d2 ++ d1 ++ d0).toNat → (d3 ++ d2 ++ d1 ++ d0).toNat ≤ 110000 →
    ∃ t, exec (.densitySample dst s.ts.active.segment.densityAddress [d3, d2, d1, d0, t1, t0, 0]) s = .next t
      ∧ t = { s with
          liu := t.liu
          de := { s.de with ring := (if s.de.ring.length = 8 then s.de.ring.tail else s.de.ring)
            ++ [⟨(d3 ++ d2 ++ d1 ++ d0).toNat + correctionAt (betaInForce s) (t1 ++ t0).toInt, true⟩] } }
      ∧ ForwardedFromField ⟨dst, s.ts.active.segment.densityAddress, 0x21, [d3, d2, d1, d0, t1, t0, 0]⟩ s t)
  ∧ (∀ (dst src : Byte) (payload : List Byte) (s : State), Running s → payload.length ≤ 200 →
      (src ≠ s.ts.active.segment.densityAddress ∨ payload.length ≠ 7 ∨ payload[6]? ≠ some 0) →
      ∃ t, exec (.densitySample dst src payload) s = .next t ∧ t = { s with liu := t.liu }
        ∧ ForwardedFromField ⟨dst, src, 0x21, payload⟩ s t)
  ∧ (∀ (dst d3 d2 d1 d0 t1 t0 status : Byte) (s : State), Running s →
      ((d3 ++ d2 ++ d1 ++ d0).toNat < 50000 ∨ 110000 < (d3 ++ d2 ++ d1 ++ d0).toNat) →
      ∃ t, exec (.densitySample dst s.ts.active.segment.densityAddress [d3, d2, d1, d0, t1, t0, status]) s = .next t
        ∧ t = { s with liu := t.liu }
        ∧ ForwardedFromField ⟨dst, s.ts.active.segment.densityAddress, 0x21, [d3, d2, d1, d0, t1, t0, status]⟩ s t)

/-- R58 to R61, R63 and R64: an evaluation with a new sample takes the rounded mean of the newest samples, the
offset-corrected density and the figure due; one without carries the last reading forward as blind, and the last
figure when it is of the kind due, and otherwise none (R59; also where a window opened and ended since, log 37). In
WATCH a blind one below the blind limit only counts, and a fraction below the start threshold is only recorded (R78).
R65 to R67: the offset moves at a settled deviation within the limit in QUIET, and else stands. R58, R78 and R82: an
evaluation stores its result, offers the held actions oldest first, takes the result, and takes a postponed end last
(log 22). R91 and R92: in QUIET a deviation moves the excursion run; at K the excursion begins or ends with its FORCED
action, OFF_SPEC and the ticket's flag. R86: a blind result raises the blind count of a window and at the limit loses
the density, but in FALLBACK. That a blind result in MIXING takes no end confirmed by density, also
where the last held action was accepted at that same evaluation, is the model's choice (log 38, DEDUCED: step 2 of R78
against the last sentence of R83). R78: a fraction at the start threshold starts the interface in WATCH and OVERDUE with
INTERFACE_START; in MIXING the decisions and the end follow (WindowOpensAtItsMark). An apply that the end of an
excursion makes due is performed after the return is handled (log 17; its effects by logs 18, 36 and 41). -/
def Obligations.EvaluationReadsTheRing : Prop :=
  (∀ (s : State) (mark : Mark), (∃ x ∈ s.de.ring, x.isNew = true) →
    let n := min s.ts.active.segment.averagingDepth.toNat s.de.ring.length
    let mean := ((newestOf n s.de.ring).sum + (n / 2 : Nat)) / (n : Int)
    evalResult s mark = ⟨mark, false, some ⟨mean, mean - s.de.offset, n⟩, figureAt s (mean - s.de.offset)⟩)
  ∧ (∀ (s : State) (mark : Mark) (l : EvalResult), (∀ x ∈ s.de.ring, x.isNew = false) → s.de.last = some l →
      ∃ f, evalResult s mark = ⟨mark, true, l.reading, f⟩
        ∧ (f = l.figure ∨ f = .absent)
        ∧ (∀ x, l.figure = .fraction x → (s.it.state = .watch ∨ s.it.state = .mixing ∨ s.it.state = .overdue) →
            f = l.figure)
        ∧ (∀ x, l.figure = .deviation x → s.it.state = .quiet → s.bq ≠ [] → f = l.figure))
  ∧ (∀ (s : State) (r : InterfaceRecord), s.it.state = .watch → s.it.record = some r → s.it.held = [] →
      s.it.endDue = none → (∀ x ∈ s.de.ring, x.isNew = false) →
      r.blindCount + 1 < s.ts.active.segment.blindLimit.toNat →
      evaluate s = { s with
        de := { s.de with last := some (evalResult s s.vc.lineCount) }
        it := { s.it with record := some { r with blindCount := r.blindCount + 1 } } })
  ∧ (∀ (s : State) (r : InterfaceRecord) (f : Int), s.it.state = .watch → s.it.record = some r → s.it.held = [] →
      s.it.endDue = none → (∃ x ∈ s.de.ring, x.isNew = true) →
      (evalResult s s.vc.lineCount).figure = .fraction f → f < s.ts.active.segment.startThreshold.toNat →
      evaluate s = { s with
        de := { s.de with
          ring := s.de.ring.map (fun x => { x with isNew := false }), last := some (evalResult s s.vc.lineCount) }
        it := { s.it with record := some { r with blindCount := 0, lastFraction := f } } })
  ∧ (∀ (s : State) (mark : Mark), (∀ x ∈ s.de.ring, x.isNew = false) →
      (s.de.last = none → evalResult s mark = ⟨mark, true, none, .absent⟩)
      ∧ ∀ l, s.de.last = some l → (evalResult s mark).figure =
          match l.figure with
          | .fraction f =>
            if s.it.state = .watch ∨ s.it.state = .mixing ∨ s.it.state = .overdue then .fraction f else .absent
          | .deviation x => if s.it.state = .quiet ∧ s.bq ≠ [] then .deviation x else .absent
          | .absent => .absent)
  ∧ (∀ (s : State) (res : EvalResult), res = evalResult s s.vc.lineCount → ∃ offset : Int,
      evaluate s = takePostponed (takeResult res (offerHeld s.it.held { s with
        de := { s.de with
          ring := s.de.ring.map (fun x => { x with isNew := false }), last := some res, offset := offset } }))
      ∧ (∀ (b : BatchRecord) (mean d x : Int) (k : Nat), res.blind = false → res.reading = some ⟨mean, d, k⟩ →
          res.figure = .deviation x → s.bq.head? = some b → OffsetMoves s b x →
          offset = max (-(s.ts.active.segment.offsetLimit.toNat : Int)) (min s.ts.active.segment.offsetLimit.toNat
            (s.de.offset + roundedQuotient (mean - referenceDensity s b - s.de.offset)
              (2 ^ s.ts.active.segment.baselineRate.toNat : Nat))))
      ∧ ((res.blind = true ∨ (∀ x, res.figure ≠ .deviation x)
            ∨ ∀ b x, s.bq.head? = some b → res.figure = .deviation x → ¬ OffsetMoves s b x) →
          offset = s.de.offset))
  ∧ (∀ s : State, takePostponed s = if s.it.held = [] ∧ s.it.endDue ≠ none then testMarks s else s)
  ∧ (∀ (o : Offer) (rest : List Offer) (s : State), offerHeld [] s = { s with it := { s.it with held := [] } }
      ∧ (offerAction o s = none → offerHeld (o :: rest) s = { s with it := { s.it with held := o :: rest } })
      ∧ ∀ u, offerAction o s = some u → offerHeld (o :: rest) s = offerHeld rest u)
  ∧ (∀ (b : BatchRecord) (x : Int) (res : EvalResult) (s : State), s.it.state = .quiet → s.bq.head? = some b →
      res.blind = false → res.figure = .deviation x →
      let K := s.ts.active.segment.confirmationCount.toNat
      let beyond : Bool := decide ((s.product b.product).excursionLimit.toNat < x.natAbs)
      let run := runAfter s.it.excRun (beyond != s.it.excursion) res.mark
      let go : Offer := ⟨.forced, b.batchId, some (destinationOutlet s b), 8, .fromDecision run.first, false, none⟩
      let back : Offer := ⟨.forced, b.batchId, some 8, destinationOutlet s b, .fromDecision run.first, false, none⟩
      (run.count < K → takeResult res s = { s with it := { s.it with excRun := run } })
      ∧ (K ≤ run.count → s.it.excursion = false →
        let a := raised .offSpec ⟨b.batchId, res.mark, some 8, 0, x⟩
          (excursionOffered go { s with it := { s.it with excursion := true, excRun := ⟨0, 0⟩ } })
        takeResult res s = { a with tu := accountReported b.batchId (fun c => { c with excursion := true }) a.tu })
      ∧ (K ≤ run.count → s.it.excursion = true →
        let a := raised .offSpec ⟨b.batchId, res.mark, some (destinationOutlet s b), 1, x⟩
          (excursionOffered back { s with it := { s.it with excRun := ⟨0, 0⟩ } })
        takeResult res s = applyChecked false { a with it := { a.it with excursion := false } }))
  ∧ (∀ (res : EvalResult) (s : State),
      (s.it.state = .quiet → (res.blind = true ∨ ∀ x, res.figure ≠ .deviation x) → takeResult res s = s)
      ∧ (s.it.state = .fallback → takeResult res s =
          recordChanged (fun r => { r with blindCount := if res.blind = true then r.blindCount + 1 else 0 }) s))
  ∧ (∀ (r : InterfaceRecord) (res : EvalResult) (s : State), s.it.record = some r → res.blind = true →
      (s.it.state = .watch ∨ s.it.state = .mixing ∨ s.it.state = .overdue) →
      takeResult res s =
        if r.blindCount + 1 < s.ts.active.segment.blindLimit.toNat then
          recordChanged (fun r => { r with blindCount := r.blindCount + 1 }) s
        else testMarks (raised .densityLost ⟨r.arrivingId, res.mark, none, 0, (r.blindCount + 1 : Nat)⟩
          { s with it := { s.it with
            state := .fallback, record := some { r with blindCount := r.blindCount + 1, cutMode := .densityLost }
            headRun := ⟨0, 0⟩, tailRun := ⟨0, 0⟩, endRun := 0 } }))
  ∧ (∀ (r : InterfaceRecord) (f : Int) (res : EvalResult) (s : State), s.it.record = some r → res.blind = false →
      res.figure = .fraction f →
      let a := recordChanged (fun r => { r with blindCount := 0, lastFraction := f }) s
      (s.it.state = .mixing → takeResult res s = mixingEvaluation res.mark f a)
      ∧ (s.it.state = .watch ∨ s.it.state = .overdue → takeResult res s =
          if f < s.ts.active.segment.startThreshold.toNat then a
          else mixingEvaluation res.mark f (raised .interfaceStart ⟨r.arrivingId, res.mark, none, 0, f⟩
            { a with it := { a.it with
              state := .mixing
              record := some { r with blindCount := 0, lastFraction := f, startMark := some res.mark } } })))

/-! ## The manifold -/

/-- R122 to R125 and R129: a report of an outlet's valve changes its record and the open order by the tables, while no
sequence is in service; other reports are disregarded. A report that takes the last outlet off a moving line makes the
dead-head guard act, after the engine took the report. With a sequence in service: R107: the confirmation of the new
outlet in OPEN_NEW stops the stroke timer and, after the open time, ends the phase. R108 and R112: the loss of the
confirmed new outlet fails the sequence until the CLOSE has entered its queue (flags 6 for a FAULT report, log 20),
and so does a FAULT report of the new outlet while its OPEN is under way. R109 and R113: the confirmation of the old
outlet in CLOSE_OLD stops the stroke timer and, after the close time, ends the sequence; its FAULT report while the
CLOSE is under way fails it. Any other report of an outlet, also of the old one before CLOSE_OLD or after its
confirmation (log 19), changes its record and the open order alone. R115, R129 and R137: what the guard does; that
DEAD_HEAD states the mode as it was before is the model's choice (log 24). How an event ends (`EndsEvent`) is logs 8
and 9; an apply beside a start, log 7. -/
def Obligations.ValveReportIsTaken : Prop :=
  (∀ (dst src : Byte) (payload : List Byte) (s : State), Running s → payload.length ≤ 200 →
    ((∀ o : Outlet, s.ts.active.outlets[o].valveAddress ≠ src) ∨ payload.length ≠ 1
      ∨ (∃ b, payload = [b] ∧ 3 < b.toNat)) →
    ∃ t, exec (.valveStatus dst src payload) s = .next t ∧ t = { s with liu := t.liu }
      ∧ ForwardedFromField ⟨dst, src, 0x31, payload⟩ s t)
  ∧ (∀ (dst src b : Byte) (o : Outlet) (v : ValveRecord) (order : List Outlet) (s : State), Running s → GuardOk s.mg →
      AddressOf s o src → b.toNat ≤ 3 → (s.cs.engine = .idle ∨ s.cs.engine = .recovery ∨ s.cs.engine = .faulted) →
      v = recordAfter b s.mg.valves[o] →
      order = openOrderAfter o s.mg.valves[o].confirmed v.confirmed s.mg.openOrder →
      (order ≠ [] ∨ s.mg.openOrder = [] ∨ s.vc.lineState = .still) →
      ∃ t, exec (.valveStatus dst src [b]) s = .next t
        ∧ t = { s with liu := t.liu, mg := { s.mg with valves := s.mg.valves.set o v, openOrder := order } }
        ∧ ForwardedFromField ⟨dst, src, 0x31, [b]⟩ s t)
  ∧ (∀ (dst src b : Byte) (o : Outlet) (s : State), Running s → GuardOk s.mg → AddressOf s o src →
      b.toNat ≤ 3 → (s.cs.engine = .idle ∨ s.cs.engine = .recovery ∨ s.cs.engine = .faulted) →
      s.vc.lineState = .moving → s.mg.openOrder = [o] → (recordAfter b s.mg.valves[o]).confirmed ≠ .opened →
      ∃ t, exec (.valveStatus dst src [b]) s = .next t
        ∧ EndsEvent (guardActed false (reportTaken ⟨dst, src, 0x31, [b]⟩ o b s)) t)
  ∧ (∀ (dst src b : Byte) (o : Outlet) (q : Sequence) (u s : State), Running s → GuardOk s.mg → AddressOf s o src →
      b.toNat ≤ 3 → s.cs.sequence = some q → u = reportTaken ⟨dst, src, 0x31, [b]⟩ o b s →
      let was := s.mg.valves[o].confirmed
      let now := u.mg.valves[o].confirmed
      let lost := openFailed q (if b = 3 then 6 else 4) (strokeElapsed s) u
      ∃ t, exec (.valveStatus dst src [b]) s = .next t ∧
        (s.cs.engine = .openNew → o = q.newOutlet →
          (was ≠ .opened → now = .opened →
            EndsEvent (afterReport s u (engineRun { u with cs := { u.cs with stroke := none } })) t)
          ∧ (was = .opened → now ≠ .opened → EndsEvent (afterReport s u lost) t)
          ∧ (was ≠ .opened → b = 3 → Underway s ⟨o, .opens⟩ →
            EndsEvent (afterReport s u (openFailed q 2 (strokeElapsed s) u)) t)
          ∧ ((was = .opened ↔ now = .opened) → (was ≠ .opened → b = 3 → ¬ Underway s ⟨o, .opens⟩) →
            EndsEvent (afterReport s u u) t))
        ∧ (s.cs.engine = .overlap → o = q.newOutlet →
          (was = .opened → now ≠ .opened → EndsEvent (afterReport s u lost) t)
          ∧ (was ≠ .opened ∨ now = .opened → EndsEvent (afterReport s u u) t))
        ∧ (s.cs.engine = .closeOld → o = q.newOutlet →
          (q.closeSent = false → was = .opened → now ≠ .opened → EndsEvent (afterReport s u lost) t)
          ∧ (q.closeSent = true ∨ was ≠ .opened ∨ now = .opened → EndsEvent (afterReport s u u) t))
        ∧ (s.cs.engine = .closeOld → o ≠ q.newOutlet → q.oldOutlet = some o →
          (q.closeConfirmed = false → now = .closed →
            EndsEvent (afterReport s u (engineRun { u with cs := { u.cs with
              stroke := none, sequence := some { q with closeConfirmed := true } } })) t)
          ∧ (q.closeConfirmed = false → b = 3 → Underway s ⟨o, .close⟩ →
            EndsEvent (afterReport s u (closeFailed q o 3 (strokeElapsed s) u)) t)
          ∧ (q.closeConfirmed = true ∨ (now ≠ .closed ∧ (b = 3 → ¬ Underway s ⟨o, .close⟩)) →
            EndsEvent (afterReport s u u) t))
        ∧ (o ≠ q.newOutlet → (s.cs.engine = .openNew ∨ s.cs.engine = .overlap
            ∨ (s.cs.engine = .closeOld ∧ q.oldOutlet ≠ some o)) → EndsEvent (afterReport s u u) t))
  ∧ (∀ (byStart : Bool) (s : State), guard byStart s = guarded byStart s)

/-- R126 and R127: in MANUAL a manifold command is forwarded, an OPEN or CLOSE setting the commanded position when it
enters the queue; a CLOSE of the last outlet standing open on a moving line is blocked with DEAD_HEAD. In AUTO and
HELD every manifold command is blocked with MANIFOLD_OWNED; the figure 2 for a payload that is not one byte is the
model's choice (log 25, DEDUCED). R126: no manifold command waits for the field while the mode is AUTO or HELD: where
none did, no step leaves one there. How an event ends (`EndsEvent`) is logs 8 and 9. -/
def Obligations.ManifoldCommandIsJudged : Prop :=
  (∀ (dst src : Byte) (move : ValveMove) (o : Outlet) (s : State), Running s → dst ≠ s.liu.address → AddressOf s o dst →
    s.mg.mode = .manual → (move = .close → ¬ LastStandingOpen s o) →
    ∃ t, exec (.valveCommand dst src [if move = .opens then 1 else 0]) s = .next t
      ∧ t = { s with
          liu := t.liu
          mg := { s.mg with valves := if s.liu.field.forward.length < 8 then commandedAs s o move else s.mg.valves } }
      ∧ ForwardedFromControl ⟨dst, src, 0x32, [if move = .opens then 1 else 0]⟩ s t)
  ∧ (∀ (dst src : Byte) (payload : List Byte) (o : Outlet) (s : State), Running s → dst ≠ s.liu.address →
      AddressOf s o dst → s.mg.mode = .manual → payload.length ≤ 200 → payload ≠ [0] → payload ≠ [1] →
      ∃ t, exec (.valveCommand dst src payload) s = .next t ∧ t = { s with liu := t.liu }
        ∧ ForwardedFromControl ⟨dst, src, 0x32, payload⟩ s t)
  ∧ (∀ (dst src : Byte) (o : Outlet) (s : State), Running s → dst ≠ s.liu.address → AddressOf s o dst →
      s.mg.mode = .manual → LastStandingOpen s o →
      ∃ t, exec (.valveCommand dst src [0]) s = .next t
        ∧ EndsEvent (raised .deadHead ⟨headId s, s.vc.lineCount, some o, 1, src.toNat⟩ (received s)) t)
  ∧ (∀ (dst src : Byte) (payload : List Byte) (o : Outlet) (s : State), Running s → dst ≠ s.liu.address →
      AddressOf s o dst → s.mg.mode ≠ .manual → payload.length ≤ 200 →
      ∃ t, exec (.valveCommand dst src payload) s = .next t
        ∧ EndsEvent (raised .manifoldOwned
            ⟨headId s, s.vc.lineCount, some o, if payload = [0] then 0 else if payload = [1] then 1 else 2, src.toNat⟩
            (received s)) t)
  ∧ (∀ s t : State, ManifoldBarred s → step s = .next t → ManifoldBarred t)

/-- R132 and R133: SET MODE. A value above 1 is out of RANGE; AUTO in AUTO and MANUAL in MANUAL change nothing; AUTO
is refused by its five tests; taken, it withdraws the manifold commands that wait for the field (R126, R158, R161),
which `withdrawn` says: those frames leave the FIELD forward queue and the others close up, one being sent is cut off,
and for each the outlet's commanded position becomes NONE and MANIFOLD_OWNED is raised; with the flow where entry 0
belongs nothing is inserted, and otherwise an ALIGN action; the engine then runs on, and the answer states the mode as
it then is. MANUAL empties the action queue but for a sequence in service and discards held actions. How the event
ends (`EndsRequest`) is logs 8 and 9; an apply beside a start, log 7, the effects of an apply logs 18, 36 and 41. -/
def Obligations.ModeIsSet : Prop :=
  (∀ (src value : Byte) (s : State), Serving s → 2 ≤ value.toNat →
    ∃ t, exec (.setModeAuto src value) s = .next t ∧ t = { s with liu := t.liu, mr := t.mr }
      ∧ AnsweredOnly src 0x50 [1, 0x50, 1, 0] s t)
  ∧ (∀ (src : Byte) (s : State), Serving s → s.mg.mode = .auto →
      ∃ t, exec (.setModeAuto src 1) s = .next t ∧ t = { s with liu := t.liu, mr := t.mr }
        ∧ AnsweredOnly src 0x50 [0, 0x50, 0, 1, 0] s t)
  ∧ (∀ (src d : Byte) (s : State), Serving s → s.mg.mode ≠ .auto →
      d = (if s.mg.mode = .held then 4
        else if s.it.state ≠ .quiet ∨ s.it.excursion = true then 1
        else if s.bq = [] then 2
        else if s.mg.openOrder = [] then 3
        else if s.cs.engine = .faulted then 5
        else 0) → d ≠ 0 →
      ∃ t, exec (.setModeAuto src 1) s = .next t ∧ t = { s with liu := t.liu, mr := t.mr }
        ∧ AnsweredOnly src 0x50 [1, 0x50, 2, d] s t)
  ∧ (∀ (src : Byte) (b : BatchRecord) (o : Outlet) (s : State), Serving s → s.mg.mode = .manual → s.it.state = .quiet →
      s.it.excursion = false → s.bq.head? = some b → s.mg.openOrder.getLast? = some o → s.cs.engine = .idle →
      s.cs.queue = [] → s.ts.armed = false → NoManifoldCommand s → firstDestination s b = outletCode (some o) →
      ∃ t, exec (.setModeAuto src 1) s = .next t
        ∧ t = { s with liu := t.liu, mr := t.mr, mg := { s.mg with mode := .auto } }
        ∧ AnsweredOnly src 0x50 [0, 0x50, 0, 1, 0] s t)
  ∧ (∀ (src : Byte) (b : BatchRecord) (o d : Outlet) (s : State), Serving s → s.mg.mode = .manual →
      s.it.state = .quiet → s.it.excursion = false → s.bq.head? = some b → s.mg.openOrder.getLast? = some o →
      s.cs.engine = .idle → s.cs.queue = [] → s.ts.armed = false → NoManifoldCommand s →
      firstDestination s b = outletCode (some d) → d ≠ o → Usable s d → CommandEnters s d →
      timeMs s.ts.active.outlets[d] s.ts.active.outlets[d].openTime 0 ≠ 0 →
      ∃ t, exec (.setModeAuto src 1) s = .next t
        ∧ t = { s with
            liu := t.liu, mr := t.mr, mg := { s.mg with mode := .auto, valves := commandedAs s d .opens }
            cs := openingFor s (moveNow s .align d) false }
        ∧ CommandSent d .opens s t ∧ Answered src 0x50 [0, 0x50, 0, 1, 1] s t)
  ∧ (∀ (src : Byte) (b : BatchRecord) (o d : Outlet) (w x : State) (aligned : Bool) (s : State), Serving s →
      s.mg.mode = .manual → s.it.state = .quiet → s.it.excursion = false → s.bq.head? = some b →
      s.mg.openOrder.getLast? = some o → s.cs.engine ≠ .faulted → firstDestination s b = outletCode (some d) →
      w = withdrawn { received s with mg := { s.mg with mode := .auto } } →
      aligned = (decide (d ≠ o) && decide (s.cs.queue.length < 8)) →
      x = (if aligned then engineRun (insertedNow ⟨.align, b.batchId, some o, d, .now, false, none⟩ w) else engineRun w) →
      ∃ t, exec (.setModeAuto src 1) s = .next t
        ∧ EndsRequest src 0x50 [0, 0x50, 0, modeCode x.mg.mode, if aligned then 1 else 0] x t)
  ∧ (∀ (src : Byte) (s : State), Serving s → s.mg.mode = .manual →
      ∃ t, exec (.setModeManual src) s = .next t ∧ t = { s with liu := t.liu, mr := t.mr }
        ∧ AnsweredOnly src 0x50 [0, 0x50, 0, 0, 0] s t)
  ∧ (∀ (src : Byte) (s : State), Serving s → s.mg.mode ≠ .manual →
      ∃ t, exec (.setModeManual src) s = .next t
        ∧ t = { s with
            liu := t.liu, mr := t.mr, mg := { s.mg with mode := .manual }, it := { s.it with held := [] }
            cs := { s.cs with queue := if s.cs.sequence = none then [] else s.cs.queue.take 1 } }
        ∧ AnsweredOnly src 0x50 [0, 0x50, 0, 0, 0] s t)

/-- R135: RESUME is refused by its two tests. With resume mode MANUAL, or in MANUAL with the engine FAULTED, it
empties the queue and returns to MANUAL; with resume mode AUTO and no reached action it returns to AUTO; in every case
it states how many reached actions it replaced and their greatest lateness. With resume mode AUTO the reached actions
are replaced by one at the head with the reason, batch id and to outlet of the last of them, through the lane trap
with the RESUME flag; the mode is AUTO, the engine IDLE, and that action starts at once, its lateness 0: it moves the
flow, or is removed where the flow is there already (R103, R104). With an apply armed the engine runs on as R28 and
R103 let it, the order of an apply and the start being log 7. How the event ends (`EndsRequest`) is logs 8 and 9. -/
def Obligations.ResumeEndsHeld : Prop :=
  (∀ (src : Byte) (s : State), Serving s →
    (s.mg.mode = .auto ∨ (s.mg.mode = .manual ∧ s.cs.engine ≠ .faulted)) →
    ∃ t, exec (.resume src) s = .next t ∧ t = { s with liu := t.liu, mr := t.mr }
      ∧ AnsweredOnly src 0x51 [1, 0x51, 2, 1] s t)
  ∧ (∀ (src : Byte) (s : State), Serving s →
      (s.mg.mode = .held ∨ (s.mg.mode = .manual ∧ s.cs.engine = .faulted)) → s.mg.openOrder = [] →
      ∃ t, exec (.resume src) s = .next t ∧ t = { s with liu := t.liu, mr := t.mr }
        ∧ AnsweredOnly src 0x51 [1, 0x51, 2, 2] s t)
  ∧ (∀ (src : Byte) (s : State), Serving s → s.cs.sequence = none → s.cs.phase = none → s.cs.stroke = none →
      s.cs.recovery = none → s.ts.armed = false → s.mg.openOrder ≠ [] →
      ((s.mg.mode = .manual ∧ s.cs.engine = .faulted) ∨ (s.mg.mode = .held ∧ s.mg.resumeMode = .manual)) →
      ∃ t, exec (.resume src) s = .next t
        ∧ t = { s with
            liu := t.liu, mr := t.mr, mg := { s.mg with mode := .manual }
            cs := { s.cs with queue := [], engine := .idle } }
        ∧ AnsweredOnly src 0x51 [0, 0x51, 0, 0, 0, 0, 0, 0] s t)
  ∧ (∀ (src : Byte) (s : State), Serving s → s.mg.mode = .held → s.mg.resumeMode = .auto → s.mg.openOrder ≠ [] →
      (∀ a, s.cs.queue.head? = some a → reached s.vc.lineCount a.fire = false) → s.cs.sequence = none →
      s.cs.phase = none → s.cs.stroke = none → s.cs.recovery = none → s.ts.armed = false →
      ∃ t, exec (.resume src) s = .next t
        ∧ t = { s with
            liu := t.liu, mr := t.mr, mg := { s.mg with mode := .auto }, cs := { s.cs with engine := .idle } }
        ∧ AnsweredOnly src 0x51 [0, 0x51, 0, 0, 0, 0, 0, 0] s t)
  ∧ (∀ (src : Byte) (run rest : List Action) (s : State), Serving s → s.mg.mode = .held → s.mg.resumeMode = .auto →
      s.mg.openOrder ≠ [] → s.cs.queue = run ++ rest → (∀ a ∈ run, reached s.vc.lineCount a.fire = true) →
      (∀ a, rest.head? = some a → reached s.vc.lineCount a.fire = false) →
      ∃ t, exec (.resume src) s = .next t
        ∧ Answered src 0x51 ([0, 0x51, 0, BitVec.ofNat 8 run.length]
            ++ beBytes 4 (min ((run.map (fun a => (s.vc.lineCount - a.fire).toNat)).foldl max 0) 2147483647)) s t)
  ∧ (∀ (src : Byte) (a c : Action) (run rest : List Action) (w s : State), Serving s → s.mg.mode = .held →
      s.mg.resumeMode = .auto → s.mg.openOrder ≠ [] → s.ts.armed = false → s.cs.queue = run ++ rest →
      (∀ x ∈ run, reached s.vc.lineCount x.fire = true) → run.getLast? = some a →
      (∀ x, rest.head? = some x → reached s.vc.lineCount x.fire = false) →
      c = ⟨a.reason, a.batch, s.mg.openOrder.getLast?, goesTo s a.target, none, s.vc.lineCount, false⟩ →
      w = (let x := trapNoted 2 a.batch a.target (received s)
        { x with
          mg := { x.mg with mode := .auto }
          cs := { x.cs with engine := .idle, sequence := none, phase := none, stroke := none, recovery := none } }) →
      StartsFreely c w →
      ∃ t, exec (.resume src) s = .next t
        ∧ EndsRequest src 0x51 ([0, 0x51, 0, BitVec.ofNat 8 run.length]
            ++ beBytes 4 (min ((run.map (fun a => (s.vc.lineCount - a.fire).toNat)).foldl max 0) 2147483647))
          (actionStarted false c rest w) t)
  ∧ (∀ (src : Byte) (run rest : List Action) (w s : State), Serving s → s.mg.mode = .held → s.mg.resumeMode = .auto →
      s.mg.openOrder ≠ [] → s.cs.queue = run ++ rest → (∀ x ∈ run, reached s.vc.lineCount x.fire = true) →
      (∀ x, rest.head? = some x → reached s.vc.lineCount x.fire = false) →
      w = (match run.getLast? with
        | none => received s
        | some a =>
          let x := trapNoted 2 a.batch a.target (received s)
          { x with cs := { x.cs with queue :=
            ⟨a.reason, a.batch, s.mg.openOrder.getLast?, goesTo s a.target, none, s.vc.lineCount, false⟩ :: rest } }) →
      ∃ t, exec (.resume src) s = .next t
        ∧ EndsRequest src 0x51 ([0, 0x51, 0, BitVec.ofNat 8 run.length]
            ++ beBytes 4 (min ((run.map (fun a => (s.vc.lineCount - a.fire).toNat)).foldl max 0) 2147483647))
          (engineRun { w with
            mg := { w.mg with mode := .auto }
            cs := { w.cs with engine := .idle, sequence := none, phase := none, stroke := none, recovery := none } }) t)
  ∧ (∀ (src : Byte) (s : State), Serving s → s.mg.openOrder ≠ [] →
      ((s.mg.mode = .manual ∧ s.cs.engine = .faulted) ∨ (s.mg.mode = .held ∧ s.mg.resumeMode = .manual)) →
      ∃ t, exec (.resume src) s = .next t
        ∧ EndsRequest src 0x51 [0, 0x51, 0, 0, 0, 0, 0, 0]
          (engineRun { received s with
            mg := { s.mg with mode := .manual }
            cs := { s.cs with
              queue := [], engine := .idle, sequence := none, phase := none, stroke := none, recovery := none } }) t)

/-- R131: CLEAR OUTLET makes an outlet available and changes nothing else. R116 and R136: ROUTE is refused by its
tests; otherwise the route action goes through the lane trap, LANE_TRAP naming a redirection, and starts at once: it
moves the flow, or, where the flow is there already, is removed with CUT_DONE and its no-move flag, the queue empty
and the engine IDLE (with the route flag, log 39). The answer names the outlet after the lane trap and whether a
sequence began. How an event ends (`EndsEvent`) is logs 8 and 9. -/
def Obligations.OutletIsClearedOrRouted : Prop :=
  (∀ (src index : Byte) (o : Outlet) (s : State), Serving s → index.toNat = o.val →
    ∃ t, exec (.clearOutlet src index) s = .next t
      ∧ t = { s with
          liu := t.liu, mr := t.mr
          mg := { s.mg with valves := s.mg.valves.set o { s.mg.valves[o] with available := true } } }
      ∧ AnsweredOnly src 0x52 [0, 0x52, 0, if s.mg.valves[o].available then 0 else 1] s t)
  ∧ (∀ (src index : Byte) (s : State), Serving s → 9 < index.toNat →
      (∃ t, exec (.clearOutlet src index) s = .next t ∧ t = { s with liu := t.liu, mr := t.mr }
        ∧ AnsweredOnly src 0x52 [1, 0x52, 1, 0] s t)
      ∧ ∃ t, exec (.route src index) s = .next t ∧ t = { s with liu := t.liu, mr := t.mr }
        ∧ AnsweredOnly src 0x53 [1, 0x53, 1, 0] s t)
  ∧ (∀ (src index : Byte) (s : State), Serving s → index.toNat ≤ 9 → (s.mg.mode ≠ .manual ∨ s.cs.engine ≠ .idle) →
      ∃ t, exec (.route src index) s = .next t ∧ t = { s with liu := t.liu, mr := t.mr }
        ∧ AnsweredOnly src 0x53 [1, 0x53, 2, if s.mg.mode = .manual then 2 else 1] s t)
  ∧ (∀ (src index : Byte) (o : Outlet) (s : State), Serving s → index.toNat = o.val → s.mg.mode = .manual →
      s.cs.engine = .idle → s.cs.queue = [] → Usable s o → s.mg.openOrder.getLast? ≠ some o → CommandEnters s o →
      timeMs s.ts.active.outlets[o] s.ts.active.outlets[o].openTime 0 ≠ 0 →
      ∃ t, exec (.route src index) s = .next t
        ∧ t = { s with
            liu := t.liu, mr := t.mr, mg := { s.mg with valves := commandedAs s o .opens }
            cs := openingFor s (moveNow s .forced o) true }
        ∧ CommandSent o .opens s t ∧ Answered src 0x53 [0, 0x53, 0, index, 1] s t)
  ∧ (∀ (src index : Byte) (o r d : Outlet) (s : State), Serving s → index.toNat = o.val → s.mg.mode = .manual →
      s.cs.engine = .idle → s.cs.queue = [] → s.ts.active.segment.reliefOutlet.toNat = r.val →
      ((Usable s o ∧ d = o) ∨ (¬ Usable s o ∧ Usable s 8 ∧ d = 8) ∨ (¬ Usable s o ∧ ¬ Usable s 8 ∧ d = r)) →
      ∃ t, exec (.route src index) s = .next t
        ∧ Answered src 0x53 [0, 0x53, 0, outletCode (some d), if s.mg.openOrder.getLast? = some d then 0 else 1] s t)
  ∧ (∀ (src index : Byte) (o : Outlet) (a : Action) (s : State), Serving s → index.toNat = o.val → s.mg.mode = .manual →
      s.cs.engine = .idle → s.cs.queue = [] → s.ts.armed = false →
      a = ⟨.forced, headId s, s.mg.openOrder.getLast?, goesTo s o, none, s.vc.lineCount, false⟩ → StartsFreely a s →
      ∃ t, exec (.route src index) s = .next t
        ∧ EndsRequest src 0x53 [0, 0x53, 0, outletCode (some (goesTo s o)),
            if s.mg.openOrder.getLast? = some (goesTo s o) then 0 else 1]
          (actionStarted true a [] (trapNoted 0 (headId s) o (received s))) t)
  ∧ (∀ (src index : Byte) (o : Outlet) (a : Action) (s : State), Serving s → index.toNat = o.val → s.mg.mode = .manual →
      s.cs.engine = .idle → s.cs.queue = [] →
      a = ⟨.forced, headId s, s.mg.openOrder.getLast?, goesTo s o, none, s.vc.lineCount, false⟩ →
      ∃ t, exec (.route src index) s = .next t
        ∧ EndsRequest src 0x53 [0, 0x53, 0, outletCode (some (goesTo s o)),
            if s.mg.openOrder.getLast? = some (goesTo s o) then 0 else 1]
          (engineRun (actionStarted true a [] (trapNoted 0 (headId s) o (received s)))) t)

/-! ## The sequence engine -/

/-- R103, R107 to R111 and R28: the expiry of a phase timer or of the recovery timer stops it, and the engine then
goes on as far as it can within the event, by the moves of `EngineMoves`: the phase timer ended, OPEN_NEW ends once
the OPEN is confirmed, OVERLAP with the CLOSE of the old outlet or with RECOVERY, and CLOSE_OLD once the CLOSE is
confirmed; before its confirmation a phase waits on. The recovery timer ended, the engine is IDLE, and there an apply
that is due is performed and, in AUTO, a reached head action starts; where both stand together either comes first (log
7), and the action that starts goes on through its own phases. That the queue holds at most 8 actions is R99, which
SoundnessIsKept states. That an expiry command carries the clock on to the moment its timer ends (the clock of every
clause), and that a stopped timer does not expire, is the model's choice (log 4). The effects of an apply are logs 18,
36 and 41; how an event ends (`EndsEvent`) is logs 8 and 9. -/
def Obligations.PhasesEndAtTheirTimers : Prop :=
  (∀ s : State, s.cs.queue.length ≤ 8 → EngineRuns s (engineRun s))
  ∧ (∀ (c : Instr) (e : EngineState) (tm : Timer) (s : State), Running s →
      (c, e) ∈ [(Instr.openTimeExpiry, EngineState.openNew), (.overlapExpiry, .overlap), (.closeTimeExpiry, .closeOld)] →
      s.cs.engine = e → s.cs.phase = some tm →
      ∃ t, exec c s = .next t
        ∧ EndsEvent (engineRun { s with now := max s.now (tm.start + tm.length), cs := { s.cs with phase := none } }) t)
  ∧ (∀ (tm : Timer) (s : State), Running s → s.cs.engine = .recovery → s.cs.recovery = some tm → s.cs.queue.length ≤ 8 →
      ∃ t, exec .recoveryExpiry s = .next t
        ∧ EndsEvent (engineRun { s with
            now := max s.now (tm.start + tm.length), cs := { s.cs with engine := .idle, recovery := none } }) t)
  ∧ (∀ (s : State) (q : Sequence) (tm : Timer), Running s → s.cs.engine = .openNew → s.cs.sequence = some q →
    s.cs.phase = some tm → s.mg.valves[q.newOutlet].confirmed ≠ .opened →
    ∃ t, exec .openTimeExpiry s = .next t
      ∧ EndsEvent { s with now := max s.now (tm.start + tm.length), cs := { s.cs with phase := none } } t)
  ∧ (∀ (s : State) (q : Sequence) (e : OutletEntry) (tm : Timer), Running s → s.cs.engine = .openNew →
      s.cs.sequence = some q → s.cs.phase = some tm → s.mg.valves[q.newOutlet].confirmed = .opened →
      e = s.ts.active.outlets[q.newOutlet] → timeMs e e.overlapTime 1 ≠ 0 →
      ∃ t, exec .openTimeExpiry s = .next t
        ∧ EndsEvent (overlapBegun q { s with now := max s.now (tm.start + tm.length), cs := { s.cs with phase := none } }) t)
  ∧ (∀ (s : State) (q : Sequence) (tm : Timer), Running s → s.cs.engine = .overlap → s.cs.sequence = some q →
      s.cs.phase = some tm → q.oldOutlet = none → recoveryTime s q ≠ 0 →
      ∃ t, exec .overlapExpiry s = .next t
        ∧ EndsEvent (recoveryBegun q { s with
            now := max s.now (tm.start + tm.length), cs := { s.cs with phase := none } }) t)
  ∧ (∀ (s : State) (q : Sequence) (o : Outlet) (e : OutletEntry) (tm : Timer), Running s → s.cs.engine = .overlap →
      s.cs.sequence = some q → s.cs.phase = some tm → q.oldOutlet = some o → e = s.ts.active.outlets[o] →
      timeMs e e.closeTime 2 ≠ 0 →
      ∃ t, exec .overlapExpiry s = .next t
        ∧ EndsEvent (closingBegun q o { s with
            now := max s.now (tm.start + tm.length), cs := { s.cs with phase := none } }) t)
  ∧ (∀ (s : State) (q : Sequence) (tm : Timer) (u : State), Running s → s.cs.engine = .closeOld →
      s.cs.sequence = some q → s.cs.phase = some tm →
      u = { s with now := max s.now (tm.start + tm.length), cs := { s.cs with phase := none } } →
      ∃ t, exec .closeTimeExpiry s = .next t
        ∧ (q.closeConfirmed = false → EndsEvent u t)
        ∧ (q.closeConfirmed = true → recoveryTime s q ≠ 0 → EndsEvent (recoveryBegun q u) t))
  ∧ (∀ (s : State) (tm : Timer), Running s → s.cs.engine = .recovery → s.cs.recovery = some tm → s.ts.armed = false →
      (s.mg.mode = .auto → ∀ a, s.cs.queue.head? = some a → reached s.vc.lineCount a.fire = false) →
      ∃ t, exec .recoveryExpiry s = .next t
        ∧ EndsEvent { s with
            now := max s.now (tm.start + tm.length), cs := { s.cs with engine := .idle, recovery := none } } t)
  ∧ (∀ (c : Instr) (s : State), Running s →
      (c = .openTimeExpiry ∧ (s.cs.phase = none ∨ s.cs.engine ≠ .openNew)
        ∨ c = .overlapExpiry ∧ (s.cs.phase = none ∨ s.cs.engine ≠ .overlap)
        ∨ c = .closeTimeExpiry ∧ (s.cs.phase = none ∨ s.cs.engine ≠ .closeOld)
        ∨ c = .strokeTimerExpiry ∧ s.cs.stroke = none ∨ c = .recoveryExpiry ∧ s.cs.recovery = none) →
      ∃ t, exec c s = .next t ∧ EndsEvent s t)

/-- R112, R113 and R134: the stroke timer's expiry fails the sequence: in OPEN_NEW the new outlet becomes unavailable,
CLOSE is formed for it, in place of an OPEN that still waits in the command list or at its tail where no place is
free, a CLOSE of the old outlet in the list is dropped, and the action stays at the head; in CLOSE_OLD the old outlet
becomes unavailable, its CLOSE leaves the list and the action is removed. The engine is FAULTED, the mode HELD, and
VALVE_FAULT is raised with the seconds elapsed. That the command carries the clock on to the moment the timer ends,
from which those seconds are counted, is the model's choice (log 4). How an event ends (`EndsEvent`) is logs 8 and 9. -/
def Obligations.StrokeExpiryFailsTheSequence : Prop :=
  (∀ (s : State) (q : Sequence) (tm : Timer), Running s → s.cs.engine = .openNew → s.cs.sequence = some q →
    s.cs.stroke = some tm →
    ∃ t, exec .strokeTimerExpiry s = .next t
      ∧ EndsEvent (openFailed q 0 ((max s.now (tm.start + tm.length) - tm.start) / 1000)
          { s with now := max s.now (tm.start + tm.length) }) t)
  ∧ (∀ (s : State) (q : Sequence) (o : Outlet) (tm : Timer), Running s → s.cs.engine = .closeOld →
      s.cs.sequence = some q → q.oldOutlet = some o → s.cs.stroke = some tm →
      ∃ t, exec .strokeTimerExpiry s = .next t
        ∧ EndsEvent (closeFailed q o 1 ((max s.now (tm.start + tm.length) - tm.start) / 1000)
            { s with now := max s.now (tm.start + tm.length) }) t)

/-! ## Invariants -/

/-- Every step keeps the state sound: the queues within their places, the batches in range and linked (R35, R37, R38),
the tracker, the sequencer and the open order consistent (R70, R99, R102, R124), every ticket's columns equal to the
litres between its marks (R142), and every table entry in range (R17 to R21). No step faults and none is refused. -/
def Obligations.SoundnessIsKept : Prop :=
  (∀ s t : State, Sound s → step s = .next t → Sound t)
  ∧ (∀ s t : State, TablesSound s → step s = .next t → TablesSound t)
  ∧ ∀ s : State, ∃ t, step s = .next t

/-- The state right after reset is sound; no notice is left to form and no manifold command waits there. -/
def Obligations.ResetIsSound : Prop :=
  Sound State.reset ∧ TablesSound State.reset ∧ NoticesSettled State.reset ∧ ManifoldBarred State.reset
end

