-- ==== Sys2Proof/Laws/State.lean ====
section
/-! SUPPORT. One lemma per field per update of State, each true by rfl. -/

namespace Sys2Proof.Machine

@[simp] theorem State.setLiu_liu (s : State) (x : LinkUnit) : (s.setLiu x).liu = x := rfl
@[simp] theorem State.setLiu_vc (s : State) (x : LinkUnit) : (s.setLiu x).vc = s.vc := rfl
@[simp] theorem State.setLiu_ts (s : State) (x : LinkUnit) : (s.setLiu x).ts = s.ts := rfl
@[simp] theorem State.setLiu_bq (s : State) (x : LinkUnit) : (s.setLiu x).bq = s.bq := rfl
@[simp] theorem State.setLiu_de (s : State) (x : LinkUnit) : (s.setLiu x).de = s.de := rfl
@[simp] theorem State.setLiu_it (s : State) (x : LinkUnit) : (s.setLiu x).it = s.it := rfl
@[simp] theorem State.setLiu_cs (s : State) (x : LinkUnit) : (s.setLiu x).cs = s.cs := rfl
@[simp] theorem State.setLiu_mg (s : State) (x : LinkUnit) : (s.setLiu x).mg = s.mg := rfl
@[simp] theorem State.setLiu_tu (s : State) (x : LinkUnit) : (s.setLiu x).tu = s.tu := rfl
@[simp] theorem State.setLiu_mr (s : State) (x : LinkUnit) : (s.setLiu x).mr = s.mr := rfl
@[simp] theorem State.setLiu_nu (s : State) (x : LinkUnit) : (s.setLiu x).nu = s.nu := rfl
@[simp] theorem State.setLiu_inReset (s : State) (x : LinkUnit) : (s.setLiu x).inReset = s.inReset := rfl
@[simp] theorem State.setLiu_now (s : State) (x : LinkUnit) : (s.setLiu x).now = s.now := rfl
@[simp] theorem State.setLiu_races (s : State) (x : LinkUnit) : (s.setLiu x).races = s.races := rfl
@[simp] theorem State.setLiu_pending (s : State) (x : LinkUnit) : (s.setLiu x).pending = s.pending := rfl

@[simp] theorem State.setVc_liu (s : State) (x : VolumeCounter) : (s.setVc x).liu = s.liu := rfl
@[simp] theorem State.setVc_vc (s : State) (x : VolumeCounter) : (s.setVc x).vc = x := rfl
@[simp] theorem State.setVc_ts (s : State) (x : VolumeCounter) : (s.setVc x).ts = s.ts := rfl
@[simp] theorem State.setVc_bq (s : State) (x : VolumeCounter) : (s.setVc x).bq = s.bq := rfl
@[simp] theorem State.setVc_de (s : State) (x : VolumeCounter) : (s.setVc x).de = s.de := rfl
@[simp] theorem State.setVc_it (s : State) (x : VolumeCounter) : (s.setVc x).it = s.it := rfl
@[simp] theorem State.setVc_cs (s : State) (x : VolumeCounter) : (s.setVc x).cs = s.cs := rfl
@[simp] theorem State.setVc_mg (s : State) (x : VolumeCounter) : (s.setVc x).mg = s.mg := rfl
@[simp] theorem State.setVc_tu (s : State) (x : VolumeCounter) : (s.setVc x).tu = s.tu := rfl
@[simp] theorem State.setVc_mr (s : State) (x : VolumeCounter) : (s.setVc x).mr = s.mr := rfl
@[simp] theorem State.setVc_nu (s : State) (x : VolumeCounter) : (s.setVc x).nu = s.nu := rfl
@[simp] theorem State.setVc_inReset (s : State) (x : VolumeCounter) : (s.setVc x).inReset = s.inReset := rfl
@[simp] theorem State.setVc_now (s : State) (x : VolumeCounter) : (s.setVc x).now = s.now := rfl
@[simp] theorem State.setVc_races (s : State) (x : VolumeCounter) : (s.setVc x).races = s.races := rfl
@[simp] theorem State.setVc_pending (s : State) (x : VolumeCounter) : (s.setVc x).pending = s.pending := rfl

@[simp] theorem State.setTs_liu (s : State) (x : TableStore) : (s.setTs x).liu = s.liu := rfl
@[simp] theorem State.setTs_vc (s : State) (x : TableStore) : (s.setTs x).vc = s.vc := rfl
@[simp] theorem State.setTs_ts (s : State) (x : TableStore) : (s.setTs x).ts = x := rfl
@[simp] theorem State.setTs_bq (s : State) (x : TableStore) : (s.setTs x).bq = s.bq := rfl
@[simp] theorem State.setTs_de (s : State) (x : TableStore) : (s.setTs x).de = s.de := rfl
@[simp] theorem State.setTs_it (s : State) (x : TableStore) : (s.setTs x).it = s.it := rfl
@[simp] theorem State.setTs_cs (s : State) (x : TableStore) : (s.setTs x).cs = s.cs := rfl
@[simp] theorem State.setTs_mg (s : State) (x : TableStore) : (s.setTs x).mg = s.mg := rfl
@[simp] theorem State.setTs_tu (s : State) (x : TableStore) : (s.setTs x).tu = s.tu := rfl
@[simp] theorem State.setTs_mr (s : State) (x : TableStore) : (s.setTs x).mr = s.mr := rfl
@[simp] theorem State.setTs_nu (s : State) (x : TableStore) : (s.setTs x).nu = s.nu := rfl
@[simp] theorem State.setTs_inReset (s : State) (x : TableStore) : (s.setTs x).inReset = s.inReset := rfl
@[simp] theorem State.setTs_now (s : State) (x : TableStore) : (s.setTs x).now = s.now := rfl
@[simp] theorem State.setTs_races (s : State) (x : TableStore) : (s.setTs x).races = s.races := rfl
@[simp] theorem State.setTs_pending (s : State) (x : TableStore) : (s.setTs x).pending = s.pending := rfl

@[simp] theorem State.setBq_liu (s : State) (x : List BatchRecord) : (s.setBq x).liu = s.liu := rfl
@[simp] theorem State.setBq_vc (s : State) (x : List BatchRecord) : (s.setBq x).vc = s.vc := rfl
@[simp] theorem State.setBq_ts (s : State) (x : List BatchRecord) : (s.setBq x).ts = s.ts := rfl
@[simp] theorem State.setBq_bq (s : State) (x : List BatchRecord) : (s.setBq x).bq = x := rfl
@[simp] theorem State.setBq_de (s : State) (x : List BatchRecord) : (s.setBq x).de = s.de := rfl
@[simp] theorem State.setBq_it (s : State) (x : List BatchRecord) : (s.setBq x).it = s.it := rfl
@[simp] theorem State.setBq_cs (s : State) (x : List BatchRecord) : (s.setBq x).cs = s.cs := rfl
@[simp] theorem State.setBq_mg (s : State) (x : List BatchRecord) : (s.setBq x).mg = s.mg := rfl
@[simp] theorem State.setBq_tu (s : State) (x : List BatchRecord) : (s.setBq x).tu = s.tu := rfl
@[simp] theorem State.setBq_mr (s : State) (x : List BatchRecord) : (s.setBq x).mr = s.mr := rfl
@[simp] theorem State.setBq_nu (s : State) (x : List BatchRecord) : (s.setBq x).nu = s.nu := rfl
@[simp] theorem State.setBq_inReset (s : State) (x : List BatchRecord) : (s.setBq x).inReset = s.inReset := rfl
@[simp] theorem State.setBq_now (s : State) (x : List BatchRecord) : (s.setBq x).now = s.now := rfl
@[simp] theorem State.setBq_races (s : State) (x : List BatchRecord) : (s.setBq x).races = s.races := rfl
@[simp] theorem State.setBq_pending (s : State) (x : List BatchRecord) : (s.setBq x).pending = s.pending := rfl

@[simp] theorem State.setDe_liu (s : State) (x : DensityEvaluator) : (s.setDe x).liu = s.liu := rfl
@[simp] theorem State.setDe_vc (s : State) (x : DensityEvaluator) : (s.setDe x).vc = s.vc := rfl
@[simp] theorem State.setDe_ts (s : State) (x : DensityEvaluator) : (s.setDe x).ts = s.ts := rfl
@[simp] theorem State.setDe_bq (s : State) (x : DensityEvaluator) : (s.setDe x).bq = s.bq := rfl
@[simp] theorem State.setDe_de (s : State) (x : DensityEvaluator) : (s.setDe x).de = x := rfl
@[simp] theorem State.setDe_it (s : State) (x : DensityEvaluator) : (s.setDe x).it = s.it := rfl
@[simp] theorem State.setDe_cs (s : State) (x : DensityEvaluator) : (s.setDe x).cs = s.cs := rfl
@[simp] theorem State.setDe_mg (s : State) (x : DensityEvaluator) : (s.setDe x).mg = s.mg := rfl
@[simp] theorem State.setDe_tu (s : State) (x : DensityEvaluator) : (s.setDe x).tu = s.tu := rfl
@[simp] theorem State.setDe_mr (s : State) (x : DensityEvaluator) : (s.setDe x).mr = s.mr := rfl
@[simp] theorem State.setDe_nu (s : State) (x : DensityEvaluator) : (s.setDe x).nu = s.nu := rfl
@[simp] theorem State.setDe_inReset (s : State) (x : DensityEvaluator) : (s.setDe x).inReset = s.inReset := rfl
@[simp] theorem State.setDe_now (s : State) (x : DensityEvaluator) : (s.setDe x).now = s.now := rfl
@[simp] theorem State.setDe_races (s : State) (x : DensityEvaluator) : (s.setDe x).races = s.races := rfl
@[simp] theorem State.setDe_pending (s : State) (x : DensityEvaluator) : (s.setDe x).pending = s.pending := rfl

@[simp] theorem State.setIt_liu (s : State) (x : Tracker) : (s.setIt x).liu = s.liu := rfl
@[simp] theorem State.setIt_vc (s : State) (x : Tracker) : (s.setIt x).vc = s.vc := rfl
@[simp] theorem State.setIt_ts (s : State) (x : Tracker) : (s.setIt x).ts = s.ts := rfl
@[simp] theorem State.setIt_bq (s : State) (x : Tracker) : (s.setIt x).bq = s.bq := rfl
@[simp] theorem State.setIt_de (s : State) (x : Tracker) : (s.setIt x).de = s.de := rfl
@[simp] theorem State.setIt_it (s : State) (x : Tracker) : (s.setIt x).it = x := rfl
@[simp] theorem State.setIt_cs (s : State) (x : Tracker) : (s.setIt x).cs = s.cs := rfl
@[simp] theorem State.setIt_mg (s : State) (x : Tracker) : (s.setIt x).mg = s.mg := rfl
@[simp] theorem State.setIt_tu (s : State) (x : Tracker) : (s.setIt x).tu = s.tu := rfl
@[simp] theorem State.setIt_mr (s : State) (x : Tracker) : (s.setIt x).mr = s.mr := rfl
@[simp] theorem State.setIt_nu (s : State) (x : Tracker) : (s.setIt x).nu = s.nu := rfl
@[simp] theorem State.setIt_inReset (s : State) (x : Tracker) : (s.setIt x).inReset = s.inReset := rfl
@[simp] theorem State.setIt_now (s : State) (x : Tracker) : (s.setIt x).now = s.now := rfl
@[simp] theorem State.setIt_races (s : State) (x : Tracker) : (s.setIt x).races = s.races := rfl
@[simp] theorem State.setIt_pending (s : State) (x : Tracker) : (s.setIt x).pending = s.pending := rfl

@[simp] theorem State.setCs_liu (s : State) (x : Sequencer) : (s.setCs x).liu = s.liu := rfl
@[simp] theorem State.setCs_vc (s : State) (x : Sequencer) : (s.setCs x).vc = s.vc := rfl
@[simp] theorem State.setCs_ts (s : State) (x : Sequencer) : (s.setCs x).ts = s.ts := rfl
@[simp] theorem State.setCs_bq (s : State) (x : Sequencer) : (s.setCs x).bq = s.bq := rfl
@[simp] theorem State.setCs_de (s : State) (x : Sequencer) : (s.setCs x).de = s.de := rfl
@[simp] theorem State.setCs_it (s : State) (x : Sequencer) : (s.setCs x).it = s.it := rfl
@[simp] theorem State.setCs_cs (s : State) (x : Sequencer) : (s.setCs x).cs = x := rfl
@[simp] theorem State.setCs_mg (s : State) (x : Sequencer) : (s.setCs x).mg = s.mg := rfl
@[simp] theorem State.setCs_tu (s : State) (x : Sequencer) : (s.setCs x).tu = s.tu := rfl
@[simp] theorem State.setCs_mr (s : State) (x : Sequencer) : (s.setCs x).mr = s.mr := rfl
@[simp] theorem State.setCs_nu (s : State) (x : Sequencer) : (s.setCs x).nu = s.nu := rfl
@[simp] theorem State.setCs_inReset (s : State) (x : Sequencer) : (s.setCs x).inReset = s.inReset := rfl
@[simp] theorem State.setCs_now (s : State) (x : Sequencer) : (s.setCs x).now = s.now := rfl
@[simp] theorem State.setCs_races (s : State) (x : Sequencer) : (s.setCs x).races = s.races := rfl
@[simp] theorem State.setCs_pending (s : State) (x : Sequencer) : (s.setCs x).pending = s.pending := rfl

@[simp] theorem State.setMg_liu (s : State) (x : ManifoldGuard) : (s.setMg x).liu = s.liu := rfl
@[simp] theorem State.setMg_vc (s : State) (x : ManifoldGuard) : (s.setMg x).vc = s.vc := rfl
@[simp] theorem State.setMg_ts (s : State) (x : ManifoldGuard) : (s.setMg x).ts = s.ts := rfl
@[simp] theorem State.setMg_bq (s : State) (x : ManifoldGuard) : (s.setMg x).bq = s.bq := rfl
@[simp] theorem State.setMg_de (s : State) (x : ManifoldGuard) : (s.setMg x).de = s.de := rfl
@[simp] theorem State.setMg_it (s : State) (x : ManifoldGuard) : (s.setMg x).it = s.it := rfl
@[simp] theorem State.setMg_cs (s : State) (x : ManifoldGuard) : (s.setMg x).cs = s.cs := rfl
@[simp] theorem State.setMg_mg (s : State) (x : ManifoldGuard) : (s.setMg x).mg = x := rfl
@[simp] theorem State.setMg_tu (s : State) (x : ManifoldGuard) : (s.setMg x).tu = s.tu := rfl
@[simp] theorem State.setMg_mr (s : State) (x : ManifoldGuard) : (s.setMg x).mr = s.mr := rfl
@[simp] theorem State.setMg_nu (s : State) (x : ManifoldGuard) : (s.setMg x).nu = s.nu := rfl
@[simp] theorem State.setMg_inReset (s : State) (x : ManifoldGuard) : (s.setMg x).inReset = s.inReset := rfl
@[simp] theorem State.setMg_now (s : State) (x : ManifoldGuard) : (s.setMg x).now = s.now := rfl
@[simp] theorem State.setMg_races (s : State) (x : ManifoldGuard) : (s.setMg x).races = s.races := rfl
@[simp] theorem State.setMg_pending (s : State) (x : ManifoldGuard) : (s.setMg x).pending = s.pending := rfl

@[simp] theorem State.setTu_liu (s : State) (x : TicketUnit) : (s.setTu x).liu = s.liu := rfl
@[simp] theorem State.setTu_vc (s : State) (x : TicketUnit) : (s.setTu x).vc = s.vc := rfl
@[simp] theorem State.setTu_ts (s : State) (x : TicketUnit) : (s.setTu x).ts = s.ts := rfl
@[simp] theorem State.setTu_bq (s : State) (x : TicketUnit) : (s.setTu x).bq = s.bq := rfl
@[simp] theorem State.setTu_de (s : State) (x : TicketUnit) : (s.setTu x).de = s.de := rfl
@[simp] theorem State.setTu_it (s : State) (x : TicketUnit) : (s.setTu x).it = s.it := rfl
@[simp] theorem State.setTu_cs (s : State) (x : TicketUnit) : (s.setTu x).cs = s.cs := rfl
@[simp] theorem State.setTu_mg (s : State) (x : TicketUnit) : (s.setTu x).mg = s.mg := rfl
@[simp] theorem State.setTu_tu (s : State) (x : TicketUnit) : (s.setTu x).tu = x := rfl
@[simp] theorem State.setTu_mr (s : State) (x : TicketUnit) : (s.setTu x).mr = s.mr := rfl
@[simp] theorem State.setTu_nu (s : State) (x : TicketUnit) : (s.setTu x).nu = s.nu := rfl
@[simp] theorem State.setTu_inReset (s : State) (x : TicketUnit) : (s.setTu x).inReset = s.inReset := rfl
@[simp] theorem State.setTu_now (s : State) (x : TicketUnit) : (s.setTu x).now = s.now := rfl
@[simp] theorem State.setTu_races (s : State) (x : TicketUnit) : (s.setTu x).races = s.races := rfl
@[simp] theorem State.setTu_pending (s : State) (x : TicketUnit) : (s.setTu x).pending = s.pending := rfl

@[simp] theorem State.setMr_liu (s : State) (x : Responder) : (s.setMr x).liu = s.liu := rfl
@[simp] theorem State.setMr_vc (s : State) (x : Responder) : (s.setMr x).vc = s.vc := rfl
@[simp] theorem State.setMr_ts (s : State) (x : Responder) : (s.setMr x).ts = s.ts := rfl
@[simp] theorem State.setMr_bq (s : State) (x : Responder) : (s.setMr x).bq = s.bq := rfl
@[simp] theorem State.setMr_de (s : State) (x : Responder) : (s.setMr x).de = s.de := rfl
@[simp] theorem State.setMr_it (s : State) (x : Responder) : (s.setMr x).it = s.it := rfl
@[simp] theorem State.setMr_cs (s : State) (x : Responder) : (s.setMr x).cs = s.cs := rfl
@[simp] theorem State.setMr_mg (s : State) (x : Responder) : (s.setMr x).mg = s.mg := rfl
@[simp] theorem State.setMr_tu (s : State) (x : Responder) : (s.setMr x).tu = s.tu := rfl
@[simp] theorem State.setMr_mr (s : State) (x : Responder) : (s.setMr x).mr = x := rfl
@[simp] theorem State.setMr_nu (s : State) (x : Responder) : (s.setMr x).nu = s.nu := rfl
@[simp] theorem State.setMr_inReset (s : State) (x : Responder) : (s.setMr x).inReset = s.inReset := rfl
@[simp] theorem State.setMr_now (s : State) (x : Responder) : (s.setMr x).now = s.now := rfl
@[simp] theorem State.setMr_races (s : State) (x : Responder) : (s.setMr x).races = s.races := rfl
@[simp] theorem State.setMr_pending (s : State) (x : Responder) : (s.setMr x).pending = s.pending := rfl

@[simp] theorem State.setNu_liu (s : State) (x : NoticeUnit) : (s.setNu x).liu = s.liu := rfl
@[simp] theorem State.setNu_vc (s : State) (x : NoticeUnit) : (s.setNu x).vc = s.vc := rfl
@[simp] theorem State.setNu_ts (s : State) (x : NoticeUnit) : (s.setNu x).ts = s.ts := rfl
@[simp] theorem State.setNu_bq (s : State) (x : NoticeUnit) : (s.setNu x).bq = s.bq := rfl
@[simp] theorem State.setNu_de (s : State) (x : NoticeUnit) : (s.setNu x).de = s.de := rfl
@[simp] theorem State.setNu_it (s : State) (x : NoticeUnit) : (s.setNu x).it = s.it := rfl
@[simp] theorem State.setNu_cs (s : State) (x : NoticeUnit) : (s.setNu x).cs = s.cs := rfl
@[simp] theorem State.setNu_mg (s : State) (x : NoticeUnit) : (s.setNu x).mg = s.mg := rfl
@[simp] theorem State.setNu_tu (s : State) (x : NoticeUnit) : (s.setNu x).tu = s.tu := rfl
@[simp] theorem State.setNu_mr (s : State) (x : NoticeUnit) : (s.setNu x).mr = s.mr := rfl
@[simp] theorem State.setNu_nu (s : State) (x : NoticeUnit) : (s.setNu x).nu = x := rfl
@[simp] theorem State.setNu_inReset (s : State) (x : NoticeUnit) : (s.setNu x).inReset = s.inReset := rfl
@[simp] theorem State.setNu_now (s : State) (x : NoticeUnit) : (s.setNu x).now = s.now := rfl
@[simp] theorem State.setNu_races (s : State) (x : NoticeUnit) : (s.setNu x).races = s.races := rfl
@[simp] theorem State.setNu_pending (s : State) (x : NoticeUnit) : (s.setNu x).pending = s.pending := rfl

@[simp] theorem State.setInReset_liu (s : State) (x : Bool) : (s.setInReset x).liu = s.liu := rfl
@[simp] theorem State.setInReset_vc (s : State) (x : Bool) : (s.setInReset x).vc = s.vc := rfl
@[simp] theorem State.setInReset_ts (s : State) (x : Bool) : (s.setInReset x).ts = s.ts := rfl
@[simp] theorem State.setInReset_bq (s : State) (x : Bool) : (s.setInReset x).bq = s.bq := rfl
@[simp] theorem State.setInReset_de (s : State) (x : Bool) : (s.setInReset x).de = s.de := rfl
@[simp] theorem State.setInReset_it (s : State) (x : Bool) : (s.setInReset x).it = s.it := rfl
@[simp] theorem State.setInReset_cs (s : State) (x : Bool) : (s.setInReset x).cs = s.cs := rfl
@[simp] theorem State.setInReset_mg (s : State) (x : Bool) : (s.setInReset x).mg = s.mg := rfl
@[simp] theorem State.setInReset_tu (s : State) (x : Bool) : (s.setInReset x).tu = s.tu := rfl
@[simp] theorem State.setInReset_mr (s : State) (x : Bool) : (s.setInReset x).mr = s.mr := rfl
@[simp] theorem State.setInReset_nu (s : State) (x : Bool) : (s.setInReset x).nu = s.nu := rfl
@[simp] theorem State.setInReset_inReset (s : State) (x : Bool) : (s.setInReset x).inReset = x := rfl
@[simp] theorem State.setInReset_now (s : State) (x : Bool) : (s.setInReset x).now = s.now := rfl
@[simp] theorem State.setInReset_races (s : State) (x : Bool) : (s.setInReset x).races = s.races := rfl
@[simp] theorem State.setInReset_pending (s : State) (x : Bool) : (s.setInReset x).pending = s.pending := rfl

@[simp] theorem State.setNow_liu (s : State) (x : Time) : (s.setNow x).liu = s.liu := rfl
@[simp] theorem State.setNow_vc (s : State) (x : Time) : (s.setNow x).vc = s.vc := rfl
@[simp] theorem State.setNow_ts (s : State) (x : Time) : (s.setNow x).ts = s.ts := rfl
@[simp] theorem State.setNow_bq (s : State) (x : Time) : (s.setNow x).bq = s.bq := rfl
@[simp] theorem State.setNow_de (s : State) (x : Time) : (s.setNow x).de = s.de := rfl
@[simp] theorem State.setNow_it (s : State) (x : Time) : (s.setNow x).it = s.it := rfl
@[simp] theorem State.setNow_cs (s : State) (x : Time) : (s.setNow x).cs = s.cs := rfl
@[simp] theorem State.setNow_mg (s : State) (x : Time) : (s.setNow x).mg = s.mg := rfl
@[simp] theorem State.setNow_tu (s : State) (x : Time) : (s.setNow x).tu = s.tu := rfl
@[simp] theorem State.setNow_mr (s : State) (x : Time) : (s.setNow x).mr = s.mr := rfl
@[simp] theorem State.setNow_nu (s : State) (x : Time) : (s.setNow x).nu = s.nu := rfl
@[simp] theorem State.setNow_inReset (s : State) (x : Time) : (s.setNow x).inReset = s.inReset := rfl
@[simp] theorem State.setNow_now (s : State) (x : Time) : (s.setNow x).now = x := rfl
@[simp] theorem State.setNow_races (s : State) (x : Time) : (s.setNow x).races = s.races := rfl
@[simp] theorem State.setNow_pending (s : State) (x : Time) : (s.setNow x).pending = s.pending := rfl

@[simp] theorem State.setRaces_liu (s : State) (x : Nat) : (s.setRaces x).liu = s.liu := rfl
@[simp] theorem State.setRaces_vc (s : State) (x : Nat) : (s.setRaces x).vc = s.vc := rfl
@[simp] theorem State.setRaces_ts (s : State) (x : Nat) : (s.setRaces x).ts = s.ts := rfl
@[simp] theorem State.setRaces_bq (s : State) (x : Nat) : (s.setRaces x).bq = s.bq := rfl
@[simp] theorem State.setRaces_de (s : State) (x : Nat) : (s.setRaces x).de = s.de := rfl
@[simp] theorem State.setRaces_it (s : State) (x : Nat) : (s.setRaces x).it = s.it := rfl
@[simp] theorem State.setRaces_cs (s : State) (x : Nat) : (s.setRaces x).cs = s.cs := rfl
@[simp] theorem State.setRaces_mg (s : State) (x : Nat) : (s.setRaces x).mg = s.mg := rfl
@[simp] theorem State.setRaces_tu (s : State) (x : Nat) : (s.setRaces x).tu = s.tu := rfl
@[simp] theorem State.setRaces_mr (s : State) (x : Nat) : (s.setRaces x).mr = s.mr := rfl
@[simp] theorem State.setRaces_nu (s : State) (x : Nat) : (s.setRaces x).nu = s.nu := rfl
@[simp] theorem State.setRaces_inReset (s : State) (x : Nat) : (s.setRaces x).inReset = s.inReset := rfl
@[simp] theorem State.setRaces_now (s : State) (x : Nat) : (s.setRaces x).now = s.now := rfl
@[simp] theorem State.setRaces_races (s : State) (x : Nat) : (s.setRaces x).races = x := rfl
@[simp] theorem State.setRaces_pending (s : State) (x : Nat) : (s.setRaces x).pending = s.pending := rfl

@[simp] theorem State.setPending_liu (s : State) (x : List Instr) : (s.setPending x).liu = s.liu := rfl
@[simp] theorem State.setPending_vc (s : State) (x : List Instr) : (s.setPending x).vc = s.vc := rfl
@[simp] theorem State.setPending_ts (s : State) (x : List Instr) : (s.setPending x).ts = s.ts := rfl
@[simp] theorem State.setPending_bq (s : State) (x : List Instr) : (s.setPending x).bq = s.bq := rfl
@[simp] theorem State.setPending_de (s : State) (x : List Instr) : (s.setPending x).de = s.de := rfl
@[simp] theorem State.setPending_it (s : State) (x : List Instr) : (s.setPending x).it = s.it := rfl
@[simp] theorem State.setPending_cs (s : State) (x : List Instr) : (s.setPending x).cs = s.cs := rfl
@[simp] theorem State.setPending_mg (s : State) (x : List Instr) : (s.setPending x).mg = s.mg := rfl
@[simp] theorem State.setPending_tu (s : State) (x : List Instr) : (s.setPending x).tu = s.tu := rfl
@[simp] theorem State.setPending_mr (s : State) (x : List Instr) : (s.setPending x).mr = s.mr := rfl
@[simp] theorem State.setPending_nu (s : State) (x : List Instr) : (s.setPending x).nu = s.nu := rfl
@[simp] theorem State.setPending_inReset (s : State) (x : List Instr) : (s.setPending x).inReset = s.inReset := rfl
@[simp] theorem State.setPending_now (s : State) (x : List Instr) : (s.setPending x).now = s.now := rfl
@[simp] theorem State.setPending_races (s : State) (x : List Instr) : (s.setPending x).races = s.races := rfl
@[simp] theorem State.setPending_pending (s : State) (x : List Instr) : (s.setPending x).pending = x := rfl

end Sys2Proof.Machine
end

