-- ==== Sys2Proof/Laws/Evolves.lean ====
section
/-! SUPPORT. What the blocks' own operations can do, said once: they leave the control port, the link address, the
clock, the responder and the line count alone, and they keep a sound state sound. One lemma per operation. -/

namespace Sys2Proof.Machine

/-- What Sound asks of every block but the TU. -/
structure RestSound (s : State) : Prop where
  field : PortBounded s.liu.field
  control : PortBounded s.liu.control
  bq : BatchesOk s.bq
  de : EvaluatorOk s.ts.active.segment s.de
  it : TrackerOk s.it
  cs : SequencerOk s.cs
  mg : GuardOk s.mg

theorem Sound.rest {s : State} (h : Sound s) : RestSound s := ⟨h.1, h.2, h.3, h.4, h.5, h.6, h.7⟩

theorem RestSound.sound {s : State} (h : RestSound s) (k : TicketsOk s.vc.lineCount s.tu) : Sound s :=
  ⟨h.1, h.2, h.3, h.4, h.5, h.6, h.7, k⟩

/-- `t` follows from `s` by operations inside the part that reach neither the CONTROL port nor the responder; a change of
the mode or the tables may still have its withdrawal before it (R126). -/
structure Follows (s t : State) : Prop where
  address : t.liu.address = s.liu.address
  control : t.liu.control = s.liu.control
  fieldRx : t.liu.field.rx = s.liu.field.rx
  mr : t.mr = s.mr
  inReset : t.inReset = s.inReset
  now : t.now = s.now
  pending : t.pending = s.pending
  lineCount : t.vc.lineCount = s.vc.lineCount
  sum : t.ts.sum = s.ts.sum
  pendingTables : t.ts.pending = s.ts.pending
  nuAddress : t.nu.address = s.nu.address
  nuMaster : t.nu.master = s.nu.master
  nuEnables : t.nu.enables = s.nu.enables
  active : t.ts.active = s.ts.active ∨ t.ts.active = s.ts.pending
  unarmed : s.ts.armed = false → t.ts = s.ts
  rest : RestSound s → RestSound t
  tickets : TicketsOk s.vc.lineCount s.tu → TicketsOk t.vc.lineCount t.tu
  noted : t.nu = s.nu ∨ t.nu.testDue = true

/-- `t` follows from `s` by operations inside the part that reach neither the CONTROL port nor the responder. -/
structure Evolves (s t : State) : Prop extends Follows s t where
  barred : ManifoldBarred s → ManifoldBarred t

theorem Evolves.sound {s t : State} (h : Evolves s t) (k : Sound s) : Sound t := (h.rest k.rest).sound (h.tickets k.tu)

theorem Follows.refl (s : State) : Follows s s :=
  ⟨rfl, rfl, rfl, rfl, rfl, rfl, rfl, rfl, rfl, rfl, rfl, rfl, rfl, Or.inl rfl, fun _ => rfl, id, id, Or.inl rfl⟩

theorem Follows.trans {s t u : State} (h : Follows s t) (k : Follows t u) : Follows s u where
  address := k.address.trans h.address
  control := k.control.trans h.control
  fieldRx := k.fieldRx.trans h.fieldRx
  mr := k.mr.trans h.mr
  inReset := k.inReset.trans h.inReset
  now := k.now.trans h.now
  pending := k.pending.trans h.pending
  lineCount := k.lineCount.trans h.lineCount
  sum := k.sum.trans h.sum
  pendingTables := k.pendingTables.trans h.pendingTables
  nuAddress := k.nuAddress.trans h.nuAddress
  nuMaster := k.nuMaster.trans h.nuMaster
  nuEnables := k.nuEnables.trans h.nuEnables
  active := by
    rcases k.active with e | e
    · rw [e]; exact h.active
    · rw [e, h.pendingTables]; exact Or.inr rfl
  unarmed := fun a => by
    have e := h.unarmed a
    rw [k.unarmed (by rw [e]; exact a), e]
  rest := fun x => k.rest (h.rest x)
  tickets := fun x => k.tickets (h.tickets x)
  noted := by
    rcases k.noted with e | e
    · rw [e]; exact h.noted
    · exact Or.inr e

theorem Evolves.refl (s : State) : Evolves s s := ⟨Follows.refl s, id⟩

theorem Evolves.trans {s t u : State} (h : Evolves s t) (k : Evolves t u) : Evolves s u :=
  ⟨h.toFollows.trans k.toFollows, fun x => k.barred (h.barred x)⟩

theorem Evolves.ite {s t u : State} {p : Prop} [Decidable p] (h : p → Evolves s t) (k : ¬p → Evolves s u) :
    Evolves s (if p then t else u) := by
  split
  · exact h ‹_›
  · exact k ‹_›

/-! ## Updates -/

theorem setRaces_evolves (s : State) (x : Nat) : Evolves s (s.setRaces x) :=
  ⟨⟨rfl, rfl, rfl, rfl, rfl, rfl, rfl, rfl, rfl, rfl, rfl, rfl, rfl, Or.inl rfl, fun _ => rfl,
    fun h => ⟨h.1, h.2, h.3, h.4, h.5, h.6, h.7⟩, id, Or.inl rfl⟩, id⟩

theorem setNu_evolves (s : State) (x : NoticeUnit) (ha : x.address = s.nu.address) (hm : x.master = s.nu.master)
    (he : x.enables = s.nu.enables) (ht : x.testDue = true) : Evolves s (s.setNu x) :=
  ⟨⟨rfl, rfl, rfl, rfl, rfl, rfl, rfl, rfl, rfl, rfl, ha, hm, he, Or.inl rfl, fun _ => rfl,
    fun h => ⟨h.1, h.2, h.3, h.4, h.5, h.6, h.7⟩, id, Or.inr ht⟩, id⟩

theorem setVc_evolves (s : State) (x : VolumeCounter) (h : x.lineCount = s.vc.lineCount) : Evolves s (s.setVc x) :=
  ⟨⟨rfl, rfl, rfl, rfl, rfl, rfl, rfl, h, rfl, rfl, rfl, rfl, rfl, Or.inl rfl, fun _ => rfl,
    fun k => ⟨k.1, k.2, k.3, k.4, k.5, k.6, k.7⟩, fun k => by
      show TicketsOk x.lineCount s.tu
      rw [h]; exact k, Or.inl rfl⟩, id⟩

theorem setBq_evolves (s : State) (x : List BatchRecord) (k : BatchesOk s.bq → BatchesOk x) : Evolves s (s.setBq x) :=
  ⟨⟨rfl, rfl, rfl, rfl, rfl, rfl, rfl, rfl, rfl, rfl, rfl, rfl, rfl, Or.inl rfl, fun _ => rfl,
    fun h => ⟨h.1, h.2, k h.3, h.4, h.5, h.6, h.7⟩, id, Or.inl rfl⟩, id⟩

theorem setDe_evolves (s : State) (x : DensityEvaluator)
    (k : EvaluatorOk s.ts.active.segment s.de → EvaluatorOk s.ts.active.segment x) : Evolves s (s.setDe x) :=
  ⟨⟨rfl, rfl, rfl, rfl, rfl, rfl, rfl, rfl, rfl, rfl, rfl, rfl, rfl, Or.inl rfl, fun _ => rfl,
    fun h => ⟨h.1, h.2, h.3, k h.4, h.5, h.6, h.7⟩, id, Or.inl rfl⟩, id⟩

theorem setIt_evolves (s : State) (x : Tracker) (k : TrackerOk s.it → TrackerOk x) : Evolves s (s.setIt x) :=
  ⟨⟨rfl, rfl, rfl, rfl, rfl, rfl, rfl, rfl, rfl, rfl, rfl, rfl, rfl, Or.inl rfl, fun _ => rfl,
    fun h => ⟨h.1, h.2, h.3, h.4, k h.5, h.6, h.7⟩, id, Or.inl rfl⟩, id⟩

theorem setCs_evolves (s : State) (x : Sequencer) (k : SequencerOk s.cs → SequencerOk x) : Evolves s (s.setCs x) :=
  ⟨⟨rfl, rfl, rfl, rfl, rfl, rfl, rfl, rfl, rfl, rfl, rfl, rfl, rfl, Or.inl rfl, fun _ => rfl,
    fun h => ⟨h.1, h.2, h.3, h.4, h.5, k h.6, h.7⟩, id, Or.inl rfl⟩, id⟩

theorem setMg_follows (s : State) (x : ManifoldGuard) (k : GuardOk s.mg → GuardOk x) : Follows s (s.setMg x) :=
  ⟨rfl, rfl, rfl, rfl, rfl, rfl, rfl, rfl, rfl, rfl, rfl, rfl, rfl, Or.inl rfl, fun _ => rfl,
    fun h => ⟨h.1, h.2, h.3, h.4, h.5, h.6, k h.7⟩, id, Or.inl rfl⟩

/-- A change in the MG that does not leave MANUAL. -/
theorem setMg_evolves (s : State) (x : ManifoldGuard) (k : GuardOk s.mg → GuardOk x)
    (hm : s.mg.mode = .manual → x.mode = .manual) : Evolves s (s.setMg x) :=
  ⟨setMg_follows s x k, fun h => h.imp hm id⟩

theorem setTu_evolves (s : State) (x : TicketUnit) (k : TicketsOk s.vc.lineCount s.tu → TicketsOk s.vc.lineCount x) :
    Evolves s (s.setTu x) :=
  ⟨⟨rfl, rfl, rfl, rfl, rfl, rfl, rfl, rfl, rfl, rfl, rfl, rfl, rfl, Or.inl rfl, fun _ => rfl,
    fun h => ⟨h.1, h.2, h.3, h.4, h.5, h.6, h.7⟩, k, Or.inl rfl⟩, id⟩

/-- A change of the FIELD port that adds no forwarded frame. -/
theorem setField_evolves (s : State) (x : PortLink) (hr : x.rx = s.liu.field.rx)
    (k : PortBounded s.liu.field → PortBounded x) (hf : ∀ f ∈ x.forward, f ∈ s.liu.field.forward) :
    Evolves s (s.setPort .field x) :=
  ⟨⟨rfl, rfl, hr, rfl, rfl, rfl, rfl, rfl, rfl, rfl, rfl, rfl, rfl,
    Or.inl rfl, fun _ => rfl, fun h => ⟨k h.1, h.2, h.3, h.4, h.5, h.6, h.7⟩, id, Or.inl rfl⟩,
    fun h => h.imp id (fun n f m => n f (hf f m))⟩

theorem raise_evolves (e : Event) (c : Context) (s : State) : Evolves s (raise e c s) :=
  setNu_evolves s _ rfl rfl rfl rfl

/-! ## Link queues -/

theorem appendOriginated_field_evolves (f : Frame) (s : State) : Evolves s (appendOriginated .field f s) := by
  unfold appendOriginated
  refine Evolves.ite (fun h => ?_) (fun _ => Evolves.refl s)
  refine setField_evolves s _ rfl (fun k => ⟨k.forward, ?_⟩) (fun _ m => m)
  have h' : (s.port .field).originated.length < 4 := by simpa [originatedFree] using h
  simp only [List.length_append, List.length_cons, List.length_nil]
  omega

/-- A frame may pass to the field: the mode is MANUAL, or it is no manifold command (R126). -/
def MayPass (s : State) (f : Frame) : Prop :=
  s.mg.mode = .manual ∨ (f.kind = 0x32 → ∀ o : Outlet, s.ts.active.outlets[o].valveAddress ≠ f.dst)

theorem offerForward_field_evolves (f : Frame) (s : State) (hf : MayPass s f) :
    Evolves s (offerForward .field f s) := by
  unfold offerForward
  refine Evolves.ite (fun h => ?_) (fun _ => Evolves.refl s)
  have h' : (s.port .field).forward.length < 8 := by simpa [forwardFree] using h
  refine ⟨⟨rfl, rfl, rfl, rfl, rfl, rfl, rfl, rfl, rfl, rfl, rfl, rfl, rfl, Or.inl rfl, fun _ => rfl,
    fun k => ⟨⟨?_, k.1.2⟩, k.2, k.3, k.4, k.5, k.6, k.7⟩, id, Or.inl rfl⟩, fun b => ?_⟩
  · show (s.liu.field.forward ++ [f]).length ≤ 8
    simp only [List.length_append, List.length_cons, List.length_nil]
    exact h'
  · rcases hf with m | p
    · exact Or.inl m
    · refine b.imp id (fun n g hg => ?_)
      rcases List.mem_append.1 hg with e | e
      · exact n g e
      · rw [List.mem_singleton.1 e]; exact p

/-! ## Manifold Guard -/

theorem setValve_evolves (o : Outlet) (v : ValveRecord) (s : State) (h : v.confirmed = s.mg.valves[o].confirmed) :
    Evolves s (s.setValve o v) := by
  refine setMg_evolves s _ (fun k => ⟨k.once, fun p => ?_⟩) id
  rw [k.opened p]
  by_cases hp : o = p
  · subst hp
    simp [h]
  · have : (o : Nat) ≠ p := fun e => hp (Fin.ext e)
    simp [this]

theorem setCommanded_evolves (o : Outlet) (m : Option ValveMove) (s : State) : Evolves s (setCommanded o m s) :=
  setValve_evolves o _ s rfl

theorem setAvailable_evolves (o : Outlet) (b : Bool) (s : State) : Evolves s (setAvailable o b s) :=
  setValve_evolves o _ s rfl

/-! ## Lists in order -/

theorem InOrder.tail {a : Mark} {l : List Mark} (h : InOrder (a :: l)) : InOrder l := by
  cases l with
  | nil => exact trivial
  | cons b rest => exact h.2

theorem InOrder.drop {l : List Mark} (h : InOrder l) (n : Nat) : InOrder (l.drop n) := by
  induction n generalizing l with
  | zero => exact h
  | succ n ih =>
    cases l with
    | nil => exact trivial
    | cons a rest => exact ih h.tail

/-- A mark raised to the last one keeps a list in order (step 3 of R99, step 2 of R141). -/
theorem InOrder.append {l : List Mark} (h : InOrder l) (m : Mark) (hm : ∀ a, l.getLast? = some a → lower m a = false) :
    InOrder (l ++ [m]) := by
  induction l with
  | nil => exact trivial
  | cons a rest ih =>
    cases rest with
    | nil => exact ⟨hm a rfl, trivial⟩
    | cons b rest => exact ⟨h.1, ih h.2 (fun c hc => hm c (by rw [← hc]; rfl))⟩

theorem lower_self (a : Mark) : lower a a = false := by
  unfold lower
  rw [BitVec.sub_self]
  rfl

/-- A mark raised to another is not lower than it. -/
theorem raiseTo_not_lower (l f : Mark) : lower (raiseTo l f) l = false := by
  unfold raiseTo
  split
  · exact lower_self l
  · rename_i h; simpa using h

theorem QueueOk.nil : QueueOk [] := ⟨Nat.zero_le 8, trivial⟩

theorem QueueOk.tail {l : List Action} (h : QueueOk l) : QueueOk l.tail := by
  cases l with
  | nil => exact h
  | cons a rest =>
    refine ⟨?_, h.ordered.tail⟩
    have := h.bounded
    simp only [List.length_cons] at this
    show rest.length ≤ 8
    omega

/-- Only the fire marks matter to QueueOk. -/
theorem QueueOk.of_fires {l m : List Action} (h : QueueOk l) (e : m.map (·.fire) = l.map (·.fire)) : QueueOk m := by
  refine ⟨?_, by rw [e]; exact h.ordered⟩
  have := congrArg List.length e
  simp only [List.length_map] at this
  rw [this]; exact h.bounded

/-- Step 3 of R99: an action whose fire mark was held back to the last one's keeps the queue in order. -/
theorem QueueOk.append {l : List Action} (h : QueueOk l) (a : Action) (hl : l.length < 8)
    (ha : ∀ b, l.getLast? = some b → lower a.fire b.fire = false) : QueueOk (l ++ [a]) := by
  refine ⟨?_, ?_⟩
  · simp only [List.length_append, List.length_cons, List.length_nil]; omega
  · rw [List.map_append]
    refine h.ordered.append _ (fun m hm => ?_)
    rw [List.getLast?_map, Option.map_eq_some_iff] at hm
    obtain ⟨b, hb, e⟩ := hm
    rw [← e]
    exact ha b hb

theorem QueueOk.take_one {l : List Action} : QueueOk (l.take 1) := by
  cases l with
  | nil => exact QueueOk.nil
  | cons a rest => exact ⟨by simp, trivial⟩

end Sys2Proof.Machine
end

