-- ==== Sys2Proof/Laws/Guard.lean ====
section
/-! SUPPORT. The Manifold Guard's and the Table Store's operations evolve the state (Laws/Evolves.lean). -/

namespace Sys2Proof.Machine

theorem mem_allOutlets : ∀ o : Outlet, o ∈ allOutlets := by decide

theorem noteEntry_evolves (c : Command) (s : State) : Evolves s (noteEntry c s) := by
  unfold noteEntry
  refine Evolves.ite (fun _ => setCs_evolves s _ (fun h => ⟨h.queue, ?_⟩)) (fun _ => Evolves.refl s)
  simpa using h.sequence

theorem enterCommand_evolves (c : Command) (s : State) : Evolves s (enterCommand c s) := by
  unfold enterCommand
  exact Evolves.ite (fun _ => Evolves.refl s) (fun _ =>
    ((appendOriginated_field_evolves _ s).trans (setCommanded_evolves _ _ _)).trans (noteEntry_evolves _ _))

theorem formCommand_evolves (c : Command) (s : State) : Evolves s (formCommand c s) := by
  unfold formCommand
  exact Evolves.ite (fun _ => setCs_evolves s _ (fun h => ⟨h.1, h.2⟩)) (fun _ =>
    Evolves.ite (fun _ => enterCommand_evolves c s) (fun _ => setCs_evolves s _ (fun h => ⟨h.1, h.2⟩)))

theorem enterCommands_evolves (l : List Command) (s : State) : Evolves s (enterCommands l s) := by
  induction l generalizing s with
  | nil => exact Evolves.refl s
  | cons c rest ih =>
    unfold enterCommands
    refine Evolves.ite (fun _ => ?_) (fun _ => Evolves.refl s)
    refine Evolves.trans ?_ (ih _)
    refine Evolves.trans ?_ (enterCommand_evolves _ _)
    exact setCs_evolves s _ (fun h => ⟨h.1, h.2⟩)

theorem offerCommands_evolves (s : State) : Evolves s (offerCommands s) := enterCommands_evolves _ s

theorem dropCommand_evolves (c : Command) (s : State) : Evolves s (dropCommand c s) :=
  setCs_evolves s _ (fun h => ⟨h.1, h.2⟩)

theorem raiseOwned_evolves (o : Outlet) (f : Frame) (w : Bool) (s : State) : Evolves s (raiseOwned o f w s) :=
  raise_evolves _ _ s

theorem noteWithdrawn_evolves (s : State) (f : Frame) : Evolves s (noteWithdrawn s f) := by
  unfold noteWithdrawn
  split
  · exact (setCommanded_evolves _ _ s).trans (raiseOwned_evolves _ _ _ _)
  · exact Evolves.refl s

theorem foldl_noteWithdrawn_evolves (l : List Frame) (s : State) : Evolves s (l.foldl noteWithdrawn s) := by
  induction l generalizing s with
  | nil => exact Evolves.refl s
  | cons f rest ih => exact (noteWithdrawn_evolves s f).trans (ih _)

theorem withdrawManifold_evolves (s : State) : Evolves s (withdrawManifold s) := by
  refine Evolves.trans ?_ (foldl_noteWithdrawn_evolves _ _)
  refine setField_evolves s _ rfl (fun k => ⟨?_, k.originated⟩) (fun f m => (List.mem_filter.1 m).1)
  exact (List.length_filter_le _ _).trans k.forward

/-- A withdrawal leaves no manifold command on its way to the field (R126, R158). -/
theorem withdrawManifold_clears (s : State) : NoManifoldCommand (withdrawManifold s) := by
  have keep : ∀ (l : List Frame) (u : State), (l.foldl noteWithdrawn u).liu = u.liu ∧ (l.foldl noteWithdrawn u).ts = u.ts := by
    intro l
    induction l with
    | nil => intro u; exact ⟨rfl, rfl⟩
    | cons f rest ih =>
      intro u
      have h : (noteWithdrawn u f).liu = u.liu ∧ (noteWithdrawn u f).ts = u.ts := by
        unfold noteWithdrawn; split <;> exact ⟨rfl, rfl⟩
      exact ⟨(ih _).1.trans h.1, (ih _).2.trans h.2⟩
  intro f hf hk o ho
  unfold withdrawManifold at hf ho
  simp only at hf ho
  rw [(keep _ _).1] at hf
  rw [(keep _ _).2] at ho
  have hm : (manifoldOutlet s f).isNone = true := (List.mem_filter.1 hf).2
  unfold manifoldOutlet outletAtAddress at hm
  rw [if_pos (show f.kind = kindValveCommand from hk), Option.isNone_iff_eq_none, List.find?_eq_none] at hm
  exact hm o (mem_allOutlets o) (beq_iff_eq.2 ho)

/-- A change after which manifold commands are withdrawn (R126). -/
theorem Follows.withdraw {s t : State} (h : Follows s t) : Evolves s (withdrawManifold t) :=
  ⟨h.trans (withdrawManifold_evolves t).toFollows, fun _ => Or.inr (withdrawManifold_clears t)⟩

theorem laneTrap_evolves (n : Nat) (a : Action) (s : State) : Evolves s (laneTrap n a s).2 := by
  unfold laneTrap
  simp only
  split
  · exact Evolves.refl s
  · exact raise_evolves _ _ s

theorem trapEach_evolves (n : Nat) (cond : Action → Bool) (l : List Action) (s : State) :
    Evolves s (trapEach n cond l s).2 := by
  induction l generalizing s with
  | nil => exact Evolves.refl s
  | cons a rest ih =>
    unfold trapEach
    by_cases h : cond a <;> simp only [h, if_true, if_false, Bool.false_eq_true]
    · exact (laneTrap_evolves n a s).trans (ih _)
    · exact ih s

/-- The lane trap changes no number of actions. -/
theorem laneTrap_fire (n : Nat) (a : Action) (s : State) : (laneTrap n a s).1.fire = a.fire := by
  unfold laneTrap
  simp only
  split <;> rfl

/-- The lane trap moves no fire mark (R130). -/
theorem trapEach_fires (n : Nat) (cond : Action → Bool) (l : List Action) (s : State) :
    (trapEach n cond l s).1.map (·.fire) = l.map (·.fire) := by
  induction l generalizing s with
  | nil => rfl
  | cons a rest ih =>
    unfold trapEach
    by_cases h : cond a <;> simp [h, ih, laneTrap_fire]

theorem trapEach_length (n : Nat) (cond : Action → Bool) (l : List Action) (s : State) :
    (trapEach n cond l s).1.length = l.length := by
  induction l generalizing s with
  | nil => rfl
  | cons a rest ih => unfold trapEach; simp [ih]

theorem enterHeld_evolves (s : State) : Evolves s (enterHeld s) := by
  unfold enterHeld
  refine Evolves.ite (fun _ => Evolves.refl s) (fun _ => ?_)
  exact (setMg_follows s { s.mg with mode := .held, resumeMode := s.mg.mode } (fun k => ⟨k.1, k.2⟩)).withdraw

theorem abandon_evolves (s : State) : Evolves s (abandon s) := by
  unfold abandon
  split
  · exact Evolves.refl s
  · exact Evolves.refl s
  · exact setCs_evolves s _ (fun h => ⟨h.queue, rfl⟩)

theorem openRelief_evolves (s : State) : Evolves s (openRelief s) := by
  unfold openRelief
  exact Evolves.ite (fun _ => Evolves.refl s) (fun _ => formCommand_evolves _ s)

theorem guard_evolves (b : Bool) (s : State) : Evolves s (guard b s) := by
  unfold guard
  refine Evolves.ite (fun _ => ?_) (fun _ => Evolves.refl s)
  simp only
  refine Evolves.trans ?_ (abandon_evolves _)
  refine Evolves.trans (t := raiseDeadHead b s (openRelief s)) ?_ ?_
  · exact (openRelief_evolves s).trans (raise_evolves _ _ _)
  · exact Evolves.ite (fun _ => enterHeld_evolves _) (fun _ => Evolves.refl _)

theorem forwardCommand_evolves (o : Outlet) (m : Option ValveMove) (f : Frame) (s : State)
    (h : s.mg.mode = .manual) : Evolves s (forwardCommand o m f s) := by
  unfold forwardCommand
  split
  · exact Evolves.ite (fun _ => (offerForward_field_evolves f s (Or.inl h)).trans (setCommanded_evolves _ _ _))
      (fun _ => Evolves.refl s)
  · exact offerForward_field_evolves f s (Or.inl h)

theorem judgeManifold_evolves (o : Outlet) (f : Frame) (s : State) : Evolves s (judgeManifold o f s) := by
  unfold judgeManifold
  split
  · rename_i h
    split
    · refine Evolves.ite (fun _ => forwardCommand_evolves _ _ _ s h) (fun _ => ?_)
      refine Evolves.ite (fun _ => ?_) (fun _ => forwardCommand_evolves _ _ _ s h)
      exact Evolves.ite (fun _ => raise_evolves _ _ s) (fun _ => forwardCommand_evolves _ _ _ s h)
    · exact forwardCommand_evolves _ _ _ s h
  · exact raiseOwned_evolves _ _ _ s

/-- A frame that is no manifold command may pass in every mode (R126, R156). -/
theorem mayPass (s : State) (f : Frame) (h : manifoldOutlet s f = none) : MayPass s f := by
  refine Or.inr (fun hk o ho => ?_)
  unfold manifoldOutlet outletAtAddress at h
  rw [if_pos (show f.kind = kindValveCommand from hk), List.find?_eq_none] at h
  exact h o (mem_allOutlets o) (beq_iff_eq.2 ho)

/-- R124: after a change of one outlet's confirmed position the open order holds it exactly when it is OPEN, and the
others as before. -/
theorem mem_orderAfter (o q : Outlet) (p : Position) (order : List Outlet) :
    q ∈ orderAfter o p order ↔ if q = o then p = .opened else q ∈ order := by
  unfold orderAfter
  by_cases hq : q = o
  · subst hq
    by_cases hp : p = .opened <;> by_cases hm : q ∈ order <;> simp [hp, hm]
  · by_cases hp : p = .opened <;> by_cases hm : o ∈ order <;> simp [hp, hm, hq]

/-- R124: no outlet stands twice in the open order. -/
theorem orderAfter_nodup (o : Outlet) (p : Position) (order : List Outlet) (h : order.Nodup) :
    (orderAfter o p order).Nodup := by
  unfold orderAfter
  split
  · split
    · exact h
    · rename_i hm
      refine List.nodup_append.2 ⟨h, by simp, ?_⟩
      intro a ha b hb e
      simp only [List.mem_singleton] at hb
      exact hm (hb ▸ e ▸ ha)
  · exact h.filter _

/-- A report leaves the MG's picture consistent (R123, R124). -/
theorem takeReport_evolves (o : Outlet) (r : Report) (s : State) : Evolves s (takeReport o r s) := by
  refine setMg_evolves s _ (fun k => ⟨orderAfter_nodup _ _ _ k.once, fun p => ?_⟩) id
  simp only [mem_orderAfter]
  generalize reportedRecord r s.mg.valves[o] = v
  by_cases hp : p = o
  · subst hp; simp
  · have : (o : Nat) ≠ p := fun e => hp (Fin.ext e.symm)
    rw [if_neg hp, k.opened p]
    simp [this]

/-! ## The apply -/

theorem silenceExpires_evolves (s : State) : Evolves s (silenceExpires s) :=
  Evolves.trans (setVc_evolves s { s.vc with silenceTimer := none } rfl) (raise_evolves _ _ _)

theorem stillExpires_evolves (s : State) : Evolves s (stillExpires s) :=
  Evolves.trans (setVc_evolves s { s.vc with stillTimer := none, lineState := .still } rfl) (raise_evolves _ _ _)

theorem applyMeterAddress_evolves (a b : SegmentRecord) (s : State) : Evolves s (applyMeterAddress a b s) := by
  unfold applyMeterAddress
  exact Evolves.ite (fun _ => Evolves.refl s) (fun _ => setVc_evolves s _ rfl)

theorem applySilenceTime_evolves (a b : SegmentRecord) (s : State) : Evolves s (applySilenceTime a b s) := by
  unfold applySilenceTime
  exact Evolves.ite (fun _ => silenceExpires_evolves s) (fun _ => Evolves.refl s)

theorem applyStillTime_evolves (a b : SegmentRecord) (s : State) : Evolves s (applyStillTime a b s) := by
  unfold applyStillTime
  exact Evolves.ite (fun _ => stillExpires_evolves s) (fun _ => Evolves.refl s)

/-- R31: an outlet whose record is reset leaves the open order. -/
theorem applyToGuard_ok (a b : Tables) (mg : ManifoldGuard) (k : GuardOk mg) : GuardOk (applyToGuard a b mg) := by
  refine ⟨k.once.filter _, fun p => ?_⟩
  have h := k.opened p
  simp only [Fin.getElem_fin] at h
  by_cases hc : a.outlets[(p : Nat)].valveAddress = b.outlets[(p : Nat)].valveAddress
  · simp [applyToGuard, hc, h]
  · simp [applyToGuard, hc, resetValve]

theorem applyManifold_evolves (a b : Tables) (s : State) : Evolves s (applyManifold a b s) := by
  unfold applyManifold
  simp only
  refine Evolves.trans (t := s.setMg (applyToGuard a b s.mg)) (setMg_evolves s _ (applyToGuard_ok a b _) id) ?_
  generalize s.setMg (applyToGuard a b s.mg) = s1
  have h2 : Evolves s1 (if !s.mg.openOrder.isEmpty && s1.mg.openOrder.isEmpty then guard false s1 else s1) :=
    Evolves.ite (fun _ => guard_evolves _ _) (fun _ => Evolves.refl _)
  exact h2.trans (Evolves.ite (fun _ => Evolves.refl _) (fun _ => withdrawManifold_evolves _))

/-- An apply leaves no manifold command on its way to the field in AUTO and HELD (R126). -/
theorem applyManifold_bars (a b : Tables) (s : State) : ManifoldBarred (applyManifold a b s) := by
  have h : ∀ u : State, ManifoldBarred (if u.mg.mode = .manual then u else withdrawManifold u) := by
    intro u
    split
    · exact Or.inl ‹_›
    · exact Or.inr (withdrawManifold_clears _)
  exact h _

theorem applyToQueue_evolves (s : State) : Evolves s (applyToQueue s) := by
  unfold applyToQueue
  have h := trapEach_evolves 3 (fun a => (s.outlet a.target).enabled != 1) s.cs.queue s
  have hl := trapEach_length 3 (fun a => (s.outlet a.target).enabled != 1) s.cs.queue s
  have hcs : (trapEach 3 (fun a => (s.outlet a.target).enabled != 1) s.cs.queue s).2.cs = s.cs := by
    generalize s.cs.queue = l
    generalize (fun a : Action => (s.outlet a.target).enabled != 1) = cond
    clear h hl
    induction l generalizing s with
    | nil => rfl
    | cons a rest ih =>
      unfold trapEach
      simp only
      rw [ih]
      split
      · unfold laneTrap; simp only; split <;> rfl
      · rfl
  have hf := trapEach_fires 3 (fun a => (s.outlet a.target).enabled != 1) s.cs.queue s
  refine h.trans (setCs_evolves _ _ (fun k => ⟨⟨?_, ?_⟩, k.2⟩))
  · have := k.queue.bounded
    rw [hcs] at this
    show (trapEach 3 _ s.cs.queue s).1.length ≤ 8
    rw [hl]; exact this
  · have := k.queue.ordered
    rw [hcs] at this
    show InOrder ((trapEach 3 _ s.cs.queue s).1.map (·.fire))
    rw [hf]; exact this

/-- R31: the offset is clamped to the new limit. -/
theorem applyToEvaluator_ok (a b : SegmentRecord) (de : DensityEvaluator) (k : EvaluatorOk a de) :
    EvaluatorOk b (applyToEvaluator a b de) := by
  refine ⟨?_, ?_, ?_⟩
  · unfold applyToEvaluator
    simp only
    split
    · exact k.ring
    · exact Nat.zero_le 8
  · exact le_max_left _ _
  · have h0 : (0 : Int) ≤ b.offsetLimit.toNat := Int.natCast_nonneg _
    exact max_le (by omega) (min_le_left _ _)

theorem applyTables_evolves (w : Bool) (s : State) (ha : s.ts.armed = true) : Evolves s (applyTables w s) := by
  unfold applyTables
  simp only
  refine Evolves.trans ?_ (raise_evolves _ _ _)
  refine Evolves.trans ?_ (applyToQueue_evolves _)
  refine ⟨?_, fun _ => applyManifold_bars _ _ _⟩
  refine Follows.trans ?_ (applyManifold_evolves _ _ _).toFollows
  refine Follows.trans ?_ (applyStillTime_evolves _ _ _).toFollows
  refine Follows.trans ?_ (applySilenceTime_evolves _ _ _).toFollows
  refine Follows.trans ?_ (applyMeterAddress_evolves _ _ _).toFollows
  exact ⟨rfl, rfl, rfl, rfl, rfl, rfl, rfl, rfl, rfl, rfl, rfl, rfl, rfl, Or.inr rfl,
    fun a => (by rw [ha] at a; cases a), fun h => ⟨h.1, h.2, h.3, applyToEvaluator_ok _ _ _ h.4, h.5, h.6, h.7⟩, id,
    Or.inl rfl⟩

theorem applyDue_armed (s : State) (h : applyDue s = true) : s.ts.armed = true := by
  unfold applyDue at h
  simp only [Bool.and_eq_true] at h
  exact h.1.1

theorem applyIfDue_evolves (w : Bool) (s : State) : Evolves s (applyIfDue w s) := by
  unfold applyIfDue
  exact Evolves.ite (fun h => applyTables_evolves w s (applyDue_armed s h)) (fun _ => Evolves.refl s)

end Sys2Proof.Machine
end

