-- ==== Sys2Proof/Laws/Accounts.lean ====
section
/-! SUPPORT. The Ticket Unit's operations evolve the state (Laws/Evolves.lean). -/

namespace Sys2Proof.Machine

theorem discardOldest_length (l : List Ticket) (h : l.length ≤ 16) : (discardOldest l).length ≤ 15 := by
  unfold discardOldest
  split
  · cases l with
    | nil => simp
    | cons a t =>
      cases t with
      | nil => simp
      | cons b u => simp only [List.length_cons, List.tail_cons] at *; omega
  · omega

/-- The ticket before a discarded one keeps its columns and marks. -/
theorem discardOldest_balanced (l : List Ticket) (h : ∀ t ∈ l, Balanced t) : ∀ t ∈ discardOldest l, Balanced t := by
  unfold discardOldest
  split
  · cases l with
    | nil => exact h
    | cons a r =>
      cases r with
      | nil => exact fun t ht => by cases ht
      | cons b u =>
        intro t ht
        simp only [List.tail_cons] at ht
        rcases List.mem_cons.1 ht with e | e
        · subst e
          obtain ⟨m, h1, h2⟩ := h b (by simp)
          exact ⟨m, h1, h2⟩
        · exact h t (by simp [e])
  · exact h

/-- R149: a balanced ticket enters the completed list. -/
theorem completeTicket_tickets (count : Mark) (t : Ticket) (s : State) (h : Balanced t) (k : TicketsOk count s.tu) :
    TicketsOk count (completeTicket t s).tu := by
  refine ⟨k.boundaries, k.ordered, ?_, k.current, k.closing, ?_⟩
  · have := discardOldest_length _ k.completed
    show (discardOldest s.tu.completed ++ [t]).length ≤ 16
    simp only [List.length_append, List.length_cons, List.length_nil]
    omega
  · intro x hx
    rcases List.mem_append.1 (show x ∈ discardOldest s.tu.completed ++ [t] from hx) with e | e
    · exact discardOldest_balanced _ k.closed x e
    · rw [List.mem_singleton.1 e]; exact h

theorem completeTicket_evolves (t : Ticket) (s : State) (h : Balanced t) : Evolves s (completeTicket t s) := by
  refine Evolves.trans (t := s.setTu { s.tu with completed := discardOldest s.tu.completed ++ [t] }) ?_ (raise_evolves _ _ _)
  exact setTu_evolves s _ (fun k => completeTicket_tickets _ t s h k)

/-- A change of the TU that leaves the boundaries' marks, the lists' lengths, and every ticket's columns and marks. -/
theorem setTu_holders_evolves (s : State) (x : TicketUnit)
    (hb : x.boundaries.map (·.mark) = s.tu.boundaries.map (·.mark)) (hc : x.completed = s.tu.completed)
    (h1 : ∀ t, x.current = some t → ∃ u, s.tu.current = some u ∧ columnSum t = columnSum u ∧ t.opened = u.opened)
    (h2 : ∀ t, x.closing = some t → ∃ u, s.tu.closing = some u ∧ columnSum t = columnSum u ∧ t.opened = u.opened
      ∧ t.closed = u.closed) : Evolves s (s.setTu x) := by
  refine setTu_evolves s x (fun k => ⟨?_, by rw [hb]; exact k.ordered, hc ▸ k.completed, ?_, ?_, hc ▸ k.closed⟩)
  · have := congrArg List.length hb
    simp only [List.length_map] at this
    rw [this]; exact k.boundaries
  · intro t ht
    obtain ⟨u, e, h3, h4⟩ := h1 t ht
    rw [h3, h4]; exact k.current u e
  · intro t ht
    obtain ⟨u, e, h3, h4, h5⟩ := h2 t ht
    obtain ⟨m, e1, e2⟩ := k.closing u e
    exact ⟨m, h5.trans e1, by rw [h3, h4]; exact e2⟩

/-- The closing ticket's release keeps the accounts, and leaves no closing ticket (R144, R149; log 42). -/
theorem releaseWaiting_tickets (m : Mark) (s : State) (k : TicketsOk m s.tu) :
    TicketsOk m (releaseWaiting s).tu ∧ (releaseWaiting s).tu.current = s.tu.current := by
  unfold releaseWaiting
  split
  · rename_i w hw
    exact ⟨completeTicket_tickets m _ _ (k.closing w hw) ⟨k.1, k.2, k.3, k.4, fun x hx => (by cases hx), k.6⟩, rfl⟩
  · exact ⟨k, rfl⟩

/-- `t` is `s` but for the TU and the latches; where an event was latched the emission test is due (R176). -/
structure TicketsOnly (s t : State) : Prop where
  rest : t = { s with tu := t.tu, nu := t.nu }
  address : t.nu.address = s.nu.address
  master : t.nu.master = s.nu.master
  enables : t.nu.enables = s.nu.enables
  noted : t.nu = s.nu ∨ t.nu.testDue = true

theorem TicketsOnly.trans {s t u : State} (h : TicketsOnly s t) (k : TicketsOnly t u) : TicketsOnly s u :=
  ⟨by rw [k.rest, h.rest], k.address.trans h.address, k.master.trans h.master, k.enables.trans h.enables,
    k.noted.elim (fun e => h.noted.imp (fun d => by rw [e, d]) (fun d => by rw [e]; exact d)) Or.inr⟩

theorem setTu_only (s : State) (x : TicketUnit) : TicketsOnly s (s.setTu x) := ⟨rfl, rfl, rfl, rfl, Or.inl rfl⟩

theorem completeTicket_only (k : Ticket) (s : State) : TicketsOnly s (completeTicket k s) :=
  ⟨rfl, rfl, rfl, rfl, Or.inr rfl⟩

/-- The closing ticket's release touches the TU and the latches alone, and no boundary. -/
theorem releaseWaiting_rest (s : State) :
    TicketsOnly s (releaseWaiting s) ∧ (releaseWaiting s).tu.boundaries = s.tu.boundaries := by
  unfold releaseWaiting
  split
  · exact ⟨(setTu_only s _).trans (completeTicket_only _ _), rfl⟩
  · exact ⟨setTu_only s s.tu, rfl⟩

/-- Step 1 of R144: the ticket closed at `m` is balanced there. -/
theorem closeCurrent_tickets (m : Mark) (s : State) (k : TicketsOk m s.tu) : TicketsOk m (closeCurrent m s).tu := by
  unfold closeCurrent
  split
  · exact k
  · rename_i t ht
    have hb : Balanced { t with closed := some m } := ⟨m, rfl, k.current t ht⟩
    have k1 : TicketsOk m (s.setTu { s.tu with current := none }).tu :=
      ⟨k.1, k.2, k.3, fun x hx => (by cases hx), k.5, k.6⟩
    simp only
    split
    · exact completeTicket_tickets m _ _ hb k1
    · have q := (releaseWaiting_tickets m _ k1).1
      exact ⟨q.1, q.2, q.3, q.4, fun x hx => (by cases hx; exact hb), q.6⟩

/-- Closing the current ticket touches the TU and the latches alone. -/
theorem closeCurrent_rest (m : Mark) (s : State) : TicketsOnly s (closeCurrent m s) := by
  unfold closeCurrent
  split
  · exact setTu_only s s.tu
  · simp only
    split
    · exact (setTu_only s _).trans (completeTicket_only _ _)
    · exact ((setTu_only s _).trans (releaseWaiting_rest _).1).trans (setTu_only _ _)

/-- The closing of the current ticket leaves the boundaries as they are. -/
theorem closeCurrent_boundaries (m : Mark) (s : State) : (closeCurrent m s).tu.boundaries = s.tu.boundaries := by
  unfold closeCurrent
  split
  · rfl
  · simp only
    split
    · rfl
    · exact (releaseWaiting_rest (s.setTu { s.tu with current := none })).2

/-- R144: taking the oldest boundary at `m` closes a balanced ticket and opens an empty one there. -/
theorem takeBoundary_tickets (b : Boundary) (rest : List Boundary) (m : Mark) (s : State)
    (h : s.tu.boundaries = b :: rest) (k : TicketsOk m s.tu) : TicketsOk m (takeBoundary b rest m s).tu := by
  have q := closeCurrent_tickets m s k
  have h1 := k.boundaries
  have h2 := k.ordered
  rw [h] at h1 h2
  refine ⟨?_, h2.tail, q.completed, ?_, q.closing, q.closed⟩
  · show rest.length ≤ 8
    simp only [List.length_cons] at h1; omega
  · intro t ht
    cases ht
    show (0 : Mark) + 0 + 0 + 0 + 0 = m - m
    rw [BitVec.sub_self]; rfl

theorem takeBoundary_rest (b : Boundary) (rest : List Boundary) (m : Mark) (s : State) :
    TicketsOnly s (takeBoundary b rest m s) := (closeCurrent_rest m s).trans (setTu_only _ _)

/-- An operation that touches the TU and the latches alone evolves the state. -/
theorem evolves_of_tickets (s t : State) (h : TicketsOnly s t)
    (k : TicketsOk s.vc.lineCount s.tu → TicketsOk s.vc.lineCount t.tu) : Evolves s t := by
  have e := h.rest
  refine ⟨⟨?_, ?_, ?_, ?_, ?_, ?_, ?_, ?_, ?_, ?_, h.address, h.master, h.enables, ?_, fun _ => ?_, fun q => ?_,
    fun q => ?_, h.noted⟩, fun q => ?_⟩
  all_goals first
    | (rw [e]; done)
    | skip
  · exact Or.inl (by rw [e])
  · rw [e]
    exact ⟨q.1, q.2, q.3, q.4, q.5, q.6, q.7⟩
  · have := k q
    rw [e]; exact this
  · rw [e]; exact q

theorem takeBoundary_evolves (b : Boundary) (rest : List Boundary) (s : State) (h : s.tu.boundaries = b :: rest) :
    Evolves s (takeBoundary b rest s.vc.lineCount s) :=
  evolves_of_tickets s _ (takeBoundary_rest _ _ _ _) (takeBoundary_tickets _ _ _ _ h)

/-- The boundaries left behind a taken one. -/
theorem takeBoundary_boundaries (b : Boundary) (rest : List Boundary) (m : Mark) (s : State) :
    (takeBoundary b rest m s).tu.boundaries = rest := rfl

theorem takeBoundary_lineCount (b : Boundary) (rest : List Boundary) (m : Mark) (s : State) :
    (takeBoundary b rest m s).vc = s.vc := by rw [(takeBoundary_rest b rest m s).rest]

/-! ## Booking -/

theorem bookColumn_sum (r : Option Outlet) (n : Mark) (t : Ticket) :
    columnSum (bookColumn r n t) = columnSum t + n ∧ (bookColumn r n t).opened = t.opened := by
  unfold bookColumn columnSum
  split
  · exact ⟨by simp only; ac_rfl, rfl⟩
  · split
    · exact ⟨by simp only; ac_rfl, rfl⟩
    · split
      · exact ⟨by simp only; ac_rfl, rfl⟩
      · split
        · exact ⟨by simp only; ac_rfl, rfl⟩
        · exact ⟨by simp only; ac_rfl, rfl⟩

/-- R140: booking `n` litres carries the accounts from `pos` to `pos + n`. -/
theorem book_tickets (r : Option Outlet) (n pos : Mark) (tu : TicketUnit) (k : TicketsOk pos tu) :
    TicketsOk (pos + n) (book r n tu) := by
  unfold book
  split
  · rename_i t ht
    refine ⟨k.1, k.2, k.3, ?_, k.5, k.6⟩
    intro x hx
    cases hx
    obtain ⟨h1, h2⟩ := bookColumn_sum r n t
    rw [h1, h2, k.current t ht, BitVec.sub_eq_add_neg, BitVec.sub_eq_add_neg]
    ac_rfl
  · rename_i hn
    exact ⟨k.1, k.2, k.3, fun t ht => (by have h : tu.current = some t := ht; rw [hn] at h; cases h), k.5, k.6⟩

theorem book_boundaries (r : Option Outlet) (n : Mark) (tu : TicketUnit) :
    (book r n tu).boundaries = tu.boundaries := by
  unfold book; split <;> rfl

/-- R142: an advance booked in parts keeps every account balanced, from the point booked to so far to its end. -/
theorem bookParts_tickets (r : Option Outlet) (before after : Mark) (bs : List Boundary) (pos : Mark) (s : State)
    (h : s.tu.boundaries = bs) (k : TicketsOk pos s.tu) : TicketsOk after (bookParts r before after bs pos s).tu := by
  have hsub : ∀ x y : Mark, x + (y - x) = y := fun x y => by rw [BitVec.add_comm, BitVec.sub_add_cancel]
  induction bs generalizing pos s with
  | nil =>
    have := book_tickets r (after - pos) pos s.tu k
    rw [hsub] at this
    exact this
  | cons b rest ih =>
    unfold bookParts
    split
    · refine ih _ _ rfl ?_
      refine takeBoundary_tickets b rest b.mark _ ?_ ?_
      · exact (book_boundaries _ _ _).trans h
      · have := book_tickets r (b.mark - pos) pos s.tu k
        rw [hsub] at this
        exact this
    · have := book_tickets r (after - pos) pos s.tu k
      rw [hsub] at this
      exact this

/-- Booking touches the TU and the latches alone. -/
theorem bookParts_rest (r : Option Outlet) (before after : Mark) (bs : List Boundary) (pos : Mark) (s : State) :
    TicketsOnly s (bookParts r before after bs pos s) := by
  induction bs generalizing pos s with
  | nil => exact setTu_only s _
  | cons b rest ih =>
    unfold bookParts
    split
    · exact ((setTu_only s _).trans (takeBoundary_rest b rest b.mark _)).trans (ih b.mark _)
    · exact setTu_only s _

theorem bookAdvance_rest (r : Option Outlet) (before after : Mark) (s : State) :
    TicketsOnly s (bookAdvance r before after s) := bookParts_rest _ _ _ _ _ _

/-- R142: an advance booked whole carries the accounts from the count before to the count after. -/
theorem bookAdvance_tickets (r : Option Outlet) (before after : Mark) (s : State) (k : TicketsOk before s.tu) :
    TicketsOk after (bookAdvance r before after s).tu :=
  bookParts_tickets _ _ _ _ _ _ rfl k

theorem inOrder_of_zip (l : List Mark) (h : (l.zip l.tail).all (fun p => !lower p.2 p.1) = true) : InOrder l := by
  induction l with
  | nil => exact trivial
  | cons a rest ih =>
    cases rest with
    | nil => exact trivial
    | cons b rest =>
      simp only [List.tail_cons, List.zip_cons_cons, List.all_cons, Bool.and_eq_true, Bool.not_eq_true'] at h
      exact ⟨h.1, ih h.2⟩

/-- R151: accounts in order keep what Sound asks of the TU. -/
theorem accountsInOrder_tickets (count : Mark) (tu : TicketUnit) (h : accountsInOrder count tu = true) :
    TicketsOk count tu := by
  unfold accountsInOrder at h
  simp only [Bool.and_eq_true, decide_eq_true_eq] at h
  obtain ⟨⟨⟨⟨⟨hb, ho⟩, hc⟩, h1⟩, h2⟩, h3⟩ := h
  have bal : ∀ t : Ticket, t.closed.any (sumsTo · t) = true → Balanced t := by
    intro t ht
    rw [Option.any_eq_true] at ht
    obtain ⟨m, hm, e⟩ := ht
    exact ⟨m, hm, of_decide_eq_true e⟩
  refine ⟨hb, inOrder_of_zip _ ho, hc, fun t ht => ?_, fun t ht => bal t ?_, fun t ht => bal t ?_⟩
  · rw [ht] at h1; exact of_decide_eq_true h1
  · rw [ht] at h2; exact h2
  · exact List.all_eq_true.mp h3 t ht

/-! ## Setting boundaries -/

theorem takeReached_evolves (bs : List Boundary) (s : State) (h : s.tu.boundaries = bs) :
    Evolves s (takeReached bs s) := by
  induction bs generalizing s with
  | nil => exact Evolves.refl s
  | cons b rest ih =>
    unfold takeReached
    refine Evolves.ite (fun _ => ?_) (fun _ => Evolves.refl s)
    exact (takeBoundary_evolves b rest s h).trans (ih _ rfl)

theorem makeRoom_evolves (s : State) : Evolves s (makeRoom s) := by
  unfold makeRoom
  split
  · rename_i hb
    exact Evolves.ite (fun _ => takeBoundary_evolves _ _ _ hb) (fun _ => Evolves.refl s)
  · exact Evolves.refl s

/-- After room is made a place is free (R141). -/
theorem makeRoom_free (s : State) (h : s.tu.boundaries.length ≤ 8) : (makeRoom s).tu.boundaries.length ≤ 7 := by
  unfold makeRoom
  split
  · rename_i c rest hb
    split
    · rw [takeBoundary_boundaries]; rw [hb] at h; simp only [List.length_cons] at h; omega
    · omega
  · rename_i hb; rw [hb]; simp

/-- Making room takes the oldest boundary, never the last (R141). -/
theorem makeRoom_last (s : State) (x : Boundary) (h : (makeRoom s).tu.boundaries.getLast? = some x) :
    s.tu.boundaries.getLast? = some x := by
  unfold makeRoom at h
  split at h
  · rename_i c rest hb
    split at h
    · rw [takeBoundary_boundaries] at h
      rw [hb]
      cases rest with
      | nil => cases h
      | cons d u => rw [List.getLast?_cons_cons]; exact h
    · exact h
  · exact h

theorem addBoundary_makeRoom_evolves (m : Mark) (a : Account) (s : State) :
    Evolves s (addBoundary ⟨boundaryMark m s, a⟩ (makeRoom s)) := by
  have e := makeRoom_evolves s
  refine ⟨⟨e.address, e.control, e.fieldRx, e.mr, e.inReset, e.now, e.pending, e.lineCount, e.sum, e.pendingTables,
    e.nuAddress, e.nuMaster, e.nuEnables, e.active, e.unarmed,
    fun h => (by have r := e.rest h; exact ⟨r.1, r.2, r.3, r.4, r.5, r.6, r.7⟩), fun h => ?_, e.noted⟩, e.barred⟩
  have k := e.tickets h
  have hb : ((makeRoom s).tu.boundaries ++ [(⟨boundaryMark m s, a⟩ : Boundary)]).length ≤ 8 := by
    have := makeRoom_free s h.boundaries
    simp only [List.length_append, List.length_cons, List.length_nil]
    omega
  have ho : InOrder (((makeRoom s).tu.boundaries ++ [(⟨boundaryMark m s, a⟩ : Boundary)]).map (·.mark)) := by
    rw [List.map_append]
    refine k.ordered.append _ (fun c hc => ?_)
    rw [List.getLast?_map, Option.map_eq_some_iff] at hc
    obtain ⟨x, hx, e2⟩ := hc
    show lower (boundaryMark m s) c = false
    unfold boundaryMark
    rw [makeRoom_last s x hx, ← e2]
    exact raiseTo_not_lower _ _
  exact ⟨hb, ho, k.3, k.4, k.5, k.6⟩

theorem setBoundary_evolves (m : Mark) (b : BatchRecord) (s : State) : Evolves s (setBoundary m b s) := by
  unfold setBoundary
  simp only
  split
  · refine Evolves.trans ?_ (takeReached_evolves _ _ rfl)
    exact addBoundary_makeRoom_evolves m _ s
  · exact addBoundary_makeRoom_evolves m _ s

theorem updateBoundary_marks (batch : BatchId) (f : Account → Account) (bs : List Boundary) :
    ((updateBoundary batch f bs).getD bs).map (·.mark) = bs.map (·.mark) := by
  have h : ∀ bs, ∀ cs, updateBoundary batch f bs = some cs → cs.map (·.mark) = bs.map (·.mark) := by
    intro bs
    induction bs with
    | nil => intro cs h; simp [updateBoundary] at h
    | cons b rest ih =>
      intro cs h
      unfold updateBoundary at h
      split at h
      · cases h; rfl
      · cases hr : updateBoundary batch f rest with
        | none => simp [hr] at h
        | some ds => simp only [hr, Option.map_some, Option.some.injEq] at h; subst h; simp [ih ds hr]
  cases hb : updateBoundary batch f bs with
  | none => rfl
  | some cs => exact h bs cs hb

/-- A ticket with its account changed keeps its columns and marks. -/
theorem map_onTicket (f : Account → Account) (x : Option Ticket) (t : Ticket) (h : x.map (onTicket f) = some t) :
    ∃ u, x = some u ∧ columnSum t = columnSum u ∧ t.opened = u.opened ∧ t.closed = u.closed := by
  rw [Option.map_eq_some_iff] at h
  obtain ⟨u, e, e2⟩ := h
  subst e2
  exact ⟨u, e, rfl, rfl, rfl⟩

theorem current_kept (s : State) (t : Ticket) (h : s.tu.current = some t) :
    ∃ u, s.tu.current = some u ∧ columnSum t = columnSum u ∧ t.opened = u.opened := ⟨t, h, rfl, rfl⟩

theorem closing_kept (s : State) (t : Ticket) (h : s.tu.closing = some t) :
    ∃ u, s.tu.closing = some u ∧ columnSum t = columnSum u ∧ t.opened = u.opened ∧ t.closed = u.closed :=
  ⟨t, h, rfl, rfl, rfl⟩

/-- The current ticket's account changed. -/
theorem setCurrent_evolves (f : Account → Account) (s : State) :
    Evolves s (s.setTu { s.tu with current := s.tu.current.map (onTicket f) }) :=
  setTu_holders_evolves s _ rfl rfl (fun t h => by
    obtain ⟨u, h1, h2, h3, _⟩ := map_onTicket f _ t h
    exact ⟨u, h1, h2, h3⟩) (closing_kept s)

/-- The closing ticket's account changed. -/
theorem setClosing_evolves (f : Account → Account) (s : State) :
    Evolves s (s.setTu { s.tu with closing := s.tu.closing.map (onTicket f) }) :=
  setTu_holders_evolves s _ rfl rfl (current_kept s) (map_onTicket f _)

/-- A boundary's account changed. -/
theorem setAccount_evolves (batch : BatchId) (f : Account → Account) (s : State) :
    Evolves s (s.setTu { s.tu with boundaries := (updateBoundary batch f s.tu.boundaries).getD s.tu.boundaries }) :=
  setTu_holders_evolves s _ (updateBoundary_marks _ _ _) rfl (current_kept s) (closing_kept s)

theorem placeReport_evolves (batch : BatchId) (f : Account → Account) (s : State) :
    Evolves s (s.setTu (placeReport batch f s.tu)) := by
  unfold placeReport
  split
  · exact setTu_holders_evolves s _ rfl rfl (current_kept s) (closing_kept s)
  · split
    · exact setCurrent_evolves f s
    · split
      · exact setClosing_evolves f s
      · exact setAccount_evolves batch f s

theorem reportLateness_evolves (batch : BatchId) (n : Nat) (s : State) : Evolves s (reportLateness batch n s) :=
  placeReport_evolves _ _ s

theorem reportExcursion_evolves (batch : BatchId) (s : State) : Evolves s (reportExcursion batch s) :=
  placeReport_evolves _ _ s

/-- R147: the closing ticket, released by its tail interface's end, enters the completed list. -/
theorem releaseClosing_evolves (f : Account → Account) (t : Ticket) (s : State) (h : s.tu.closing = some t) :
    Evolves s (completeTicket (onTicket f t) (s.setTu { s.tu with closing := none })) :=
  evolves_of_tickets s _ ((setTu_only s _).trans (completeTicket_only _ _)) (fun k => by
    obtain ⟨m, h1, h2⟩ := k.closing t h
    exact completeTicket_tickets _ _ _ ⟨m, h1, h2⟩ ⟨k.1, k.2, k.3, k.4, fun x hx => (by cases hx), k.6⟩)

theorem placeTail_evolves (r : InterfaceRecord) (m : Mark) (s : State) : Evolves s (placeTail r m s) := by
  unfold placeTail
  split
  · exact setCurrent_evolves _ s
  · split
    · split
      · exact releaseClosing_evolves _ _ s ‹_›
      · exact Evolves.refl s
    · split
      · exact Evolves.refl s
      · exact setAccount_evolves _ _ s

theorem placeHead_evolves (r : InterfaceRecord) (m : Mark) (s : State) : Evolves s (placeHead r m s) := by
  unfold placeHead
  split
  · exact setCurrent_evolves _ s
  · split
    · exact Evolves.refl s
    · exact setAccount_evolves _ _ s

/-- An interface's end reported to the tickets touches the TU and the latches alone (R147). -/
theorem reportInterface_rest (r : InterfaceRecord) (m : Mark) (s : State) : TicketsOnly s (reportInterface r m s) := by
  have ht : TicketsOnly s (placeTail r m s) := by
    unfold placeTail
    repeat' split
    · exact setTu_only _ _
    · exact (setTu_only _ _).trans (completeTicket_only _ _)
    · exact setTu_only s s.tu
    · exact setTu_only s s.tu
    · exact setTu_only _ _
  refine ht.trans ?_
  unfold reportInterface placeHead
  repeat' split
  · exact setTu_only _ _
  · exact setTu_only _ (placeTail r m s).tu
  · exact setTu_only _ _

theorem reportInterface_evolves (r : InterfaceRecord) (m : Mark) (s : State) : Evolves s (reportInterface r m s) :=
  (placeTail_evolves r m s).trans (placeHead_evolves r m _)

/-- R145: the first ticket opens empty at the line count. -/
theorem scheduleTicket_evolves (b : BatchRecord) (s : State) : Evolves s (scheduleTicket b s) :=
  setTu_evolves s _ (fun k => ⟨k.1, k.2, k.3, fun t ht => (by
    cases ht
    show (0 : Mark) + 0 + 0 + 0 + 0 = s.vc.lineCount - s.vc.lineCount
    rw [BitVec.sub_self]; rfl), k.5, k.6⟩)

end Sys2Proof.Machine
end

