-- ==== Sys2Proof/Laws/Sequencer.lean ====
section
/-! SUPPORT. The Cut Sequencer's operations evolve the state (Laws/Evolves.lean). -/

namespace Sys2Proof.Machine

theorem stopTimers_evolves (s : State) : Evolves s (stopTimers s) := setCs_evolves s _ (fun h => ⟨h.1, h.2⟩)

theorem openFailure_evolves (flags : Nat) (s : State) : Evolves s (openFailure flags s) := by
  unfold openFailure
  split
  · exact Evolves.refl s
  · simp only
    refine Evolves.trans ?_ (raise_evolves _ _ _)
    refine Evolves.trans ?_ (enterHeld_evolves _)
    refine Evolves.trans ?_ (setCs_evolves _ _ (fun h => ⟨h.1, rfl⟩))
    have h2 := fun o => ((stopTimers_evolves s).trans (formCommand_evolves ⟨o, .close⟩ _)).trans
      (setAvailable_evolves o false _)
    split
    · exact (h2 _).trans (dropCommand_evolves _ _)
    · exact h2 _

theorem closeFailure_evolves (flags : Nat) (s : State) : Evolves s (closeFailure flags s) := by
  unfold closeFailure
  split
  · exact Evolves.refl s
  · split
    · exact Evolves.refl s
    · simp only
      refine Evolves.trans ?_ (raise_evolves _ _ _)
      refine Evolves.trans ?_ (enterHeld_evolves _)
      refine Evolves.trans ?_ (setCs_evolves _ _ (fun h => ⟨?_, rfl⟩))
      · exact ((stopTimers_evolves s).trans (setAvailable_evolves _ false _)).trans (dropCommand_evolves _ _)
      · exact h.queue.tail

theorem enterOverlap_evolves (q : Sequence) (s : State) (h : s.cs.sequence = some q) : Evolves s (enterOverlap q s) :=
  setCs_evolves s _ (fun k => ⟨k.1, by simp [h, inService]⟩)

theorem enterCloseOld_evolves (q : Sequence) (o : Outlet) (s : State) : Evolves s (enterCloseOld q o s) := by
  unfold enterCloseOld
  refine Evolves.trans ?_ (formCommand_evolves _ _)
  exact setCs_evolves s _ (fun k => ⟨k.1, rfl⟩)

theorem enterRecovery_evolves (q : Sequence) (s : State) : Evolves s (enterRecovery q s) := by
  unfold enterRecovery
  simp only
  refine Evolves.trans ?_ (raise_evolves _ _ _)
  exact setCs_evolves s _ (fun k => ⟨k.queue.tail, rfl⟩)

theorem enterOpenNew_evolves (q : Sequence) (s : State) : Evolves s (enterOpenNew q s) := by
  unfold enterOpenNew
  refine Evolves.trans ?_ (formCommand_evolves _ _)
  exact setCs_evolves s _ (fun k => ⟨k.1, rfl⟩)

/-- The lane trap changes nothing in the sequencer. -/
theorem laneTrap_cs (n : Nat) (a : Action) (s : State) : (laneTrap n a s).2.cs = s.cs := by
  unfold laneTrap
  simp only
  split <;> rfl

theorem startAction_evolves (route : Bool) (s : State) : Evolves s (startAction route s) := by
  unfold startAction
  split
  · exact Evolves.refl s
  · rename_i a0 rest hq
    simp only
    have h1 : Evolves s ((laneTrap 1 a0 s).2.setCs { (laneTrap 1 a0 s).2.cs with queue := (laneTrap 1 a0 s).1 :: rest }) := by
      refine (laneTrap_evolves 1 a0 s).trans (setCs_evolves _ _ (fun k => ⟨?_, k.2⟩))
      have := k.queue
      rw [laneTrap_cs, hq] at this
      refine this.of_fires ?_
      show (laneTrap 1 a0 s).1.fire :: _ = _
      rw [laneTrap_fire]
      rfl
    generalize hs1 : (laneTrap 1 a0 s).2.setCs { (laneTrap 1 a0 s).2.cs with queue := (laneTrap 1 a0 s).1 :: rest } = s1
    have hq1 : s1.cs.queue = (laneTrap 1 a0 s).1 :: rest := by rw [← hs1]; rfl
    rw [hs1] at h1
    generalize (laneTrap 1 a0 s).1 = a at *
    have h2 := h1.trans (reportLateness_evolves a.batch (s1.vc.lineCount - a.fire).toNat s1)
    have hc2 : (reportLateness a.batch (s1.vc.lineCount - a.fire).toNat s1).cs = s1.cs := rfl
    generalize reportLateness a.batch (s1.vc.lineCount - a.fire).toNat s1 = s2 at *
    have h3 : Evolves s (if s2.segment.lateLimit.toNat < (s1.vc.lineCount - a.fire).toNat then
        raiseLateCut a (s1.vc.lineCount - a.fire).toNat (s1.routed != a.source) s2 else s2) :=
      h2.trans (Evolves.ite (fun _ => raise_evolves _ _ _) (fun _ => Evolves.refl _))
    have hc3 : (if s2.segment.lateLimit.toNat < (s1.vc.lineCount - a.fire).toNat then
        raiseLateCut a (s1.vc.lineCount - a.fire).toNat (s1.routed != a.source) s2 else s2).cs = s1.cs := by
      split
      · exact hc2
      · exact hc2
    generalize (if s2.segment.lateLimit.toNat < (s1.vc.lineCount - a.fire).toNat then
        raiseLateCut a (s1.vc.lineCount - a.fire).toNat (s1.routed != a.source) s2 else s2) = s3 at *
    refine h3.trans (Evolves.ite (fun _ => ?_) (fun _ => enterOpenNew_evolves _ _))
    refine Evolves.trans ?_ (raise_evolves _ _ _)
    refine setCs_evolves _ _ (fun k => ⟨?_, k.2⟩)
    have := k.queue
    rw [hc3, hq1] at this
    exact this.tail

theorem idleStep_evolves (s t : State) (h : idleStep s = some t) : Evolves s t := by
  unfold idleStep at h
  split at h
  · rename_i hd
    split at h
    · simp only [Option.some.injEq] at h
      subst h
      refine (setRaces_evolves s (s.races + 1)).trans ?_
      exact Evolves.ite (fun _ => applyTables_evolves _ _ (applyDue_armed s hd)) (fun _ => startAction_evolves _ _)
    · cases h; exact applyTables_evolves _ _ (applyDue_armed s hd)
  · split at h
    · cases h; exact startAction_evolves _ _
    · cases h

theorem engineStep_evolves (s t : State) (h : engineStep s = some t) : Evolves s t := by
  unfold engineStep at h
  split at h
  · exact idleStep_evolves s t h
  · split at h
    · cases h; exact enterOverlap_evolves _ s ‹_›
    · cases h
  · split at h
    · cases h
      split
      · exact enterCloseOld_evolves _ _ s
      · exact enterRecovery_evolves _ s
    · cases h
  · split at h
    · cases h; exact enterRecovery_evolves _ s
    · cases h
  · rename_i he
    split at h
    · cases h
      refine setCs_evolves s _ (fun k => ⟨k.1, ?_⟩)
      have := k.2
      rw [he] at this
      exact this
    · cases h
  · cases h

theorem engineLoop_evolves (n : Nat) (s : State) : Evolves s (engineLoop n s) := by
  induction n generalizing s with
  | zero => exact Evolves.refl s
  | succ n ih =>
    unfold engineLoop
    split
    · exact Evolves.refl s
    · exact (engineStep_evolves s _ ‹_›).trans (ih _)

theorem engineRun_evolves (s : State) : Evolves s (engineRun s) := engineLoop_evolves 64 s

theorem openNewReport_evolves (q : Sequence) (was : Position) (b : Bool) (s : State) :
    Evolves s (openNewReport q was b s) := by
  unfold openNewReport
  simp only
  refine Evolves.ite (fun _ => Evolves.ite (fun _ => Evolves.refl s) (fun _ => openFailure_evolves _ s)) (fun _ => ?_)
  refine Evolves.ite (fun _ => ?_) (fun _ => Evolves.ite (fun _ => openFailure_evolves _ s) (fun _ => Evolves.refl s))
  refine Evolves.trans ?_ (engineRun_evolves _)
  exact setCs_evolves s _ (fun k => ⟨k.1, k.2⟩)

theorem watchedReport_evolves (q : Sequence) (was : Position) (b : Bool) (s : State) :
    Evolves s (watchedReport q was b s) := by
  unfold watchedReport
  exact Evolves.ite (fun _ => openFailure_evolves _ s) (fun _ => Evolves.refl s)

theorem closeOldReport_evolves (q : Sequence) (o : Outlet) (b : Bool) (s : State) (h : s.cs.sequence = some q) :
    Evolves s (closeOldReport q o b s) := by
  unfold closeOldReport
  refine Evolves.ite (fun _ => Evolves.refl s) (fun _ => Evolves.ite (fun _ => ?_) (fun _ =>
    Evolves.ite (fun _ => closeFailure_evolves _ s) (fun _ => Evolves.refl s)))
  refine Evolves.trans ?_ (engineRun_evolves _)
  refine setCs_evolves s _ (fun k => ⟨k.1, ?_⟩)
  have := k.2
  rw [h] at this
  exact this

theorem engineReport_evolves (o : Outlet) (was : Position) (b : Bool) (s : State) :
    Evolves s (engineReport o was b s) := by
  unfold engineReport
  split
  · exact Evolves.ite (fun _ => openNewReport_evolves _ _ _ s) (fun _ => Evolves.refl s)
  · exact Evolves.ite (fun _ => watchedReport_evolves _ _ _ s) (fun _ => Evolves.refl s)
  · refine Evolves.ite (fun _ => ?_) (fun _ => Evolves.ite (fun _ => closeOldReport_evolves _ _ _ s ‹_›)
      (fun _ => Evolves.refl s))
    exact Evolves.ite (fun _ => Evolves.refl s) (fun _ => watchedReport_evolves _ _ _ s)
  · exact Evolves.refl s

theorem appendAction_evolves (o : Offer) (s : State) (h : s.cs.queue.length < 8) :
    Evolves s (appendAction o s).2 := by
  unfold appendAction
  simp only
  refine (laneTrap_evolves 0 (offeredAction o) s).trans (setCs_evolves _ _ (fun k => ⟨?_, k.2⟩))
  have hq := k.queue
  rw [laneTrap_cs] at hq ⊢
  refine hq.append _ h (fun b hb => ?_)
  show lower (heldBack s.cs.queue _) b.fire = false
  unfold heldBack
  rw [hb]
  exact raiseTo_not_lower _ _

/-- An insertion adds one action to the queue before its start test (R99). -/
theorem appendAction_queue (o : Offer) (s : State) :
    (appendAction o s).2.cs.queue = s.cs.queue ++ [(appendAction o s).1] := by
  unfold appendAction
  simp only [State.setCs_cs]
  rw [laneTrap_cs]

theorem insertAction_evolves (o : Offer) (s : State) (h : s.cs.queue.length < 8) :
    Evolves s (insertAction o s).2 := by
  unfold insertAction
  simp only
  exact Evolves.ite (fun _ => (appendAction_evolves o s h).trans (engineRun_evolves _))
    (fun _ => appendAction_evolves o s h)

/-! ## The engine adds no action -/

theorem noteEntry_queue (c : Command) (s : State) : (noteEntry c s).cs.queue = s.cs.queue := by
  unfold noteEntry; split <;> rfl

theorem appendOriginated_cs (p : Port) (f : Frame) (s : State) : (appendOriginated p f s).cs = s.cs := by
  unfold appendOriginated; split <;> rfl

theorem enterCommand_queue (c : Command) (s : State) : (enterCommand c s).cs.queue = s.cs.queue := by
  unfold enterCommand
  split
  · rfl
  · rw [noteEntry_queue]
    show (appendOriginated .field (commandFrame s c) s).cs.queue = _
    rw [appendOriginated_cs]

theorem formCommand_queue (c : Command) (s : State) : (formCommand c s).cs.queue = s.cs.queue := by
  unfold formCommand
  split
  · rfl
  · split
    · exact enterCommand_queue c s
    · rfl

theorem noteWithdrawn_cs (s : State) (f : Frame) : (noteWithdrawn s f).cs = s.cs := by
  unfold noteWithdrawn; split <;> rfl

theorem foldl_noteWithdrawn_cs (l : List Frame) (s : State) : (l.foldl noteWithdrawn s).cs = s.cs := by
  induction l generalizing s with
  | nil => rfl
  | cons f rest ih => rw [List.foldl_cons, ih, noteWithdrawn_cs]

theorem withdrawManifold_cs (s : State) : (withdrawManifold s).cs = s.cs := by
  unfold withdrawManifold; simp only; rw [foldl_noteWithdrawn_cs]; rfl

theorem enterHeld_cs (s : State) : (enterHeld s).cs = s.cs := by
  unfold enterHeld
  split
  · rfl
  · rw [withdrawManifold_cs]; rfl

theorem abandon_queue (s : State) : (abandon s).cs.queue = s.cs.queue := by
  unfold abandon; split <;> rfl

theorem guard_queue (b : Bool) (s : State) : (guard b s).cs.queue = s.cs.queue := by
  unfold guard
  split
  · simp only
    rw [abandon_queue]
    have h : (raiseDeadHead b s (openRelief s)).cs.queue = s.cs.queue := by
      show (openRelief s).cs.queue = _
      unfold openRelief
      split
      · rfl
      · exact formCommand_queue _ _
    split
    · rw [enterHeld_cs]; exact h
    · exact h
  · rfl

theorem applyManifold_queue (a b : Tables) (s : State) : (applyManifold a b s).cs.queue = s.cs.queue := by
  have hw : ∀ s2 : State, (if s2.mg.mode = .manual then s2 else withdrawManifold s2).cs.queue = s2.cs.queue := by
    intro s2; split
    · rfl
    · rw [withdrawManifold_cs]
  unfold applyManifold
  simp only
  rw [hw]
  split
  · rw [guard_queue]; rfl
  · rfl

/-- R31: an apply changes no number of queued actions. -/
theorem applyTables_queue_length (w : Bool) (s : State) : (applyTables w s).cs.queue.length = s.cs.queue.length := by
  have hq : ∀ t : State, (applyToQueue t).cs.queue.length = t.cs.queue.length := fun t => trapEach_length _ _ _ _
  unfold applyTables
  simp only
  show (applyToQueue _).cs.queue.length = _
  rw [hq, applyManifold_queue]
  have h5 : ∀ (a b : SegmentRecord) (t : State), (applyStillTime a b t).cs = t.cs := by
    intro a b t; unfold applyStillTime; split <;> rfl
  have h4 : ∀ (a b : SegmentRecord) (t : State), (applySilenceTime a b t).cs = t.cs := by
    intro a b t; unfold applySilenceTime; split <;> rfl
  have h3 : ∀ (a b : SegmentRecord) (t : State), (applyMeterAddress a b t).cs = t.cs := by
    intro a b t; unfold applyMeterAddress; split <;> rfl
  rw [h5, h4, h3]
  rfl

theorem startAction_queue_length (route : Bool) (s : State) :
    (startAction route s).cs.queue.length ≤ s.cs.queue.length := by
  unfold startAction
  split
  · exact le_rfl
  · rename_i a0 rest hq
    simp only
    rw [hq]
    have key : ∀ (s3 : State) (a : Action) (q : Sequence) (l : Nat) (m : Bool), s3.cs.queue = a :: rest →
        (if some a.target = s3.routed then
          raiseCutDone a l true m route (s3.setCs { s3.cs with queue := rest }) else enterOpenNew q s3).cs.queue.length
          ≤ (a0 :: rest).length := by
      intro s3 a q l m h3
      split
      · show rest.length ≤ _; simp
      · unfold enterOpenNew
        rw [formCommand_queue]
        show s3.cs.queue.length ≤ _
        rw [h3]; simp
    apply key
    split <;> rfl

theorem engineStep_queue_length (s t : State) (h : engineStep s = some t) : t.cs.queue.length ≤ s.cs.queue.length := by
  have hrec : ∀ q, (enterRecovery q s).cs.queue.length ≤ s.cs.queue.length := by
    intro q
    show s.cs.queue.tail.length ≤ _
    simp only [List.length_tail]; omega
  unfold engineStep at h
  split at h
  · unfold idleStep at h
    split at h
    · split at h
      · simp only [Option.some.injEq] at h
        subst h
        split
        · rw [applyTables_queue_length]; exact le_rfl
        · exact startAction_queue_length _ _
      · cases h; rw [applyTables_queue_length]
    · split at h
      · cases h; exact startAction_queue_length _ _
      · cases h
  · split at h
    · cases h; exact le_rfl
    · cases h
  · split at h
    · cases h
      split
      · unfold enterCloseOld; rw [formCommand_queue]; exact le_rfl
      · exact hrec _
    · cases h
  · split at h
    · cases h; exact hrec _
    · cases h
  · split at h
    · cases h; exact le_rfl
    · cases h
  · cases h

/-- The engine within one event adds no action to the queue. -/
theorem engineRun_queue_length (s : State) : (engineRun s).cs.queue.length ≤ s.cs.queue.length := by
  have h : ∀ n s, (engineLoop n s).cs.queue.length ≤ s.cs.queue.length := by
    intro n
    induction n with
    | zero => intro s; exact le_rfl
    | succ n ih =>
      intro s
      unfold engineLoop
      split
      · exact le_rfl
      · exact (ih _).trans (engineStep_queue_length s _ ‹_›)
  exact h 64 s

/-- An insertion adds at most one action. -/
theorem insertAction_queue_length (o : Offer) (s : State) :
    (insertAction o s).2.cs.queue.length ≤ s.cs.queue.length + 1 := by
  have h : (appendAction o s).2.cs.queue.length = s.cs.queue.length + 1 := by rw [appendAction_queue]; simp
  unfold insertAction
  simp only
  split
  · exact (engineRun_queue_length _).trans h.le
  · exact h.le

theorem offerAction_evolves (o : Offer) (s t : State) (h : offerAction o s = some t) : Evolves s t := by
  unfold offerAction at h
  split at h
  · split at h
    · cases h; exact insertAction_evolves o s ‹_›
    · cases h
  · split at h
    · rename_i v hq
      cases h
      have h1 := insertAction_queue_length o s
      exact (insertAction_evolves o s (by omega)).trans (insertAction_evolves _ _ (by omega))
    · cases h

theorem emptyQueue_evolves (s : State) : Evolves s (emptyQueue s) := by
  refine setCs_evolves s _ (fun k => ⟨?_, k.2⟩)
  show QueueOk (if s.cs.sequence.isSome then s.cs.queue.take 1 else [])
  split
  · exact QueueOk.take_one
  · exact QueueOk.nil

end Sys2Proof.Machine
end

