-- ==== Sys2Proof/Laws/Tracking.lean ====
section
/-! SUPPORT. The operations of the Batch Queue Unit, the Density Evaluator, the Interface Tracker and the Volume
Counter evolve the state (Laws/Evolves.lean). -/

namespace Sys2Proof.Machine

/-! ## The batch queue -/

/-- The fields of a batch record that the station controller gives (R35). -/
def givenFields (b : BatchRecord) : BatchId × Byte × BitVec 32 × Disposition × Option (BitVec 32) × Option (BitVec 32) :=
  (b.batchId, b.product, b.nominal, b.disposition, b.delivery, b.certified)

theorem RecordOk.of_given {b c : BatchRecord} (h : givenFields c = givenFields b) (k : RecordOk b) : RecordOk c := by
  unfold givenFields at h
  simp only [Prod.mk.injEq] at h
  obtain ⟨h1, h2, h3, h4, h5, h6⟩ := h
  exact ⟨h1 ▸ k.batchId, h2 ▸ k.product, by rw [h3]; exact k.nominal, by rw [h4, h5]; exact k.present,
    by rw [h3, h5]; exact k.delivery, by rw [h6]; exact k.certified⟩

/-- Beside the links of R37 only the given fields matter to BatchesOk. -/
theorem BatchesOk.of_given {x y : List BatchRecord} (h : x.map givenFields = y.map givenFields) (hl : Linked x)
    (k : BatchesOk y) : BatchesOk x := by
  have hids : x.map (·.batchId) = y.map (·.batchId) := by
    have := congrArg (List.map Prod.fst) h
    simpa [List.map_map, Function.comp_def, givenFields] using this
  have hlen : x.length = y.length := by simpa using congrArg List.length h
  refine ⟨fun b hb => ?_, by rw [hlen]; exact k.bounded, hids ▸ k.distinct, hl⟩
  have hm : givenFields b ∈ y.map givenFields := by rw [← h]; exact List.mem_map_of_mem hb
  obtain ⟨c, hc, e⟩ := List.mem_map.1 hm
  exact RecordOk.of_given e.symm (k.records c hc)

/-- A queue whose given fields are those of a part of another (R45). -/
theorem BatchesOk.of_erased {x y z : List BatchRecord} (hy : y.Sublist z) (h : x.map givenFields = y.map givenFields)
    (hl : Linked x) (k : BatchesOk z) : BatchesOk x := by
  have hids : x.map (·.batchId) = y.map (·.batchId) := by
    have := congrArg (List.map Prod.fst) h
    simpa [List.map_map, Function.comp_def, givenFields] using this
  have hlen : x.length = y.length := by simpa using congrArg List.length h
  refine ⟨fun b hb => ?_, by rw [hlen]; exact hy.length_le.trans k.bounded, ?_, hl⟩
  · have hm : givenFields b ∈ y.map givenFields := by rw [← h]; exact List.mem_map_of_mem hb
    obtain ⟨c, hc, e⟩ := List.mem_map.1 hm
    exact RecordOk.of_given e.symm (k.records c (hy.subset hc))
  · rw [hids]
    exact k.distinct.sublist (hy.map _)

theorem relinkBehind_given (b : BatchRecord) (l : List BatchRecord) :
    (relinkBehind b l).map givenFields = l.map givenFields := by
  induction l generalizing b with
  | nil => rfl
  | cons c rest ih => unfold relinkBehind; simp [ih, givenFields]

/-- R37: recomputing predicted head marks changes no given field and no place. -/
theorem relinkFrom_given (k : Nat) (l : List BatchRecord) : (relinkFrom k l).map givenFields = l.map givenFields := by
  induction l generalizing k with
  | nil => cases k <;> rfl
  | cons b rest ih =>
    cases k with
    | zero => unfold relinkFrom; simp [relinkBehind_given]
    | succ k => unfold relinkFrom; simp [ih]

theorem Linked.tail {b : BatchRecord} {l : List BatchRecord} (h : Linked (b :: l)) : Linked l := by
  cases l with
  | nil => exact trivial
  | cons c rest => exact h.2

theorem Linked.take {l : List BatchRecord} (h : Linked l) (n : Nat) : Linked (l.take n) := by
  induction n generalizing l with
  | zero => exact trivial
  | succ n ih =>
    match l, h with
    | [], _ => exact trivial
    | [_], _ => cases n <;> exact trivial
    | b :: c :: rest, h =>
      cases n with
      | zero => exact trivial
      | succ n => exact ⟨h.1, ih (l := c :: rest) h.2⟩

theorem relinkBehind_linked (b : BatchRecord) (l : List BatchRecord) : Linked (b :: relinkBehind b l) := by
  induction l generalizing b with
  | nil => exact trivial
  | cons c rest ih => exact ⟨rfl, ih _⟩

/-- Recomputing keeps the batch it starts from. -/
theorem relinkFrom_cons (k : Nat) (b : BatchRecord) (l : List BatchRecord) :
    ∃ m, relinkFrom k (b :: l) = b :: m := by
  cases k <;> exact ⟨_, rfl⟩

/-- R37: recomputing the marks behind position `k` links a queue whose marks up to `k` are linked. -/
theorem relinkFrom_linked (k : Nat) (l : List BatchRecord) (h : Linked (l.take (k + 1))) : Linked (relinkFrom k l) := by
  induction k generalizing l with
  | zero =>
    cases l with
    | nil => exact trivial
    | cons b rest => exact relinkBehind_linked b rest
  | succ k ih =>
    match l, h with
    | [], _ => exact trivial
    | [_], _ => cases k <;> exact trivial
    | b :: c :: rest, h =>
      obtain ⟨m, hm⟩ := relinkFrom_cons k c rest
      have := ih (c :: rest) h.2
      rw [hm] at this
      show Linked (b :: relinkFrom k (c :: rest))
      rw [hm]
      exact ⟨h.1, this⟩

theorem Linked.set_take {l : List BatchRecord} (h : Linked l) (k : Nat) (b r : BatchRecord) (hb : l[k]? = some b)
    (hr : r.predicted = b.predicted) : Linked ((l.set k r).take (k + 1)) := by
  induction k generalizing l with
  | zero => cases l <;> exact trivial
  | succ k ih =>
    match l, h with
    | [], _ => cases hb
    | [_], _ => cases hb
    | a :: c :: rest, h =>
      have hc := ih (l := c :: rest) h.2 hb
      cases k with
      | zero =>
        cases hb
        exact ⟨hr.trans h.1, trivial⟩
      | succ k => exact ⟨h.1, hc⟩

theorem Linked.set_same {l : List BatchRecord} (h : Linked l) (k : Nat) (b r : BatchRecord) (hb : l[k]? = some b)
    (hr : r.predicted = b.predicted) (ha : r.actual = b.actual) (hn : r.nominal = b.nominal) : Linked (l.set k r) := by
  induction k generalizing l with
  | zero =>
    match l, h with
    | [], _ => exact trivial
    | [_], _ => exact trivial
    | a :: c :: rest, h =>
      cases hb
      refine ⟨?_, h.2⟩
      unfold headMark
      rw [hr, ha, hn]
      exact h.1
  | succ k ih =>
    match l, h with
    | [], _ => cases hb
    | [_], _ => cases hb
    | a :: c :: rest, h =>
      have hc := ih (l := c :: rest) h.2 hb
      cases k with
      | zero =>
        cases hb
        exact ⟨hr.trans h.1, hc⟩
      | succ k => exact ⟨h.1, hc⟩

theorem Linked.append {l : List BatchRecord} (h : Linked l) (last r : BatchRecord) (hl : l.getLast? = some last)
    (hr : r.predicted = nextPredicted last) : Linked (l ++ [r]) := by
  induction l with
  | nil => cases hl
  | cons a rest ih =>
    cases rest with
    | nil =>
      cases hl
      exact ⟨hr, trivial⟩
    | cons c rest => exact ⟨h.1, ih h.2 (by rw [← hl]; rfl)⟩

theorem Linked.erase_take {l : List BatchRecord} (h : Linked l) (k : Nat) :
    Linked ((l.eraseIdx k).take (k - 1 + 1)) := by
  cases k with
  | zero => cases (l.eraseIdx 0) <;> exact trivial
  | succ k =>
    have : (l.eraseIdx (k + 1)).take (k + 1 - 1 + 1) = l.take (k + 1) := by
      rw [Nat.add_sub_cancel, List.take_eraseIdx_eq_take_of_le l (k + 1) (k + 1) (le_refl _)]
    rw [this]
    exact h.take _

theorem reanchor_linked (m : Mark) (l : List BatchRecord) (h : Linked l) : Linked (reanchor m l).1 := by
  unfold reanchor
  split
  · rename_i b0 b1 rest
    exact relinkFrom_linked 1 _ ⟨h.1, trivial⟩
  · exact h

theorem reanchor_given (m : Mark) (l : List BatchRecord) : (reanchor m l).1.map givenFields = l.map givenFields := by
  unfold reanchor
  split
  · rw [relinkFrom_given]; rfl
  · rfl

theorem removeRunning_evolves (s : State) : Evolves s (removeRunning s) := by
  have h : Evolves s (s.setBq s.bq.tail) := by
    refine setBq_evolves s _ (fun k => ⟨fun b hb => k.records b (List.mem_of_mem_tail hb), ?_, ?_, ?_⟩)
    · have := k.bounded
      simp only [List.length_tail]; omega
    · rw [List.map_tail]; exact k.distinct.sublist (List.tail_sublist _)
    · have := k.linked
      cases hb : s.bq with
      | nil => exact trivial
      | cons b rest => rw [hb] at this; exact this.tail
  unfold removeRunning
  simp only
  split
  · exact h.trans (raise_evolves _ _ _)
  · exact h

/-! ## The Density Evaluator -/

theorem takeSample_evolves (d : Nat) (t : Int) (s : State) : Evolves s (takeSample d t s) := by
  refine setDe_evolves s _ (fun k => ⟨?_, k.offset⟩)
  show (storeSample _ s.de.ring).length ≤ 8
  have := k.ring
  unfold storeSample
  split <;> simp only [List.length_append, List.length_tail, List.length_cons, List.length_nil] <;> omega

/-- R67: an updated offset lies within the active limit. -/
theorem nextOffset_ok (s : State) (r : Reading) (f : Figure) (k : EvaluatorOk s.segment s.de) :
    -(s.segment.offsetLimit.toNat : Int) ≤ nextOffset s r f ∧ nextOffset s r f ≤ s.segment.offsetLimit.toNat := by
  have h0 : (0 : Int) ≤ s.segment.offsetLimit.toNat := Int.natCast_nonneg _
  unfold nextOffset
  split
  · split
    · exact ⟨le_max_left _ _, max_le (by omega) (min_le_left _ _)⟩
    · exact k.offset
  · exact k.offset

/-- R67: the offset after any evaluation lies within the active limit. -/
theorem offsetAfter_ok (s : State) (res : EvalResult) (k : EvaluatorOk s.segment s.de) :
    -(s.segment.offsetLimit.toNat : Int) ≤ offsetAfter s res ∧ offsetAfter s res ≤ s.segment.offsetLimit.toNat := by
  unfold offsetAfter
  split
  · exact nextOffset_ok s _ _ k
  · exact k.offset

theorem noteEvaluation_evolves (s : State) (res : EvalResult) : Evolves s (noteEvaluation s res) := by
  refine setDe_evolves s _ (fun k => ⟨?_, offsetAfter_ok s res k⟩)
  show (s.de.ring.map _).length ≤ 8
  rw [List.length_map]; exact k.ring

/-! ## The tracker -/

theorem mapRecord_evolves (s : State) (f : InterfaceRecord → InterfaceRecord) : Evolves s (s.mapRecord f) := by
  refine setIt_evolves s _ (fun k => ⟨?_, k.2, k.3⟩)
  simpa using k.active

/-- An update of the tracker that leaves its state, excursion, record and history alone. -/
theorem setIt_same_evolves (s : State) (x : Tracker) (h1 : x.state = s.it.state) (h2 : x.excursion = s.it.excursion)
    (h3 : x.record.isSome = s.it.record.isSome) (h4 : x.history = s.it.history) : Evolves s (s.setIt x) :=
  setIt_evolves s x (fun k => ⟨by rw [h3, h1]; exact k.active, by rw [h1, h2]; exact k.excursion, h4 ▸ k.history⟩)

theorem offerHeld_evolves (l : List Offer) (s : State) : Evolves s (offerHeld l s) := by
  induction l generalizing s with
  | nil => exact setIt_same_evolves _ _ rfl rfl rfl rfl
  | cons o rest ih =>
    unfold offerHeld
    split
    · exact (offerAction_evolves o s _ ‹_›).trans (ih _)
    · exact setIt_same_evolves _ _ rfl rfl rfl rfl

theorem offerOrHold_evolves (o : Offer) (s : State) : Evolves s (offerOrHold o s) := by
  unfold offerOrHold
  split
  · split
    · exact offerAction_evolves o s _ ‹_›
    · exact setIt_same_evolves _ _ rfl rfl rfl rfl
  · exact setIt_same_evolves _ _ rfl rfl rfl rfl

theorem discardHeld_evolves (s : State) : Evolves s (discardHeld s) := setIt_same_evolves _ _ rfl rfl rfl rfl

theorem offerVolumeAlone_evolves (s : State) : Evolves s (offerVolumeAlone s) := by
  unfold offerVolumeAlone
  split
  · simp only
    have h : Evolves s (s.setIt { s.it with volumeDue := false }) := setIt_same_evolves _ _ rfl rfl rfl rfl
    split
    · exact h
    · split
      · exact h.trans (offerOrHold_evolves _ _)
      · exact h
  · exact Evolves.refl s

theorem setMidpoint_evolves (m : Mark) (s : State) : Evolves s (setMidpoint m s) := by
  unfold setMidpoint
  simp only
  refine Evolves.trans ?_ (offerVolumeAlone_evolves _)
  have h : Evolves s ((s.setBq (reanchor m s.bq).1).mapRecord
      (fun r => { r with midpoint := some m, drift := some (reanchor m s.bq).2 })) :=
    (setBq_evolves s _ (fun k => BatchesOk.of_given (reanchor_given m s.bq) (reanchor_linked m _ k.linked) k)).trans (mapRecord_evolves _ _)
  split
  · exact h.trans (setBoundary_evolves _ _ _)
  · exact h

theorem offerDecision_evolves (z : ZoneRule) (p : Place) (b0 b1 : BatchRecord) (m : Mark) (s : State) :
    Evolves s (offerDecision z p b0 b1 m s) := by
  unfold offerDecision
  refine Evolves.ite (fun _ => Evolves.refl s) (fun _ => Evolves.ite (fun _ => ?_) (fun _ => offerOrHold_evolves _ s))
  refine Evolves.ite (fun _ => ?_) (fun _ => Evolves.refl s)
  refine Evolves.trans ?_ (offerVolumeAlone_evolves _)
  exact setIt_same_evolves _ _ rfl rfl rfl rfl

theorem decideAt_evolves (p : Place) (m : Mark) (s : State) : Evolves s (decideAt p m s) := by
  unfold decideAt
  split
  · rename_i r b0 b1 rest hr hb
    simp only
    refine Evolves.trans ?_ (offerDecision_evolves _ _ _ _ _ _)
    exact setIt_same_evolves _ _ rfl rfl (by rw [hr]; rfl) rfl
  · exact Evolves.refl s

theorem decideIfOutstanding_evolves (p : Place) (m : Mark) (s : State) : Evolves s (decideIfOutstanding p m s) := by
  unfold decideIfOutstanding
  exact Evolves.ite (fun _ => decideAt_evolves p m s) (fun _ => Evolves.refl s)

/-- R95 and R89: a closed record leaves a tracker that is QUIET, with at most four records of history. -/
theorem closeRecord_ok (r : InterfaceRecord) (it : Tracker) : TrackerOk (closeRecord r it) :=
  ⟨rfl, fun _ => rfl, by simp [closeRecord]⟩

theorem endInterface_evolves (m : Mark) (s : State) : Evolves s (endInterface m s) := by
  unfold endInterface
  split
  · exact Evolves.refl s
  · simp only
    refine Evolves.trans ?_ (removeRunning_evolves _)
    refine Evolves.trans ?_ (applyIfDue_evolves _ _)
    refine Evolves.trans ?_ (raise_evolves _ _ _)
    refine Evolves.trans ?_ (setIt_evolves _ _ (fun _ => closeRecord_ok _ _))
    refine Evolves.trans ?_ (reportInterface_evolves _ _ _)
    exact setDe_evolves s _ (fun k => ⟨k.1, k.2⟩)

theorem reachEnd_evolves (m : Mark) (s : State) : Evolves s (reachEnd m s) := by
  unfold reachEnd
  exact Evolves.ite (fun _ => endInterface_evolves m s) (fun _ => setIt_same_evolves _ _ rfl rfl rfl rfl)

theorem endExcursionAtWindow_evolves (b0 : BatchRecord) (s : State) : Evolves s (endExcursionAtWindow b0 s) := by
  have h : Evolves s (s.setIt { s.it with excursion := false, excRun := zeroRun }) :=
    setIt_evolves s _ (fun k => ⟨k.1, fun e => absurd e (by simp), k.3⟩)
  unfold endExcursionAtWindow
  simp only
  exact Evolves.ite (fun _ => h.trans (raise_evolves _ _ _)) (fun _ => h)

/-- Every update after which a trap of the excursion is out: the window's record is opened with the excursion out. -/
theorem openRecord_evolves (b0 b1 : BatchRecord) (s : State) (he : s.it.excursion = false) :
    Evolves s (openRecord b0 b1 s) := by
  unfold openRecord
  simp only
  refine Evolves.trans (t := s.setDe { s.de with pair := some (pairOf s b0 b1) }) ?_ ?_
  · exact setDe_evolves s _ (fun k => ⟨k.1, k.2⟩)
  · refine setIt_evolves _ _ (fun k => ⟨?_, fun e => ?_, k.3⟩)
    · simp only [Option.isSome_some]
      split <;> rfl
    · simp only [he] at e
      cases e

/-- An apply changes nothing in the tracker. -/
theorem applyIfDue_it (w : Bool) (s : State) : (applyIfDue w s).it = s.it := by
  have hn : ∀ (l : List Frame) (t : State), (l.foldl noteWithdrawn t).it = t.it := by
    intro l
    induction l with
    | nil => intro t; rfl
    | cons f rest ih =>
      intro t; rw [List.foldl_cons, ih]; unfold noteWithdrawn; split <;> rfl
  have hw : ∀ t : State, (withdrawManifold t).it = t.it := by
    intro t; unfold withdrawManifold; simp only; rw [hn]; rfl
  have hf : ∀ (c : Command) (t : State), (formCommand c t).it = t.it := by
    intro c t
    unfold formCommand
    split
    · rfl
    · split
      · unfold enterCommand
        split
        · rfl
        · unfold noteEntry appendOriginated
          split <;> split <;> rfl
      · rfl
  have hh : ∀ t : State, (enterHeld t).it = t.it := by
    intro t; unfold enterHeld; split
    · rfl
    · rw [hw]; rfl
  have hg : ∀ (b : Bool) (t : State), (guard b t).it = t.it := by
    intro b t
    unfold guard
    split
    · simp only
      have ha : ∀ u : State, (abandon u).it = u.it := by intro u; unfold abandon; split <;> rfl
      have ho : (raiseDeadHead b t (openRelief t)).it = t.it := by
        show (openRelief t).it = _
        unfold openRelief
        split
        · rfl
        · exact hf _ _
      rw [ha]
      split
      · rw [hh]; exact ho
      · exact ho
    · rfl
  have hm : ∀ (a b : Tables) (t : State), (applyManifold a b t).it = t.it := by
    intro a b t
    have hx : ∀ s2 : State, (if s2.mg.mode = .manual then s2 else withdrawManifold s2).it = s2.it := by
      intro s2; split
      · rfl
      · exact hw _
    unfold applyManifold
    simp only
    rw [hx]
    split
    · rw [hg]; rfl
    · rfl
  have hq : ∀ t : State, (applyToQueue t).it = t.it := by
    intro t
    show (trapEach _ _ _ _).2.it = _
    generalize t.cs.queue = l
    generalize (fun a : Action => (t.outlet a.target).enabled != 1) = cond
    induction l generalizing t with
    | nil => rfl
    | cons a rest ih =>
      unfold trapEach
      simp only
      rw [ih]
      split
      · unfold laneTrap; simp only; split <;> rfl
      · rfl
  have h5 : ∀ (a b : SegmentRecord) (t : State), (applyStillTime a b t).it = t.it := by
    intro a b t; unfold applyStillTime; split <;> rfl
  have h4 : ∀ (a b : SegmentRecord) (t : State), (applySilenceTime a b t).it = t.it := by
    intro a b t; unfold applySilenceTime; split <;> rfl
  have h3 : ∀ (a b : SegmentRecord) (t : State), (applyMeterAddress a b t).it = t.it := by
    intro a b t; unfold applyMeterAddress; split <;> rfl
  unfold applyIfDue
  split
  · unfold applyTables
    simp only
    show (applyToQueue _).it = _
    rw [hq, hm, h5, h4, h3]
    rfl
  · rfl

theorem openWindow_evolves (b0 b1 : BatchRecord) (s : State) : Evolves s (openWindow b0 b1 s) := by
  unfold openWindow
  refine ((endExcursionAtWindow_evolves b0 s).trans (applyIfDue_evolves true _)).trans (openRecord_evolves _ _ _ ?_)
  rw [applyIfDue_it]
  unfold endExcursionAtWindow
  simp only
  split <;> rfl

theorem closeMarkReached_evolves (r : InterfaceRecord) (s : State) (h : s.it.state = .watch) :
    Evolves s (closeMarkReached r s) := by
  unfold closeMarkReached
  simp only
  refine Evolves.ite (fun _ => ?_) (fun _ => ?_)
  · exact (mapRecord_evolves s _).trans (raise_evolves _ _ _)
  · refine Evolves.trans ?_ (raise_evolves _ _ _)
    refine (mapRecord_evolves s _).trans (setIt_evolves _ _ (fun k => ⟨?_, ?_, k.3⟩))
    · have := k.active
      simp only [State.mapRecord, State.setIt_it, h] at this ⊢
      rw [this]; rfl
    · intro e
      have := k.excursion e
      simp only [State.mapRecord, State.setIt_it, h] at this
      cases this

theorem setMidpointIfAbsent_evolves (m : Mark) (s : State) : Evolves s (setMidpointIfAbsent m s) := by
  unfold setMidpointIfAbsent
  exact Evolves.ite (fun _ => setMidpoint_evolves m s) (fun _ => Evolves.refl s)

theorem wideReached_evolves (r : InterfaceRecord) (m : Mark) (s : State) : Evolves s (wideReached r m s) := by
  unfold wideReached
  simp only
  refine Evolves.trans ?_ (setIt_same_evolves _ _ rfl rfl rfl rfl)
  refine Evolves.trans ?_ (decideIfOutstanding_evolves _ _ _)
  refine Evolves.trans ?_ (decideIfOutstanding_evolves _ _ _)
  refine Evolves.trans ?_ (setMidpointIfAbsent_evolves _ _)
  refine Evolves.trans ?_ (raise_evolves _ _ _)
  exact mapRecord_evolves s _

theorem forcedReached_evolves (m : Mark) (s : State) : Evolves s (forcedReached m s) := by
  unfold forcedReached
  exact (mapRecord_evolves s _).trans (reachEnd_evolves m _)

theorem fallbackEndReached_evolves (r : InterfaceRecord) (s : State) : Evolves s (fallbackEndReached r s) := by
  unfold fallbackEndReached
  exact (setMidpointIfAbsent_evolves _ s).trans (reachEnd_evolves _ _)

theorem markStep_evolves (s t : State) (h : markStep s = some t) : Evolves s t := by
  unfold markStep at h
  simp only at h
  split at h
  · split at h
    · split at h
      · cases h; exact openWindow_evolves _ _ s
      · cases h
    · cases h
  · split at h
    · cases h; exact closeMarkReached_evolves _ s ‹_›
    · cases h
  · split at h
    · cases h
    · split at h
      · cases h; exact wideReached_evolves _ _ s
      · split at h
        · cases h; exact endInterface_evolves _ s
        · split at h
          · cases h; exact forcedReached_evolves _ s
          · cases h
  · split at h
    · cases h; exact decideAt_evolves _ _ s
    · split at h
      · cases h; exact decideAt_evolves _ _ s
      · split at h
        · cases h; exact endInterface_evolves _ s
        · split at h
          · cases h; exact fallbackEndReached_evolves _ s
          · cases h
  · cases h

theorem markLoop_evolves (n : Nat) (s : State) : Evolves s (markLoop n s) := by
  induction n generalizing s with
  | zero => exact Evolves.refl s
  | succ n ih =>
    unfold markLoop
    split
    · exact Evolves.refl s
    · exact (markStep_evolves s _ ‹_›).trans (ih _)

theorem testMarks_evolves (s : State) : Evolves s (testMarks s) := markLoop_evolves _ s

theorem reportChange_evolves (s : State) : Evolves s (reportChange s) := by
  unfold reportChange
  exact Evolves.ite (fun _ => testMarks_evolves s) (fun _ => Evolves.refl s)

/-! ## Evaluations -/

/-- A window state set while a record is active and no excursion lasts. -/
theorem setWindow_evolves (s : State) (x : Tracker) (hs : s.it.state ≠ .quiet) (hx : x.state ≠ .quiet)
    (h2 : x.excursion = s.it.excursion) (h3 : x.record.isSome = s.it.record.isSome) (h4 : x.history = s.it.history) :
    Evolves s (s.setIt x) := by
  refine setIt_evolves s x (fun k => ⟨?_, ?_, h4 ▸ k.history⟩)
  · have := k.active
    rw [h3, this]
    cases hq : s.it.state <;> cases hy : x.state <;> first
      | exact absurd hq hs
      | exact absurd hy hx
      | rfl
  · intro e
    rw [h2] at e
    exact absurd (k.excursion e) hs

theorem loseDensity_evolves (r : InterfaceRecord) (m : Mark) (s : State) (h : s.it.state ≠ .quiet) :
    Evolves s (loseDensity r m s) := by
  unfold loseDensity
  simp only
  refine Evolves.trans ?_ (testMarks_evolves _)
  refine Evolves.trans ?_ (raise_evolves _ _ _)
  exact setWindow_evolves s _ h (by simp) rfl (by simp) rfl

theorem blindEvaluation_evolves (m : Mark) (s : State) (h : s.it.state ≠ .quiet) :
    Evolves s (blindEvaluation m s) := by
  unfold blindEvaluation
  simp only
  split
  · exact (mapRecord_evolves s _).trans
      (Evolves.ite (fun _ => loseDensity_evolves _ _ _ h) (fun _ => Evolves.refl _))
  · exact mapRecord_evolves s _

theorem confirmRun_evolves (p : Place) (run : Run) (s : State) : Evolves s (confirmRun p run s) := by
  unfold confirmRun
  exact Evolves.ite (fun _ => decideAt_evolves _ _ s) (fun _ => Evolves.refl s)

theorem advanceHead_evolves (m : Mark) (b : Bool) (s : State) : Evolves s (advanceHead m b s) := by
  unfold advanceHead
  simp only
  refine Evolves.ite (fun _ => ?_) (fun _ => Evolves.refl s)
  refine Evolves.trans ?_ (confirmRun_evolves _ _ _)
  exact setIt_same_evolves _ _ rfl rfl rfl rfl

theorem advanceTail_evolves (m : Mark) (b : Bool) (s : State) : Evolves s (advanceTail m b s) := by
  unfold advanceTail
  simp only
  refine Evolves.ite (fun _ => ?_) (fun _ => Evolves.refl s)
  refine Evolves.trans ?_ (confirmRun_evolves _ _ _)
  exact setIt_same_evolves _ _ rfl rfl rfl rfl

theorem advanceDecisions_evolves (m : Mark) (f : Int) (s : State) : Evolves s (advanceDecisions m f s) := by
  unfold advanceDecisions
  split
  · simp only
    split
    · exact (advanceHead_evolves _ _ s).trans (advanceTail_evolves _ _ _)
    · exact advanceHead_evolves _ _ s
  · exact Evolves.refl s

theorem advanceEnd_evolves (m : Mark) (f : Int) (s : State) : Evolves s (advanceEnd m f s) := by
  have h : Evolves s (s.setIt { s.it with endRun := nextEndRun s f }) := setIt_same_evolves _ _ rfl rfl rfl rfl
  unfold advanceEnd
  simp only
  exact Evolves.ite (fun _ => (h.trans (endInterface_evolves _ _)).trans (testMarks_evolves _)) (fun _ => h)

theorem mixingEvaluation_evolves (m : Mark) (f : Int) (s : State) : Evolves s (mixingEvaluation m f s) := by
  unfold mixingEvaluation
  simp only
  refine Evolves.trans ?_ (advanceEnd_evolves _ _ _)
  refine Evolves.trans ?_ (advanceDecisions_evolves _ _ _)
  exact Evolves.ite (fun _ => setMidpointIfAbsent_evolves _ s) (fun _ => Evolves.refl s)

theorem detectStart_evolves (r : InterfaceRecord) (m : Mark) (f : Int) (s : State) (h : s.it.state ≠ .quiet) :
    Evolves s (detectStart r m f s) := by
  unfold detectStart
  refine Evolves.trans ?_ (raise_evolves _ _ _)
  refine Evolves.trans (mapRecord_evolves s (fun r => { r with startMark := some m })) ?_
  exact setWindow_evolves _ _ h (by simp) rfl rfl rfl

theorem densityEvaluation_evolves (m : Mark) (f : Int) (s : State) (h : s.it.state ≠ .quiet) :
    Evolves s (densityEvaluation m f s) := by
  unfold densityEvaluation
  simp only
  split
  · exact mapRecord_evolves s _
  · refine Evolves.trans (mapRecord_evolves s (fun r => { r with blindCount := 0, lastFraction := f })) ?_
    refine Evolves.ite (fun _ => mixingEvaluation_evolves _ _ _) (fun _ => Evolves.ite (fun _ => ?_) (fun _ => Evolves.refl _))
    refine Evolves.trans ?_ (mixingEvaluation_evolves _ _ _)
    exact detectStart_evolves _ _ _ _ h

theorem offerForced_evolves (batch : BatchId) (a b : Outlet) (m : Mark) (s : State) :
    Evolves s (offerForced batch a b m s) := by
  unfold offerForced
  refine Evolves.ite (fun _ => Evolves.refl s) (fun _ => Evolves.ite (fun _ => offerOrHold_evolves _ s) (fun _ => ?_))
  exact setIt_same_evolves _ _ rfl rfl rfl rfl

theorem enterExcursion_evolves (b0 : BatchRecord) (first m : Mark) (d : Int) (s : State) (h : s.it.state = .quiet) :
    Evolves s (enterExcursion b0 first m d s) := by
  unfold enterExcursion
  simp only
  refine Evolves.trans ?_ (reportExcursion_evolves _ _)
  refine Evolves.trans ?_ (raise_evolves _ _ _)
  refine Evolves.trans ?_ (offerForced_evolves _ _ _ _ _)
  exact setIt_evolves s _ (fun k => ⟨k.1, fun _ => h, k.3⟩)

theorem leaveExcursion_evolves (b0 : BatchRecord) (first m : Mark) (d : Int) (s : State) :
    Evolves s (leaveExcursion b0 first m d s) := by
  unfold leaveExcursion
  simp only
  refine Evolves.trans ?_ (applyIfDue_evolves _ _)
  refine Evolves.trans ?_ (setIt_evolves _ _ (fun k => ⟨k.1, fun e => absurd e (by simp), k.3⟩))
  refine Evolves.trans ?_ (raise_evolves _ _ _)
  refine Evolves.trans ?_ (offerForced_evolves _ _ _ _ _)
  exact setIt_same_evolves _ _ rfl rfl rfl rfl

theorem quietEvaluation_evolves (m : Mark) (d : Int) (s : State) (h : s.it.state = .quiet) :
    Evolves s (quietEvaluation m d s) := by
  unfold quietEvaluation
  split
  · exact Evolves.refl s
  · simp only
    refine Evolves.ite (fun _ => ?_) (fun _ => setIt_same_evolves _ _ rfl rfl rfl rfl)
    exact Evolves.ite (fun _ => leaveExcursion_evolves _ _ _ _ s) (fun _ => enterExcursion_evolves _ _ _ _ s h)

theorem takeResult_evolves (res : EvalResult) (s : State) : Evolves s (takeResult res s) := by
  unfold takeResult
  split
  · split
    · exact quietEvaluation_evolves _ _ s ‹_›
    · exact Evolves.refl s
  · exact mapRecord_evolves s _
  · rename_i hq _
    split
    · exact blindEvaluation_evolves _ s hq
    · exact densityEvaluation_evolves _ _ s hq
    · exact Evolves.refl s

theorem takePostponed_evolves (s : State) : Evolves s (takePostponed s) := by
  unfold takePostponed
  exact Evolves.ite (fun _ => testMarks_evolves s) (fun _ => Evolves.refl s)

theorem trackerEvaluate_evolves (res : EvalResult) (s : State) : Evolves s (trackerEvaluate res s) :=
  ((offerHeld_evolves s.it.held s).trans (takeResult_evolves _ _)).trans (takePostponed_evolves _)

theorem evaluate_evolves (s : State) : Evolves s (evaluate s) := by
  unfold evaluate
  simp only
  exact (noteEvaluation_evolves s _).trans (trackerEvaluate_evolves _ _)

theorem standStill_evolves (n : Nat) (s : State) : Evolves s (standStill n s) := mapRecord_evolves s _

/-! ## The delivery of an advance -/

theorem evaluatorAdvance_evolves (s : State) : Evolves s (evaluatorAdvance s) := by
  unfold evaluatorAdvance
  simp only
  exact Evolves.ite (fun _ => (evaluate_evolves s).trans (setVc_evolves _ _ rfl)) (fun _ => Evolves.refl s)

theorem receivers_evolve (k : Nat) : ∀ f ∈ receivers k, ∀ s, Evolves s (f s) := by
  have hs : ∀ s, Evolves s (sequencerAdvance s) := engineRun_evolves
  have ht : ∀ s, Evolves s (trackerAdvance s) := testMarks_evolves
  have he : ∀ s, Evolves s (evaluatorAdvance s) := evaluatorAdvance_evolves
  intro f hf
  have : f = sequencerAdvance ∨ f = trackerAdvance ∨ f = evaluatorAdvance := by
    unfold receivers at hf
    split at hf <;> simp only [List.mem_cons, List.not_mem_nil, or_false] at hf <;> tauto
  rcases this with e | e | e <;> subst e <;> assumption

theorem runAll_evolves (fs : List (State → State)) (h : ∀ f ∈ fs, ∀ s, Evolves s (f s)) (s : State) :
    Evolves s (runAll fs s) := by
  induction fs generalizing s with
  | nil => exact Evolves.refl s
  | cons f fs ih =>
    exact (h f (List.mem_cons_self ..) s).trans (ih (fun g hg => h g (List.mem_cons_of_mem _ hg)) _)

/-- What the three receivers and the booking of an advance from `before` can do: as Evolves, but the accounts, which
stood at `before`, stand at the line count afterwards. -/
structure Delivers (before : Mark) (s t : State) : Prop where
  address : t.liu.address = s.liu.address
  control : t.liu.control = s.liu.control
  mr : t.mr = s.mr
  inReset : t.inReset = s.inReset
  pending : t.pending = s.pending
  lineCount : t.vc.lineCount = s.vc.lineCount
  pendingTables : t.ts.pending = s.ts.pending
  active : t.ts.active = s.ts.active ∨ t.ts.active = s.ts.pending
  unarmed : s.ts.armed = false → t.ts = s.ts
  rest : RestSound s → RestSound t
  tickets : TicketsOk before s.tu → TicketsOk t.vc.lineCount t.tu
  nuMaster : t.nu.master = s.nu.master
  nuEnables : t.nu.enables = s.nu.enables
  nuAddress : t.nu.address = s.nu.address
  now : t.now = s.now
  noted : t.nu = s.nu ∨ t.nu.testDue = true
  barred : ManifoldBarred s → ManifoldBarred t

theorem deliverTurns_delivers (before : Mark) (order place : Nat) (s : State)
    (h : place = 0 ∨ accountsInOrder s.vc.lineCount (deliverTurns before order place s).tu = true) :
    Delivers before s (deliverTurns before order place s) := by
  have e1 := runAll_evolves ((receivers order).take place)
    (fun f hf => receivers_evolve order f (List.mem_of_mem_take hf)) s
  have hb := fun u => bookAdvance_rest s.routed before s.vc.lineCount u
  have e2 := runAll_evolves ((receivers order).drop place)
    (fun f hf => receivers_evolve order f (List.mem_of_mem_drop hf))
  have htk : ∀ x, Evolves (bookAdvance s.routed before s.vc.lineCount (runAll ((receivers order).take place) s)) x →
      x = deliverTurns before order place s → Delivers before s x := by
    intro x ex hx
    have ho := hb (runAll ((receivers order).take place) s)
    have hu := ho.rest
    generalize hv : bookAdvance s.routed before s.vc.lineCount (runAll ((receivers order).take place) s) = v at ex hu ho
    have hc : v.vc.lineCount = s.vc.lineCount := by rw [hu]; exact e1.lineCount
    have hts : v.ts = (runAll ((receivers order).take place) s).ts := by rw [hu]
    refine ⟨?_, ?_, ?_, ?_, ?_, ex.lineCount.trans hc, ?_, ?_, fun a => ?_, fun k => ex.rest ?_, fun k => ?_,
      ex.nuMaster.trans (ho.master.trans e1.nuMaster), ex.nuEnables.trans (ho.enables.trans e1.nuEnables),
      ex.nuAddress.trans (ho.address.trans e1.nuAddress), ex.now.trans ((by rw [hu]; exact e1.now)), ?_,
      fun k => ex.barred ?_⟩
    · rw [ex.address, hu]; exact e1.address
    · rw [ex.control, hu]; exact e1.control
    · rw [ex.mr, hu]; exact e1.mr
    · rw [ex.inReset, hu]; exact e1.inReset
    · rw [ex.pending, hu]; exact e1.pending
    · rw [ex.pendingTables, hts]; exact e1.pendingTables
    · rcases ex.active with q | q
      · rw [q, hts]; exact e1.active
      · rw [q, hts, e1.pendingTables]; exact Or.inr rfl
    · have q1 := e1.unarmed a
      rw [ex.unarmed (by rw [hts, q1]; exact a), hts, q1]
    · have q := e1.rest k
      rw [hu]; exact ⟨q.1, q.2, q.3, q.4, q.5, q.6, q.7⟩
    · rcases h with h | h
      · refine ex.tickets ?_
        rw [hc, ← hv, h]
        exact bookAdvance_tickets _ _ _ _ k
      · rw [ex.lineCount, hc]
        refine accountsInOrder_tickets _ _ ?_
        rw [hx]; exact h
    · rcases ex.noted with q | q
      · rcases ho.noted with p | p
        · rw [q, p]; exact e1.noted
        · rw [q]; exact Or.inr p
      · exact Or.inr q
    · have q := e1.barred k
      rw [hu]; exact q
  exact htk _ (e2 _) rfl

theorem deliverInOrder_delivers (before : Mark) (k : Nat) (s : State) :
    Delivers before s (deliverInOrder before k s) := by
  unfold deliverInOrder
  simp only
  split
  · rename_i h
    refine deliverTurns_delivers before _ _ s ?_
    rcases Bool.or_eq_true_iff.mp h with h | h
    · exact Or.inl (Nat.div_eq_of_lt (of_decide_eq_true h))
    · exact Or.inr h
  · exact deliverTurns_delivers before _ _ s (Or.inl rfl)

theorem deliverAdvance_delivers (before : Mark) (s : State) : Delivers before s (deliverAdvance before s) := by
  unfold deliverAdvance
  split
  · exact deliverInOrder_delivers before 0 s
  · have h := deliverInOrder_delivers before ((Config.freeOrder s.races).val % openOrders before s)
      (s.setRaces (s.races + 1))
    exact ⟨h.1, h.2, h.3, h.4, h.5, h.6, h.7, h.8, h.9,
      fun k => h.10 ⟨k.1, k.2, k.3, k.4, k.5, k.6, k.7⟩, h.11, h.12, h.13, h.14, h.15, h.16, h.17⟩

end Sys2Proof.Machine
end

