-- ==== Sys2Proof/Laws/Serving.lean ====
section
/-! SUPPORT. What observing a field frame, a timer's expiry and the performance of a request can do, said once: they
leave the CONTROL port, the link address and the responder alone and keep a sound state sound. -/

namespace Sys2Proof.Machine

/-- `t` follows from `s` by the blocks' own operations: the CONTROL port, the link address and the responder are left
alone, and a sound state stays sound. -/
structure Reaches (s t : State) : Prop where
  address : t.liu.address = s.liu.address
  control : t.liu.control = s.liu.control
  mr : t.mr = s.mr
  inReset : t.inReset = s.inReset
  pending : t.pending = s.pending
  tables : TablesSound s → TablesSound t
  sound : Sound s → Sound t
  noted : t.nu = s.nu ∨ t.nu.testDue = true
  barred : ManifoldBarred s → ManifoldBarred t

theorem Evolves.reaches {s t : State} (h : Evolves s t) : Reaches s t :=
  ⟨h.address, h.control, h.mr, h.inReset, h.pending,
    fun k => ⟨(by
        rcases h.active with e | e
        · rw [e]; exact k.active
        · rw [e]; exact k.pending), (by rw [h.pendingTables]; exact k.pending)⟩, h.sound, h.noted, h.barred⟩

theorem Reaches.refl (s : State) : Reaches s s := ⟨rfl, rfl, rfl, rfl, rfl, id, id, Or.inl rfl, id⟩

theorem Reaches.trans {s t u : State} (h : Reaches s t) (k : Reaches t u) : Reaches s u :=
  ⟨k.address.trans h.address, k.control.trans h.control, k.mr.trans h.mr, k.inReset.trans h.inReset,
    k.pending.trans h.pending, fun x => k.tables (h.tables x), fun x => k.sound (h.sound x),
    k.noted.elim (fun e => by rw [e]; exact h.noted) Or.inr, fun x => k.barred (h.barred x)⟩

theorem Reaches.ite {s t u : State} {p : Prop} [Decidable p] (h : p → Reaches s t) (k : ¬p → Reaches s u) :
    Reaches s (if p then t else u) := by
  split
  · exact h ‹_›
  · exact k ‹_›

theorem setVc_reaches (s : State) (x : VolumeCounter) (h : x.lineCount = s.vc.lineCount) : Reaches s (s.setVc x) :=
  (setVc_evolves s x h).reaches

theorem setNow_reaches (s : State) (x : Time) : Reaches s (s.setNow x) :=
  ⟨rfl, rfl, rfl, rfl, rfl, fun h => ⟨h.1, h.2⟩, fun h => ⟨h.1, h.2, h.3, h.4, h.5, h.6, h.7, h.8⟩, Or.inl rfl, id⟩

theorem setNu_reaches (s : State) (x : NoticeUnit) (h : x.testDue = true) : Reaches s (s.setNu x) :=
  ⟨rfl, rfl, rfl, rfl, rfl, fun h => ⟨h.1, h.2⟩, fun h => ⟨h.1, h.2, h.3, h.4, h.5, h.6, h.7, h.8⟩, Or.inr h, id⟩

/-- A change of the TS that leaves the active tables alone. -/
theorem setTs_reaches (s : State) (x : TableStore) (h : x.active = s.ts.active)
    (hp : TablesOk s.ts.pending → TablesOk x.pending) : Reaches s (s.setTs x) :=
  ⟨rfl, rfl, rfl, rfl, rfl, fun k => ⟨(by show TablesOk x.active; rw [h]; exact k.active), hp k.pending⟩,
    fun k => ⟨k.1, k.2, k.3, by show EvaluatorOk x.active.segment s.de; rw [h]; exact k.4, k.5, k.6, k.7, k.8⟩,
    Or.inl rfl, fun k => by unfold ManifoldBarred NoManifoldCommand; simp only [State.setTs_ts, h]; exact k⟩

/-! ## Field frames -/

theorem settleLine_evolves (s : State) : Evolves s (settleLine s) := by
  have hr : Evolves s (restartMovement s) := setVc_evolves s _ rfl
  unfold settleLine
  refine Evolves.ite (fun _ => hr) (fun _ => ?_)
  unfold startMoving
  simp only
  refine Evolves.trans ?_ (guard_evolves _ _)
  refine Evolves.trans ?_ (standStill_evolves _ _)
  exact hr.trans (raise_evolves _ _ _)

/-- R4 and R7: an increment counted, before the blocks that act on it take it. -/
def countIncrement (n : BitVec 32) (s : State) : State :=
  let s2 := s.setVc { s.vc with lineCount := s.vc.lineCount + n.setWidth 48 }
  if s2.segment.maxMeterStep.toNat < n.toNat then raiseJump n.toNat s2 else s2

/-- Counting touches the VC and the latches alone. -/
theorem countIncrement_rest (n : BitVec 32) (s : State) :
    countIncrement n s = { s with vc := (countIncrement n s).vc, nu := (countIncrement n s).nu }
      ∧ (countIncrement n s).vc = { s.vc with lineCount := s.vc.lineCount + n.setWidth 48 } := by
  unfold countIncrement
  simp only
  split
  · exact ⟨rfl, rfl⟩
  · exact ⟨rfl, rfl⟩

theorem advance_eq (n : BitVec 32) (s : State) :
    advance n s = deliverAdvance (settleLine s).vc.lineCount (countIncrement n (settleLine s)) := rfl

/-- R142: an increment delivered to the four blocks keeps every account balanced. -/
theorem countAndDeliver_reaches (n : BitVec 32) (s : State) :
    Reaches s (deliverAdvance s.vc.lineCount (countIncrement n s)) := by
  have d := deliverAdvance_delivers s.vc.lineCount (countIncrement n s)
  obtain ⟨hc, _⟩ := countIncrement_rest n s
  generalize deliverAdvance s.vc.lineCount (countIncrement n s) = t at d
  generalize hu : countIncrement n s = u at d hc
  have hts : u.ts = s.ts := by rw [hc]
  have hn : u.nu = s.nu ∨ u.nu.testDue = true := by
    rw [← hu]
    unfold countIncrement
    simp only
    split
    · exact Or.inr rfl
    · exact Or.inl rfl
  refine ⟨?_, ?_, ?_, ?_, ?_, fun k => ⟨?_, ?_⟩, fun k => ?_,
    d.noted.elim (fun e => by rw [e]; exact hn) Or.inr, fun k => d.barred (by rw [hc]; exact k)⟩
  · rw [d.address, hc]
  · rw [d.control, hc]
  · rw [d.mr, hc]
  · rw [d.inReset, hc]
  · rw [d.pending, hc]
  · rcases d.active with q | q
    · rw [q, hts]; exact k.active
    · rw [q, hts]; exact k.pending
  · rw [d.pendingTables, hts]; exact k.pending
  · have r := d.rest (by rw [hc]; exact ⟨k.1, k.2, k.3, k.4, k.5, k.6, k.7⟩)
    exact r.sound (d.tickets (by rw [hc]; exact k.8))

theorem advance_reaches (n : BitVec 32) (s : State) : Reaches s (advance n s) := by
  rw [advance_eq]
  exact (settleLine_evolves s).reaches.trans (countAndDeliver_reaches n _)

/-- R4: an increment advances the line count by itself, whatever else the advance brings about. -/
theorem advance_lineCount (n : BitVec 32) (s : State) :
    (advance n s).vc.lineCount = s.vc.lineCount + n.setWidth 48 := by
  rw [advance_eq, (deliverAdvance_delivers _ _).lineCount, (countIncrement_rest n _).2]
  show (settleLine s).vc.lineCount + _ = _
  rw [(settleLine_evolves s).lineCount]

/-- With no apply armed an increment leaves the tables alone. -/
theorem advance_tables (n : BitVec 32) (s : State) (h : s.ts.armed = false) : (advance n s).ts = s.ts := by
  have e := settleLine_evolves s
  have hts : (countIncrement n (settleLine s)).ts = (settleLine s).ts := by rw [(countIncrement_rest n _).1]
  rw [advance_eq, (deliverAdvance_delivers _ _).unarmed (by rw [hts, e.unarmed h]; exact h), hts, e.unarmed h]

theorem takeTotal_reaches (n : BitVec 32) (s : State) : Reaches s (takeTotal n s) := by
  unfold takeTotal
  simp only
  split
  · exact setVc_reaches s _ rfl
  · split
    · exact setVc_reaches s _ rfl
    · exact (setVc_reaches s { s.vc with lastTotal := some n, silenceTimer := some s.now } rfl).trans (advance_reaches _ _)

theorem observeMeter_reaches (src : Byte) (ps : List Byte) (s : State) : Reaches s (observeMeter src ps s) := by
  unfold observeMeter
  split
  · exact takeTotal_reaches _ s
  · exact Reaches.refl s

theorem observeSample_evolves (src : Byte) (ps : List Byte) (s : State) : Evolves s (observeSample src ps s) := by
  unfold observeSample
  split
  · exact takeSample_evolves _ _ s
  · exact Evolves.refl s

theorem valveReport_evolves (o : Outlet) (r : Report) (s : State) : Evolves s (valveReport o r s) := by
  unfold valveReport
  simp only
  have h : Evolves s (engineReport o s.mg.valves[o].confirmed (r == .fault) (takeReport o r s)) :=
    (takeReport_evolves o r s).trans (engineReport_evolves _ _ _ _)
  exact Evolves.ite (fun _ => h.trans (guard_evolves _ _)) (fun _ => h)

theorem observeValve_evolves (src : Byte) (ps : List Byte) (s : State) : Evolves s (observeValve src ps s) := by
  unfold observeValve
  split
  · exact valveReport_evolves _ _ s
  · exact Evolves.refl s

theorem observeField_reaches (f : Frame) (s : State) : Reaches s (observeField f s) := by
  unfold observeField
  refine Reaches.ite (fun _ => observeMeter_reaches _ _ s) (fun _ => Reaches.ite
    (fun _ => (observeSample_evolves _ _ s).reaches) (fun _ => Reaches.ite
    (fun _ => (observeValve_evolves _ _ s).reaches) (fun _ => Reaches.refl s)))

/-! ## Timers -/

theorem silenceExpiry_reaches (s : State) : Reaches s (silenceExpiry s) := by
  unfold silenceExpiry
  split
  · exact (setNow_reaches s _).trans (silenceExpires_evolves _).reaches
  · exact Reaches.refl s

theorem stillExpiry_reaches (s : State) : Reaches s (stillExpiry s) := by
  unfold stillExpiry
  split
  · exact (setNow_reaches s _).trans (stillExpires_evolves _).reaches
  · exact Reaches.refl s

theorem phaseExpiry_reaches (e : EngineState) (s : State) : Reaches s (phaseExpiry e s) := by
  unfold phaseExpiry
  split
  · rename_i t ht
    simp only
    refine Reaches.ite (fun _ => ?_) (fun _ => Reaches.refl s)
    refine Reaches.trans ?_ (engineRun_evolves _).reaches
    refine (setNow_reaches s (max s.now (t.start + t.length))).trans (Evolves.reaches ?_)
    exact setCs_evolves _ _ (fun k => ⟨k.1, k.2⟩)
  · exact Reaches.refl s

theorem strokeExpiry_reaches (s : State) : Reaches s (strokeExpiry s) := by
  unfold strokeExpiry
  split
  · rename_i t ht
    simp only
    refine (setNow_reaches s (max s.now (t.start + t.length))).trans (Evolves.reaches ?_)
    show Evolves (atTime (t.start + t.length) s) _
    split
    · exact openFailure_evolves _ _
    · exact closeFailure_evolves _ _
    · exact setCs_evolves _ _ (fun k => ⟨k.1, k.2⟩)
  · exact Reaches.refl s

theorem recoveryExpires_reaches (s : State) : Reaches s (recoveryExpires s) := by
  unfold recoveryExpires
  split
  · rename_i t ht
    simp only
    refine Reaches.trans ?_ (engineRun_evolves _).reaches
    refine (setNow_reaches s (max s.now (t.start + t.length))).trans (Evolves.reaches ?_)
    exact setCs_evolves _ _ (fun k => ⟨k.1, k.2⟩)
  · exact Reaches.refl s

/-! ## Requests -/

theorem performPing_reaches (ps : List Byte) (s : State) : Reaches s (performPing ps s).1 := by
  unfold performPing
  split <;> exact Reaches.refl s

theorem performSetNotices_reaches (src m : Byte) (e : BitVec 24) (s : State) :
    Reaches s (performSetNotices src m e s).1 := by
  unfold performSetNotices
  split
  · exact Reaches.refl s
  · split
    · exact Reaches.refl s
    · exact setNu_reaches s _ rfl

theorem performPut_reaches (r : List (Nat × Bool)) (d : Bool) (f : Tables → Tables) (s : State)
    (hf : firstBad r = none → ∀ t, TablesOk t → TablesOk (f t)) : Reaches s (performPut r d f s).1 := by
  unfold performPut
  split
  · exact Reaches.refl s
  · split
    · exact Reaches.refl s
    · rename_i hr
      split
      · exact Reaches.refl s
      · exact setTs_reaches s _ rfl (hf hr _)

/-- A test list with no failure has no failing test. -/
theorem firstBad_none (l : List (Nat × Bool)) : firstBad l = none ↔ ∀ t ∈ l, t.2 = true := by
  unfold firstBad
  rw [Option.map_eq_none_iff, List.find?_eq_none]
  exact ⟨fun h t ht => by simpa using h t ht, fun h t ht => by simpa using h t ht⟩

theorem setProduct_ok (i : Byte) (e : ProductEntry) (h : firstBad (productRanges i e) = none) (t : Tables)
    (k : TablesOk t) : TablesOk (setProduct i e t) := by
  have hi : i.toNat < 16 := by
    have := (firstBad_none _).1 h (0, within 0 15 i.toNat) List.mem_cons_self
    simp only [within, Bool.and_eq_true, decide_eq_true_eq] at this
    omega
  refine ⟨fun j => ?_, k.outlets, k.rules, k.segment⟩
  have hget : (setProduct i e t).products[j] =
      if i.toNat = j.val then (if e.code = 0 then emptyProduct else e) else t.products[j] :=
    Vector.getElem_setIfInBounds j.isLt
  rw [hget]
  split
  · rename_i hij
    have hb : BitVec.ofNat 8 j.val = i := by rw [← hij]; simp
    rw [hb]
    split
    · rename_i hc
      refine (firstBad_none _).2 (fun x hx => ?_)
      simp only [productRanges, emptyProduct, beq_self_eq_true, if_true, List.mem_cons, List.not_mem_nil, or_false] at hx
      subst hx
      simp only [within, Bool.and_eq_true, decide_eq_true_eq]
      omega
    · exact h
  · exact k.products j

theorem setOutlet_ok (i : Byte) (e : OutletEntry) (h : firstBad (outletRanges i e) = none) (t : Tables)
    (k : TablesOk t) : TablesOk { t with outlets := t.outlets.setIfInBounds i.toNat e } := by
  refine ⟨k.products, fun j => ?_, k.rules, k.segment⟩
  have hget : (t.outlets.setIfInBounds i.toNat e)[j] = if i.toNat = j.val then e else t.outlets[j] :=
    Vector.getElem_setIfInBounds j.isLt
  show firstBad (outletRanges _ (t.outlets.setIfInBounds i.toNat e)[j]) = none
  rw [hget]
  split
  · rename_i hij
    have hb : BitVec.ofNat 8 j.val = i := by rw [← hij]; simp
    rw [hb]; exact h
  · exact k.outlets j

theorem setRule_ok (r a : Byte) (e : RuleEntry) (h : firstBad (ruleRanges r a e) = none) (t : Tables)
    (k : TablesOk t) : TablesOk { t with rules := t.rules.setIfInBounds (r.toNat * 8 + a.toNat) e } := by
  refine ⟨k.products, k.outlets, fun j => ?_, k.segment⟩
  have hget : (t.rules.setIfInBounds (r.toNat * 8 + a.toNat) e)[j] =
      if r.toNat * 8 + a.toNat = j.val then e else t.rules[j] := Vector.getElem_setIfInBounds j.isLt
  show firstBad (ruleRanges 0 0 (t.rules.setIfInBounds (r.toNat * 8 + a.toNat) e)[j]) = none
  rw [hget]
  split
  · rw [firstBad_none] at h ⊢
    intro x hx
    simp only [ruleRanges, List.mem_cons, List.not_mem_nil, or_false] at hx
    rcases hx with hx | hx | hx | hx
    · subst hx; rfl
    · subst hx; rfl
    · subst hx; exact h _ (by simp [ruleRanges])
    · subst hx; exact h _ (by simp [ruleRanges])
  · exact k.rules j

theorem performCommit_reaches (s : State) : Reaches s (performCommit s).1 := by
  unfold performCommit
  split
  · exact Reaches.refl s
  · split
    · exact Reaches.refl s
    · exact (setTs_reaches s { s.ts with armed := true } rfl id).trans (applyIfDue_evolves _ _).reaches

theorem performWithdraw_reaches (s : State) : Reaches s (performWithdraw s).1 := setTs_reaches s _ rfl id

/-- The fields that pass step 2 of R38 make a record in range. -/
theorem recordOf_ok (f : BatchFields) (p : Mark) (a : Option Mark) (h : firstBad (batchRanges f) = none) :
    RecordOk (recordOf f p a) := by
  rw [firstBad_none] at h
  unfold batchRanges within at h
  simp only [List.mem_cons, List.not_mem_nil, or_false, forall_eq_or_imp, forall_eq, Bool.and_eq_true, Bool.or_eq_true,
    decide_eq_true_eq, beq_iff_eq] at h
  obtain ⟨h0, h1, h2, h3, h4, h5⟩ := h
  refine ⟨?_, ?_, h2, ?_, ?_, ?_⟩
  · show f.batchId ≠ 0
    intro e; rw [e] at h0; simp at h0
  · show f.product ≠ 0
    intro e; rw [e] at h1; simp at h1
  · show (givenOf f.delivery).isSome = true ↔ dispositionOfByte f.disposition = .deliverPart
    unfold givenOf dispositionOfByte
    by_cases hd : f.disposition = 1
    · have hne : f.delivery ≠ 0 := by
        intro e; rw [if_pos hd, e] at h4; simp at h4
      rw [if_neg hne, hd]
      exact ⟨fun _ => rfl, fun _ => rfl⟩
    · rw [if_neg hd] at h4
      rw [beq_iff_eq] at h4
      rw [h4]
      constructor
      · intro h; simp at h
      · intro h
        split at h
        · cases h
        · split at h
          · rename_i h6; exact absurd (by simpa using h6) hd
          · cases h
  · intro v hv
    have hv' : givenOf f.delivery = some v := hv
    unfold givenOf at hv'
    split at hv'
    · cases hv'
    · rename_i hne
      cases hv'
      by_cases hd : f.disposition = 1
      · rw [if_pos hd] at h4
        show 1000 ≤ f.delivery.toNat ∧ f.delivery.toNat ≤ f.nominal.toNat
        simpa [Bool.and_eq_true] using h4
      · rw [if_neg hd, beq_iff_eq] at h4
        exact absurd h4 hne
  · intro v hv
    have hv' : givenOf f.certified = some v := hv
    unfold givenOf at hv'
    split at hv'
    · cases hv'
    · rename_i hne
      cases hv'
      rcases h5 with e | e
      · exact absurd e hne
      · exact e

/-- The ids of a scheduled or appended batch. -/
theorem addBatch_reaches (f : BatchFields) (s : State) (hr : firstBad (batchRanges f) = none) (h32 : s.bq.length < 32)
    (hd : positionOf s f.batchId = none) : Reaches s (addBatch f s) := by
  unfold addBatch
  split
  · unfold scheduleBatch
    simp only
    refine Evolves.reaches (Evolves.trans ?_ (setDe_evolves _ _ (fun k => ⟨k.1, k.2⟩)))
    refine Evolves.trans ?_ (scheduleTicket_evolves _ _)
    exact setBq_evolves s _ (fun _ => ⟨fun b hb => by rw [List.mem_singleton.1 hb]; exact recordOf_ok f _ _ hr,
      by simp, by simp, trivial⟩)
  · rename_i last hlast
    unfold appendBatch
    simp only
    have h : Evolves s (s.setBq (s.bq ++ [recordOf f (nextPredicted last) none])) := by
      refine setBq_evolves s _ (fun k => ⟨fun b hb => (List.mem_append.1 hb).elim (k.records b)
          (fun e => by rw [List.mem_singleton.1 e]; exact recordOf_ok f _ _ hr), by simp only [List.length_append, List.length_cons, List.length_nil]; omega, ?_,
        k.linked.append last _ hlast rfl⟩)
      rw [List.map_append]
      refine List.nodup_append.2 ⟨k.distinct, by simp, ?_⟩
      intro a ha b hb e
      simp only [List.map_cons, List.map_nil, List.mem_singleton] at hb
      subst e
      obtain ⟨r, hr, he⟩ := List.mem_map.1 ha
      have := List.findIdx?_eq_none_iff.1 hd r hr
      rw [hb] at he
      simp only [beq_eq_false_iff_ne, ne_eq] at this
      exact this he
    exact (Evolves.ite (fun _ => h.trans (reportChange_evolves _)) (fun _ => h)).reaches

theorem performAddBatch_reaches (f : BatchFields) (s : State) : Reaches s (performAddBatch f s).1 := by
  unfold performAddBatch
  split
  · exact Reaches.refl s
  · rename_i hr
    split
    · exact Reaches.refl s
    · rename_i h32
      split
      · exact Reaches.refl s
      · rename_i hd
        split
        · exact Reaches.refl s
        · exact addBatch_reaches f s hr (by omega) hd

/-- An amended batch keeps its id (R44). -/
theorem amendBatch_evolves (k : Nat) (b : BatchRecord) (f : BatchFields) (s : State)
    (hr : firstBad (batchRanges f) = none) (hb : s.bq[k]? = some b) (hid : b.batchId = f.batchId) : Evolves s (amendBatch k b f s) := by
  have hids : (s.bq.set k (recordOf f b.predicted b.actual)).map (·.batchId) = s.bq.map (·.batchId) := by
    rw [List.map_set]
    have hk : (s.bq.map (·.batchId))[k]? = some f.batchId := by rw [List.getElem?_map, hb]; simp [hid]
    have : (recordOf f b.predicted b.actual).batchId = f.batchId := rfl
    rw [this]
    exact List.ext_getElem? (fun i => by
      rw [List.getElem?_set]
      split
      · rename_i e; subst e
        split
        · exact hk.symm
        · rename_i hlt
          rw [List.getElem?_eq_none (by omega)]
      · rfl)
  have hq : ∀ q : BatchesOk s.bq, ∀ x ∈ s.bq.set k (recordOf f b.predicted b.actual), RecordOk x := fun q x hx =>
    (List.mem_or_eq_of_mem_set hx).elim (q.records x) (fun e => e ▸ recordOf_ok f _ _ hr)
  unfold amendBatch
  simp only
  split
  · rename_i hn
    exact setBq_evolves s _ (fun q => ⟨hq q, by rw [List.length_set]; exact q.bounded, hids ▸ q.distinct,
      q.linked.set_same k b _ hb rfl rfl hn.symm⟩)
  · have h : Evolves s (s.setBq (relinkFrom k (s.bq.set k (recordOf f b.predicted b.actual)))) :=
      setBq_evolves s _ (fun q => by
        have hg := relinkFrom_given k (s.bq.set k (recordOf f b.predicted b.actual))
        have hi : (relinkFrom k (s.bq.set k (recordOf f b.predicted b.actual))).map (·.batchId)
            = (s.bq.set k (recordOf f b.predicted b.actual)).map (·.batchId) := by
          have := congrArg (List.map Prod.fst) hg
          simpa [List.map_map, Function.comp_def, givenFields] using this
        refine ⟨fun x hx => ?_, ?_, by rw [hi, hids]; exact q.distinct,
          relinkFrom_linked k _ (q.linked.set_take k b _ hb rfl)⟩
        · have hm : givenFields x ∈ (s.bq.set k (recordOf f b.predicted b.actual)).map givenFields := by
            rw [← hg]; exact List.mem_map_of_mem hx
          obtain ⟨c, hc, e⟩ := List.mem_map.1 hm
          exact RecordOk.of_given e.symm (hq q c hc)
        · have := congrArg List.length hg
          simp only [List.length_map, List.length_set] at this
          rw [this]; exact q.bounded)
    exact Evolves.ite (fun _ => h.trans (reportChange_evolves _)) (fun _ => h)

theorem answerAmend_reaches (batchId : BatchId) (s : State) : Reaches s (answerAmend batchId s).1 := by
  unfold answerAmend
  split
  · exact Reaches.refl s
  · exact (setRaces_evolves s _).reaches

/-- The batch at the position found has the id looked for. -/
theorem positionOf_id (s : State) (batchId : BatchId) (k : Nat) (b : BatchRecord) (h : positionOf s batchId = some k)
    (hb : s.bq[k]? = some b) : b.batchId = batchId := by
  obtain ⟨hk, hp, _⟩ := List.findIdx?_eq_some_iff_getElem.1 h
  rw [List.getElem?_eq_getElem hk] at hb
  cases hb
  simpa using hp

theorem performAmendBatch_reaches (f : BatchFields) (s : State) : Reaches s (performAmendBatch f s).1 := by
  unfold performAmendBatch
  split
  · exact Reaches.refl s
  · rename_i hr
    split
    · exact Reaches.refl s
    · rename_i k hk
      split
      · exact Reaches.refl s
      · rename_i b hb
        split
        · exact Reaches.refl s
        · split
          · exact Reaches.refl s
          · exact (amendBatch_evolves k b f s hr hb (positionOf_id s _ k b hk hb)).reaches.trans (answerAmend_reaches _ _)

theorem dropBatch_evolves (k : Nat) (s : State) : Evolves s (dropBatch k s) := by
  have h : Evolves s (s.setBq (relinkFrom (k - 1) (s.bq.eraseIdx k))) := by
    have hl : ∀ q : BatchesOk s.bq, Linked (relinkFrom (k - 1) (s.bq.eraseIdx k)) :=
      fun q => relinkFrom_linked _ _ (q.linked.erase_take k)
    refine setBq_evolves s _ (fun q => BatchesOk.of_erased (List.eraseIdx_sublist s.bq k) (relinkFrom_given _ _) (hl q) q)
  unfold dropBatch
  simp only
  exact Evolves.ite (fun _ => h.trans (reportChange_evolves _)) (fun _ => h)

theorem performDropBatch_reaches (batchId : BatchId) (s : State) : Reaches s (performDropBatch batchId s).1 := by
  unfold performDropBatch
  split
  · exact Reaches.refl s
  · split
    · exact Reaches.refl s
    · split
      · exact Reaches.refl s
      · split
        · exact Reaches.refl s
        · exact (dropBatch_evolves _ s).reaches

theorem performReadBatch_reaches (p : Byte) (s : State) : Reaches s (performReadBatch p s).1 := by
  unfold performReadBatch
  split
  · exact Reaches.refl s
  · split <;> exact Reaches.refl s

theorem performReadInterface_reaches (p : Byte) (s : State) : Reaches s (performReadInterface p s).1 := by
  unfold performReadInterface
  split
  · exact Reaches.refl s
  · split <;> exact Reaches.refl s

theorem performTakeTicket_reaches (s : State) : Reaches s (performTakeTicket s).1 := by
  unfold performTakeTicket
  split
  · exact Reaches.refl s
  · rename_i t rest ht
    refine (setTu_evolves s { s.tu with completed := rest } (fun k => ⟨k.1, k.2, ?_, k.4, k.5, ?_⟩)).reaches
    · have := k.completed
      rw [ht] at this
      simp only [List.length_cons] at this
      show rest.length ≤ 16
      omega
    · intro x hx
      exact k.closed x (by rw [ht]; exact List.mem_cons_of_mem _ hx)

theorem takeManifold_evolves (s : State) : Evolves s (takeManifold s).1 := by
  have h : Evolves s (withdrawManifold (s.setMg { s.mg with mode := .auto })) := by
    exact (setMg_follows s { s.mg with mode := .auto } (fun k => ⟨k.1, k.2⟩)).withdraw
  unfold takeManifold
  simp only
  split
  · rename_i s2 hs
    obtain ⟨o, _, ho⟩ := Option.bind_eq_some_iff.1 hs
    exact (h.trans (offerAction_evolves o _ s2 ho)).trans (engineRun_evolves _)
  · exact h.trans (engineRun_evolves _)

theorem performModeAuto_reaches (s : State) : Reaches s (performModeAuto s).1 := by
  unfold performModeAuto
  split
  · exact Reaches.refl s
  · split
    · exact Reaches.refl s
    · exact (takeManifold_evolves s).reaches

theorem giveUpManifold_evolves (s : State) : Evolves s (giveUpManifold s) := by
  unfold giveUpManifold
  refine Evolves.trans ?_ (discardHeld_evolves _)
  refine Evolves.trans ?_ (emptyQueue_evolves _)
  exact setMg_evolves s { s.mg with mode := .manual } (fun k => ⟨k.1, k.2⟩) (fun _ => rfl)

theorem performModeManual_reaches (s : State) : Reaches s (performModeManual s).1 :=
  Reaches.ite (fun _ => Reaches.refl s) (fun _ => (giveUpManifold_evolves s).reaches)

theorem performSetMode_reaches (v : Byte) (s : State) : Reaches s (performSetMode v s).1 := by
  unfold performSetMode
  split
  · exact performModeManual_reaches s
  · split
    · exact performModeAuto_reaches s
    · exact Reaches.refl s

/-- R135: the collapsed action, at the line count, stands in order before the actions that are not reached. -/
theorem collapsed_ok (s : State) (a last : Action) (hl : (reachedRun s).getLast? = some last)
    (ha : a.fire = s.vc.lineCount) (hq : QueueOk s.cs.queue) :
    QueueOk (a :: s.cs.queue.drop (reachedRun s).length) := by
  have h1 : 1 ≤ (reachedRun s).length := by
    cases hr : reachedRun s with
    | nil => rw [hr] at hl; cases hl
    | cons a t => simp
  have h2 : (reachedRun s).length ≤ s.cs.queue.length := (List.takeWhile_sublist _).length_le
  refine ⟨?_, ?_⟩
  · have := hq.bounded
    simp only [List.length_cons, List.length_drop]
    omega
  · have hd : s.cs.queue.drop (reachedRun s).length = s.cs.queue.dropWhile (fun x => reached s.vc.lineCount x.fire) := by
      have e := List.takeWhile_append_dropWhile (p := fun x : Action => reached s.vc.lineCount x.fire) (l := s.cs.queue)
      conv_lhs => rw [← e]
      exact List.drop_left
    have ho := hq.ordered.drop (reachedRun s).length
    rw [← List.map_drop] at ho
    cases hc : s.cs.queue.drop (reachedRun s).length with
    | nil => exact trivial
    | cons b rest =>
      rw [hc] at ho
      refine ⟨?_, ho⟩
      have hb : reached s.vc.lineCount b.fire = false := by
        have e : s.cs.queue.dropWhile (fun x => reached s.vc.lineCount x.fire) = b :: rest := by rw [← hd, hc]
        have := List.head?_dropWhile_not (fun x : Action => reached s.vc.lineCount x.fire) s.cs.queue
        rw [e] at this
        simpa using this
      show lower b.fire a.fire = false
      rw [ha]
      unfold lower
      unfold reached at hb
      rw [hb, Bool.and_false]

theorem collapse_evolves (s : State) : Evolves s (collapse s) := by
  unfold collapse
  split
  · exact Evolves.refl s
  · rename_i last hl
    simp only
    refine (laneTrap_evolves 2 (collapsedAction s last) s).trans (setCs_evolves _ _ (fun k => ⟨?_, k.2⟩))
    have hq := k.queue
    rw [laneTrap_cs] at hq
    exact collapsed_ok s _ last hl (laneTrap_fire _ _ _) hq

theorem returnToIdle_evolves (s : State) : Evolves s (returnToIdle s) := setCs_evolves s _ (fun k => ⟨k.1, rfl⟩)

theorem resumeAuto_evolves (s : State) (hm : s.mg.mode ≠ .manual) : Evolves s (resumeAuto s) := by
  unfold resumeAuto
  simp only
  refine Evolves.trans ?_ (engineRun_evolves _)
  refine Evolves.trans ?_ (returnToIdle_evolves _)
  have hc : (collapse s).mg = s.mg := by
    unfold collapse
    split
    · rfl
    · simp only; unfold laneTrap; simp only; split <;> rfl
  exact (collapse_evolves s).trans (setMg_evolves _ _ (fun k => ⟨k.1, k.2⟩) (fun h => absurd (by rw [← hc]; exact h) hm))

theorem resumeManual_reaches (s : State) : Reaches s (resumeManual s) := by
  refine Reaches.trans ?_ (engineRun_evolves _).reaches
  exact ⟨rfl, rfl, rfl, rfl, rfl, fun h => ⟨h.1, h.2⟩, fun h => ⟨h.1, h.2, h.3, h.4, h.5, ⟨QueueOk.nil, rfl⟩, ⟨h.7.1, h.7.2⟩, h.8⟩,
    Or.inl rfl, fun _ => Or.inl rfl⟩

theorem performResume_reaches (s : State) : Reaches s (performResume s).1 := by
  unfold performResume
  split
  · exact Reaches.refl s
  · split
    · exact Reaches.refl s
    · split
      · rename_i hm
        exact (resumeAuto_evolves s (by rw [hm.1]; decide)).reaches
      · exact resumeManual_reaches s

theorem performClearOutlet_reaches (i : Byte) (s : State) : Reaches s (performClearOutlet i s).1 := by
  unfold performClearOutlet
  split
  · exact Reaches.refl s
  · exact (setAvailable_evolves _ _ s).reaches

theorem routeTo_evolves (o : Outlet) (s : State) : Evolves s (routeTo o s).1 := by
  unfold routeTo
  split
  · simp only
    exact ((appendAction_evolves _ s ‹_›).trans (startAction_evolves _ _)).trans (engineRun_evolves _)
  · exact Evolves.refl s

theorem performRoute_reaches (i : Byte) (s : State) : Reaches s (performRoute i s).1 := by
  unfold performRoute
  split
  · exact Reaches.refl s
  · split
    · exact Reaches.refl s
    · split
      · exact Reaches.refl s
      · exact (routeTo_evolves _ s).reaches

end Sys2Proof.Machine
end

