-- ==== Sys2Proof/Laws/Effects.lean ====
section
/-! SUPPORT. The words of Sys2Proof/Safety/Effects.lean against the operations of the model: each `…_eq` says that an
operation does what the word says. Here: destinations, the lane trap, tickets and marks. -/

namespace Sys2Proof.Machine

/-! ## Words and operations -/

theorem raised_eq (e : Event) (c : Context) (s : State) : raised e c s = raise e c s := rfl

theorem headId_eq (s : State) : headId s = s.entry0Id := rfl

theorem destinationOf_eq (s : State) (b : BatchRecord) : destinationOf s b = (s.product b.product).destination := by
  unfold destinationOf State.product productOf
  split <;> rename_i h <;> rw [h] <;> rfl

theorem destinationOutlet_eq (s : State) (b : BatchRecord) : destinationOutlet s b = s.firstOutlet b := by
  unfold destinationOutlet firstDestination State.firstOutlet
  rw [destinationOf_eq]
  by_cases h : b.disposition = .passBy
  · simp [h, outletP]
  · by_cases h2 : ((s.product b.product).destination).toNat < 8
    · have h3 : ((s.product b.product).destination).toNat < 10 := by omega
      simp [h, h2, outletOfByte, h3]
    · simp [h, h2, outletP]

theorem laneOf_eq (s : State) (b : BatchRecord) : laneOf s b = s.ownLaneOf b := by
  unfold laneOf State.ownLaneOf isLane
  rw [destinationOutlet_eq]
  simp

theorem deliveryVolume_eq (s : State) (b : BatchRecord) : deliveryVolume s b = s.deliveryOf b := by
  unfold deliveryVolume State.deliveryOf isLane
  rw [destinationOutlet_eq]
  simp

theorem reliefOf_eq (s : State) : reliefOf s = s.relief := rfl

theorem goesTo_eq (s : State) (o : Outlet) : goesTo s o = trapTarget s o := by
  unfold goesTo trapTarget State.usable State.outlet
  simp only [Bool.and_eq_true, beq_iff_eq, reliefOf_eq, outletT]

/-- The lane trap (R130) redirects and notes, and does nothing else. -/
theorem laneTrap_eq (m : Nat) (a : Action) (s : State) :
    laneTrap m a s = ({ a with target := goesTo s a.target }, trapNoted m a.batch a.target s) := by
  unfold laneTrap trapNoted
  rw [goesTo_eq]
  by_cases h : trapTarget s a.target = a.target
  · simp [h]
  · simp only [h, if_false, raised_eq]
    have e : (if s.ts.active.outlets[(8 : Outlet)].enabled = 1 ∧ s.mg.valves[(8 : Outlet)].available = true
        then 0 else 4) = flag (!s.usable outletT) 4 := by
      unfold State.usable State.outlet flag outletT
      by_cases a : s.ts.active.outlets[(8 : Outlet)].enabled = 1 <;>
        by_cases b : s.mg.valves[(8 : Outlet)].available = true <;> simp_all
    rw [e]

theorem referenceDensity_eq (s : State) (b : BatchRecord) : referenceDensity s b = s.referenceOf b := by
  unfold referenceDensity State.referenceOf
  cases b.certified <;> rfl

theorem columnBooked_eq (r : Option Outlet) (n : Mark) (k : Ticket) : columnBooked r n k = bookColumn r n k := by
  unfold columnBooked bookColumn
  cases r with
  | none => rfl
  | some o => simp only [eq_comm (a := some o), outletT, outletP]

theorem volumeBooked_eq (r : Option Outlet) (n : Mark) (tu : TicketUnit) : volumeBooked r n tu = book r n tu := by
  unfold volumeBooked book
  cases tu.current <;> simp [columnBooked_eq]

theorem ticketCompleted_eq (k : Ticket) (s : State) : ticketCompleted k s = completeTicket k s := by
  unfold ticketCompleted completeTicket discardOldest
  rw [raised_eq]
  by_cases h : 16 ≤ s.tu.completed.length
  · rcases h2 : s.tu.completed with _ | ⟨a, _ | ⟨b, r⟩⟩
    · simp [h2] at h
    · simp [h2] at h
    · simp_all [ticketFlags, flag, State.setTu]
  · simp [h, ticketFlags, flag, State.setTu]

/-- Taking a boundary (R144), where no ticket waits closing or the current one is completed. -/
theorem boundaryTaken_eq (b : Boundary) (rest : List Boundary) (mark : Mark) (s : State)
    (h : s.tu.closing = none ∨ ∀ k, s.tu.current = some k → k.account.tailReported = true) :
    takeBoundary b rest mark s = boundaryTaken b rest mark s := by
  unfold takeBoundary boundaryTaken closeCurrent
  rcases hc : s.tu.current with _ | k
  · rfl
  · simp only [ticketCompleted_eq]
    by_cases ht : k.account.tailReported = true
    · simp [ht]; rfl
    · rcases h with h | h
      · simp [ht, releaseWaiting, h, State.setTu]; rfl
      · exact absurd (h k hc) ht

theorem boundaryReported_eq (batch : BatchId) (f : Account → Account) (tu : TicketUnit) :
    boundaryReported batch f tu =
      { tu with boundaries := (updateBoundary batch f tu.boundaries).getD tu.boundaries } := by
  have key : ∀ l : List Boundary, updateBoundary batch f l =
      (l.findIdx? (fun b => b.account.batch == batch)).map
        (fun i => l.modify i (fun b => { b with account := f b.account })) := by
    intro l
    induction l with
    | nil => rfl
    | cons b r ih =>
      unfold updateBoundary
      by_cases h : b.account.batch = batch
      · simp [h, List.findIdx?_cons]
      · simp [h, List.findIdx?_cons, ih]
        cases List.findIdx? (fun b => b.account.batch == batch) r <;> simp
  unfold boundaryReported
  rw [key]
  cases List.findIdx? (fun b => b.account.batch == batch) tu.boundaries <;> rfl

theorem accountReported_eq (batch : BatchId) (f : Account → Account) (tu : TicketUnit) :
    accountReported batch f tu = placeReport batch f tu := by
  unfold accountReported placeReport
  rw [boundaryReported_eq]
  by_cases h : batch = 0
  · rw [if_pos h, if_pos h]
  · have e : ∀ o : Option Ticket, holds batch o = o.any (fun k => k.account.batch == batch) := fun o => by
      unfold holds
      rw [bne_iff_ne.2 h, Bool.true_and]
    rw [if_neg h, if_neg h, e, e]; rfl

theorem widthOf_eq (r : InterfaceRecord) (m : Mark) : widthOf r m = r.startMark.map (interfaceWidth · m) := rfl

theorem tailPlaced_eq (r : InterfaceRecord) (m : Mark) (s : State) : tailPlaced r m s = placeTail r m s := by
  unfold tailPlaced placeTail
  simp only [ticketCompleted_eq, boundaryReported_eq]
  by_cases h : r.runningId = 0
  · have e : ∀ o : Option Ticket, holds r.runningId o = false := fun o => by unfold holds; rw [h]; rfl
    rw [if_pos h, e, e]; simp [h]
  · have e : ∀ o : Option Ticket,
        holds r.runningId o = o.any (fun k => k.account.batch == r.runningId) := fun o => by
      unfold holds
      rw [bne_iff_ne.2 h, Bool.true_and]
    rw [if_neg h, e, e, if_neg h]
    by_cases h2 : (s.tu.current.any (fun k => k.account.batch == r.runningId)) = true
    · rw [if_pos h2, if_pos h2]; rfl
    · rw [if_neg h2, if_neg h2]
      rcases hc : s.tu.closing with _ | k
      · rfl
      · by_cases h3 : k.account.batch = r.runningId
        · simp only [Option.any_some, h3, beq_self_eq_true, if_true]; rfl
        · simp only [Option.any_some, h3, beq_iff_eq, if_false]; rfl

theorem headPlaced_eq (r : InterfaceRecord) (m : Mark) (s : State) : headPlaced r m s = placeHead r m s := by
  unfold headPlaced placeHead
  simp only [boundaryReported_eq]
  by_cases h : r.arrivingId = 0
  · have e : ∀ o : Option Ticket, holds r.arrivingId o = false := fun o => by unfold holds; rw [h]; rfl
    rw [if_pos h, e]; simp [h]
  · have e : ∀ o : Option Ticket,
        holds r.arrivingId o = o.any (fun k => k.account.batch == r.arrivingId) := fun o => by
      unfold holds
      rw [bne_iff_ne.2 h, Bool.true_and]
    rw [if_neg h, e, if_neg h]
    by_cases h2 : (s.tu.current.any (fun k => k.account.batch == r.arrivingId)) = true
    · rw [if_pos h2, if_pos h2]; rfl
    · rw [if_neg h2, if_neg h2]; rfl

theorem raiseTo_eq (l m : Mark) : raiseTo l m = atLeast (some l) m := by
  unfold raiseTo atLeast lower
  simp

end Sys2Proof.Machine
end

