-- ==== Sys2Proof/Laws/Events.lean ====
section
/-! SUPPORT. What every event ends with, said once: the notices that are formed and the transmitters that begin touch
the queues of the CONTROL port, the transmitters and the latches, and nothing else (R160, R176). -/

namespace Sys2Proof.Machine

/-- `m` is the port `l` with frames of the part appended to its originated queue and its transmitter perhaps begun. -/
structure PortSettles (l m : PortLink) : Prop where
  rx : m.rx = l.rx
  forward : m.forward = l.forward
  originated : l.originated <+: m.originated
  bounded : l.originated.length ≤ 4 → m.originated.length ≤ 4
  sending : ∀ x, l.tx = some x → m.tx = some x

/-- What the end of an event leaves of a state: all but the ports and the latches. -/
structure Settles (s t : State) : Prop where
  rest : t = { s with liu := t.liu, nu := t.nu }
  address : t.liu.address = s.liu.address
  field : PortSettles s.liu.field t.liu.field
  fieldQueue : t.liu.field.originated = s.liu.field.originated
  control : PortSettles s.liu.control t.liu.control
  nuAddress : t.nu.address = s.nu.address
  nuMaster : t.nu.master = s.nu.master
  nuEnables : t.nu.enables = s.nu.enables
  nuKept : s.nu.testDue = false → t.nu = s.nu
  queueKept : s.nu.testDue = false → t.liu.control.originated = s.liu.control.originated

theorem PortSettles.refl (l : PortLink) : PortSettles l l := ⟨rfl, rfl, List.prefix_refl _, id, fun _ h => h⟩

theorem PortSettles.trans {l m k : PortLink} (a : PortSettles l m) (b : PortSettles m k) : PortSettles l k :=
  ⟨b.rx.trans a.rx, b.forward.trans a.forward, a.originated.trans b.originated, fun h => b.bounded (a.bounded h),
    fun x h => b.sending x (a.sending x h)⟩

/-! ## Transmitters -/

/-- A transmitter that begins leaves its receiver and its queues alone (R160). -/
theorem beginSending_port (l : PortLink) : beginSending l = { l with tx := (beginSending l).tx } := by
  unfold beginSending
  split
  · rfl
  · split
    · rfl
    · split <;> rfl

theorem beginSending_settles (l : PortLink) : PortSettles l (beginSending l) := by
  refine ⟨?_, ?_, ?_, ?_, fun x h => ?_⟩
  · rw [beginSending_port]
  · rw [beginSending_port]
  · rw [beginSending_port]
  · rw [beginSending_port]; exact id
  · unfold beginSending
    rw [h]
    exact h

theorem beginSending_originated (l : PortLink) : (beginSending l).originated = l.originated := by
  rw [beginSending_port]

/-- After a transmitter had its chance, it is idle only on empty queues (R160). -/
theorem beginSending_idle (l : PortLink) (h : (beginSending l).tx = none) :
    (beginSending l).originated = [] ∧ (beginSending l).forward = [] := by
  obtain ⟨rx, forward, originated, tx⟩ := l
  cases tx with
  | some x => cases h
  | none => cases originated <;> cases forward <;> first | exact ⟨rfl, rfl⟩ | cases h

/-! ## Notices -/

theorem formNotice_settles (s t : State) (h : formNotice s = some t) :
    t = { s with liu := t.liu, nu := t.nu } ∧ t.liu.address = s.liu.address ∧ t.liu.field = s.liu.field
      ∧ PortSettles s.liu.control t.liu.control ∧ t.nu.address = s.nu.address ∧ t.nu.master = s.nu.master
      ∧ t.nu.enables = s.nu.enables ∧ t.nu.testDue = s.nu.testDue ∧ s.mr.heldResponse = none := by
  unfold formNotice at h
  split at h
  · rename_i hf
    rw [Bool.and_eq_true] at hf
    have hp : s.liu.control.originated.length < 4 := by
      have := of_decide_eq_true hf.1
      exact this
    split at h
    · cases h
    · split at h
      · cases h
      · rename_i e _ _ l _
        cases h
        have ha : appendOriginated .control (noticeFrame s e l) s
            = s.setPort .control { s.port .control with
                originated := (s.port .control).originated ++ [noticeFrame s e l] } := by
          unfold appendOriginated; rw [if_pos hf.1]
        rw [ha]
        refine ⟨rfl, rfl, rfl, ⟨rfl, rfl, ?_, fun _ => ?_, fun _ k => k⟩, rfl, rfl, rfl, rfl, ?_⟩
        · exact List.prefix_append _ _
        · show (s.liu.control.originated ++ [noticeFrame s e l]).length ≤ 4
          simp only [List.length_append, List.length_cons, List.length_nil]; omega
        · simpa using hf.2
  · cases h

theorem formNotices_settles : ∀ (n : Nat) (s : State),
    formNotices n s = { s with liu := (formNotices n s).liu, nu := (formNotices n s).nu }
      ∧ (formNotices n s).liu.address = s.liu.address ∧ (formNotices n s).liu.field = s.liu.field
      ∧ PortSettles s.liu.control (formNotices n s).liu.control ∧ (formNotices n s).nu.address = s.nu.address
      ∧ (formNotices n s).nu.master = s.nu.master ∧ (formNotices n s).nu.enables = s.nu.enables
      ∧ (formNotices n s).nu.testDue = s.nu.testDue := by
  intro n
  induction n with
  | zero => intro s; exact ⟨rfl, rfl, rfl, PortSettles.refl _, rfl, rfl, rfl, rfl⟩
  | succ n ih =>
    intro s
    unfold formNotices
    split
    · exact ⟨rfl, rfl, rfl, PortSettles.refl _, rfl, rfl, rfl, rfl⟩
    · rename_i t ht
      obtain ⟨h1, h2, h3, h4, h5, h6, h7, h8, _⟩ := formNotice_settles s t ht
      obtain ⟨k1, k2, k3, k4, k5, k6, k7, k8⟩ := ih t
      refine ⟨?_, k2.trans h2, k3.trans h3, h4.trans k4, k5.trans h5, k6.trans h6, k7.trans h7, k8.trans h8⟩
      rw [k1, h1]

/-- While a response is held no notice is formed (R176). -/
theorem formNotices_held (n : Nat) (s : State) (h : s.mr.heldResponse ≠ none) : formNotices n s = s := by
  cases n with
  | zero => rfl
  | succ n =>
    unfold formNotices
    split
    · rfl
    · rename_i t ht
      exact absurd (formNotice_settles s t ht).2.2.2.2.2.2.2.2 h

/-! ## The end of an event -/

theorem dueEmission_settled (s : State) (h : s.nu.testDue = false) : dueEmission s = s := by
  unfold dueEmission
  rw [h]
  rfl

theorem dueEmission_testDue (s : State) : (dueEmission s).nu.testDue = false := by
  unfold dueEmission
  split
  · unfold emissionTest
    rw [(formNotices_settles 17 _).2.2.2.2.2.2.2]
    rfl
  · rename_i h
    simpa using h

theorem dueEmission_settles (s : State) : Settles s (dueEmission s) := by
  by_cases h : s.nu.testDue = false
  · rw [dueEmission_settled s h]
    exact ⟨rfl, rfl, PortSettles.refl _, rfl, PortSettles.refl _, rfl, rfl, rfl, fun _ => rfl, fun _ => rfl⟩
  · unfold dueEmission
    rw [Bool.not_eq_false] at h
    rw [if_pos h]
    unfold emissionTest
    obtain ⟨h1, h2, h3, h4, h5, h6, h7, _⟩ := formNotices_settles 17 (s.setNu { s.nu with testDue := false })
    refine ⟨?_, h2, ?_, ?_, h4, h5, h6, h7, fun k => ?_, fun k => ?_⟩
    · rw [h1]; rfl
    · rw [h3]; exact PortSettles.refl _
    · rw [h3]; rfl
    · rw [h] at k; cases k
    · rw [h] at k; cases k

theorem beginTransmissions_settles (s : State) : Settles s (beginTransmissions s) :=
  ⟨rfl, rfl, beginSending_settles _, beginSending_originated _, beginSending_settles _, rfl, rfl, rfl, fun _ => rfl,
    fun _ => beginSending_originated _⟩

theorem Settles.trans {s t u : State} (a : Settles s t) (b : Settles t u)
    (k : s.nu.testDue = false → t.nu.testDue = false) : Settles s u := by
  refine ⟨?_, b.address.trans a.address, a.field.trans b.field, b.fieldQueue.trans a.fieldQueue,
    a.control.trans b.control, b.nuAddress.trans a.nuAddress, b.nuMaster.trans a.nuMaster,
    b.nuEnables.trans a.nuEnables, fun h => (b.nuKept (k h)).trans (a.nuKept h),
    fun h => (b.queueKept (k h)).trans (a.queueKept h)⟩
  rw [b.rest, a.rest]

/-- Everything the end of an event can do. -/
theorem finish_settles (s : State) : Settles s (finish s) :=
  (dueEmission_settles s).trans (beginTransmissions_settles _) (fun _ => dueEmission_testDue s)

/-- After an event no emission test is due (log 8). -/
theorem finish_testDue (s : State) : (finish s).nu.testDue = false := dueEmission_testDue s

/-- An event that raised nothing forms no notice: only the transmitters can begin. -/
theorem finish_settled (s : State) (h : s.nu.testDue = false) : finish s = beginTransmissions s := by
  unfold finish
  rw [dueEmission_settled s h]

/-- While a response is held an event forms no notice (R176). -/
theorem finish_held (s : State) (h : s.mr.heldResponse ≠ none) :
    (finish s).liu.control.originated = s.liu.control.originated := by
  show (beginSending (dueEmission s).liu.control).originated = _
  rw [beginSending_originated]
  unfold dueEmission
  split
  · unfold emissionTest
    rw [formNotices_held 17 (s.setNu { s.nu with testDue := false }) h]
    rfl
  · rfl

/-- After an event no transmitter is idle beside a waiting frame (R160, log 9). -/
theorem finish_idle (s : State) (p : Port) (h : ((finish s).port p).tx = none) :
    ((finish s).port p).originated = [] ∧ ((finish s).port p).forward = [] := by
  cases p
  · exact beginSending_idle _ h
  · exact beginSending_idle _ h

theorem Settles.sound {s t : State} (h : Settles s t) (k : Sound s) : Sound t := by
  have e := h.rest
  have hb : t.bq = s.bq := by rw [e]
  have hd : t.de = s.de := by rw [e]
  have ht : t.ts = s.ts := by rw [e]
  have hi : t.it = s.it := by rw [e]
  have hc : t.cs = s.cs := by rw [e]
  have hm : t.mg = s.mg := by rw [e]
  have hu : t.tu = s.tu := by rw [e]
  have hv : t.vc = s.vc := by rw [e]
  refine ⟨⟨?_, ?_⟩, ⟨?_, ?_⟩, ?_, ?_, ?_, ?_, ?_, ?_⟩
  · rw [h.field.forward]; exact k.field.forward
  · exact h.field.bounded k.field.originated
  · rw [h.control.forward]; exact k.control.forward
  · exact h.control.bounded k.control.originated
  · rw [hb]; exact k.bq
  · rw [hd, ht]; exact k.de
  · rw [hi]; exact k.it
  · rw [hc]; exact k.cs
  · rw [hm]; exact k.mg
  · rw [hu, hv]; exact k.tu

/-- Any event outside a reset is its effect and the end of the event. -/
theorem unlessInReset_settles (f : State → State) (s : State) (h : s.inReset = false) :
    Settles (f s) (unlessInReset f s) := by
  unfold unlessInReset
  rw [h]
  exact finish_settles _

theorem unlessInReset_sound (f : State → State) (s : State) (h : Sound (f s)) (k : Sound s) :
    Sound (unlessInReset f s) := by
  unfold unlessInReset
  split
  · exact k
  · exact (finish_settles _).sound h

/-- While the reset input is asserted an event changes nothing (R174). -/
theorem unlessInReset_reset (f : State → State) (s : State) (h : s.inReset = true) : unlessInReset f s = s := by
  unfold unlessInReset
  rw [if_pos h]

end Sys2Proof.Machine
end

