-- ==== Sys2Proof/Laws/Requests.lean ====
section
/-! SUPPORT. What a request taken in READY comes to, said once for every request: its effect, then its response placed
or held, then the end of the event (R167, R169). -/

namespace Sys2Proof.Machine

theorem endReception_control (s : State) :
    endReception .control s
      = s.setLiu { s.liu with control := { s.liu.control with rx := .hunt } } := rfl

theorem endReception_reaches_sound (p : Port) (s : State) (h : Sound s) : Sound (endReception p s) := by
  cases p
  · exact ⟨⟨h.1.1, h.1.2⟩, h.2, h.3, h.4, h.5, h.6, h.7, h.8⟩
  · exact ⟨h.1, ⟨h.2.1, h.2.2⟩, h.3, h.4, h.5, h.6, h.7, h.8⟩

/-- What is left of the CONTROL port and the responder when a response has been offered (R169). -/
theorem offerResponse_free (f : Frame) (q : Service) (s : State) (h : s.liu.control.originated.length < 4) :
    offerResponse f q s =
      (s.setLiu { s.liu with control := { s.liu.control with originated := s.liu.control.originated ++ [f] } }).setMr
        { s.mr with state := .ready, service := none, heldResponse := none } := by
  have hf : originatedFree s .control = true := by
    show decide (s.liu.control.originated.length < 4) = true
    exact decide_eq_true h
  unfold offerResponse appendOriginated
  rw [if_pos hf, if_pos hf]
  rfl

theorem offerResponse_full (f : Frame) (q : Service) (s : State) (h : 4 ≤ s.liu.control.originated.length) :
    offerResponse f q s =
      s.setMr { s.mr with state := .holding, service := some q, heldResponse := some f } := by
  have hf : originatedFree s .control = false := by
    show decide (s.liu.control.originated.length < 4) = false
    exact decide_eq_false (by omega)
  unfold offerResponse
  rw [hf]
  rfl

theorem offerResponse_rest (f : Frame) (q : Service) (s : State) :
    offerResponse f q s = { s with liu := (offerResponse f q s).liu, mr := (offerResponse f q s).mr } := by
  by_cases h : s.liu.control.originated.length < 4
  · rw [offerResponse_free f q s h]; rfl
  · rw [offerResponse_full f q s (by omega)]; rfl

/-- A request taken in READY: the state that its performance leaves, but for the link, the responder and the latches;
the FIELD port settled; and the response placed or held. -/
structure RequestDone (src kind : Byte) (s : State) (p : Outcome) (t : State) : Prop where
  rest : t = { p.1 with liu := t.liu, mr := t.mr, nu := t.nu }
  answered : Answered src kind (answerPayload kind p.2) s t
  field : PortSettles p.1.liu.field t.liu.field
  fieldQueue : t.liu.field.originated = p.1.liu.field.originated
  nuAddress : t.nu.address = p.1.nu.address
  nuMaster : t.nu.master = p.1.nu.master
  nuEnables : t.nu.enables = p.1.nu.enables
  nuKept : p.1.nu.testDue = false → t.nu = p.1.nu
  last : p.1.nu.testDue = false → s.liu.control.originated.length < 4 →
    t.liu.control.originated = s.liu.control.originated ++ [responseOf s src (answerPayload kind p.2)]

theorem request_done (src kind : Byte) (perform : State → Outcome) (s : State) (h : Serving s)
    (hp : Reaches (endReception .control s) (perform (endReception .control s)).1) :
    ∃ t, requestEvent (serve src kind perform) s = .next t
      ∧ RequestDone src kind s (perform (endReception .control s)) t := by
  obtain ⟨hr, _, hm⟩ := h
  refine ⟨_, rfl, ?_⟩
  have e : unlessInReset (fun s => serve src kind perform (endReception .control s)) s
      = finish (answer src kind perform (endReception .control s)) := by
    unfold unlessInReset
    rw [hr]
    unfold serve inReady
    beta_reduce
    have : (endReception .control s).mr.state = .ready := hm
    rw [this]
    rfl
  rw [e]
  unfold answer
  simp only
  generalize perform (endReception .control s) = p at hp ⊢
  have hc : p.1.liu.control = { s.liu.control with rx := .hunt } := hp.control
  have ha : p.1.liu.address = s.liu.address := hp.address
  have hmr : p.1.mr = s.mr := hp.mr
  have hresp : responseFrame p.1 src kind p.2 = responseOf s src (answerPayload kind p.2) := by
    unfold responseFrame responseOf; rw [ha]; rfl
  rw [hresp]
  have hlen : p.1.liu.control.originated = s.liu.control.originated := by rw [hc]
  by_cases hf : s.liu.control.originated.length < 4
  · rw [offerResponse_free _ _ _ (by rw [hlen]; exact hf)]
    generalize hu : (p.1.setLiu _).setMr _ = u
    have k := finish_settles u
    have r := k.rest
    subst hu
    refine ⟨?_, ⟨?_, ?_, ?_, ?_, fun _ => ⟨?_, ?_⟩, fun g => absurd hf (by omega)⟩, k.field, k.fieldQueue,
      k.nuAddress, k.nuMaster, k.nuEnables, k.nuKept, fun g _ => ?_⟩
    · have hm2 := congrArg State.mr r
      rw [hm2]
      exact r
    · exact k.address.trans ha
    · rw [k.control.rx]; show p.1.liu.control.rx = _; rw [hc]
    · rw [k.control.forward]; show p.1.liu.control.forward = _; rw [hc]
    · intro x hx
      refine k.control.sending x ?_
      show p.1.liu.control.tx = _
      rw [hc]; exact hx
    · have := k.control.originated
      rw [← hlen]
      exact this
    · rw [r, ← hmr]; rfl
    · rw [k.queueKept g, ← hlen]; rfl
  · rw [offerResponse_full _ _ _ (by rw [hlen]; omega)]
    generalize hu : p.1.setMr _ = u
    have k := finish_settles u
    have r := k.rest
    subst hu
    have hq := finish_held (p.1.setMr { p.1.mr with
      state := .holding, service := some ⟨src, kind⟩
      heldResponse := some (responseOf s src (answerPayload kind p.2)) }) (by intro g; cases g)
    refine ⟨?_, ⟨?_, ?_, ?_, ?_, fun g => absurd g hf, fun _ => ⟨?_, ?_⟩⟩, k.field, k.fieldQueue,
      k.nuAddress, k.nuMaster, k.nuEnables, k.nuKept, fun _ g => absurd g hf⟩
    · have hm2 := congrArg State.mr r
      rw [hm2]
      exact r
    · exact k.address.trans ha
    · rw [k.control.rx]; show p.1.liu.control.rx = _; rw [hc]
    · rw [k.control.forward]; show p.1.liu.control.forward = _; rw [hc]
    · intro x hx
      refine k.control.sending x ?_
      show p.1.liu.control.tx = _
      rw [hc]; exact hx
    · rw [← hlen]; exact hq
    · rw [r, ← hmr]; rfl

/-- A request whose performance touches neither the FIELD port nor the latches. -/
theorem request_done_only (src kind : Byte) (perform : State → Outcome) (s : State) (h : Serving s) (q : Outcome)
    (e : perform (endReception .control s) = q)
    (hp : Reaches (endReception .control s) q.1) (hl : q.1.liu.field = s.liu.field) (hn : q.1.nu.testDue = false) :
    ∃ t, requestEvent (serve src kind perform) s = .next t ∧ AnsweredOnly src kind (answerPayload kind q.2) s t
      ∧ t = { q.1 with liu := t.liu, mr := t.mr } := by
  obtain ⟨t, ht, k⟩ := request_done src kind perform s h (by rw [e]; exact hp)
  rw [e] at k
  refine ⟨t, ht, ⟨k.answered, ⟨?_, ?_, ?_, ?_⟩, k.last hn⟩, ?_⟩
  · rw [k.field.rx, hl]
  · rw [k.field.forward, hl]
  · rw [k.fieldQueue, hl]
  · intro x hx; exact k.field.sending x (by rw [hl]; exact hx)
  · have r := k.rest
    rw [k.nuKept hn] at r
    exact r

end Sys2Proof.Machine
end

