-- ==== Sys2Proof/Laws/EventEnds.lean ====
section
/-! SUPPORT. The end of an event, said exactly: the notices of the emission test (R176), the transmitters (R160), and the
response of a request before both (R169). -/

namespace Sys2Proof.Machine

/-! ## Notices and the end of an event -/

theorem reportable_iff (nu : NoticeUnit) (e : Event) : reportable nu e = true ↔ Reported nu e := by
  unfold reportable Reported
  simp only [Bool.or_eq_true, decide_eq_true_eq, Bool.and_eq_true]
  exact or_congr (by omega) Iff.rfl

theorem emittable_iff (nu : NoticeUnit) (e : Event) : emittable nu e = true ↔ Emittable nu e := by
  unfold emittable Emittable latchOf
  rw [Bool.and_eq_true, reportable_iff, Option.isSome_iff_ne_none]

/-- The events stand in the order of their numbers (R175). -/
theorem allEvents_index : ∀ i : Fin 17, eventIndex (allEvents[i.val]'(i.isLt)) = i := by decide

theorem mem_allEvents (e : Event) : e ∈ allEvents := by cases e <;> decide

theorem firstEmittable_none (nu : NoticeUnit) (h : firstEmittable nu = none) (e : Event) : ¬ Emittable nu e := by
  rw [← emittable_iff]
  exact List.find?_eq_none.1 h e (mem_allEvents e)

/-- R176: the latch reported first is the emittable one of lowest number. -/
theorem firstEmittable_some (nu : NoticeUnit) (e : Event) (h : firstEmittable nu = some e) :
    Emittable nu e ∧ ∀ d : Event, (eventIndex d).val < (eventIndex e).val → ¬ Emittable nu d := by
  obtain ⟨he, i, hi, hx, hlow⟩ := List.find?_eq_some_iff_getElem.1 h
  have hi17 : i < 17 := hi
  have hie : (eventIndex e).val = i := by rw [← hx]; exact congrArg Fin.val (allEvents_index ⟨i, hi17⟩)
  refine ⟨(emittable_iff _ _).1 he, fun d hd hem => ?_⟩
  rw [hie] at hd
  have hdx : allEvents[(eventIndex d).val]'(eventIndex d).isLt = d := by cases d <;> rfl
  have k : (!emittable nu d) = true := (congrArg (fun x => (!emittable nu x) = true) hdx).mp (hlow (eventIndex d).val hd)
  rw [(emittable_iff _ _).2 hem] at k
  cases k

theorem noticeFrame_eq (s : State) (e : Event) (l : Latch) : noticeFrame s e l = noticeOf s e l := by
  unfold noticeFrame noticeOf outletByte outletCode flag eventNumber kindNotice bytesOf
  cases l.context.outlet <;> rfl

/-- The emission test is over exactly when the three conditions of R176 no longer hold together. -/
theorem formNotice_none (s : State) (h : formNotice s = none) : NoticesDone s := by
  unfold formNotice at h
  split at h
  · split at h
    · rename_i hf
      exact Or.inl (firstEmittable_none _ hf)
    · rename_i e he
      split at h
      · rename_i hl
        exact absurd hl (firstEmittable_some _ _ he).1.1
      · cases h
  · rename_i hc
    rw [Bool.and_eq_true] at hc
    refine Or.inr ?_
    by_cases hr : s.mr.heldResponse = none
    · refine Or.inl (Nat.le_of_not_lt (fun hp => hc ⟨decide_eq_true hp, ?_⟩))
      rw [hr]; rfl
    · exact Or.inr hr

/-- R176: what forming a notice does. -/
theorem formNotice_some (s t : State) (h : formNotice s = some t) : NoticeFormed s t := by
  unfold formNotice at h
  split at h
  · rename_i hc
    rw [Bool.and_eq_true] at hc
    have hp : s.liu.control.originated.length < 4 := of_decide_eq_true hc.1
    have hr : s.mr.heldResponse = none := Option.isNone_iff_eq_none.1 hc.2
    split at h
    · cases h
    · rename_i e he
      obtain ⟨hem, hlow⟩ := firstEmittable_some _ _ he
      split at h
      · cases h
      · rename_i l hl
        cases h
        refine ⟨hp, hr, e, l, hl, hem.2, hlow, ?_⟩
        unfold appendOriginated
        rw [if_pos hc.1, noticeFrame_eq]
        rfl
  · cases h

theorem NoticeFormed.not_done {s t : State} (h : NoticeFormed s t) : ¬ NoticesDone s := by
  obtain ⟨hp, hr, e, l, hl, hrep, _⟩ := h
  rintro (k | k | k)
  · exact k e ⟨hl ▸ Option.some_ne_none l, hrep⟩
  · exact absurd hp (Nat.not_lt.2 k)
  · exact k hr

theorem NoticeFormed.eq {s t : State} (h : NoticeFormed s t) : formNotice s = some t := by
  rcases hf : formNotice s with _ | u
  · exact absurd (formNotice_none s hf) h.not_done
  · have k := formNotice_some s u hf
    obtain ⟨_, _, e, l, hl, hrep, hlow, rfl⟩ := h
    obtain ⟨_, _, e', l', hl', hrep', hlow', rfl⟩ := k
    have hee : eventIndex e = eventIndex e' := by
      refine Fin.ext (Nat.le_antisymm (Nat.le_of_not_lt (fun c => ?_)) (Nat.le_of_not_lt (fun c => ?_)))
      · exact hlow e' c ⟨hl' ▸ Option.some_ne_none l', hrep'⟩
      · exact hlow' e c ⟨hl ▸ Option.some_ne_none l, hrep⟩
    have he : e = e' := by revert hee; cases e <;> cases e' <;> decide
    subst he
    rw [hl] at hl'
    cases hl'
    rfl

theorem NoticesDone.stops {s : State} (h : NoticesDone s) : formNotice s = none := by
  rcases hf : formNotice s with _ | u
  · rfl
  · exact absurd h (formNotice_some s u hf).not_done

/-- A formed notice takes a place. -/
theorem NoticeFormed.length {s t : State} (h : NoticeFormed s t) :
    t.liu.control.originated.length = s.liu.control.originated.length + 1 := by
  obtain ⟨_, _, e, l, _, _, _, rfl⟩ := h
  simp

/-- As many notices as places are free are the whole emission test. -/
theorem formNotices_formed : ∀ (n : Nat) (s : State), 4 ≤ s.liu.control.originated.length + n →
    NoticesFormed s (formNotices n s)
  | 0, s, h => .done s (Or.inr (Or.inl h))
  | n + 1, s, h => by
    unfold formNotices
    split
    · exact .done s (formNotice_none s ‹_›)
    · rename_i t ht
      have k := formNotice_some s t ht
      exact .formed s t _ k (formNotices_formed n t (by rw [k.length]; omega))

theorem NoticesFormed.eq {s t : State} (h : NoticesFormed s t) :
    ∀ n, 4 ≤ s.liu.control.originated.length + n → t = formNotices n s := by
  induction h with
  | done s k =>
    intro n _
    cases n with
    | zero => rfl
    | succ n => unfold formNotices; rw [k.stops]
  | formed s t u k _ ih =>
    intro n hn
    cases n with
    | zero => exact absurd k.1 (Nat.not_lt.2 hn)
    | succ n =>
      unfold formNotices
      rw [k.eq]
      exact ih n (by rw [k.length]; omega)

theorem NoticesFormed.done_end {s t : State} (h : NoticesFormed s t) : NoticesDone t := by
  induction h with
  | done s k => exact k
  | formed s t u _ _ ih => exact ih

/-- What notices leave alone: the settings and the link address; they join the queue at its tail. -/
structure NoticesKeep (s t : State) : Prop where
  nuAddress : t.nu.address = s.nu.address
  master : t.nu.master = s.nu.master
  enables : t.nu.enables = s.nu.enables
  address : t.liu.address = s.liu.address
  originated : s.liu.control.originated <+: t.liu.control.originated

theorem NoticesFormed.keeps {s t : State} (h : NoticesFormed s t) : NoticesKeep s t := by
  induction h with
  | done s _ => exact ⟨rfl, rfl, rfl, rfl, List.prefix_refl _⟩
  | formed s t u k _ ih =>
    obtain ⟨_, _, e, l, _, _, _, rfl⟩ := k
    exact ⟨ih.nuAddress, ih.master, ih.enables, ih.address, (List.prefix_append _ _).trans ih.originated⟩

/-- R176: a latch that notices do not leave as it was is clear, and its notice stands behind what was queued before. -/
theorem NoticesFormed.latches {s t : State} (h : NoticesFormed s t) :
    ∀ n, n ≤ s.liu.control.originated.length → ∀ d : Event,
      t.nu.latches[eventIndex d] = s.nu.latches[eventIndex d]
        ∨ ∃ l, s.nu.latches[eventIndex d] = some l ∧ t.nu.latches[eventIndex d] = none ∧ Reported t.nu d
          ∧ noticeOf t d l ∈ t.liu.control.originated.drop n := by
  induction h with
  | done s _ => exact fun _ _ _ => Or.inl rfl
  | formed s t u k hu ih =>
    intro n hn d
    have kt := hu.keeps
    obtain ⟨_, _, e, l, hl, hrep, _, ht⟩ := k
    have hn' : n ≤ t.liu.control.originated.length := by
      rw [ht]
      show n ≤ (s.liu.control.originated ++ [noticeOf s e l]).length
      rw [List.length_append]
      omega
    by_cases hde : eventIndex d = eventIndex e
    · have hd : d = e := by revert hde; cases d <;> cases e <;> decide
      subst hd
      have hnone : t.nu.latches[eventIndex d] = none := by rw [ht]; simp
      refine Or.inr ⟨l, hl, ?_, ?_, ?_⟩
      · rcases ih n hn' d with h | ⟨l', h, _⟩
        · rw [h, hnone]
        · rw [hnone] at h; cases h
      · unfold Reported
        rw [kt.master, kt.enables, ht]
        exact hrep
      · have e1 : noticeOf u d l = noticeOf s d l := by
          unfold noticeOf
          rw [kt.nuAddress, kt.address, ht]
        rw [e1]
        obtain ⟨r, hr⟩ := kt.originated
        rw [← hr, ht]
        show _ ∈ ((s.liu.control.originated ++ [noticeOf s d l]) ++ r).drop n
        rw [List.append_assoc, List.drop_append_of_le_length hn]
        simp
    · have hsame : t.nu.latches[eventIndex d] = s.nu.latches[eventIndex d] := by
        rw [ht]
        exact Vector.getElem_set_ne (eventIndex e).isLt (eventIndex d).isLt (fun h => hde (Fin.ext h.symm))
      rw [← hsame]
      exact ih n hn' d

theorem beginSending_eq (l : PortLink) : beginSending l = begun l := by
  unfold beginSending begun
  obtain ⟨rx, f, o, tx⟩ := l
  cases tx with
  | some x => rfl
  | none => cases o <;> cases f <;> rfl

/-- What the end of an event is, said exactly: the emission test that is due, then the transmitters. -/
theorem endsEvent_iff (u t : State) : EndsEvent u t ↔ t = finish u := by
  have hb : ∀ w : State, beginTransmissions w
      = { w with liu := { w.liu with field := begun w.liu.field, control := begun w.liu.control } } := by
    intro w
    unfold beginTransmissions
    rw [beginSending_eq, beginSending_eq]
    rfl
  unfold EndsEvent finish dueEmission
  by_cases h : u.nu.testDue = true
  · simp only [h, if_true]
    constructor
    · rintro ⟨w, hw, rfl⟩
      rw [hw.eq 17 (by omega), hb]
      rfl
    · rintro rfl
      exact ⟨_, formNotices_formed 17 _ (by omega), hb _⟩
  · simp only [h]
    constructor
    · rintro ⟨w, rfl, rfl⟩
      exact (hb _).symm
    · rintro rfl
      exact ⟨u, rfl, hb _⟩

theorem finish_ends (u : State) : EndsEvent u (finish u) := (endsEvent_iff u _).2 rfl

theorem EndsEvent.settles {u t : State} (h : EndsEvent u t) : Settles u t := by
  rw [(endsEvent_iff u t).1 h]
  exact finish_settles u

/-- Where the emission test is due, it is made (R176). -/
theorem EndsEvent.noted {u t : State} (h : EndsEvent u t) (hd : u.nu.testDue = true) :
    ∃ w : State, NoticesFormed { u with nu := { u.nu with testDue := false } } w
      ∧ t = { w with liu := { w.liu with field := begun w.liu.field, control := begun w.liu.control } } := by
  obtain ⟨w, hw, ht⟩ := h
  rw [if_pos hd] at hw
  exact ⟨w, hw, ht⟩

/-- R176: when an event has ended no notice is left to form, where one that latched or freed something made its test. -/
theorem finish_done (u : State) (h : NoticesDone u ∨ u.nu.testDue = true) : NoticesDone (finish u) := by
  have hb : ∀ w : State, NoticesDone w → NoticesDone (beginTransmissions w) := by
    intro w hw
    refine hw.imp id (Or.imp (fun k => ?_) id)
    show 4 ≤ (beginSending w.liu.control).originated.length
    rw [beginSending_originated]
    exact k
  unfold finish dueEmission
  split
  · exact hb _ (formNotices_formed 17 _ (by omega)).done_end
  · rename_i hn
    exact hb _ (h.resolve_right hn)

theorem unless_ends (f : State → State) (s u : State) (h : s.inReset = false) (e : f s = u) :
    EndsEvent u (unlessInReset f s) := by
  unfold unlessInReset
  rw [h, ← e]
  exact finish_ends _

theorem responseOffered_eq (src kind : Byte) (a : Answer) (u : State) :
    offerResponse (responseFrame u src kind a) ⟨src, kind⟩ u = responseOffered src kind (answerPayload kind a) u := by
  unfold responseOffered
  split
  · rw [offerResponse_free _ _ _ ‹_›]; rfl
  · rw [offerResponse_full _ _ _ (by omega)]; rfl

theorem responseOffered_free (src kind : Byte) (payload : List Byte) (u : State)
    (h : u.liu.control.originated.length < 4) : responseOffered src kind payload u = { u with
      liu := { u.liu with control := { u.liu.control with
        originated := u.liu.control.originated ++ [responseOf u src payload] } }
      mr := { u.mr with state := .ready, service := none, heldResponse := none } } := if_pos h

theorem responseOffered_full (src kind : Byte) (payload : List Byte) (u : State)
    (h : ¬ u.liu.control.originated.length < 4) : responseOffered src kind payload u = { u with mr := { u.mr with
      state := .holding, service := some ⟨src, kind⟩, heldResponse := some (responseOf u src payload) } } := if_neg h

/-- A request whose performance comes to `u` with answer `a` is answered (R168, R169) and ends its event. -/
theorem serve_ends (src kind : Byte) (perform : State → Outcome) (s u : State) (payload : List Byte) (a : Answer)
    (hs : Serving s) (hp : perform (received s) = (u, a)) (ha : answerPayload kind a = payload) :
    ∃ t, requestEvent (serve src kind perform) s = .next t ∧ EndsRequest src kind payload u t := by
  refine ⟨_, rfl, ?_⟩
  unfold unlessInReset
  rw [hs.released]
  have hr : (received s).mr.state = .ready := hs.ready
  have e : serve src kind perform (received s) = responseOffered src kind payload u := by
    unfold serve inReady answer
    rw [hr, hp, ← ha]
    exact responseOffered_eq _ _ _ _
  rw [if_neg (by decide)]
  show EndsEvent _ (finish (serve src kind perform (received s)))
  rw [e]
  exact finish_ends _

end Sys2Proof.Machine
end

