-- ==== Sys2Proof/Laws/Idle.lean ====
section
/-! SUPPORT. Which expiries an idle step finds due: each one that is due stands once in the list (R8, R9, R105, R32). -/

namespace Sys2Proof.Machine

theorem mem_dueIn_iff (now : Time) (timer : Option Timer) (c d : Instr) :
    d ∈ dueIn now timer c ↔ d = c ∧ ∃ t, timer = some t ∧ t.start + t.length ≤ now := by
  unfold dueIn
  cases timer with
  | none => simp
  | some t => by_cases h : t.start + t.length ≤ now <;> simp [h]

theorem dueIn_sublist (now : Time) (timer : Option Timer) (c : Instr) : (dueIn now timer c).Sublist [c] := by
  unfold dueIn
  split
  · split
    · exact List.Sublist.refl _
    · exact List.nil_sublist _
  · exact List.nil_sublist _

theorem mem_duePhase_iff (s : State) (d : Instr) :
    d ∈ duePhase s ↔ (∃ t, s.cs.phase = some t ∧ t.start + t.length ≤ s.now) ∧
      ((s.cs.engine = .openNew ∧ d = .openTimeExpiry) ∨ (s.cs.engine = .overlap ∧ d = .overlapExpiry)
        ∨ (s.cs.engine = .closeOld ∧ d = .closeTimeExpiry)) := by
  unfold duePhase
  cases s.cs.engine <;> simp [mem_dueIn_iff, and_comm]

/-- The list of an idle step holds exactly the expiries that are due. -/
theorem mem_dueExpiries_iff (s : State) (c : Instr) : c ∈ dueExpiries s ↔ ExpiryDue s c := by
  unfold dueExpiries secondsTimer
  simp only [List.mem_append, mem_dueIn_iff, mem_duePhase_iff, Option.map_eq_some_iff]
  constructor
  · rintro (((((⟨rfl, _, ⟨t, h, rfl⟩, k⟩ | ⟨rfl, _, ⟨t, h, rfl⟩, k⟩)
      | ⟨⟨t, h, k⟩, (⟨e, rfl⟩ | ⟨e, rfl⟩ | ⟨e, rfl⟩)⟩) | ⟨rfl, t, h, k⟩) | ⟨rfl, t, h, k⟩) | ⟨rfl, _, ⟨t, h, rfl⟩, k⟩)
    · exact .silence t h k
    · exact .still t h k
    · exact .openTime t h e k
    · exact .overlap t h e k
    · exact .closeTime t h e k
    · exact .stroke t h k
    · exact .recovery t h k
    · exact .sum t h k
  · rintro (⟨t, h, k⟩ | ⟨t, h, k⟩ | ⟨t, h, e, k⟩ | ⟨t, h, e, k⟩ | ⟨t, h, e, k⟩ | ⟨t, h, k⟩ | ⟨t, h, k⟩ | ⟨t, h, k⟩)
    · exact Or.inl (Or.inl (Or.inl (Or.inl (Or.inl ⟨rfl, _, ⟨t, h, rfl⟩, k⟩))))
    · exact Or.inl (Or.inl (Or.inl (Or.inl (Or.inr ⟨rfl, _, ⟨t, h, rfl⟩, k⟩))))
    · exact Or.inl (Or.inl (Or.inl (Or.inr ⟨⟨t, h, k⟩, Or.inl ⟨e, rfl⟩⟩)))
    · exact Or.inl (Or.inl (Or.inl (Or.inr ⟨⟨t, h, k⟩, Or.inr (Or.inl ⟨e, rfl⟩)⟩)))
    · exact Or.inl (Or.inl (Or.inl (Or.inr ⟨⟨t, h, k⟩, Or.inr (Or.inr ⟨e, rfl⟩)⟩)))
    · exact Or.inl (Or.inl (Or.inr ⟨rfl, t, h, k⟩))
    · exact Or.inl (Or.inr ⟨rfl, t, h, k⟩)
    · exact Or.inr ⟨rfl, _, ⟨t, h, rfl⟩, k⟩

/-- No expiry stands twice in the list. -/
theorem dueExpiries_nodup (s : State) : (dueExpiries s).Nodup := by
  have hp : (duePhase s).Sublist [.openTimeExpiry, .overlapExpiry, .closeTimeExpiry] := by
    unfold duePhase
    split
    · exact (dueIn_sublist _ _ _).trans (by decide)
    · exact (dueIn_sublist _ _ _).trans (by decide)
    · exact (dueIn_sublist _ _ _).trans (by decide)
    · exact List.nil_sublist _
  have h : (dueExpiries s).Sublist ([.silenceTimerExpiry] ++ [.stillTimerExpiry]
      ++ [.openTimeExpiry, .overlapExpiry, .closeTimeExpiry] ++ [.strokeTimerExpiry] ++ [.recoveryExpiry] ++ [.sumComplete]) :=
    ((((((dueIn_sublist _ _ _).append (dueIn_sublist _ _ _)).append hp).append (dueIn_sublist _ _ _)).append
      (dueIn_sublist _ _ _)).append (dueIn_sublist _ _ _))
  exact h.nodup (by decide)

theorem dueExpiries_nil (s : State) (h : dueExpiries s = []) (c : Instr) : ¬ ExpiryDue s c := by
  rw [← mem_dueExpiries_iff, h]
  exact List.not_mem_nil

theorem dueExpiries_single (s : State) (c : Instr) (h : dueExpiries s = [c]) :
    ExpiryDue s c ∧ ∀ d, ExpiryDue s d → d = c := by
  simp only [← mem_dueExpiries_iff, h, List.mem_singleton, imp_self, implies_true, and_self]

end Sys2Proof.Machine
end

