-- ==== Sys2Proof/Laws/Manifold.lean ====
section
/-! SUPPORT. The words of Sys2Proof/Safety/Effects.lean for the Manifold Guard and the apply against the operations of the
model: valve commands, the withdrawal, the dead-head guard, and what an apply does. -/

namespace Sys2Proof.Machine

/-! ## Valve commands, the withdrawal and the guard -/

theorem manifoldTo_eq (s : State) (f : Frame) : manifoldOutlet s f = manifoldTo s f := rfl

theorem positionFigure_eq (p : List Byte) :
    positionFigure p = if p = [0] then 0 else if p = [1] then 1 else 2 := by
  unfold positionFigure
  split
  · rename_i b
    have hb : ∀ b : Byte, (if b.toNat ≤ 1 then b.toNat else 2) = if [b] = [0#8] then 0 else if [b] = [1#8] then 1 else 2 := by
      decide +kernel
    exact hb b
  · rename_i h
    have h0 : p ≠ [0#8] := fun e => h _ e
    have h1 : p ≠ [1#8] := fun e => h _ e
    simp [h0, h1]

/-- The withdrawal of manifold commands (R126, R158, R161). -/
theorem withdrawManifold_eq (s : State) : withdrawManifold s = withdrawn s := by
  unfold withdrawManifold withdrawn
  simp only
  have key : ∀ (l : List Frame) (u : State), u.ts = s.ts → u.bq = s.bq → u.vc = s.vc →
      l.foldl noteWithdrawn u = l.foldl (fun t f =>
        match manifoldTo s f with
        | none => t
        | some o =>
          raised .manifoldOwned
            ⟨headId s, s.vc.lineCount, some o,
              (if f.payload = [0] then 0 else if f.payload = [1] then 1 else 2) + 4, f.src.toNat⟩
            { t with mg := { t.mg with valves := t.mg.valves.set o { t.mg.valves[o] with commanded := none } } }) u := by
    intro l
    induction l with
    | nil => intro u _ _ _; rfl
    | cons f rest ih =>
      intro u ht hb hv
      have hm : manifoldOutlet u f = manifoldTo s f := by
        unfold manifoldOutlet manifoldTo State.active; rw [ht]; rfl
      have h1 : noteWithdrawn u f = (match manifoldTo s f with
        | none => u
        | some o =>
          raised .manifoldOwned
            ⟨headId s, s.vc.lineCount, some o,
              (if f.payload = [0] then 0 else if f.payload = [1] then 1 else 2) + 4, f.src.toNat⟩
            { u with mg := { u.mg with valves := u.mg.valves.set o { u.mg.valves[o] with commanded := none } } }) := by
        unfold noteWithdrawn
        rw [hm]
        rcases manifoldTo s f with _ | o
        · rfl
        · simp only [raiseOwned, positionFigure_eq, flag, raised_eq, headId_eq, State.entry0Id]
          rw [← hb, ← hv]
          rfl
      rw [List.foldl_cons, List.foldl_cons, h1]
      refine ih _ ?_ ?_ ?_ <;> rcases manifoldTo s f with _ | o <;> first | exact ht | exact hb | exact hv
  refine (key _ (s.setPort .field { s.liu.field with
    forward := s.liu.field.forward.filter (fun f => (manifoldOutlet s f).isNone)
    tx := if cutsOff s then none else s.liu.field.tx }) rfl rfl rfl).trans ?_
  congr 1
  have hc : cutsOff s = decide (s.liu.field.tx = some .forward
      ∧ (s.liu.field.forward.head?.any (fun f => (manifoldTo s f).isSome)) = true) := by
    unfold cutsOff
    have e : (s.liu.field.forward.head?.bind (manifoldOutlet s)).isSome
        = s.liu.field.forward.head?.any (fun f => (manifoldTo s f).isSome) := by
      cases s.liu.field.forward.head? <;> rfl
    rw [e]
    simp [Bool.decide_and, beq_eq_decide]
  rw [hc]
  simp only [decide_eq_true_eq]
  rfl

/-- What a withdrawal touches: the FIELD forward queue and its transmitter, commanded positions and latches. -/
theorem withdrawn_rest (s : State) :
    withdrawn s = { s with
      liu := { s.liu with field := { s.liu.field with
        forward := (withdrawn s).liu.field.forward, tx := (withdrawn s).liu.field.tx } }
      mg := { s.mg with valves := (withdrawn s).mg.valves }, nu := (withdrawn s).nu } := by
  unfold withdrawn
  simp only
  generalize s.liu.field.forward.filter (fun f => (manifoldTo s f).isSome) = l
  obtain ⟨u, hu⟩ : ∃ u : State, u = { s with liu := { s.liu with field := { s.liu.field with
    forward := s.liu.field.forward.filter (fun f => (manifoldTo s f).isNone)
    tx := if s.liu.field.tx = some .forward ∧ (s.liu.field.forward.head?.any (fun f => (manifoldTo s f).isSome)) = true
      then none else s.liu.field.tx } } } := ⟨_, rfl⟩
  rw [← hu]
  have hb : u = { s with
      liu := { s.liu with field := { s.liu.field with forward := u.liu.field.forward, tx := u.liu.field.tx } }
      mg := { s.mg with valves := u.mg.valves }, nu := u.nu } := by rw [hu]
  clear hu
  induction l generalizing u with
  | nil => exact hb
  | cons f rest ih =>
    rw [List.foldl_cons]
    refine ih _ ?_
    rcases manifoldTo s f with _ | o
    · exact hb
    · simp only
      rw [hb]
      rfl

theorem heldEntered_rest (s : State) :
    heldEntered s = { s with
      liu := { s.liu with field := { s.liu.field with
        forward := (heldEntered s).liu.field.forward, tx := (heldEntered s).liu.field.tx } }
      mg := { (heldEntered s).mg with openOrder := s.mg.openOrder }, nu := (heldEntered s).nu } := by
  unfold heldEntered
  split
  · rfl
  · rw [withdrawn_rest]

theorem enterHeld_eq (s : State) : enterHeld s = heldEntered s := by
  unfold enterHeld heldEntered
  rw [withdrawManifold_eq]
  rfl

theorem awaiting_some (c : Command) (s : State) (q : Sequence) (h : awaiting c s = some q) :
    s.cs.sequence = some q ∧ isPhaseCommand s c = true := by
  unfold awaiting at h
  rw [Option.filter_eq_some_iff] at h
  obtain ⟨h1, h2⟩ := h
  refine ⟨h1, ?_⟩
  unfold isPhaseCommand
  rw [h1]
  rcases he : s.cs.engine <;> simp_all

theorem awaiting_none (c : Command) (s : State) (h : awaiting c s = none) : isPhaseCommand s c = false := by
  unfold awaiting at h
  unfold isPhaseCommand
  rcases hs : s.cs.sequence with _ | q
  · rcases s.cs.engine <;> rfl
  · rw [hs, Option.filter_eq_none_iff] at h
    have := h q rfl
    rcases he : s.cs.engine <;> simp_all

/-- A command's entry into its queue (R106). -/
theorem enterCommand_sends (c : Command) (s : State) (h : s.liu.field.originated.length < 4)
    (hb : closeBarred s c = false) : enterCommand c s = commandSent c s := by
  unfold enterCommand appendOriginated originatedFree
  have h2 : (s.port .field).originated.length < 4 := h
  rw [hb]
  simp only [h2, decide_true, if_true, Bool.false_eq_true, if_false]
  obtain ⟨w, hw⟩ : ∃ w : State, w = setCommanded c.outlet (some c.move) (s.setPort .field { s.port .field with
      originated := (s.port .field).originated ++ [commandFrame s c] }) := ⟨_, rfl⟩
  rw [← hw]
  have hwc : w.cs = s.cs := by rw [hw]; rfl
  have hp : isPhaseCommand w c = isPhaseCommand s c := by unfold isPhaseCommand; rw [hwc]
  have hconf : ∀ o : Outlet, w.mg.valves[o].confirmed = s.mg.valves[o].confirmed := by
    intro o
    rw [hw]
    show (s.mg.valves.set c.outlet _)[o].confirmed = _
    by_cases e : (c.outlet : Nat) = o
    · have e2 : c.outlet = o := Fin.ext e
      subst e2
      simp [State.setPort]
    · simp [e]
  have hfr : commandFrame s c = ⟨(s.ts.active.outlets[c.outlet]).valveAddress, s.liu.address, 0x32,
      [if c.move = .opens then 1 else 0]⟩ := by
    unfold commandFrame moveByte
    cases c.move <;> rfl
  unfold noteEntry commandSent
  rw [hp]
  rcases ha : awaiting c s with _ | q
  · rw [awaiting_none c s ha]
    simp only [Bool.false_eq_true, if_false]
    rw [hw, hfr]
    rfl
  · obtain ⟨h1, h3⟩ := awaiting_some c s q ha
    rw [h3]
    simp only [if_true]
    have hpc : phaseConfirmed w = decide (if s.cs.engine = .openNew then s.mg.valves[q.newOutlet].confirmed = .opened
        else q.closeConfirmed = true) := by
      have k := hconf q.newOutlet
      unfold isPhaseCommand at h3
      rw [h1] at h3
      unfold phaseConfirmed
      rw [hwc, h1]
      clear hw
      rcases he : s.cs.engine <;> rw [he] at h3
      · cases h3
      · simp only [if_true]; rw [k]; rfl
      · cases h3
      · simp
      · cases h3
      · cases h3
    rw [hpc, hwc, h1]
    simp only [decide_eq_true_eq]
    rw [hw, hfr]
    rfl

/-- A command formed (R106). -/
theorem formCommand_eq (c : Command) (s : State) : formCommand c s = commandFormed c s := by
  unfold formCommand commandFormed originatedFree
  split
  · rfl
  · have hl : (s.port .field).originated.length < 4 ↔ s.liu.field.originated.length < 4 := Iff.rfl
    simp only [decide_eq_true_eq]
    split
    · rename_i h
      rw [if_pos (hl.1 h)]
      have hb : closeBarred s c = true ↔ (c.move = .close ∧ s.vc.lineState = .moving ∧ s.mg.openOrder = [c.outlet]) := by
        unfold closeBarred State.moving
        simp [and_assoc]
      by_cases k : closeBarred s c = true
      · rw [if_pos (hb.1 k)]
        unfold enterCommand
        rw [k]; rfl
      · rw [if_neg (fun x => k (hb.2 x))]
        exact enterCommand_sends c s h (by simpa using k)
    · rename_i h
      rw [if_neg (fun x => h (hl.2 x))]
      rfl

theorem formCommand_enters (c : Command) (s : State) (h : CommandEnters s c.outlet) :
    formCommand c s = enterCommand c s := by
  unfold formCommand originatedFree
  have h1 : (s.cs.commands.any (fun d => d.outlet == c.outlet)) = false := by
    rw [Bool.eq_false_iff]; intro hh
    rw [List.any_eq_true] at hh
    obtain ⟨x, hx, he⟩ := hh
    exact h.2 x hx (by simpa using he)
  have h2 : (s.port .field).originated.length < 4 := h.1
  simp [h1, h2]

/-- A command formed touches the FIELD originated queue, the commanded positions and the sequencer alone. -/
theorem commandFormed_rest (c : Command) (s : State) :
    commandFormed c s = { s with
      liu := (commandFormed c s).liu, mg := { s.mg with valves := (commandFormed c s).mg.valves }
      cs := (commandFormed c s).cs }
    ∧ (commandFormed c s).cs = { s.cs with
        commands := (commandFormed c s).cs.commands, sequence := (commandFormed c s).cs.sequence
        stroke := (commandFormed c s).cs.stroke } := by
  unfold commandFormed
  split
  · exact ⟨rfl, rfl⟩
  · split
    · split
      · exact ⟨rfl, rfl⟩
      · exact ⟨rfl, rfl⟩
    · exact ⟨rfl, rfl⟩

/-- The dead-head guard (R129). -/
theorem guard_eq (byStart : Bool) (s : State) : guard byStart s = guarded byStart s := by
  unfold guard guarded
  have hc : (s.moving && s.mg.openOrder.isEmpty) = true ↔ (s.vc.lineState = .moving ∧ s.mg.openOrder = []) := by
    unfold State.moving
    simp [List.isEmpty_iff]
  by_cases h : (s.moving && s.mg.openOrder.isEmpty) = true
  · rw [if_pos h, if_pos (hc.1 h)]
    simp only
    have hr : (raiseDeadHead byStart s (openRelief s)) = raised .deadHead
        ⟨headId s, s.vc.lineCount, some (reliefOf s),
          (if (s.mg.valves[reliefOf s].commanded == some .opens || s.cs.commands.contains ⟨reliefOf s, .opens⟩) = true
            then 2 else 0) + (if byStart then 4 else 0), (modeCode s.mg.mode).toNat⟩
        (if (s.mg.valves[reliefOf s].commanded == some .opens || s.cs.commands.contains ⟨reliefOf s, .opens⟩) = true
          then s else commandFormed ⟨reliefOf s, .opens⟩ s) := by
      unfold raiseDeadHead openRelief
      rw [formCommand_eq]
      have hb : (if reliefOpening s = true then s else commandFormed ⟨s.relief, .opens⟩ s).bq = s.bq := by
        split
        · rfl
        · rw [(commandFormed_rest _ _).1]
      have hv : (if reliefOpening s = true then s else commandFormed ⟨s.relief, .opens⟩ s).vc = s.vc := by
        split
        · rfl
        · rw [(commandFormed_rest _ _).1]
      have hm : modeByte s.mg.mode = modeCode s.mg.mode := by cases s.mg.mode <;> rfl
      unfold State.entry0Id
      rw [hb, hv, hm]
      rfl
    rw [hr]
    unfold guardActed
    simp only
    generalize hop : (s.mg.valves[reliefOf s].commanded == some .opens || s.cs.commands.contains ⟨reliefOf s, .opens⟩) = opening
    obtain ⟨a, ha⟩ : ∃ a, a = raised .deadHead
        ⟨headId s, s.vc.lineCount, some (reliefOf s),
          (if opening = true then 2 else 0) + (if byStart then 4 else 0), (modeCode s.mg.mode).toNat⟩
        (if opening = true then s else commandFormed ⟨reliefOf s, .opens⟩ s) := ⟨_, rfl⟩
    rw [← ha]
    have hmode : a.mg.mode = s.mg.mode := by
      rw [ha]
      show (if opening = true then s else commandFormed ⟨reliefOf s, .opens⟩ s).mg.mode = _
      split
      · rfl
      · rw [(commandFormed_rest _ _).1]
    have heng : a.cs.engine = s.cs.engine := by
      rw [ha]
      show (if opening = true then s else commandFormed ⟨reliefOf s, .opens⟩ s).cs.engine = _
      split
      · rfl
      · rw [(commandFormed_rest _ _).2]
    rw [hmode, enterHeld_eq]
    have hb : ∀ b : State, b.cs.engine = s.cs.engine → abandon b = if s.cs.engine = .idle ∨ s.cs.engine = .faulted then b
        else { b with cs := { b.cs with
          engine := .faulted, sequence := none, phase := none, stroke := none, recovery := none } } := by
      intro b hbe
      unfold abandon
      rw [hbe]
      cases s.cs.engine <;> simp <;> rfl
    refine hb _ ?_
    split
    · rw [← enterHeld_eq, enterHeld_cs]; exact heng
    · exact heng
  · rw [if_neg h, if_neg (fun k => h (hc.2 k))]

/-- What the guard touches: the FIELD port, the MG but for its open order, the sequencer and the latches. -/
theorem guarded_rest (byStart : Bool) (s : State) :
    guarded byStart s = { s with
      liu := { s.liu with field := (guarded byStart s).liu.field }
      mg := { (guarded byStart s).mg with openOrder := s.mg.openOrder }
      cs := (guarded byStart s).cs, nu := (guarded byStart s).nu } := by
  have hc : ∀ c : Command, commandFormed c s = { s with
      liu := { s.liu with field := (commandFormed c s).liu.field }
      mg := { (commandFormed c s).mg with openOrder := s.mg.openOrder }, cs := (commandFormed c s).cs } := by
    intro c
    unfold commandFormed
    split
    · rfl
    · split
      · split <;> rfl
      · rfl
  unfold guarded
  split
  · unfold guardActed
    simp only
    generalize (s.mg.valves[reliefOf s].commanded == some .opens || s.cs.commands.contains ⟨reliefOf s, .opens⟩) = opening
    generalize (⟨headId s, s.vc.lineCount, some (reliefOf s), (if opening = true then 2 else 0)
      + (if byStart = true then 4 else 0), (modeCode s.mg.mode).toNat⟩ : Context) = x
    have ha : ∃ a : State, a = raised .deadHead x (if opening = true then s else commandFormed ⟨reliefOf s, .opens⟩ s)
        ∧ a = { s with
          liu := { s.liu with field := a.liu.field }, mg := { a.mg with openOrder := s.mg.openOrder }
          cs := a.cs, nu := a.nu } := by
      refine ⟨_, rfl, ?_⟩
      cases opening
      · simp only [Bool.false_eq_true, if_false]
        rw [hc]
        rfl
      · rfl
    obtain ⟨a, ea, ha⟩ := ha
    rw [← ea]
    have hb : ∃ b : State, b = (if s.mg.mode = .auto then heldEntered a else a) ∧ b = { s with
          liu := { s.liu with field := b.liu.field }, mg := { b.mg with openOrder := s.mg.openOrder }
          cs := b.cs, nu := b.nu } := by
      refine ⟨_, rfl, ?_⟩
      split
      · rw [heldEntered_rest, ha]
      · exact ha
    obtain ⟨b, eb, hb⟩ := hb
    rw [← eb]
    split
    · exact hb
    · rw [hb]
  · rfl

/-! ## The apply -/

theorem trapNoted_rest (n : Nat) (b : BatchId) (o : Outlet) (s : State) :
    trapNoted n b o s = { s with nu := (trapNoted n b o s).nu } := by
  unfold trapNoted
  split <;> rfl

theorem applyToQueue_eq (s : State) : applyToQueue s = queueTrapped s := by
  unfold applyToQueue queueTrapped
  simp only
  have key : ∀ (l : List Action) (u : State), u.ts = s.ts → u.mg = s.mg → u.vc = s.vc →
      trapEach 3 (fun a => (s.outlet a.target).enabled != 1) l u
        = (l.map (fun a => if (s.ts.active.outlets[a.target].enabled != 1) = true then { a with target := goesTo s a.target } else a),
            (l.filter (fun a => s.ts.active.outlets[a.target].enabled != 1)).foldl
              (fun t a => trapNoted 3 a.batch a.target t) u) := by
    intro l
    induction l with
    | nil => intro u _ _ _; rfl
    | cons a rest ih =>
      intro u ht hm hv
      unfold trapEach
      by_cases h : (s.ts.active.outlets[a.target].enabled != 1) = true
      · have h' : ((s.outlet a.target).enabled != 1) = true := h
        have hg : goesTo u a.target = goesTo s a.target := by unfold goesTo reliefOf; rw [ht, hm]
        simp only [h', if_true, laneTrap_eq]
        rw [ih _ (by rw [trapNoted_rest]; exact ht) (by rw [trapNoted_rest]; exact hm) (by rw [trapNoted_rest]; exact hv)]
        simp only [List.map_cons, h, if_true, List.filter_cons, List.foldl_cons, hg]
      · have h' : ¬ ((s.outlet a.target).enabled != 1) = true := h
        simp only [h', if_false, Bool.false_eq_true]
        rw [ih u ht hm hv]
        simp only [List.map_cons, h, if_false, List.filter_cons, Bool.false_eq_true]
  rw [key _ s rfl rfl rfl]
  rfl

theorem timerReached_iff {w : Nat} (now : Time) (start : Option Time) (old new : BitVec w) :
    (old ≠ new ∧ timerReached now start (new.toNat * 1000) = true) ↔ ReachedAnew now start old.toNat new.toNat := by
  unfold timerReached ReachedAnew
  exact and_congr (not_congr ⟨fun h => by rw [h], fun h => BitVec.eq_of_toNat_eq h⟩) Iff.rfl

theorem applyToEvaluator_eq (s : State) :
    applyToEvaluator s.ts.active.segment s.ts.pending.segment s.de = appliedEvaluator s := by
  unfold applyToEvaluator appliedEvaluator clampInt
  simp only
  congr 1
  have h : (0 : Int) ≤ (s.ts.pending.segment.offsetLimit.toNat : Int) := Int.natCast_nonneg _
  generalize (s.ts.pending.segment.offsetLimit.toNat : Int) = l at h
  generalize s.de.offset = x
  split
  · omega
  · split <;> omega

theorem applyToGuard_eq (s : State) : applyToGuard s.ts.active s.ts.pending s.mg = appliedGuard s := rfl

/-- R12: the Volume Counter at an apply. -/
theorem applyTimers_eq (s : State) (x : TableStore) (y : DensityEvaluator)
    (hx : x.active = s.ts.pending) :
    applyStillTime s.ts.active.segment s.ts.pending.segment
        (applySilenceTime s.ts.active.segment s.ts.pending.segment
          (applyMeterAddress s.ts.active.segment s.ts.pending.segment ((s.setTs x).setDe y)))
      = { appliedTimers s with ts := x, de := y } := by
  have h1 : applyMeterAddress s.ts.active.segment s.ts.pending.segment ((s.setTs x).setDe y)
      = { s with
          ts := x, de := y
          vc := { s.vc with
            lastTotal := if (s.ts.active.segment.meterAddress != s.ts.pending.segment.meterAddress) = true then none
              else s.vc.lastTotal
            silenceTimer := if (s.ts.active.segment.meterAddress != s.ts.pending.segment.meterAddress) = true then some s.now
              else s.vc.silenceTimer } } := by
    unfold applyMeterAddress
    by_cases h : s.ts.active.segment.meterAddress = s.ts.pending.segment.meterAddress
    · simp [h]; rfl
    · simp [h]; rfl
  rw [h1]
  unfold applySilenceTime applyStillTime appliedTimers
  simp only [timerReached_iff]
  generalize (if (s.ts.active.segment.meterAddress != s.ts.pending.segment.meterAddress) = true then some s.now
              else s.vc.silenceTimer) = timer
  generalize (if (s.ts.active.segment.meterAddress != s.ts.pending.segment.meterAddress) = true then none
              else s.vc.lastTotal) = total
  have key : ∀ u v : State, u = { v with ts := x, de := y } → v.vc.stillTimer = s.vc.stillTimer → v.now = s.now →
      v.bq = s.bq → v.vc.lineCount = s.vc.lineCount →
      (if ReachedAnew u.now u.vc.stillTimer s.ts.active.segment.stillTime.toNat s.ts.pending.segment.stillTime.toNat then
        stillExpires u else u)
        = { (if ReachedAnew s.now s.vc.stillTimer s.ts.active.segment.stillTime.toNat
              s.ts.pending.segment.stillTime.toNat then
            raised .lineState ⟨headId s, s.vc.lineCount, none, 0, s.ts.pending.segment.stillTime.toNat⟩
              { v with vc := { v.vc with stillTimer := none, lineState := .still } }
          else v) with ts := x, de := y } := by
    intro u v hu h1 h2 h3 h4
    subst hu
    simp only [h1, h2]
    by_cases ht : ReachedAnew s.now s.vc.stillTimer s.ts.active.segment.stillTime.toNat s.ts.pending.segment.stillTime.toNat
    · rw [if_pos ht, if_pos ht]
      unfold stillExpires State.segment State.entry0Id headId
      rw [← h3, ← h4, ← hx]
      rfl
    · rw [if_neg ht, if_neg ht, h2]
  by_cases hs : ReachedAnew s.now timer s.ts.active.segment.silenceTime.toNat s.ts.pending.segment.silenceTime.toNat
  · rw [if_pos hs, if_pos hs]
    refine key _ _ ?_ rfl rfl rfl rfl
    unfold silenceExpires State.segment
    simp only [hx]
    rfl
  · rw [if_neg hs, if_neg hs]
    exact key _ _ rfl rfl rfl rfl rfl

theorem appliedTimers_rest (s : State) :
    appliedTimers s = { s with vc := (appliedTimers s).vc, nu := (appliedTimers s).nu }
      ∧ (appliedTimers s).vc.lineCount = s.vc.lineCount := by
  unfold appliedTimers
  simp only
  split_ifs <;> exact ⟨rfl, rfl⟩

theorem flag_ne {α : Type} [DecidableEq α] [BEq α] [LawfulBEq α] (a b : α) (n : Nat) :
    flag (a != b) n = if a = b then 0 else n := by
  unfold flag
  by_cases h : a = b <;> simp [h]

/-- What the queue's lane trap leaves alone (R31). -/
theorem queueTrapped_rest (s : State) :
    queueTrapped s = { s with nu := (queueTrapped s).nu, cs := { s.cs with queue := (queueTrapped s).cs.queue } } := by
  have key : ∀ (l : List Action) (u : State),
      l.foldl (fun t a => trapNoted 3 a.batch a.target t) u
        = { u with nu := (l.foldl (fun t a => trapNoted 3 a.batch a.target t) u).nu } := by
    intro l
    induction l with
    | nil => intro u; rfl
    | cons a rest ih =>
      intro u
      rw [List.foldl_cons, ih, trapNoted_rest]
  unfold queueTrapped
  simp only
  rw [key]

/-- The apply (R29, R31). -/
theorem applyTables_eq (window : Bool) (s : State) : applyTables window s = applied window s := by
  obtain ⟨b, hb⟩ : ∃ b : State, b = { appliedTimers s with
    ts := { s.ts with active := s.ts.pending, armed := false }, de := appliedEvaluator s, mg := appliedGuard s } := ⟨_, rfl⟩
  obtain ⟨d, hd⟩ : ∃ d : State, d = (let c := if s.mg.openOrder ≠ [] ∧ b.mg.openOrder = [] then guarded false b else b
    if c.mg.mode = .manual then c else withdrawn c) := ⟨_, rfl⟩
  have hbd : d.bq = b.bq ∧ d.vc = b.vc := by
    rw [hd]
    simp only
    have hg : ∀ c : State, (if c.mg.mode = .manual then c else withdrawn c).bq = c.bq
        ∧ (if c.mg.mode = .manual then c else withdrawn c).vc = c.vc := by
      intro c
      split
      · exact ⟨rfl, rfl⟩
      · rw [withdrawn_rest]; exact ⟨rfl, rfl⟩
    rw [(hg _).1, (hg _).2]
    split
    · rw [guarded_rest]; exact ⟨rfl, rfl⟩
    · exact ⟨rfl, rfl⟩
  have hbq : b.bq = s.bq := by rw [hb, (appliedTimers_rest s).1]
  have hbv : b.vc.lineCount = s.vc.lineCount := by rw [hb]; exact (appliedTimers_rest s).2
  have hm : applyManifold s.ts.active s.ts.pending { appliedTimers s with
      ts := { s.ts with active := s.ts.pending, armed := false }, de := appliedEvaluator s } = d := by
    unfold applyManifold
    simp only
    have hmg : (appliedTimers s).mg = s.mg := by rw [(appliedTimers_rest s).1]
    simp only [hmg, applyToGuard_eq, guard_eq, withdrawManifold_eq]
    rw [hd, hb]
    have hc : ((!s.mg.openOrder.isEmpty && (appliedGuard s).openOrder.isEmpty) = true)
        ↔ (s.mg.openOrder ≠ [] ∧ (appliedGuard s).openOrder = []) := by
      simp [List.isEmpty_iff]
    simp only [State.setMg, hc]
  unfold applyTables
  simp only
  rw [show applyToEvaluator s.ts.active.segment s.ts.pending.segment
      (s.setTs { s.ts with active := s.ts.pending, armed := false }).de = appliedEvaluator s from applyToEvaluator_eq s]
  rw [applyTimers_eq s { s.ts with active := s.ts.pending, armed := false } (appliedEvaluator s) rfl, hm, applyToQueue_eq]
  have ha : applied window s = raised .tablesApplied
      ⟨headId s, s.vc.lineCount, none, if window then 1 else 0,
        ((if s.ts.active.products = s.ts.pending.products then 0 else 1)
          + (if s.ts.active.outlets = s.ts.pending.outlets then 0 else 2)
          + (if s.ts.active.rules = s.ts.pending.rules then 0 else 4)
          + (if s.ts.active.segment = s.ts.pending.segment then 0 else 8) : Nat)⟩ (queueTrapped d) := by
    rw [hd, hb]
    rfl
  rw [ha]
  have hq : (queueTrapped d).bq = s.bq := by rw [queueTrapped_rest]; exact hbd.1.trans hbq
  have hv : (queueTrapped d).vc.lineCount = s.vc.lineCount := by
    rw [queueTrapped_rest]
    show d.vc.lineCount = _
    rw [hbd.2, hbv]
  unfold State.entry0Id tablesDiffering
  rw [hq, hv, flag_ne, flag_ne, flag_ne, flag_ne]
  rfl

theorem applyDue_iff (s : State) : applyDue s = true ↔ ApplyDue s := by
  unfold applyDue quietPoint ApplyDue
  simp [and_assoc, Option.isNone_iff_eq_none]

theorem applyIfDue_eq (window : Bool) (s : State) : applyIfDue window s = applyChecked window s := by
  unfold applyIfDue applyChecked
  by_cases h : applyDue s = true
  · rw [if_pos h, if_pos ((applyDue_iff s).1 h), applyTables_eq]
  · rw [if_neg h, if_neg (fun k => h ((applyDue_iff s).2 k))]

end Sys2Proof.Machine
end

