-- ==== Sys2Proof/Laws/Running.lean ====
section
/-! SUPPORT. The words of Sys2Proof/Safety/Effects.lean for the sequence engine and the tracker against the operations of
the model: phases, the start of an action, failures, the engine's run, insertions, decisions and the end of an
interface. -/

namespace Sys2Proof.Machine

/-! ## Phases -/

theorem recoveryMs_eq (s : State) (q : Sequence) : recoveryMs s q = recoveryTime s q := by
  unfold recoveryMs recoveryTime
  have h : ∀ r : Reason, (r == .head || r == .tail || r == .single) = true ↔ r ∈ [Reason.head, .tail, .single] := by
    intro r
    cases r <;> simp
  simp only [Bool.and_eq_true, h]
  rfl

theorem reasonCode_eq (r : Reason) : reasonCode r = reasonNumber r := by cases r <;> rfl

theorem enterOverlap_eq (q : Sequence) (s : State) : enterOverlap q s = overlapBegun q s := rfl

theorem enterCloseOld_eq (q : Sequence) (o : Outlet) (s : State) : enterCloseOld q o s = closingBegun q o s := by
  unfold enterCloseOld
  rw [formCommand_eq]
  rfl

theorem enterRecovery_eq (q : Sequence) (s : State) : enterRecovery q s = recoveryBegun q s := by
  unfold enterRecovery recoveryBegun raiseCutDone startTimer
  rw [recoveryMs_eq, reasonCode_eq]
  rfl

theorem enterOpenNew_eq (q : Sequence) (s : State) : enterOpenNew q s = moveBegun q s.cs.queue s := by
  unfold enterOpenNew
  rw [formCommand_eq]
  rfl

/-! ## The start of an action -/

/-- The start of the head action (R104). -/
theorem startAction_eq (isRoute : Bool) (a : Action) (rest : List Action) (s : State) (hq : s.cs.queue = a :: rest) :
    startAction isRoute s = actionStarted isRoute a rest s := by
  unfold startAction
  rw [hq]
  simp only [laneTrap_eq]
  unfold actionStarted
  have hT := trapNoted_rest 1 a.batch a.target s
  obtain ⟨n, hn⟩ : ∃ n, n = (trapNoted 1 a.batch a.target s).nu := ⟨_, rfl⟩
  rw [← hn] at hT
  rw [hT]
  simp only [accountReported_eq, enterOpenNew_eq]
  simp only [State.setCs, reportLateness, State.setTu, State.segment, State.routed, raiseLateCut, raise, State.setNu,
    raised_eq, raiseCutDone, reasonCode_eq, flag, stated31, latchEvent, litres]
  generalize (s.vc.lineCount - a.fire).toNat = late
  by_cases hr : s.mg.openOrder.getLast? = some (goesTo s a.target)
  · by_cases hl : s.ts.active.segment.lateLimit.toNat < late
    · simp [hl, hr]
    · simp [hl, hr]
  · have hr' : ¬ (some (goesTo s a.target) = s.mg.openOrder.getLast?) := fun e => hr e.symm
    by_cases hl : s.ts.active.segment.lateLimit.toNat < late
    · simp only [hl, hr, hr', if_true, if_false]
      rfl
    · simp only [hl, hr, hr', if_true, if_false]
      rfl

/-! ## Failures -/

theorem openFailure_eq (q : Sequence) (flags : Nat) (s : State) (h : s.cs.sequence = some q) :
    openFailure flags s = openFailed q flags (strokeElapsed s) s := by
  unfold openFailure
  rw [h]
  simp only [enterHeld_eq, formCommand_eq]
  have hw : ∀ u : State, (heldEntered u).vc = u.vc := fun u => by rw [heldEntered_rest]
  have key : ∀ (drop : State → State) (a : State), a = commandFormed ⟨q.newOutlet, .close⟩ (stopTimers s) →
      (∀ u : State, drop u = { u with cs := { u.cs with
        commands := u.cs.commands.filter (fun c => !decide (q.oldOutlet = some c.outlet ∧ c.move = .close)) } }) →
      raiseValveFault q.action.batch q.newOutlet flags (strokeSeconds s) (heldEntered
        ((drop (setAvailable q.newOutlet false a)).setCs { (drop (setAvailable q.newOutlet false a)).cs with
          sequence := none, engine := .faulted })) = openFailed q flags (strokeElapsed s) s := by
    intro drop a ha hd
    have hv : a.vc = s.vc := by rw [ha, (commandFormed_rest _ _).1]; rfl
    unfold raiseValveFault
    rw [hd, hw]
    show raise .valveFault ⟨q.action.batch, a.vc.lineCount, _, _, _⟩ _ = _
    rw [hv]
    subst ha
    rfl
  cases ho : q.oldOutlet with
  | none => exact key id _ rfl (fun u => by simp [ho])
  | some o =>
    refine key (dropCommand ⟨o, .close⟩) _ rfl (fun u => ?_)
    unfold dropCommand
    simp only [State.setCs, ho]
    congr 2
    apply List.filter_congr
    rintro ⟨co, cm⟩ _
    simp [eq_comm]

theorem closeFailure_eq (q : Sequence) (o : Outlet) (flags : Nat) (s : State) (h : s.cs.sequence = some q)
    (ho : q.oldOutlet = some o) : closeFailure flags s = closeFailed q o (1 + flags) (strokeElapsed s) s := by
  unfold closeFailure
  rw [h]
  simp only [ho, enterHeld_eq]
  unfold closeFailed raiseValveFault
  have hw : ∀ u : State, (heldEntered u).vc = u.vc := fun u => by rw [heldEntered_rest]
  rw [hw]
  unfold dropCommand setAvailable stopTimers
  simp only [State.setCs, State.setValve, State.setMg, decide_not]
  congr 4

/-! ## The engine's run -/

theorem phaseConfirmed_iff (s : State) (q : Sequence) (he : s.cs.engine = .openNew) (hq : s.cs.sequence = some q) :
    phaseConfirmed s = true ↔ s.mg.valves[q.newOutlet].confirmed = .opened := by
  unfold phaseConfirmed
  simp [he, hq]

theorem canStart_iff (s : State) : canStart s = true ↔ ∃ a rest, StartDue a rest s := by
  unfold canStart StartDue
  rcases s.cs.queue with _ | ⟨a, rest⟩
  · simp
  · simp [and_assoc]

theorem engineStep_moves (s t : State) (h : engineStep s = some t) : EngineMoves s t := by
  unfold engineStep at h
  split at h
  · rename_i he
    unfold idleStep at h
    simp only [applyTables_eq] at h
    by_cases hd : applyDue s = true
    · have hd' := (applyDue_iff s).1 hd
      rw [if_pos hd] at h
      by_cases hc : canStart s = true
      · obtain ⟨a, rest, hs⟩ := (canStart_iff s).1 hc
        rw [if_pos hc, startAction_eq false a rest (s.setRaces (s.races + 1)) hs.2.2.1] at h
        cases hf : Config.freeApplyFirst s.races <;> rw [hf] at h <;> cases h
        · exact .startsFirst a rest hd' hs
        · exact .appliesFirst a rest hd' hs
      · rw [if_neg hc] at h
        cases h
        exact .applies hd' (fun a rest hs => hc ((canStart_iff s).2 ⟨a, rest, hs⟩))
    · rw [if_neg hd] at h
      by_cases hc : canStart s = true
      · obtain ⟨a, rest, hs⟩ := (canStart_iff s).1 hc
        rw [if_pos hc, startAction_eq false a rest _ hs.2.2.1] at h
        cases h
        exact .starts a rest hs (fun k => hd ((applyDue_iff s).2 k))
      · rw [if_neg hc] at h; cases h
  · rename_i q he hq
    split at h
    · rename_i hp
      simp only [Bool.and_eq_true, Option.isNone_iff_eq_none] at hp
      cases h
      exact .overlaps q he hq hp.1 ((phaseConfirmed_iff s q he hq).1 hp.2)
    · cases h
  · rename_i q he hq
    split at h
    · rename_i hp
      rw [Option.isNone_iff_eq_none] at hp
      cases h
      split
      · rename_i o ho
        rw [enterCloseOld_eq]
        exact .closes q o he hq hp ho
      · rename_i ho
        rw [enterRecovery_eq]
        exact .recovers q he hq hp ho
    · cases h
  · rename_i q he hq
    split at h
    · rename_i hp
      simp only [Bool.and_eq_true, Option.isNone_iff_eq_none] at hp
      cases h
      rw [enterRecovery_eq]
      exact .closed q he hq hp.1 hp.2
    · cases h
  · rename_i he
    split at h
    · rename_i hp
      rw [Option.isNone_iff_eq_none] at hp
      cases h
      exact .idles he hp
    · cases h
  · cases h

theorem engineStep_stops (s t : State) (h : engineStep s = none) : ¬ EngineMoves s t := by
  intro k
  have idle : s.cs.engine = .idle → applyDue s = false ∧ canStart s = false := by
    intro he
    unfold engineStep at h
    rw [he] at h
    simp only [idleStep] at h
    by_cases hd : applyDue s = true <;> by_cases hc : canStart s = true <;> simp [hd, hc] at h ⊢
  cases k with
  | applies hd _ => exact absurd ((applyDue_iff s).2 hd) (by rw [(idle hd.2.2.2.1).1]; simp)
  | starts a rest hs _ => exact absurd ((canStart_iff s).2 ⟨a, rest, hs⟩) (by rw [(idle hs.1).2]; simp)
  | appliesFirst a rest hd _ => exact absurd ((applyDue_iff s).2 hd) (by rw [(idle hd.2.2.2.1).1]; simp)
  | startsFirst a rest hd _ => exact absurd ((applyDue_iff s).2 hd) (by rw [(idle hd.2.2.2.1).1]; simp)
  | overlaps q he hq hp hc =>
    have := (phaseConfirmed_iff s q he hq).2 hc
    simp [engineStep, he, hq, hp, this] at h
  | closes q o he hq hp ho => simp [engineStep, he, hq, hp] at h
  | recovers q he hq hp ho => simp [engineStep, he, hq, hp] at h
  | closed q he hq hp hc => simp [engineStep, he, hq, hp, hc] at h
  | idles he hp => simp [engineStep, he, hp] at h

/-- How many moves the engine can still make within one event: at most five for each action, and an apply (log 29). -/
def movesLeft (s : State) : Nat :=
  (if s.ts.armed then 1 else 0) + match s.cs.engine with
  | .idle => 5 * s.cs.queue.length
  | .openNew => 5 * max s.cs.queue.length 1 - 1
  | .overlap => 5 * max s.cs.queue.length 1 - 2
  | .closeOld => 5 * max s.cs.queue.length 1 - 3
  | .recovery => 5 * s.cs.queue.length + 1
  | .faulted => 0

theorem trapNoted_keeps (n : Nat) (b : BatchId) (o : Outlet) (s : State) :
    (trapNoted n b o s).cs = s.cs ∧ (trapNoted n b o s).ts = s.ts := by
  rw [trapNoted_rest]; exact ⟨rfl, rfl⟩

theorem commandFormed_keeps (c : Command) (s : State) :
    (commandFormed c s).cs.engine = s.cs.engine ∧ (commandFormed c s).cs.queue = s.cs.queue
      ∧ (commandFormed c s).ts = s.ts := by
  rw [(commandFormed_rest c s).1, (commandFormed_rest c s).2]; exact ⟨rfl, rfl, rfl⟩

/-- What a start leaves of the engine and the queue: the move begun, or the action removed (R104). -/
theorem actionStarted_leaves (isRoute : Bool) (a : Action) (rest : List Action) (s : State) :
    (actionStarted isRoute a rest s).ts = s.ts
      ∧ (((actionStarted isRoute a rest s).cs.engine = .openNew
            ∧ (actionStarted isRoute a rest s).cs.queue.length = rest.length + 1)
          ∨ ((actionStarted isRoute a rest s).cs.engine = s.cs.engine
            ∧ (actionStarted isRoute a rest s).cs.queue = rest)) := by
  have k := trapNoted_keeps 1 a.batch a.target s
  have key : ∀ (x : State) (p : Prop) [Decidable p] (c : Context) (q : Sequence) (a' : Action),
      x.cs = s.cs → x.ts = s.ts →
      let t := if p then raised .cutDone c { x with cs := { x.cs with queue := rest } } else moveBegun q (a' :: rest) x
      t.ts = s.ts ∧ ((t.cs.engine = .openNew ∧ t.cs.queue.length = rest.length + 1)
        ∨ (t.cs.engine = s.cs.engine ∧ t.cs.queue = rest)) := by
    intro x p _ c q a' hc ht
    simp only
    split
    · exact ⟨ht, Or.inr ⟨congrArg (·.engine) hc, rfl⟩⟩
    · unfold moveBegun
      refine ⟨(commandFormed_keeps _ _).2.2.trans ht, Or.inl ⟨(commandFormed_keeps _ _).1, ?_⟩⟩
      rw [(commandFormed_keeps _ _).2.1]; rfl
  unfold actionStarted
  refine key _ _ _ _ _ ?_ ?_
  · split <;> exact k.1
  · split <;> exact k.2

/-- The guard leaves an IDLE engine IDLE, and the action queue and the tables alone (R129). -/
theorem guarded_keeps (byStart : Bool) (s : State) (h : s.cs.engine = .idle) :
    (guarded byStart s).cs.engine = .idle ∧ (guarded byStart s).cs.queue = s.cs.queue
      ∧ (guarded byStart s).ts = s.ts := by
  have hw : ∀ u : State, (heldEntered u).cs = u.cs := fun u => by rw [heldEntered_rest]
  have ho : ∀ (p : Prop) [Decidable p] (c : Command) (x : Context),
      (raised .deadHead x (if p then s else commandFormed c s)).cs.engine = .idle
        ∧ (raised .deadHead x (if p then s else commandFormed c s)).cs.queue = s.cs.queue := by
    intro p _ c x
    show (ite p s (commandFormed c s)).cs.engine = _ ∧ (ite p s (commandFormed c s)).cs.queue = _
    split
    · exact ⟨h, rfl⟩
    · exact ⟨(commandFormed_keeps c s).1.trans h, (commandFormed_keeps c s).2.1⟩
  refine ⟨?_, ?_, by rw [guarded_rest]⟩
  all_goals
    unfold guarded
    split
    · unfold guardActed
      simp only [h, true_or, if_true]
      split
      · rw [hw]
        first
          | exact (ho _ _ _).1
          | exact (ho _ _ _).2
      · first
          | exact (ho _ _ _).1
          | exact (ho _ _ _).2
    · first
        | exact h
        | rfl

/-- An apply at IDLE leaves the engine IDLE and the queue as long as it was (R31). -/
theorem applied_leaves (window : Bool) (s : State) (h : s.cs.engine = .idle) :
    (applied window s).cs.engine = .idle ∧ (applied window s).cs.queue.length = s.cs.queue.length
      ∧ (applied window s).ts.armed = false := by
  have hw : ∀ u : State, (withdrawn u).cs = u.cs ∧ (withdrawn u).ts = u.ts := fun u => by
    rw [withdrawn_rest]; exact ⟨rfl, rfl⟩
  have hq : ∀ u : State, (queueTrapped u).cs.engine = u.cs.engine ∧ (queueTrapped u).ts = u.ts
      ∧ (queueTrapped u).cs.queue.length = u.cs.queue.length := fun u => by
    refine ⟨by rw [queueTrapped_rest], by rw [queueTrapped_rest], ?_⟩
    unfold queueTrapped
    simp
  unfold applied
  simp only
  show (queueTrapped _).cs.engine = _ ∧ (queueTrapped _).cs.queue.length = _ ∧ (queueTrapped _).ts.armed = _
  rw [(hq _).1, (hq _).2.1, (hq _).2.2]
  obtain ⟨b, hb⟩ : ∃ b : State, b = { appliedTimers s with
    ts := { s.ts with active := s.ts.pending, armed := false }, de := appliedEvaluator s, mg := appliedGuard s } := ⟨_, rfl⟩
  have hbc : b.cs = s.cs ∧ b.ts.armed = false := by
    rw [hb, (appliedTimers_rest s).1]; exact ⟨rfl, rfl⟩
  rw [← hb]
  obtain ⟨c, hc⟩ : ∃ c : State, c = if s.mg.openOrder ≠ [] ∧ b.mg.openOrder = [] then guarded false b else b := ⟨_, rfl⟩
  have hcc : c.cs.engine = .idle ∧ c.cs.queue = s.cs.queue ∧ c.ts.armed = false := by
    rw [hc]
    have hi : b.cs.engine = .idle := by rw [hbc.1]; exact h
    split
    · exact ⟨(guarded_keeps false b hi).1, by rw [(guarded_keeps false b hi).2.1, hbc.1],
        by rw [(guarded_keeps false b hi).2.2]; exact hbc.2⟩
    · exact ⟨hi, by rw [hbc.1], hbc.2⟩
  rw [show (appliedGuard s).openOrder = b.mg.openOrder by rw [hb], ← hc]
  split
  · exact ⟨hcc.1, congrArg List.length hcc.2.1, hcc.2.2⟩
  · rw [(hw c).1, (hw c).2]
    exact ⟨hcc.1, congrArg List.length hcc.2.1, hcc.2.2⟩

theorem EngineMoves.less {s t : State} (h : EngineMoves s t) : movesLeft t < movesLeft s := by
  have apply : ∀ u : State, u.cs = s.cs → s.cs.engine = .idle → s.ts.armed = true →
      movesLeft (applied false u) < movesLeft s := by
    intro u hu he ha
    obtain ⟨h1, h2, h3⟩ := applied_leaves false u (by rw [hu]; exact he)
    unfold movesLeft
    rw [h1, h2, h3, he, ha, hu]
    simp
  have start : ∀ (a : Action) (rest : List Action) (u : State), u.ts = s.ts → u.cs = s.cs → StartDue a rest s →
      movesLeft (actionStarted false a rest u) < movesLeft s := by
    intro a rest u ht hu hs
    obtain ⟨h1, h2⟩ := actionStarted_leaves false a rest u
    unfold movesLeft
    rw [h1, ht, hs.1, hs.2.2.1]
    rcases h2 with ⟨h2, h3⟩ | ⟨h2, h3⟩
    · rw [h2, h3]; simp only [List.length_cons]; omega
    · rw [h2, h3, hu, hs.1]; simp only [List.length_cons]; omega
  cases h with
  | applies hd _ => exact apply s rfl hd.2.2.2.1 hd.1
  | starts a rest hs _ => exact start a rest s rfl rfl hs
  | appliesFirst a rest hd _ => exact apply _ rfl hd.2.2.2.1 hd.1
  | startsFirst a rest _ hs => exact start a rest _ rfl rfl hs
  | overlaps q he hq hp hc => unfold movesLeft overlapBegun; rw [he]; simp only; omega
  | closes q o he hq hp ho =>
    unfold movesLeft closingBegun
    simp only [commandFormed_keeps, he]
    omega
  | recovers q he hq hp ho =>
    show (if s.ts.armed then 1 else 0) + (5 * s.cs.queue.tail.length + 1) < movesLeft s
    unfold movesLeft
    rw [he, List.length_tail]
    simp only
    omega
  | closed q he hq hp hc =>
    show (if s.ts.armed then 1 else 0) + (5 * s.cs.queue.tail.length + 1) < movesLeft s
    unfold movesLeft
    rw [he, List.length_tail]
    simp only
    omega
  | idles he hp => unfold movesLeft; rw [he]; simp only; omega

theorem engineLoop_runs (n : Nat) (s : State) (h : movesLeft s ≤ n) : EngineRuns s (engineLoop n s) := by
  induction n generalizing s with
  | zero =>
    refine .stops s (fun t k => ?_)
    have := k.less
    omega
  | succ n ih =>
    show EngineRuns s (match engineStep s with | none => s | some s' => engineLoop n s')
    rcases hs : engineStep s with _ | u
    · exact .stops s (fun t => engineStep_stops s t hs)
    · have k := engineStep_moves s u hs
      exact .moves s u _ k (ih u (by have := k.less; omega))

/-- The engine's run within one event goes as far as it can, while the action queue keeps within its places (R99;
log 29). -/
theorem engineRun_runs (s : State) (h : s.cs.queue.length ≤ 8) : EngineRuns s (engineRun s) := by
  refine engineLoop_runs 64 s ?_
  unfold movesLeft
  split <;> split <;> omega

/-- The engine's run is its first move and the run from there. -/
theorem engineRun_step (s u : State) (h : s.cs.queue.length ≤ 8) (k : engineStep s = some u) : engineRun s = engineRun u := by
  have key : ∀ (n : Nat) (v : State), movesLeft v ≤ n → engineLoop (n + 1) v = engineLoop n v := by
    intro n
    induction n with
    | zero =>
      intro v hv
      show (match engineStep v with | none => v | some s' => engineLoop 0 s') = v
      rcases hs : engineStep v with _ | w
      · rfl
      · have := (engineStep_moves v w hs).less
        omega
    | succ n ih =>
      intro v hv
      show (match engineStep v with | none => v | some s' => engineLoop (n + 1) s')
        = (match engineStep v with | none => v | some s' => engineLoop n s')
      rcases hs : engineStep v with _ | w
      · rfl
      · exact ih w (by have := (engineStep_moves v w hs).less; omega)
  have hm : movesLeft s ≤ 42 := by
    unfold movesLeft
    split <;> split <;> omega
  have hu := (engineStep_moves s u k).less
  show (match engineStep s with | none => s | some s' => engineLoop 63 s') = engineLoop 64 u
  rw [k]
  exact (key 63 u (by omega)).symm

theorem engineRun_stop (s : State) (h : engineStep s = none) : engineRun s = s := by
  show (match engineStep s with | none => s | some s' => engineLoop 63 s') = s
  rw [h]

/-! ## What the engine's run leaves alone -/

/-- The interface tracker and the batch queue are as they were. -/
structure BatchesKept (s t : State) : Prop where
  it : t.it = s.it
  bq : t.bq = s.bq

theorem BatchesKept.trans {s t u : State} (h : BatchesKept s t) (k : BatchesKept t u) : BatchesKept s u :=
  ⟨k.it.trans h.it, k.bq.trans h.bq⟩

theorem BatchesKept.from {s u t : State} (h : BatchesKept u t) (hi : u.it = s.it) (hb : u.bq = s.bq) : BatchesKept s t :=
  ⟨h.it.trans hi, h.bq.trans hb⟩

theorem commandFormed_batches (c : Command) (s : State) : BatchesKept s (commandFormed c s) := by
  rw [(commandFormed_rest c s).1]; exact ⟨rfl, rfl⟩

theorem actionStarted_batches (isRoute : Bool) (a : Action) (rest : List Action) (s : State) :
    BatchesKept s (actionStarted isRoute a rest s) := by
  have k : BatchesKept s (trapNoted 1 a.batch a.target s) := by rw [trapNoted_rest]; exact ⟨rfl, rfl⟩
  have key : ∀ (x : State) (p : Prop) [Decidable p] (c : Context) (q : Sequence) (a' : Action), BatchesKept s x →
      BatchesKept s
        (if p then raised .cutDone c { x with cs := { x.cs with queue := rest } } else moveBegun q (a' :: rest) x) := by
    intro x p _ c q a' h
    split
    · exact ⟨h.it, h.bq⟩
    · exact (commandFormed_batches _ { x with cs := _ }).from h.it h.bq
  unfold actionStarted
  refine key _ _ _ _ _ ?_
  split <;> exact ⟨k.it, k.bq⟩

theorem applied_batches (window : Bool) (s : State) : BatchesKept s (applied window s) := by
  have hq : ∀ u : State, BatchesKept u (queueTrapped u) := fun u => by rw [queueTrapped_rest]; exact ⟨rfl, rfl⟩
  have hw : ∀ u : State, BatchesKept u (if u.mg.mode = .manual then u else withdrawn u) := fun u => by
    split
    · exact ⟨rfl, rfl⟩
    · rw [withdrawn_rest]; exact ⟨rfl, rfl⟩
  have hg : ∀ (p : Prop) [Decidable p] (u : State), BatchesKept u (if p then guarded false u else u) := fun p _ u => by
    split
    · rw [guarded_rest]; exact ⟨rfl, rfl⟩
    · exact ⟨rfl, rfl⟩
  have hb : BatchesKept s { appliedTimers s with
      ts := { s.ts with active := s.ts.pending, armed := false }, de := appliedEvaluator s, mg := appliedGuard s } := by
    rw [(appliedTimers_rest s).1]; exact ⟨rfl, rfl⟩
  have k := ((hb.trans (hg (s.mg.openOrder ≠ [] ∧ (appliedGuard s).openOrder = []) _)).trans (hw _)).trans (hq _)
  exact ⟨k.it, k.bq⟩

theorem EngineMoves.batches {s t : State} (h : EngineMoves s t) : BatchesKept s t := by
  cases h with
  | applies _ _ => exact applied_batches false s
  | starts a rest _ _ => exact actionStarted_batches false a rest s
  | appliesFirst _ _ _ _ => exact (applied_batches false _).from rfl rfl
  | startsFirst a rest _ _ => exact (actionStarted_batches false a rest _).from rfl rfl
  | closes _ _ _ _ _ _ => exact (commandFormed_batches _ _).from rfl rfl
  | _ => exact ⟨rfl, rfl⟩

/-- The engine's run within one event leaves the tracker and the batch queue alone. -/
theorem engineRun_batches (s : State) : BatchesKept s (engineRun s) := by
  have key : ∀ (n : Nat) (u : State), BatchesKept u (engineLoop n u) := by
    intro n
    induction n with
    | zero => exact fun u => ⟨rfl, rfl⟩
    | succ n ih =>
      intro u
      show BatchesKept u (match engineStep u with | none => u | some v => engineLoop n v)
      rcases hs : engineStep u with _ | v
      · exact ⟨rfl, rfl⟩
      · exact (engineStep_moves u v hs).batches.trans (ih v)
  exact key 64 s

/-! ## Insertions -/

theorem appendAction_eq (o : Offer) (s : State) : appendAction o s = (storedAction o s, inserted o s) := by
  unfold appendAction
  rw [laneTrap_eq]
  have e : (⟨o.reason, o.batch, o.source, goesTo s o.target, decisionOf o.fire,
      heldBack s.cs.queue (computedFire s o.fire (goesTo s o.target)), o.familyChange⟩ : Action) = storedAction o s := by
    unfold storedAction heldBack computedFire decisionOf
    simp only [raiseTo_eq]
    rcases hf : o.fire with d | m | _ <;> rcases s.cs.queue.getLast? with _ | l <;> rfl
  simp only [offeredAction]
  rw [e]
  rfl

/-- An insertion (R99). -/
theorem insertAction_eq (o : Offer) (s : State) : insertAction o s = ((storedAction o s).fire, insertedNow o s) := by
  unfold insertAction insertedNow
  rw [appendAction_eq]
  cases s.cs.queue <;> rfl

/-- An offer (R99, R100). -/
theorem offerAction_eq (o : Offer) (s : State) :
    offerAction o s = if PlacesFree o s then some (accepted o s) else none := by
  unfold offerAction PlacesFree accepted
  simp only [insertAction_eq]
  cases ho : o.volume with
  | none =>
    by_cases h : s.cs.queue.length < 8
    · rw [if_pos h, if_pos (by simp; omega)]
    · rw [if_neg h, if_neg (by simp; omega)]
  | some v =>
    by_cases h : s.cs.queue.length ≤ 6
    · simp only [if_pos h]; rw [if_pos (by simp; omega)]; rfl
    · simp only [if_neg h]; rw [if_neg (by simp; omega)]

theorem insertedNow_batches (o : Offer) (s : State) : BatchesKept s (insertedNow o s) := by
  have h : BatchesKept s (inserted o s) := by
    unfold inserted
    rw [trapNoted_rest]
    exact ⟨rfl, rfl⟩
  unfold insertedNow
  split
  · exact h.trans (engineRun_batches _)
  · exact h

/-- An accepted offer leaves the tracker and the batch queue alone (R99, R100). -/
theorem accepted_batches (o : Offer) (s : State) : BatchesKept s (accepted o s) := by
  unfold accepted
  split
  · exact insertedNow_batches o s
  · exact (insertedNow_batches o s).trans (insertedNow_batches _ _)

theorem manualForTracker_iff (s : State) : s.manualForTracker = true ↔ ReadAsManual s := by
  unfold State.manualForTracker ReadAsManual
  simp

/-- An offer of the tracker (R82). -/
theorem offerOrHold_eq (o : Offer) (s : State) : offerOrHold o s = offerTaken o s := by
  unfold offerOrHold offerTaken
  rw [offerAction_eq]
  rcases h : s.it.held with _ | ⟨x, l⟩
  · by_cases hp : PlacesFree o s
    · rw [if_pos hp]; simp [hp]
    · rw [if_neg hp]; simp [hp]; rfl
  · simp; rfl

theorem offerForced_eq (batch : BatchId) (source target : Outlet) (m : Mark) (s : State) :
    offerForced batch source target m s
      = excursionOffered ⟨.forced, batch, some source, target, .fromDecision m, false, none⟩ s := by
  unfold offerForced excursionOffered
  simp only [manualForTracker_iff, offerOrHold_eq, List.isEmpty_iff]
  rfl

/-- An excursion's offer leaves the batch queue and the excursion itself alone (R82, R91). -/
theorem excursionOffered_keeps (o : Offer) (s : State) : (excursionOffered o s).bq = s.bq
    ∧ (excursionOffered o s).it.excursion = s.it.excursion ∧ (excursionOffered o s).it.excRun = s.it.excRun := by
  have h : ∀ u : State, (offerTaken o u).bq = u.bq ∧ (offerTaken o u).it.excursion = u.it.excursion
      ∧ (offerTaken o u).it.excRun = u.it.excRun := by
    intro u
    unfold offerTaken
    split
    · rw [(accepted_batches o u).it, (accepted_batches o u).bq]; exact ⟨rfl, rfl, rfl⟩
    · exact ⟨rfl, rfl, rfl⟩
  unfold excursionOffered
  split
  · exact ⟨rfl, rfl, rfl⟩
  · split
    · exact h s
    · exact ⟨rfl, rfl, rfl⟩

/-! ## Decisions, the midpoint and the end of an interface -/

theorem volumeOffered_eq (m : Mark) (b : BatchRecord) (s : State) (hm : s.it.record.bind (·.midpoint) = some m)
    (hb : s.bq[1]? = some b) : offerVolumeAlone s = volumeOffered m b s := by
  unfold offerVolumeAlone volumeOffered
  rw [hm, hb]
  cases hv : s.it.volumeDue with
  | false => simp
  | true =>
    simp only [manualForTracker_iff, deliveryVolume_eq, offerOrHold_eq, destinationOutlet_eq, Bool.true_eq_false,
      if_false]
    by_cases hman : ReadAsManual s
    · rw [if_pos hman, if_pos hman]; rfl
    · rw [if_neg hman, if_neg hman]
      cases s.deliveryOf b <;> rfl

theorem decisionMove_some (z : ZoneRule) (p : Place) (running arriving : BatchId) (r a : Outlet)
    (x : Reason × BatchId × Outlet × Outlet) (h : decisionMove z p running arriving r a = some x) (ha : a ≠ 8) :
    cutReason z p = x.1 ∧ (if cutReason z p = .head then running else arriving) = x.2.1
      ∧ cutMove z p r a = x.2.2 ∧ (x.2.2.2 = 8 ↔ routesArriving z p = false) := by
  cases z <;> cases p <;> simp only [decisionMove, reduceCtorEq, Option.some.injEq] at h <;> subst h <;>
    simp [cutReason, cutMove, routesArriving, outletT, ha]

theorem destinationOutlet_ne (s : State) (b : BatchRecord) : destinationOutlet s b ≠ 8 := by
  have key : ∀ d : Byte, (if h : (if d.toNat < 8 then d else 9).toNat < 10 then
      (⟨(if d.toNat < 8 then d else 9).toNat, h⟩ : Outlet) else 9) ≠ 8 := by decide +kernel
  unfold destinationOutlet firstDestination
  rw [destinationOf_eq]
  split
  · show (9 : Outlet) ≠ 8
    decide
  · exact key _

/-- A decision made (R81, R82, R90, R93). -/
theorem decideAt_eq (p : Place) (mark : Mark) (r : InterfaceRecord) (b0 b1 : BatchRecord) (rest : List BatchRecord)
    (move : Reason × BatchId × Outlet × Outlet) (s : State) (hr : s.it.record = some r) (hb : s.bq = b0 :: b1 :: rest)
    (hm : decisionMove r.disposition p b0.batchId b1.batchId (destinationOutlet s b0) (destinationOutlet s b1)
      = some move) :
    decideAt p mark s = decisionMade p (atLeast r.tailCut (atLeast r.headCut mark)) r b0 b1 move s := by
  obtain ⟨m1, m2, m3, m4⟩ := decisionMove_some _ _ _ _ _ _ _ hm (destinationOutlet_ne s b1)
  have hraise : raisedMark r mark = atLeast r.tailCut (atLeast r.headCut mark) := by
    unfold raisedMark
    cases r.headCut <;> cases r.tailCut <;> simp only [raiseTo_eq] <;> rfl
  have hcv : carriedVolume b1 move s = if routesArriving r.disposition p then s.deliveryOf b1 else none := by
    unfold carriedVolume
    rw [← deliveryVolume_eq]
    cases h : routesArriving r.disposition p
    · rw [if_pos (m4.2 h)]; rfl
    · rw [if_neg (fun hh => by rw [m4.1 hh] at h; cases h)]; rfl
  have hman : s.manualForTracker = decide (ReadAsManual s) := by
    rw [Bool.eq_iff_iff, manualForTracker_iff, decide_eq_true_iff]
  unfold decideAt
  rw [hr, hb]
  simp only
  rw [hraise, hman]
  generalize atLeast r.tailCut (atLeast r.headCut mark) = m
  generalize hS : (s.setIt _) = S
  have hS' : S = { s with it := { s.it with
      record := some { r with
        headCut := if p = .headCut then some m else r.headCut
        tailCut := if p = .tailCut then some m else r.tailCut
        manual := r.manual || decide (ReadAsManual s) }
      headRun := if p = .headCut then ⟨0, 0⟩ else s.it.headRun
      tailRun := if p = .tailCut then ⟨0, 0⟩ else s.it.tailRun } } := by
    rw [← hS]; cases p <;> rfl
  have hD : decisionMade p m r b0 b1 move s =
      if ReadAsManual s then S
      else if destinationOutlet s b0 = destinationOutlet s b1 then
        if carriedVolume b1 move s = none then S
        else
          match r.midpoint with
          | none => S.setIt { S.it with volumeDue := true }
          | some mid => volumeOffered mid b1 (S.setIt { S.it with volumeDue := true })
      else offerTaken (decisionOffer m b0 b1 move s) S := by
    rw [hS']; rfl
  rw [hD]
  unfold offerDecision
  have e1 : S.manualForTracker = decide (ReadAsManual s) := by rw [hS']; exact hman
  have e2 : S.firstOutlet b0 = destinationOutlet s b0 ∧ S.firstOutlet b1 = destinationOutlet s b1 := by
    rw [hS']; exact ⟨(destinationOutlet_eq s b0).symm, (destinationOutlet_eq s b1).symm⟩
  have e3 : S.deliveryOf b1 = s.deliveryOf b1 := by rw [hS']; rfl
  rw [e1, e2.1, e2.2, e3]
  by_cases hR : ReadAsManual s
  · rw [if_pos (decide_eq_true hR), if_pos hR]
  rw [if_neg (by simpa using hR), if_neg hR]
  by_cases hd : destinationOutlet s b0 = destinationOutlet s b1
  · rw [if_pos hd, if_pos hd, hcv]
    cases hra : routesArriving r.disposition p
    · rfl
    · cases hdv : s.deliveryOf b1 with
      | none => rfl
      | some v =>
        simp only [Bool.true_and, Option.isSome_some, if_true, reduceCtorEq, if_false]
        obtain ⟨S2, hS2⟩ : ∃ S2, S2 = S.setIt { S.it with volumeDue := true } := ⟨_, rfl⟩
        rw [← hS2]
        cases hmid : r.midpoint with
        | none =>
          have : S2.it.record.bind (·.midpoint) = none := by rw [hS2, hS']; exact hmid
          unfold offerVolumeAlone
          rw [this]
          cases S2.it.volumeDue <;> rfl
        | some mm =>
          refine volumeOffered_eq mm b1 S2 (by rw [hS2, hS']; exact hmid) ?_
          rw [hS2, hS']
          show s.bq[1]? = _
          rw [hb]; rfl
  · rw [if_neg hd, if_neg hd]
    have hoff : cutOffer S r.disposition p b0 b1 m = decisionOffer m b0 b1 move s := by
      unfold decisionOffer cutOffer
      simp only [e2.1, e2.2, e3]
      rw [m3, m1, hcv]
      rw [← m2, m1]
      have : familiesDiffer S b0 b1 = familyChanges s b0 b1 := by rw [hS']; rfl
      rw [this]
    rw [hoff, offerOrHold_eq]

/-- The end of an interface (R89). -/
theorem endInterface_eq (m : Mark) (r : InterfaceRecord) (s : State) (hr : s.it.record = some r) :
    endInterface m s = interfaceEnded m r s := by
  unfold endInterface interfaceEnded
  rw [hr]
  simp only [headPlaced_eq, tailPlaced_eq, applyIfDue_eq]
  have e1 : stated32 (r.drift.getD 0)
      = if r.drift.getD 0 < -2147483648 then -2147483648 else if 2147483647 < r.drift.getD 0 then 2147483647
        else r.drift.getD 0 := by
    unfold stated32 clampInt
    generalize r.drift.getD 0 = z
    split <;> (try split) <;> omega
  have e2 : endFlags { r with endMark := some m } = (match r.cutMode with
      | .density => 0
      | .lowContrast => 1
      | .densityLost => 2) + (if r.forcedEnd then 4 else 0) := rfl
  rw [e1, e2]
  unfold reportInterface
  simp only [raised_eq]
  have key : ∀ d : State, removeRunning d = (match ({ d with bq := d.bq.tail } : State).bq with
      | [x] => raise .queueLow ⟨x.batchId, ({ d with bq := d.bq.tail } : State).vc.lineCount, none, 0, 1⟩
          { d with bq := d.bq.tail }
      | _ => { d with bq := d.bq.tail }) := fun d => rfl
  rw [key]
  rfl

theorem takeReached_rest : ∀ (l : List Boundary) (s : State), TicketsOnly s (takeReached l s)
  | [], s => setTu_only s s.tu
  | b :: rest, s => by
    unfold takeReached
    split
    · exact (takeBoundary_rest b rest _ s).trans (takeReached_rest rest _)
    · exact setTu_only s s.tu

/-- Setting a boundary touches the tickets alone (R141). -/
theorem setBoundary_rest (m : Mark) (b : BatchRecord) (s : State) : TicketsOnly s (setBoundary m b s) := by
  have hm : TicketsOnly s (makeRoom s) := by
    unfold makeRoom
    split
    · split
      · exact takeBoundary_rest _ _ _ _
      · exact setTu_only s s.tu
    · exact setTu_only s s.tu
  unfold setBoundary
  simp only
  split
  · exact (hm.trans (setTu_only _ _)).trans (takeReached_rest _ _)
  · exact hm.trans (setTu_only _ _)

/-- R46 and R79: the midpoint set; a waiting VOLUME action is offered with it (R90). -/
theorem setMidpoint_eq (m : Mark) (r : InterfaceRecord) (b : BatchRecord) (s : State) (hr : s.it.record = some r)
    (hb : (reanchor m s.bq).1[1]? = some b) :
    setMidpoint m s = volumeOffered m b (setBoundary m b { s with
      bq := (reanchor m s.bq).1
      it := { s.it with record := some { r with midpoint := some m, drift := some (reanchor m s.bq).2 } } }) := by
  unfold setMidpoint State.mapRecord
  simp only [State.setIt, State.setBq, hr, Option.map_some, hb]
  obtain ⟨u, hu⟩ : ∃ u : State, u = { s with
      bq := (reanchor m s.bq).1
      it := { s.it with record := some { r with midpoint := some m, drift := some (reanchor m s.bq).2 } } } := ⟨_, rfl⟩
  rw [← hu]
  have k := setBoundary_rest m b u
  refine volumeOffered_eq m b _ ?_ ?_
  · rw [k.rest]
    show u.it.record.bind _ = _
    rw [hu]
    rfl
  · rw [k.rest]
    show u.bq[1]? = _
    rw [hu]
    exact hb

end Sys2Proof.Machine
end

