-- ==== Sys2Proof/Laws/Marks.lean ====
section
/-! SUPPORT. What the tracker's marks make of the batch queue: the batches stay, or entry 0 leaves and the tracker is QUIET
(R47, R89), so the last batch of the queue never leaves at a mark. -/

namespace Sys2Proof.Machine

/-- The ids of the batches of a queue, entry 0 first. -/
def batchIds (bq : List BatchRecord) : List BatchId := bq.map (·.batchId)

/-- The batches of the queue are those there were. -/
abbrev IdsKept (s t : State) : Prop := batchIds t.bq = batchIds s.bq

theorem IdsKept.of_batches {s t : State} (h : BatchesKept s t) : IdsKept s t := congrArg batchIds h.bq

theorem batchIds_of_given {x y : List BatchRecord} (h : x.map givenFields = y.map givenFields) :
    batchIds x = batchIds y := by
  have k := congrArg (List.map Prod.fst) h
  simp only [List.map_map] at k
  exact k

theorem raise_ids (e : Event) (c : Context) (s : State) : IdsKept s (raise e c s) := rfl

theorem offerOrHold_ids (o : Offer) (s : State) : IdsKept s (offerOrHold o s) := by
  rw [offerOrHold_eq]
  unfold offerTaken
  split
  · exact .of_batches (accepted_batches o s)
  · rfl

theorem offerVolumeAlone_ids (s : State) : IdsKept s (offerVolumeAlone s) := by
  unfold offerVolumeAlone
  split
  · simp only
    split
    · rfl
    · split
      · exact (offerOrHold_ids _ _).trans rfl
      · rfl
  · rfl

theorem setMidpoint_ids (m : Mark) (s : State) : IdsKept s (setMidpoint m s) := by
  have hb : batchIds (reanchor m s.bq).1 = batchIds s.bq := batchIds_of_given (reanchor_given m s.bq)
  unfold setMidpoint
  refine (offerVolumeAlone_ids _).trans ?_
  split
  · show batchIds (setBoundary _ _ _).bq = _
    rw [(setBoundary_rest _ _ _).rest]
    exact hb
  · exact hb

theorem setMidpointIfAbsent_ids (m : Mark) (s : State) : IdsKept s (setMidpointIfAbsent m s) := by
  unfold setMidpointIfAbsent
  split
  · exact setMidpoint_ids m s
  · rfl

theorem offerDecision_ids (z : ZoneRule) (p : Place) (b0 b1 : BatchRecord) (m : Mark) (s : State) :
    IdsKept s (offerDecision z p b0 b1 m s) := by
  unfold offerDecision
  split
  · rfl
  · split
    · split
      · exact (offerVolumeAlone_ids _).trans rfl
      · rfl
    · exact offerOrHold_ids _ _

theorem decideAt_ids (p : Place) (m : Mark) (s : State) : IdsKept s (decideAt p m s) := by
  unfold decideAt
  split
  · exact (offerDecision_ids _ _ _ _ _ _).trans rfl
  · rfl

theorem decideIfOutstanding_ids (p : Place) (m : Mark) (s : State) : IdsKept s (decideIfOutstanding p m s) := by
  unfold decideIfOutstanding
  split
  · exact decideAt_ids p m s
  · rfl

theorem applyIfDue_ids (window : Bool) (s : State) : IdsKept s (applyIfDue window s) := by
  unfold applyIfDue
  split
  · rw [applyTables_eq]; exact .of_batches (applied_batches window s)
  · rfl

theorem openWindow_ids (b0 b1 : BatchRecord) (s : State) : IdsKept s (openWindow b0 b1 s) := by
  have h : IdsKept s (endExcursionAtWindow b0 s) := by unfold endExcursionAtWindow; simp only; split <;> rfl
  exact (applyIfDue_ids true _).trans h

theorem closeMarkReached_ids (r : InterfaceRecord) (s : State) : IdsKept s (closeMarkReached r s) := by
  unfold closeMarkReached
  simp only
  split <;> rfl

theorem wideReached_ids (r : InterfaceRecord) (m : Mark) (s : State) : IdsKept s (wideReached r m s) := by
  unfold wideReached
  exact (decideIfOutstanding_ids _ _ _).trans ((decideIfOutstanding_ids _ _ _).trans ((setMidpointIfAbsent_ids _ _).trans rfl))

/-- What an operation of the tracker does to the queue: the batches stay, or entry 0 leaves and the tracker is QUIET. -/
def MovesOn (s t : State) : Prop := IdsKept s t ∨ (batchIds t.bq = (batchIds s.bq).tail ∧ t.it.state = .quiet)

theorem MovesOn.after {s u t : State} (h : IdsKept s u) (k : MovesOn u t) : MovesOn s t :=
  k.imp (fun e => e.trans h) (fun e => ⟨e.1.trans (congrArg List.tail h), e.2⟩)

theorem removeRunning_moves (s : State) (h : s.it.state = .quiet) : MovesOn s (removeRunning s) := by
  unfold removeRunning
  have e : batchIds s.bq.tail = (batchIds s.bq).tail := List.map_tail ..
  simp only
  split <;> exact Or.inr ⟨e, h⟩

theorem endInterface_moves (m : Mark) (s : State) : MovesOn s (endInterface m s) := by
  unfold endInterface
  split
  · exact Or.inl rfl
  · simp only
    refine .after ?_ (removeRunning_moves _ ?_)
    · refine (applyIfDue_ids false _).trans ?_
      show batchIds (reportInterface _ m _).bq = _
      rw [(reportInterface_rest _ _ _).rest]
      rfl
    · rw [applyIfDue_it]; rfl

theorem reachEnd_moves (m : Mark) (s : State) : MovesOn s (reachEnd m s) := by
  unfold reachEnd
  split
  · exact endInterface_moves m s
  · exact Or.inl rfl

/-- One mark acted on (R71): the batches stay, or entry 0 leaves and the tracker is QUIET. -/
theorem markStep_moves (s t : State) (h : markStep s = some t) : MovesOn s t := by
  unfold markStep at h
  simp only at h
  split at h
  · split at h
    · split at h
      · cases h; exact Or.inl (openWindow_ids _ _ s)
      · cases h
    · cases h
  · split at h
    · cases h; exact Or.inl (closeMarkReached_ids _ s)
    · cases h
  · split at h
    · cases h
    · split at h
      · cases h; exact Or.inl (wideReached_ids _ _ s)
      · split at h
        · cases h; exact endInterface_moves _ s
        · split at h
          · cases h; exact reachEnd_moves _ _
          · cases h
  · split at h
    · cases h; exact Or.inl (decideAt_ids _ _ s)
    · split at h
      · cases h; exact Or.inl (decideAt_ids _ _ s)
      · split at h
        · cases h; exact endInterface_moves _ s
        · split at h
          · cases h; exact .after (setMidpointIfAbsent_ids _ s) (reachEnd_moves _ _)
          · cases h
  · cases h

/-- A QUIET tracker with fewer than two batches has no mark (R73). -/
theorem markStep_single (s : State) (hq : s.it.state = .quiet) (h : s.bq.length ≤ 1) : markStep s = none := by
  unfold markStep
  simp only [hq]
  split
  · rename_i hb; rw [hb] at h; simp at h
  · rfl

/-- Before entry 1's open mark is reached a QUIET tracker has no mark to act on (R73). -/
theorem markStep_ahead (s : State) (b0 b1 : BatchRecord) (rest : List BatchRecord) (hq : s.it.state = .quiet)
    (hb : s.bq = b0 :: b1 :: rest) (h : reached s.vc.lineCount (openMarkAt s b1) = false) : markStep s = none := by
  unfold markStep
  simp only [hq, hb]
  exact if_neg (ne_true_of_eq_false h)

/-- The tracker is QUIET or the queue holds two batches, as it does in every window. -/
def HoldsPair (s : State) : Prop := s.it.state = .quiet ∨ 2 ≤ s.bq.length

/-- The last batch of the queue never leaves at a mark. -/
theorem testMarks_last (s : State) (h : HoldsPair s) : (batchIds (testMarks s).bq).getLast? = (batchIds s.bq).getLast? := by
  have key : ∀ (n : Nat) (u : State), HoldsPair u → (batchIds (markLoop n u).bq).getLast? = (batchIds u.bq).getLast? := by
    intro n
    induction n with
    | zero => exact fun _ _ => rfl
    | succ n ih =>
      intro u hu
      unfold markLoop
      split
      · rfl
      · rename_i v hv
        have hlen : 2 ≤ u.bq.length := by
          rcases hu with hq | hl
          · by_contra hc
            rw [markStep_single u hq (by omega)] at hv
            cases hv
          · exact hl
        have el : ∀ w : State, (batchIds w.bq).length = w.bq.length := fun w => List.length_map ..
        rcases markStep_moves u v hv with k | ⟨k, hq⟩
        · rw [ih v (Or.inr (by rw [← el, k, el]; exact hlen)), k]
        · rw [ih v (Or.inl hq), k]
          rw [List.getLast?_tail, if_neg (by rw [el]; omega)]
  exact key _ s h

end Sys2Proof.Machine
end

