-- ==== Sys2Proof/Laws/Queue.lean ====
section
/-! SUPPORT. The batch queue of a request said in the words of the statements: the record formed, the tests of position and
presence, the queue linked anew behind a position, and what an accepted request does (R26, R37, R39, R41, R43 to R45). -/

namespace Sys2Proof.Machine

theorem recordOf_eq (f : BatchFields) (predicted : Mark) (actual : Option Mark) :
    recordOf f predicted actual = recordWith f predicted actual := by
  have h : ∀ d : Byte, dispositionOfByte d = if d = 0 then .deliver else if d = 1 then .deliverPart else .passBy := by
    decide +kernel
  unfold recordOf recordWith
  rw [h]
  rfl

theorem positionTest_iff (s : State) (k : Nat) (b : BatchRecord) (f : BatchFields) :
    positionTest s k b f = true ↔ MayBeAmended s k b f := by
  have e : dispositionOfByte f.disposition = (recordWith f 0 none).disposition :=
    congrArg BatchRecord.disposition (recordOf_eq f 0 none)
  have g : givenOf f.delivery = storedOption f.delivery := rfl
  unfold positionTest MayBeAmended
  rw [e, g]
  by_cases h2 : 2 ≤ k
  · simp [h2]
  · by_cases hq : s.it.state = .quiet
    · by_cases h1 : k = 1
      · simp [hq, h1]
      · have h0 : k = 0 := by omega
        simp [hq, h0, and_assoc]
    · simp [h2, hq]

theorem productOf_isSome (t : Tables) (code : Byte) :
    (productOf t code).isSome = true ↔ code ≠ 0 ∧ ∃ i : Fin 16, t.products[i].code = code := by
  unfold productOf
  rw [List.find?_isSome]
  constructor
  · rintro ⟨p, hp, h⟩
    simp only [Bool.and_eq_true, bne_iff_ne, ne_eq, beq_iff_eq] at h
    obtain ⟨i, hi, rfl⟩ := Vector.mem_iff_getElem.1 (Vector.mem_toList_iff.1 hp)
    exact ⟨h.2 ▸ h.1, ⟨i, hi⟩, h.2⟩
  · rintro ⟨h0, i, rfl⟩
    refine ⟨t.products[i], Vector.mem_toList_iff.2 (Vector.getElem_mem i.isLt), ?_⟩
    simpa using h0

/-- R26. -/
theorem codePresent_iff (s : State) (code : Byte) : codePresent s.ts code = true ↔ Present s code := by
  unfold codePresent Present
  rw [Bool.and_eq_true, Bool.or_eq_true, productOf_isSome, productOf_isSome]
  cases s.ts.armed
  · simp
  · simp; tauto

/-! ## Linking anew (R37) -/

theorem relinkBehind_length (b : BatchRecord) (l : List BatchRecord) : (relinkBehind b l).length = l.length := by
  induction l generalizing b with
  | nil => rfl
  | cons c l ih => simp [relinkBehind, ih]

theorem relinkBehind_get (b : BatchRecord) (l : List BatchRecord) (n : Nat) (c : BatchRecord) (h : l[n]? = some c) :
    ∃ m, (relinkBehind b l)[n]? = some { c with predicted := m } := by
  induction l generalizing b n with
  | nil => simp at h
  | cons d l ih =>
    cases n with
    | zero => simp only [List.getElem?_cons_zero, Option.some.injEq] at h; subst h; exact ⟨_, rfl⟩
    | succ n => exact ih _ n h

theorem relinkBehind_links (b : BatchRecord) (l : List BatchRecord) : LinkedFrom (b :: relinkBehind b l) 0 := by
  induction l generalizing b with
  | nil => intro n x y _ _ h2; simp [relinkBehind] at h2
  | cons c l ih =>
    intro n x y _ h1 h2
    cases n with
    | zero =>
      simp only [relinkBehind, List.getElem?_cons_zero, Nat.zero_add, List.getElem?_cons_succ, Option.some.injEq] at h1 h2
      subst h1 h2
      rfl
    | succ n => exact ih _ n x y (Nat.zero_le _) h1 h2

theorem relinkFrom_length (k : Nat) (l : List BatchRecord) : (relinkFrom k l).length = l.length := by
  induction l generalizing k with
  | nil => cases k <;> rfl
  | cons b l ih => cases k <;> simp [relinkFrom, relinkBehind_length, ih]

/-- Up to position `k` a queue linked anew behind `k` is as it was. -/
theorem relinkFrom_get (k : Nat) (l : List BatchRecord) (i : Nat) (h : i ≤ k) : (relinkFrom k l)[i]? = l[i]? := by
  induction l generalizing k i with
  | nil => cases k <;> rfl
  | cons b l ih =>
    cases k with
    | zero => rw [Nat.le_zero.1 h]; rfl
    | succ k =>
      cases i with
      | zero => rfl
      | succ i => exact ih k i (Nat.le_of_succ_le_succ h)

theorem relinkFrom_keeps (k : Nat) (l : List BatchRecord) (n : Nat) (c : BatchRecord) (h : l[n]? = some c) :
    ∃ m, (relinkFrom k l)[n]? = some { c with predicted := m } := by
  induction l generalizing k n with
  | nil => simp at h
  | cons b l ih =>
    cases n with
    | zero =>
      simp only [List.getElem?_cons_zero, Option.some.injEq] at h
      subst h
      exact ⟨b.predicted, by cases k <;> rfl⟩
    | succ n =>
      cases k with
      | zero => exact relinkBehind_get _ l n c h
      | succ k => exact ih k n h

theorem relinkFrom_links (k : Nat) (l : List BatchRecord) : LinkedFrom (relinkFrom k l) k := by
  induction l generalizing k with
  | nil => intro n x y _ h1; cases k <;> simp [relinkFrom] at h1
  | cons b l ih =>
    cases k with
    | zero => exact relinkBehind_links b l
    | succ k =>
      intro n x y hn h1 h2
      cases n with
      | zero => omega
      | succ n => exact ih k n x y (Nat.le_of_succ_le_succ hn) h1 h2

/-- The queue of an accepted AMEND BATCH (R44). -/
theorem amended_queue (f : BatchFields) (k : Nat) (b : BatchRecord) (bq : List BatchRecord) (h : bq[k]? = some b) :
    QueueAmended f k b bq
      (if b.nominal = f.nominal then bq.set k (recordOf f b.predicted b.actual)
        else relinkFrom k (bq.set k (recordOf f b.predicted b.actual))) := by
  obtain ⟨hk, -⟩ := List.getElem?_eq_some_iff.1 h
  rw [recordOf_eq]
  have hs : ∀ i, i ≠ k → (bq.set k (recordWith f b.predicted b.actual))[i]? = bq[i]? :=
    fun i hi => List.getElem?_set_ne (Ne.symm hi)
  have hself : (bq.set k (recordWith f b.predicted b.actual))[k]? = some (recordWith f b.predicted b.actual) :=
    List.getElem?_set_self hk
  by_cases hn : b.nominal = f.nominal
  · rw [if_pos hn]
    refine ⟨List.length_set, fun i hi => hs i (Nat.ne_of_lt hi), hself, ?_⟩
    rw [if_pos hn]
    exact fun i hi => hs i (Nat.ne_of_gt hi)
  · rw [if_neg hn]
    refine ⟨(relinkFrom_length _ _).trans List.length_set, fun i hi => ?_, ?_, ?_⟩
    · rw [relinkFrom_get _ _ _ (Nat.le_of_lt hi)]; exact hs i (Nat.ne_of_lt hi)
    · rw [relinkFrom_get _ _ _ (Nat.le_refl _)]; exact hself
    · rw [if_neg hn]
      exact ⟨fun n c hc => relinkFrom_keeps _ _ _ _ ((hs _ (by omega)).trans hc), relinkFrom_links _ _⟩

/-- The queue of an accepted DROP BATCH (R45). -/
theorem shortened_queue (k : Nat) (bq : List BatchRecord) (hk : k < bq.length) (h1 : 1 ≤ k) :
    QueueShortened k bq (relinkFrom (k - 1) (bq.eraseIdx k)) := by
  refine ⟨?_, fun i hi => ?_, fun n c hc => ?_, relinkFrom_links _ _⟩
  · rw [relinkFrom_length, List.length_eraseIdx_of_lt hk]; omega
  · rw [relinkFrom_get _ _ _ (by omega), List.getElem?_eraseIdx_of_lt hi]
  · refine relinkFrom_keeps _ _ _ _ ?_
    rw [List.getElem?_eraseIdx_of_ge (by omega), ← hc]
    congr 1
    omega

/-! ## Accepted requests (R39, R44, R45) -/

/-- The tracker told of a change (R41). -/
theorem reportChange_eq (s : State) : reportChange s = changeReported s := rfl

/-- A report leaves a state without a reached mark alone (R41, R73). -/
theorem changeReported_none (s : State) (h : s.it.state = .quiet → markStep s = none) : changeReported s = s := by
  unfold changeReported
  split
  · show markLoop (12 * s.bq.length + 11 + 1) s = s
    unfold markLoop
    rw [h ‹_›]
  · rfl

/-- An accepted AMEND BATCH of the batch `b` at position `k`, before its answer (R44). -/
theorem performAmendBatch_accepted (f : BatchFields) (k : Nat) (b : BatchRecord) (s : State)
    (hf : firstBad (batchRanges f) = none) (hk : s.bq.findIdx? (fun b => b.batchId == f.batchId) = some k)
    (hb : s.bq[k]? = some b) (hm : MayBeAmended s k b f) (hp : Present s f.product) :
    ∃ bq, QueueAmended f k b s.bq bq ∧ performAmendBatch f s = answerAmend f.batchId
      (if k = 0 ∧ b.nominal ≠ f.nominal then changeReported { s with bq := bq } else { s with bq := bq }) := by
  refine ⟨_, amended_queue f k b s.bq hb, ?_⟩
  have hpos : positionOf s f.batchId = some k := hk
  unfold performAmendBatch
  rw [hf]
  simp only
  rw [hpos]
  simp only
  rw [hb]
  simp only
  rw [(positionTest_iff s k b f).2 hm, (codePresent_iff s f.product).2 hp]
  show answerAmend f.batchId (amendBatch k b f s) = _
  unfold amendBatch
  by_cases hn : b.nominal = f.nominal
  · simp only [hn, if_true, ne_eq, not_true, and_false, if_false]; rfl
  · by_cases h0 : k = 0
    · simp only [hn, h0, if_true, ne_eq, not_false_eq_true, and_self, if_false, reportChange_eq]; rfl
    · simp only [hn, h0, false_and, if_false]; rfl

/-- An accepted DROP BATCH of the batch at position `k` (R45). -/
theorem performDropBatch_accepted (batchId : BatchId) (k : Nat) (s : State) (h0 : batchId ≠ 0)
    (hk : s.bq.findIdx? (fun b => b.batchId == batchId) = some k) (h1 : 1 ≤ k) (hq : k = 1 → s.it.state = .quiet) :
    ∃ bq, QueueShortened k s.bq bq ∧ performDropBatch batchId s =
      (if k = 1 then changeReported { s with bq := bq } else { s with bq := bq }, .done (oneByte k)) := by
  obtain ⟨hl, -, -⟩ := List.findIdx?_eq_some_iff_getElem.1 hk
  refine ⟨_, shortened_queue k s.bq hl h1, ?_⟩
  have hpos : positionOf s batchId = some k := hk
  unfold performDropBatch
  rw [if_neg h0, hpos]
  simp only
  rw [if_neg (by omega), if_neg (fun h => h.2 (hq h.1))]
  rfl

/-- An accepted ADD BATCH behind the batch `last`, before its answer (R39, R41). -/
theorem performAddBatch_accepted (f : BatchFields) (last : BatchRecord) (s : State)
    (hf : firstBad (batchRanges f) = none) (hl : s.bq.getLast? = some last) (hn : s.bq.length < 32)
    (hi : ∀ b ∈ s.bq, b.batchId ≠ f.batchId) (hp : Present s f.product) (u : State)
    (hu : u = (if s.bq.length = 1 then
        changeReported { s with bq := s.bq ++ [recordWith f (headMark last + last.nominal.setWidth 48) none] }
      else { s with bq := s.bq ++ [recordWith f (headMark last + last.nominal.setWidth 48) none] })) :
    performAddBatch f s = (u, .done (addedData u f.batchId)) := by
  have hpos : positionOf s f.batchId = none := by
    unfold positionOf
    rw [List.findIdx?_eq_none_iff]
    exact fun b hb => by simpa using hi b hb
  have ha : addBatch f s = u := by
    unfold addBatch appendBatch
    rw [hl, hu]
    simp only [recordOf_eq]
    rfl
  unfold performAddBatch
  rw [hf]
  simp only
  rw [if_neg (by omega), hpos]
  simp only
  rw [(codePresent_iff s f.product).2 hp, ← ha]
  rfl

end Sys2Proof.Machine
end

