-- ==== Sys2Proof/Tests/Slice0.lean ====
section
/-! SUPPORT. Tests. `smoke_…`: an ill-formed command for each check of WellFormed, and a well-formed one beside it.
`test_…`: values the spec gives. `met_<Name>`: a concrete state and operands that meet all the hypotheses of the
statement <Name> together, clause by clause. -/

namespace Sys2Proof.Tests

set_option Elab.async false

open Sys2Proof Sys2Proof.Machine

/-! ## Small states -/

def product (code family : Byte) (reference : BitVec 32) (destination : Byte) : ProductEntry :=
  ⟨code, family, reference, 800, 20, 200, destination⟩

/-- Product 1 (family 2, to lane 3), product 2 (family 5, to PASS), lane 3 enabled. -/
def stockedTables : Tables := { resetTables with
  products := (resetTables.products.set 0 (product 1 2 70000 3)).set 1 (product 2 5 84000 9)
  outlets := resetTables.outlets.set 3 (resetOutlet 1 0xE3) }

def stocked : State := State.reset.setTs ⟨stockedTables, stockedTables, false, none⟩
def armed : State := stocked.setTs { stocked.ts with armed := true }
def badPending : State := stocked.setTs { stocked.ts with
  pending := { stockedTables with outlets := stockedTables.outlets.set 8 (resetOutlet 0 0xF0) } }

def batch (id : BatchId) (code : Byte) (predicted : Mark) : BatchRecord :=
  ⟨id, code, 50000, .deliver, none, none, predicted, none⟩

def fields (id : BatchId) (code : Byte) : BatchFields := ⟨id, code, 50000, 0, 0, 0⟩

def atCount (n : Mark) (s : State) : State := s.setVc { s.vc with lineCount := n }
def running : State := atCount 1500 (stocked.setBq [batch 7 1 1000])
def queued : State := running.setBq [batch 7 1 1000, batch 8 2 51000, batch 9 1 101000]
def filled : State := stocked.setBq (List.replicate 32 (batch 7 1 1000))

def frame (b : Byte) : Frame := ⟨b, 0, 0x42, [b]⟩
def onControl (l : PortLink) (s : State) : State := s.setLiu { s.liu with control := l }
def onField (l : PortLink) (s : State) : State := s.setLiu { s.liu with field := l }
/-- The CONTROL originated queue full, its head being sent. -/
def full (s : State) : State := onControl ⟨.hunt, [], [frame 1, frame 2, frame 3, frame 4], some .originated⟩ s
def responder (st : ResponderState) (held restart : Option Frame) (s : State) : State :=
  s.setMr ⟨st, some ⟨5, 0x16⟩, held, restart⟩
def summing (s : State) : State := (responder .summing none none s).setTs { s.ts with sum := some ⟨true, 0⟩ }

def moving (s : State) : State := s.setVc { s.vc with lineState := .moving, stillTimer := some 0 }
def metered : State := moving (running.setVc { running.vc with lastTotal := some 5 })

def valve (p : Position) : ValveRecord := ⟨none, p, none, true⟩
/-- Outlet `o` confirmed OPEN and routed. -/
def routedTo (o : Outlet) (s : State) : State :=
  s.setMg { s.mg with valves := s.mg.valves.set o (valve .opened), openOrder := s.mg.openOrder ++ [o] }
def routed : State := routedTo 3 running
def held (resume : Mode) : State := routed.setMg { routed.mg with mode := .held, resumeMode := resume }
def auto (s : State) : State := s.setMg { s.mg with mode := .auto }
def noTransmix : State := routed.setMg { routed.mg with
  valves := routed.mg.valves.set 8 { valve .closed with available := false } }

def act (o : Outlet) (fire : Mark) : Action := ⟨.forced, 7, some 3, o, none, fire, false⟩
def seq (old : Option Outlet) (confirmed : Bool) : Sequence := ⟨act 8 1400, false, 8, old, false, 0, false, confirmed⟩
def withActions (q : List Action) (s : State) : State := s.setCs { s.cs with queue := q }
/-- The engine in `e` with sequence `q`, its phase and stroke timers running. -/
def inPhase (e : EngineState) (q : Sequence) (s : State) : State :=
  s.setCs { s.cs with
    engine := e, queue := [act 8 1400], sequence := some q, phase := some ⟨0, 1000⟩, stroke := some ⟨0, 30000⟩ }
def faulted (s : State) : State := s.setCs { s.cs with engine := .faulted }

def record0 : InterfaceRecord := densityRecord queued (batch 7 1 1000) (batch 8 2 51000) ⟨0, 4000⟩
def inWindow (st : TrackerState) (s : State) : State :=
  (s.setIt { s.it with state := st, record := some record0 }).setDe { s.de with
    pair := some ⟨70000, 84000, 14000, false⟩ }
def sampled (isNew : Bool) (s : State) : State := s.setDe { s.de with
  ring := [⟨69000, false⟩, ⟨70001, isNew⟩], last := some ⟨5, false, some ⟨70000, 70000, 2⟩, .fraction 4⟩ }

def ticket : Ticket := { emptyTicket 7 1 (some 3) 0 with closed := some 0 }

def commanded (q : List Command) (s : State) : State := s.setCs { s.cs with commands := q }
/-- The FIELD originated queue full, its head being sent. -/
def fieldFull (s : State) : State := onField ⟨.hunt, [], [frame 1, frame 2, frame 3, frame 4], some .originated⟩ s
def boundary (mark : Mark) : Boundary := ⟨mark, ⟨8, 2, none, 0, none, none, false, false, false, false, false⟩⟩
def bounded (bs : List Boundary) (s : State) : State := s.setTu { s.tu with boundaries := bs }
def offer (volume : Option (BitVec 32)) : Offer := ⟨.tail, 8, some 3, 9, .fromDecision 1000, true, volume⟩
def actions (n : Nat) : List Action := List.replicate n (act 8 1500)
/-- The tracker in `st` with record `r`, the line count at `n`. -/
def tracked (st : TrackerState) (r : InterfaceRecord) (n : Mark) : State :=
  let s := atCount n (inWindow st queued)
  s.setIt { s.it with record := some r }
def mixing0 : InterfaceRecord := { record0 with startMark := some 52000 }
def due (m : Mark) (held : List Offer) (s : State) : State := s.setIt { s.it with endDue := some m, held := held }
def decided : InterfaceRecord := { record0 with headCut := some 48000, tailCut := some 54000 }
/-- An excursion run of two evaluations in QUIET, the excursion flag `on`. -/
def deviating (on : Bool) : State :=
  let s := running.setIt { running.it with excursion := on, excRun := ⟨2, 1000⟩ }
  s.setDe { s.de with ring := [⟨71000, true⟩] }
def result (x : Int) : EvalResult := ⟨1500, false, some ⟨71000, 71000, 1⟩, .deviation x⟩
/-- The last report of outlet `o` was `r`. -/
def heard (o : Outlet) (r : Report) (s : State) : State :=
  s.setMg { s.mg with valves := s.mg.valves.set o { s.mg.valves[o] with lastReport := some r } }
def applying (meter silence : Byte) (still : BitVec 16) (s : State) : State := s.setTs { s.ts with
  pending := { s.ts.pending with segment := { s.ts.pending.segment with
    meterAddress := meter, silenceTime := silence, stillTime := still } } }
def pendingOutlets (outlets : Vector OutletEntry 10) : State := stocked.setTs { stocked.ts with
  pending := { stockedTables with outlets := outlets } }

theorem serving (s : State) (h : s.inReset = false ∧ s.nu.testDue = false ∧ s.mr.state = .ready) : Serving s :=
  ⟨h.1, h.2.1, h.2.2⟩

theorem stocked_serving : Serving stocked := ⟨rfl, rfl, rfl⟩
theorem full_serving : Serving (full stocked) := ⟨rfl, rfl, rfl⟩
theorem queued_serving : Serving queued := ⟨rfl, rfl, rfl⟩
theorem routed_serving : Serving routed := ⟨rfl, rfl, rfl⟩
theorem routed_guardOk : GuardOk routed.mg := ⟨by decide +kernel, by decide +kernel⟩

/-! ## WellFormed -/

theorem smoke_droppedFrame : WellFormed (.droppedFrame .field (frameBytes (frame 1))) = false
    ∧ WellFormed (.droppedFrame .field [0xA5]) = true := by decide +kernel
theorem smoke_meterTotal : WellFormed (.meterTotal 0 0 (List.replicate 201 0)) = false
    ∧ WellFormed (.meterTotal 0 0 (List.replicate 200 0)) = true := by decide +kernel
theorem smoke_densitySample : WellFormed (.densitySample 0 0 (List.replicate 201 0)) = false
    ∧ WellFormed (.densitySample 0 0 (List.replicate 200 0)) = true := by decide +kernel
theorem smoke_valveStatus : WellFormed (.valveStatus 0 0 (List.replicate 201 0)) = false
    ∧ WellFormed (.valveStatus 0 0 (List.replicate 200 0)) = true := by decide +kernel
theorem smoke_fieldFrame_kind : WellFormed (.fieldFrame ⟨0, 0, 0x11, []⟩) = false
    ∧ WellFormed (.fieldFrame ⟨0, 0, 0x21, []⟩) = false ∧ WellFormed (.fieldFrame ⟨0, 0, 0x31, []⟩) = false
    ∧ WellFormed (.fieldFrame ⟨0, 0, 0x32, []⟩) = true := by decide +kernel
theorem smoke_fieldFrame_length : WellFormed (.fieldFrame ⟨0, 0, 0x32, List.replicate 201 0⟩) = false := by
  decide +kernel
theorem smoke_valveCommand : WellFormed (.valveCommand 0 0 (List.replicate 201 0)) = false
    ∧ WellFormed (.valveCommand 0 0 (List.replicate 200 0)) = true := by decide +kernel
theorem smoke_controlFrame : WellFormed (.controlFrame ⟨0, 0, 0, List.replicate 201 0⟩) = false
    ∧ WellFormed (.controlFrame (frame 1)) = true := by decide +kernel
theorem smoke_consumedFrame : WellFormed (.consumedFrame 0 0x41 []) = false
    ∧ WellFormed (.consumedFrame 0 0x32 (List.replicate 201 0)) = false ∧ WellFormed (.consumedFrame 0 0x32 []) = true := by
  decide +kernel
theorem smoke_unknownRequest : WellFormed (.unknownRequest 0 [0x02]) = false
    ∧ WellFormed (.unknownRequest 0 (List.replicate 201 0)) = false ∧ WellFormed (.unknownRequest 0 [0x02, 1]) = true := by
  decide +kernel
theorem smoke_ping : WellFormed (.ping 0 (List.replicate 198 0)) = false
    ∧ WellFormed (.ping 0 (List.replicate 197 0)) = true := by decide +kernel
theorem smoke_setModeAuto : WellFormed (.setModeAuto 0 0) = false ∧ WellFormed (.setModeAuto 0 2) = true := by
  decide +kernel

/-! ## Values of the spec -/

/-- No row of the table has bits, so a word spells no command and the queue stays as it is (log 27). -/
theorem test_noWordIsACommand : decodeTableWord 32 5 = none ∧ (stocked.withFetchWord 32 5) = stocked := ⟨rfl, rfl⟩

/-- The CRC-16 check values (R33). -/
theorem test_crc : crc16 [0x31, 0x32, 0x33, 0x34, 0x35, 0x36, 0x37, 0x38, 0x39] = 0x29B1 ∧ crc16 [0x00] = 0xE1F0 := by
  decide +kernel

/-- Halves round away from zero (Conventions). -/
theorem test_rounding : roundHalfAway 1500 1000 = 2 ∧ roundHalfAway (-1500) 1000 = -2 ∧ roundHalfAway 1499 1000 = 1
    ∧ roundHalfAway 3 (-2) = -2 ∧ roundHalfAway (-499) 1000 = 0 := by decide +kernel

/-- The span of the correction (R56): β 2 000 between −40 °C and 80 °C. -/
theorem test_correction : correction 2000 8000 = 13000 ∧ correction 2000 (-4000) = -11000 ∧ correction 800 1500 = 0 := by
  decide +kernel

/-- A mark 2^47 − 1 litres behind is reached, one 2^47 behind is not (R5). -/
theorem test_reached : reached 0x7FFFFFFFFFFF 0 = true ∧ reached 0x800000000000 0 = false := by decide +kernel

/-- The mean with half of the number of samples added (R60). -/
theorem test_mean : meanOf [70000, 70001] = 70001 ∧ meanOf [70000, 70001, 70003] = 70001 := by decide +kernel

/-- The collapsed run of the worked sequence 11.3: greatest lateness 12 400. -/
theorem test_greatestLateness : greatestLateness 9112400 [act 8 9100000] = 12400 := by decide +kernel

/-! ## The hypotheses of the statements -/

/-- The silence timer stopped, the clock at `n`. -/
def timed (n : Time) (s : State) : State := (s.setVc { s.vc with silenceTimer := none }).setNow n
def recovering0 (s : State) : State := s.setCs { s.cs with engine := .recovery, recovery := some ⟨0, 20000⟩ }
def stroking (s : State) : State := s.setCs { s.cs with phase := none }

/-- Each timer and the sum a millisecond before its length, the reset input asserted or not. -/
theorem met_IdleStepPassesTime :
    (∀ s ∈ [stocked.setNow 4999, timed 59999 (moving stocked), timed 999 (inPhase .openNew (seq none false) (moving stocked)),
        timed 999 (inPhase .overlap (seq none false) stocked), timed 999 (inPhase .closeOld (seq (some 3) false) stocked),
        timed 29999 (stroking (inPhase .closeOld (seq (some 3) false) stocked)), timed 19999 (recovering0 stocked),
        timed 9 (summing stocked)],
      s.pending = [] ∧ s.inReset = false ∧ ∀ c, ¬ ExpiryDue s c)
    ∧ (stocked.setInReset true).pending = [] ∧ (stocked.setInReset true).inReset = true := by
  refine ⟨fun s h => ?_, rfl, rfl⟩
  have k : s.pending = [] ∧ s.inReset = false ∧ dueExpiries s = [] := by revert s; decide +kernel
  exact ⟨k.1, k.2.1, dueExpiries_nil s k.2.2⟩

/-- Each of them alone at its length; and the open time and the stroke timer at once. -/
theorem met_IdleStepPassesTime_due :
    (∀ x ∈ [(stocked.setNow 5000, Instr.silenceTimerExpiry), (timed 60000 (moving stocked), .stillTimerExpiry),
        (timed 1000 (inPhase .openNew (seq none false) stocked), .openTimeExpiry),
        (timed 1000 (inPhase .overlap (seq none false) stocked), .overlapExpiry),
        (timed 1000 (inPhase .closeOld (seq (some 3) false) stocked), .closeTimeExpiry),
        (timed 30000 (stroking (inPhase .closeOld (seq (some 3) false) stocked)), .strokeTimerExpiry),
        (timed 20000 (recovering0 stocked), .recoveryExpiry), (timed 10 (summing stocked), .sumComplete)],
      x.1.pending = [] ∧ x.1.inReset = false ∧ ExpiryDue x.1 x.2 ∧ ∀ d, ExpiryDue x.1 d → d = x.2)
    ∧ (let s := timed 30000 (inPhase .openNew (seq none false) stocked);
      s.pending = [] ∧ s.inReset = false ∧ ExpiryDue s .openTimeExpiry ∧ ExpiryDue s .strokeTimerExpiry) := by
  refine ⟨fun x h => ?_, rfl, rfl, .openTime ⟨0, 1000⟩ rfl rfl (by decide), .stroke ⟨0, 30000⟩ rfl (by decide)⟩
  have k : x.1.pending = [] ∧ x.1.inReset = false ∧ dueExpiries x.1 = [x.2] := by revert x; decide +kernel
  exact ⟨k.1, k.2.1, dueExpiries_single x.1 x.2 k.2.2⟩

theorem met_AssertedResetStopsThePart :
    (∃ t, exec (.powerOnReset 7) stocked = .next t) ∧ (stocked.setInReset true).inReset = true
    ∧ (∀ pins, Instr.ident 5 ≠ .powerOnReset pins) ∧ Instr.ident 5 ≠ .resetAsserted :=
  ⟨⟨_, rfl⟩, rfl, (by intro _ h; cases h), by decide⟩

theorem met_RestartTakesEffectAtItsResponse :
    let s := onControl ⟨.hunt, [], [frame 1], some .originated⟩ (responder .restartPending none (some (frame 1)) stocked)
    s.inReset = false ∧ s.mr.state = .restartPending ∧ s.mr.heldResponse = none
      ∧ s.mr.restartResponse = some (frame 1) ∧ s.liu.control.tx = some .originated
      ∧ s.liu.control.originated.head? = some (frame 1) := by decide +kernel

theorem met_OneCorruptByteIsDropped :
    (frame 1).payload.length ≤ 200 ∧ 7 < (frameBytes (frame 1)).length ∧ (frameBytes (frame 1))[7]? ≠ some 0 := by
  decide +kernel

/-- HUNT, and RECEIVING at the last place, 206 and 207 bytes kept. -/
theorem met_ReceiverCollectsBytes :
    (Running stocked ∧ (stocked.port .field).rx = .hunt)
    ∧ (let s := onField ⟨.receiving (List.replicate 206 0) false, [], [], none⟩ stocked;
        Running s ∧ (s.port .field).rx = .receiving (List.replicate 206 0) false)
    ∧ (let s := onField ⟨.receiving (List.replicate 207 0) false, [], [], none⟩ stocked;
        Running s ∧ (s.port .field).rx = .receiving (List.replicate 207 0) false) :=
  ⟨⟨⟨rfl, rfl⟩, rfl⟩, ⟨⟨rfl, rfl⟩, rfl⟩, ⟨⟨rfl, rfl⟩, rfl⟩⟩

theorem met_GapEndsTheCollectedFrame :
    let s := onField ⟨.receiving [0xA5, 1] false, [], [], none⟩ stocked
    Running s ∧ (s.port .field).rx = .receiving [0xA5, 1] false
      ∧ (∃ t, exec (.droppedFrame .field [0xA5, 1]) s = .next t)
      ∧ ∃ u, exec (.frameByteReceived .field true 0xA5) s = .next u :=
  ⟨⟨rfl, rfl⟩, rfl, ⟨_, rfl⟩, ⟨_, rfl⟩⟩

/-- A frame received whole judges good. -/
theorem met_GapEndsTheCollectedFrame_good : judgeFrame (frameBytes (frame 1)) = some (frame 1) := by decide +kernel

theorem met_FailedFrameIsDiscarded : Running stocked ∧ judgeFrame [0xA5, 1] = none := ⟨⟨rfl, rfl⟩, by decide +kernel⟩

theorem met_FieldFrameIsForwarded : Running stocked ∧ WellFormed (.fieldFrame (frame 1)) = true :=
  ⟨⟨rfl, rfl⟩, by decide +kernel⟩

theorem met_ControlFrameIsSorted :
    (Running stocked ∧ [(1 : Byte)].length ≤ 200 ∧ (1 : Byte) ≠ stocked.liu.address
      ∧ ∀ o : Outlet, stocked.ts.active.outlets[o].valveAddress ≠ 1)
    ∧ [(1 : Byte)].length ≤ 200 ∧ (0x32 : Byte) ≠ 0x41 :=
  ⟨⟨⟨rfl, rfl⟩, by decide +kernel⟩, by decide +kernel⟩

theorem met_OriginatedFramesGoFirst :
    let s := onControl ⟨.hunt, [frame 1], [], none⟩ stocked
    s.inReset = false ∧ ∃ t, exec .sumComplete s = .next t ∧ (s.port .control).tx = none
      ∧ (t.port .control).tx = some .forward :=
  ⟨rfl, _, rfl, by decide +kernel⟩

theorem met_SentFrameLeavesItsQueue :
    (let s := onField ⟨.hunt, [frame 1], [frame 2], some .originated⟩ stocked;
      Running s ∧ (s.port .field).tx = some .originated ∧ s.cs.commands = [])
    ∧ (let s := onControl ⟨.hunt, [frame 1], [frame 2], some .forward⟩ stocked;
      Running s ∧ (s.port .control).tx = some .forward ∧ s.cs.commands = []) :=
  ⟨⟨⟨rfl, rfl⟩, by decide +kernel⟩, ⟨⟨rfl, rfl⟩, by decide +kernel⟩⟩

/-- An OPEN, a CLOSE beside another open outlet, and a CLOSE of the last one. -/
theorem met_SentFrameLeavesItsQueue_commands :
    (∀ c ∈ [(⟨8, .opens⟩ : Command), ⟨8, .close⟩], (let s := commanded [c, ⟨9, .opens⟩] (fieldFull (moving routed));
      Running s ∧ s.liu.field.tx = some .originated ∧ s.liu.field.originated.length = 4
        ∧ s.cs.commands = c :: [⟨9, .opens⟩]
        ∧ ¬ (c.move = .close ∧ s.vc.lineState = .moving ∧ s.mg.openOrder = [c.outlet])))
    ∧ (let s := commanded [⟨3, .close⟩] (fieldFull (moving routed));
      Running s ∧ s.liu.field.tx = some .originated ∧ s.liu.field.originated.length = 4
        ∧ s.cs.commands = [⟨3, .close⟩] ∧ s.vc.lineState = .moving ∧ s.mg.openOrder = [3]) := by
  refine ⟨fun c hc => ?_, ⟨rfl, rfl⟩, rfl, rfl, rfl, rfl, rfl⟩
  simp only [List.mem_cons, List.not_mem_nil, or_false] at hc
  rcases hc with rfl | rfl <;> exact ⟨⟨rfl, rfl⟩, rfl, rfl, rfl, by decide +kernel⟩

theorem met_HeldResponseTakesTheFreedPlace :
    (let s := responder .holding (some (frame 9)) none (full stocked);
      Running s ∧ s.liu.control.tx = some .originated ∧ s.liu.control.originated.length ≤ 4
        ∧ s.mr.heldResponse = some (frame 9))
    ∧ (let s := full stocked;
      Running s ∧ s.liu.control.tx = some .originated ∧ s.mr.heldResponse = none ∧ s.mr.state ≠ .restartPending) :=
  ⟨⟨⟨rfl, rfl⟩, by decide +kernel⟩, ⟨⟨rfl, rfl⟩, by decide +kernel⟩⟩

theorem met_UnusableMeterFrameOnlyPasses :
    Running stocked ∧ [(0 : Byte), 0, 0, 0, 1].length ≤ 200 ∧ [(0 : Byte), 0, 0, 0, 1][4]? ≠ some 0 :=
  ⟨⟨rfl, rfl⟩, by decide +kernel⟩

theorem met_FirstOrEqualTotalCountsNothing :
    (Running stocked ∧ stocked.vc.lastTotal = none)
    ∧ Running metered ∧ metered.vc.lastTotal = some ((0 : Byte) ++ (0 : Byte) ++ (0 : Byte) ++ (5 : Byte)) :=
  ⟨⟨⟨rfl, rfl⟩, rfl⟩, ⟨rfl, rfl⟩, by decide +kernel⟩

theorem met_TotalAdvancesTheLineCount : metered.inReset = false ∧ metered.vc.lastTotal = some 5 := by decide +kernel

/-- A MOVING and a STILL line. -/
theorem met_TotalAdvancesTheLineCount_delivery :
    (4 : BitVec 32) = ((0 : Byte) ++ (0 : Byte) ++ (0 : Byte) ++ (9 : Byte)) - (5 : BitVec 32) ∧ (4 : BitVec 32) ≠ 0
    ∧ (Running metered ∧ metered.vc.lastTotal = some 5 ∧ metered.vc.lineState = .moving)
    ∧ (let s := running.setVc { running.vc with lastTotal := some 5 };
      Running s ∧ s.vc.lastTotal = some 5 ∧ s.vc.lineState = .still) :=
  ⟨by decide +kernel, by decide +kernel, ⟨⟨rfl, rfl⟩, rfl, rfl⟩, ⟨rfl, rfl⟩, rfl, rfl⟩

/-- An increment of exactly the greatest step, and one of 4 litres. -/
theorem met_PlainAdvanceIsCountedAndBooked :
    Running metered ∧ metered.vc.lastTotal = some 5
    ∧ (4 : BitVec 32) = ((0 : Byte) ++ (0 : Byte) ++ (0 : Byte) ++ (9 : Byte)) - (5 : BitVec 32) ∧ (4 : BitVec 32) ≠ 0
    ∧ (4 : BitVec 32).toNat ≤ metered.ts.active.segment.maxMeterStep.toNat ∧ metered.vc.lineState = .moving
    ∧ reached (metered.vc.lineCount + (4 : BitVec 32).setWidth 48) metered.vc.nextEval = false ∧ metered.bq.length ≤ 1
    ∧ metered.it.state = .quiet ∧ metered.tu.boundaries = [] ∧ metered.cs.queue = [] ∧ metered.cs.engine = .idle
    ∧ metered.ts.armed = false :=
  ⟨⟨rfl, rfl⟩, by decide +kernel⟩

/-- Boundaries: none closing; one litre short of its mark and at it; a full list. -/
theorem met_PlainAdvanceIsCountedAndBooked_boundaries :
    (stocked.tu.closing = none)
    ∧ (let s := atCount 34999 queued; let b := (setBoundary 5000 (batch 8 2 51000) s).tu.boundaries;
      s.tu.boundaries.length < 8 ∧ b.map (·.mark) = [35000] ∧ reached s.vc.lineCount 35000 = false)
    ∧ (let s := atCount 35000 queued;
      s.tu.boundaries = [] ∧ reached s.vc.lineCount
        (atLeast (s.tu.boundaries.getLast?.map (·.mark)) (5000 + s.ts.active.segment.leadVolume.setWidth 48)) = true)
    ∧ (let s := bounded (boundary 40000 :: List.replicate 7 (boundary 41000)) queued;
      s.tu.boundaries = boundary 40000 :: List.replicate 7 (boundary 41000)
        ∧ (List.replicate 7 (boundary 41000)).length = 7
        ∧ (List.replicate 7 (boundary 41000)).getLast? = some (boundary 41000)
        ∧ reached s.vc.lineCount
          (atLeast (some (boundary 41000).mark) (5000 + s.ts.active.segment.leadVolume.setWidth 48)) = false) := by
  decide +kernel

/-- 7 and 8 actions for a single offer; 6 and 7 for a pair; an insertion at the head that starts at once. -/
theorem met_PlainAdvanceIsCountedAndBooked_offers :
    (PlacesFree (offer none) (withActions (actions 7) queued) ∧ ¬ PlacesFree (offer none) (withActions (actions 8) queued))
    ∧ (PlacesFree (offer (some 5)) (withActions (actions 6) queued)
      ∧ ¬ PlacesFree (offer (some 5)) (withActions (actions 7) queued))
    ∧ (let o : Offer := ⟨.align, 7, some 3, 8, .now, false, none⟩
      let s := auto routed
      o.volume = none ∧ s.cs.queue = [] ∧ s.cs.engine = .idle ∧ s.mg.mode = .auto ∧ s.ts.armed = false
        ∧ reached s.vc.lineCount (storedAction o s).fire = true) := by
  decide +kernel

/-- A head action that moves the flow, one that finds it there, one a litre ahead; and an engine FAULTED. -/
theorem met_PlainAdvanceIsCountedAndBooked_starts :
    (let s := withActions [act 8 1500] (auto routed);
      s.cs.engine = .idle ∧ s.mg.mode = .auto ∧ s.ts.armed = false ∧ s.cs.queue = [act 8 1500]
        ∧ reached s.vc.lineCount (act 8 1500).fire = true ∧ StartsFreely (act 8 1500) s)
    ∧ (let s := withActions [act 3 1500, act 8 1501] (auto routed);
      s.cs.engine = .idle ∧ s.mg.mode = .auto ∧ s.ts.armed = false ∧ s.cs.queue = [act 3 1500, act 8 1501]
        ∧ reached s.vc.lineCount (act 3 1500).fire = true ∧ StartsFreely (act 3 1500) s
        ∧ reached s.vc.lineCount (act 8 1501).fire = false)
    ∧ (let s := withActions [act 8 1501] (auto routed);
      s.ts.armed = false ∧ s.cs.engine = .idle ∧ reached s.vc.lineCount (act 8 1501).fire = false)
    ∧ (faulted routed).ts.armed = false ∧ (faulted routed).cs.engine = .faulted :=
  ⟨⟨rfl, rfl, rfl, rfl, by decide +kernel, Or.inr ⟨⟨by decide +kernel, (by intro c h; cases h)⟩, by decide +kernel⟩⟩,
    ⟨rfl, rfl, rfl, rfl, by decide +kernel, Or.inl (by decide +kernel), by decide +kernel⟩, by decide +kernel, rfl, rfl⟩

/-- An event latched with a lower one disabled; a notice formed; an emission test due; and settled states that step. -/
theorem met_EventsAreLatchedAndReported :
    (let c : Context := ⟨7, 1500, some 3, 1, -4⟩
    let s := raise .valveFault c stocked
    s.liu.control.originated.length < 4 ∧ s.mr.heldResponse = none
      ∧ s.nu.latches[eventIndex .valveFault] = some ⟨c, false⟩ ∧ (eventIndex .valveFault).val + 1 ≤ 3
      ∧ (∀ d : Event, (eventIndex d).val < (eventIndex .valveFault).val → s.nu.latches[eventIndex d] = none)
      ∧ s.nu.testDue = true ∧ (formNotice s).isSome = true)
    ∧ NoticesSettled stocked ∧ ∃ t, step (stocked.setPending [.silenceTimerExpiry]) = .next t := by
  refine ⟨⟨by decide +kernel, by decide +kernel, by decide +kernel, by decide +kernel, fun d => ?_, by decide +kernel,
    by decide +kernel⟩, ⟨Or.inl (fun e h => h.1 ?_), fun h => absurd rfl h⟩, _, rfl⟩
  · cases d <;> decide +kernel
  · cases e <;> decide +kernel

theorem met_SilenceIsReportedOnce :
    (Running running ∧ running.vc.silenceTimer = some 0)
    ∧ (let s := running.setVc { running.vc with silenceTimer := none };
      Running s ∧ s.vc.silenceTimer = none) := ⟨⟨⟨rfl, rfl⟩, rfl⟩, ⟨rfl, rfl⟩, rfl⟩

theorem met_LineFallsStill :
    (Running metered ∧ metered.vc.stillTimer = some 0) ∧ Running running ∧ running.vc.stillTimer = none :=
  ⟨⟨⟨rfl, rfl⟩, rfl⟩, ⟨rfl, rfl⟩, rfl⟩

/-- The longest payload, a PING of 197 parameter bytes, and every field of PUT SEGMENT. -/
theorem met_RequestFrameIsItsCommand :
    (requestBytes (.ping (List.replicate 197 0))).length ≤ 198 ∧ (requestBytes (.putSegment resetSegment)).length ≤ 198 := by
  decide +kernel

theorem met_UnknownRequestIsAnsweredUnknown :
    Serving stocked ∧ requestLength 0x02 ≠ some [(1 : Byte)].length ∧ requestLength 0x99 ≠ some 0
      ∧ 197 < (List.replicate 198 (0 : Byte)).length ∧ (List.replicate 200 (0x99 : Byte)).length ≤ 200 :=
  ⟨stocked_serving, by decide +kernel⟩

theorem met_RequestMeetsABusyResponder :
    (let s := responder .summing none none stocked;
      Running s ∧ requestOfCommand (.ident 5) = some (5, 0x02) ∧ s.mr.state = .summing)
    ∧ (let s := responder .holding (some (frame 9)) none stocked;
      Running s ∧ requestOfCommand (.unknownRequest 5 []) = some (5, 0) ∧ s.mr.state = .holding)
    ∧ (let s := responder .restartPending none (some (frame 9)) stocked;
      Running s ∧ requestOfCommand (.route 5 3) = some (5, 0x53) ∧ s.mr.state = .restartPending) :=
  ⟨⟨⟨rfl, rfl⟩, rfl, rfl⟩, ⟨⟨rfl, rfl⟩, rfl, rfl⟩, ⟨rfl, rfl⟩, rfl, rfl⟩

theorem met_PingEchoesAndIdentIdentifies :
    Serving stocked ∧ (List.replicate 197 (0 : Byte)).length ≤ 197 ∧ 197 < (List.replicate 198 (0 : Byte)).length :=
  ⟨stocked_serving, by decide +kernel⟩

theorem met_StatusIsReadWhole :
    Serving stocked ∧ Running (summing stocked) ∧ (summing stocked).mr.state = .summing
      ∧ ∃ t, exec (.readStatus 5) (summing stocked) = .next t := ⟨stocked_serving, ⟨rfl, rfl⟩, rfl, _, rfl⟩

/-- With no frame queued, three and four. -/
theorem met_NoticesAreSet :
    Serving stocked ∧ Serving (full stocked)
      ∧ Serving (onControl ⟨.hunt, [], [frame 1, frame 2, frame 3], some .originated⟩ stocked) ∧ (1 : Byte).toNat ≤ 1 ∧ (0x1FFFF : BitVec 24).toNat < 2 ^ 17
      ∧ 1 < (2 : Byte).toNat ∧ 2 ^ 17 ≤ (0x20000 : BitVec 24).toNat :=
  ⟨stocked_serving, full_serving, ⟨rfl, rfl, rfl⟩, by decide +kernel⟩

theorem met_RestartWaitsForItsResponse : Serving stocked ∧ Serving (full stocked) := ⟨stocked_serving, full_serving⟩

/-- Unarmed and armed; an entry in range, out of range, and a duplicate. -/
theorem met_PutReplacesOnePendingEntry :
    Serving stocked ∧ stocked.ts.armed = false ∧ Serving armed ∧ armed.ts.armed = true
      ∧ firstBad (productRanges 15 (product 3 1 80000 9)) = none
      ∧ firstBad (productRanges 15 (product 3 1 80000 8)) = some 13
      ∧ (∃ i : Fin 16, i.val ≠ (15 : Byte).toNat ∧ stocked.ts.pending.products[i].code = 1)
      ∧ firstBad (outletRanges 9 (resetOutlet 1 7)) = none ∧ firstBad (outletRanges 10 (resetOutlet 1 7)) = some 0
      ∧ firstBad (ruleRanges 7 7 ⟨3, 200000⟩) = none ∧ firstBad (ruleRanges 7 8 ⟨3, 200000⟩) = some 1 :=
  ⟨stocked_serving, rfl, ⟨rfl, rfl, rfl⟩, rfl, by decide +kernel, by decide +kernel, by decide +kernel, by decide +kernel,
    by decide +kernel, by decide +kernel, by decide +kernel⟩

theorem met_PutSegmentReplacesTheRecord :
    Serving stocked ∧ Serving armed ∧ firstBad (segmentRanges resetSegment) = none
      ∧ firstBad (segmentRanges { resetSegment with reliefOutlet := 7 }) ≠ none :=
  ⟨stocked_serving, ⟨rfl, rfl, rfl⟩, by decide +kernel, by decide +kernel⟩

theorem met_CommitArmsOrApplies :
    (Serving badPending ∧ badPending.ts.armed = false ∧ commitConflict badPending = some ⟨1, 8⟩)
    ∧ (let s := stocked.setCs { stocked.cs with engine := .recovery };
      Serving s ∧ s.ts.armed = false ∧ commitConflict s = none ∧ s.ts.sum = none ∧ s.cs.engine ≠ .idle)
    ∧ (commitConflict stocked = none ∧ stocked.ts.sum = none ∧ stocked.it.state = .quiet
      ∧ stocked.it.excursion = false ∧ stocked.cs.engine = .idle)
    ∧ Serving armed ∧ armed.ts.armed = true :=
  ⟨⟨⟨rfl, rfl, rfl⟩, by decide +kernel⟩, ⟨⟨rfl, rfl, rfl⟩, by decide +kernel⟩, by decide +kernel, ⟨rfl, rfl, rfl⟩, rfl⟩

/-- Timers one second short of a changed time and at it, with the same meter address and another one; in AUTO with an
action waiting for an outlet that is disabled. -/
theorem met_CommitArmsOrApplies_apply :
    (let s := applying 0x10 7 10 ((full (moving queued)).setNow 6999);
      Serving s ∧ s.ts.armed = false ∧ commitConflict s = none ∧ s.ts.sum = none ∧ s.it.state = .quiet
        ∧ s.it.excursion = false ∧ s.cs.engine = .idle
        ∧ ¬ ReachedAnew s.now s.vc.silenceTimer s.ts.active.segment.silenceTime.toNat s.ts.pending.segment.silenceTime.toNat
        ∧ ¬ ReachedAnew s.now s.vc.stillTimer s.ts.active.segment.stillTime.toNat s.ts.pending.segment.stillTime.toNat)
    ∧ (let s := applying 0x18 7 10 ((full (moving queued)).setNow 10000);
      Serving s ∧ commitConflict s = none
        ∧ ReachedAnew s.now s.vc.silenceTimer s.ts.active.segment.silenceTime.toNat s.ts.pending.segment.silenceTime.toNat
        ∧ ReachedAnew s.now s.vc.stillTimer s.ts.active.segment.stillTime.toNat s.ts.pending.segment.stillTime.toNat)
    ∧ (let s := auto (withActions [act 4 5000] routed);
      Serving s ∧ s.ts.armed = false ∧ commitConflict s = none ∧ s.ts.sum = none ∧ s.it.state = .quiet
        ∧ s.it.excursion = false ∧ s.cs.engine = .idle ∧ s.ts.pending.outlets[(4 : Outlet)].enabled = 0
        ∧ goesTo s 4 = 8) :=
  ⟨⟨⟨rfl, rfl, rfl⟩, by decide +kernel⟩, ⟨⟨rfl, rfl, rfl⟩, by decide +kernel⟩, ⟨rfl, rfl, rfl⟩, by decide +kernel⟩

theorem met_CommitTestsNameTheirOutlet :
    (badPending.ts.pending.outlets[(8 : Fin 10)]).enabled ≠ 1
    ∧ (let s := stocked.setTs { stocked.ts with
          pending := { stockedTables with outlets := stockedTables.outlets.set 9 (resetOutlet 0 0xF1) } };
      (s.ts.pending.outlets[(8 : Fin 10)]).enabled = 1 ∧ s.ts.pending.segment.reliefOutlet = 9
        ∧ (s.ts.pending.outlets[(9 : Fin 10)]).enabled ≠ 1)
    ∧ commitConflict stocked = none ∧ (0 : Fin 10) ≠ 1 := by decide +kernel

/-- Each of the seven tests fails on some pending copy. -/
theorem met_CommitTestsNameTheirOutlet_each :
    stocked.ts.pending.segment.reliefOutlet.toNat < 10 ∧ CommitFails badPending 1 8
    ∧ CommitFails (pendingOutlets (stockedTables.outlets.set 9 (resetOutlet 0 0xF1))) 2 9
    ∧ CommitFails (pendingOutlets (stockedTables.outlets.set 3 { resetOutlet 1 0xE3 with trim := -27000 })) 3 3
    ∧ CommitFails (stocked.setBq [batch 7 1 1000, batch 8 3 51000]) 4 1
    ∧ CommitFails (pendingOutlets (stockedTables.outlets.set 3 (resetOutlet 0 0xE3))) 5 0
    ∧ CommitFails (pendingOutlets (stockedTables.outlets.set 4 (resetOutlet 0 0xE3))) 6 3
    ∧ CommitFails (pendingOutlets (stockedTables.outlets.set 4 (resetOutlet 0 0x20))) 7 4 := by
  refine ⟨by decide +kernel, ⟨by decide +kernel, rfl⟩, ⟨9, by decide +kernel, by decide +kernel, rfl⟩,
    ⟨3, by decide +kernel, rfl, by decide +kernel, by decide +kernel, by decide +kernel⟩,
    ⟨batch 8 3 51000, rfl, (by rintro ⟨-, k, hk⟩; revert k; decide +kernel), ?_⟩,
    ⟨0, rfl, ⟨by decide +kernel, 3, by decide +kernel, by decide +kernel, by decide +kernel⟩,
      (by intro l hl; exact absurd hl (Nat.not_lt_zero _))⟩,
    ⟨3, rfl, ⟨4, by decide +kernel, by decide +kernel⟩, (by rintro p hp ⟨q, hq⟩; revert p q; decide +kernel)⟩,
    ⟨4, rfl, Or.inr (Or.inl (by decide +kernel)), ?_⟩⟩
  · intro j c hj hc
    have : j = 0 := by omega
    subst this
    cases hc
    exact ⟨by decide +kernel, 0, by decide +kernel⟩
  · intro p hp h
    unfold CommitFails.AddressTaken at h
    revert p
    decide +kernel

theorem met_WithdrawDisarms : Serving armed ∧ Running (summing armed) ∧ (summing armed).mr.state = .summing :=
  ⟨⟨rfl, rfl, rfl⟩, ⟨rfl, rfl⟩, rfl⟩

theorem met_SumTablesStartsTheSum : Serving stocked ∧ (1 : Byte).toNat ≤ 1 ∧ 1 < (2 : Byte).toNat :=
  ⟨stocked_serving, by decide +kernel⟩

theorem met_SumCompletionAnswers :
    (let s := summing stocked;
      Running s ∧ s.ts.sum = some ⟨true, 0⟩ ∧ s.mr.state = .summing ∧ s.mr.service = some ⟨5, 0x16⟩ ∧ s.ts.armed = false)
    ∧ (let s := summing armed;
      Running s ∧ s.ts.sum = some ⟨true, 0⟩ ∧ s.ts.armed = true ∧ s.it.state = .quiet ∧ s.it.excursion = false
        ∧ s.cs.engine = .idle)
    ∧ Running stocked ∧ stocked.ts.sum = none :=
  ⟨⟨⟨rfl, rfl⟩, by decide +kernel⟩, ⟨⟨rfl, rfl⟩, by decide +kernel⟩, ⟨rfl, rfl⟩, rfl⟩

theorem present_product : Present stocked 1 ∧ Present queued 2 ∧ ¬ Present queued 6 := by
  refine ⟨⟨by decide, by decide +kernel, fun h => by cases h⟩, ⟨by decide, by decide +kernel, fun h => by cases h⟩,
    fun h => absurd h.2.1 (by decide +kernel)⟩

theorem met_BatchAddRefusals :
    (Serving queued ∧ firstBad (batchRanges (fields 0 1)) = some 0)
    ∧ (Serving filled ∧ firstBad (batchRanges (fields 8 1)) = none ∧ 32 ≤ filled.bq.length)
    ∧ (queued.bq.length < 32 ∧ queued.bq.findIdx? (fun b => b.batchId == (fields 9 1).batchId) = some 2)
    ∧ (∀ b ∈ queued.bq, b.batchId ≠ (fields 10 6).batchId) ∧ ¬ Present queued (fields 10 6).product :=
  ⟨⟨queued_serving, by decide +kernel⟩, ⟨⟨rfl, rfl, rfl⟩, by decide +kernel⟩, by decide +kernel, by decide +kernel,
    present_product.2.2⟩

theorem met_FirstBatchIsScheduled :
    Serving stocked ∧ firstBad (batchRanges (fields 7 1)) = none ∧ stocked.bq = [] ∧ Present stocked (fields 7 1).product :=
  ⟨stocked_serving, by decide +kernel, rfl, present_product.1⟩

/-- Behind two batches, and behind one where the new batch opens no window. -/
theorem met_BatchIsAppended :
    (Serving queued ∧ firstBad (batchRanges (fields 10 2)) = none ∧ queued.bq.getLast? = some (batch 9 1 101000)
      ∧ queued.bq.length < 32 ∧ (∀ b ∈ queued.bq, b.batchId ≠ (fields 10 2).batchId)
      ∧ Present queued (fields 10 2).product ∧ 2 ≤ queued.bq.length)
    ∧ (running.bq.getLast? = some (batch 7 1 1000) ∧ running.bq.length < 32
      ∧ (∀ b ∈ running.bq, b.batchId ≠ (fields 10 2).batchId)
      ∧ NoWindowAt running (recordWith (fields 10 2)
          (headMark (batch 7 1 1000) + (batch 7 1 1000).nominal.setWidth 48) none)) :=
  ⟨⟨queued_serving, by decide +kernel, by decide +kernel, by decide +kernel, by decide +kernel, present_product.2.1,
      by decide +kernel⟩,
    by decide +kernel, by decide +kernel, by decide +kernel, Or.inr (by decide +kernel)⟩

theorem met_WindowOpensAtItsMark :
    let s := atCount 40000 running
    let b1 := recordWith (fields 8 2) (headMark (batch 7 1 1000) + (batch 7 1 1000).nominal.setWidth 48) none
    Serving s ∧ firstBad (batchRanges (fields 8 2)) = none ∧ s.bq = [batch 7 1 1000]
      ∧ (batch 7 1 1000).batchId ≠ (fields 8 2).batchId ∧ Present s (fields 8 2).product ∧ s.ts.armed = false
      ∧ s.it.state = .quiet ∧ s.it.excursion = false ∧ reached s.vc.lineCount (openMarkAt s b1) = true
      ∧ s.ts.active.segment.minimumContrast.toNat
          ≤ (referenceDensity s b1 - referenceDensity s (batch 7 1 1000)).natAbs
      ∧ reached s.vc.lineCount (headMark b1 + s.ts.active.segment.lateMargin.setWidth 48) = false :=
  ⟨⟨rfl, rfl, rfl⟩, by decide +kernel, rfl, by decide +kernel, present_product.2.1, rfl, rfl, rfl, by decide +kernel,
    by decide +kernel, by decide +kernel⟩

theorem lastStep (o : Option State) (f : State → Option State) (h : o.any (fun u => (f u).isNone) = true) :
    ∃ u, o = some u ∧ f u = none := by
  cases o with
  | none => cases h
  | some u => exact ⟨u, rfl, Option.isNone_iff_eq_none.mp h⟩

/-- QUIET with one batch, a litre before the open mark and at it; a mark acted on after which none is reached. -/
theorem met_WindowOpensAtItsMark_quiet :
    (running.it.state = .quiet ∧ running.bq.length ≤ 1 ∧ markStep running = none)
    ∧ ((atCount 31000 queued).it.state = .quiet
      ∧ (atCount 31000 queued).bq = batch 7 1 1000 :: batch 8 2 51000 :: [batch 9 1 101000])
    ∧ reached 30999 (openMarkAt queued (batch 8 2 51000)) = false
    ∧ reached 31000 (openMarkAt queued (batch 8 2 51000)) = true
    ∧ ∃ u, markStep (atCount 31000 queued) = some u ∧ markStep u = none := by
  exact ⟨by decide +kernel, by decide +kernel, by decide +kernel, by decide +kernel,
    lastStep _ markStep (by decide +kernel)⟩

/-- WATCH a litre before the close mark and at it, with an extension left and without; OVERDUE. -/
theorem met_WindowOpensAtItsMark_watch :
    (tracked .watch record0 70999).it.record = some record0 ∧ (tracked .watch record0 70999).it.state = .watch
    ∧ reached 70999 record0.closeMark = false ∧ reached 71000 record0.closeMark = true
    ∧ record0.extensions < queued.ts.active.segment.maxExtensions.toNat
    ∧ queued.ts.active.segment.maxExtensions.toNat ≤ { record0 with extensions := 2 }.extensions
    ∧ (tracked .overdue record0 71000).it.state = .overdue := by decide +kernel

/-- MIXING a litre before the wide mark and at it, past it with a postponed end that may be taken and one that may not,
and a litre before the forced-end mark and at it. -/
theorem met_WindowOpensAtItsMark_mixing :
    (let s := tracked .mixing mixing0 112000;
      s.it.record = some mixing0 ∧ s.it.state = .mixing ∧ mixing0.startMark = some 52000
        ∧ (112000 : Mark) = 52000 + s.ts.active.segment.maxMixingVolume.setWidth 48
        ∧ (172000 : Mark) = 52000 + s.ts.active.segment.maxMixingVolume.setWidth 48 * 2 ∧ mixing0.widest = false
        ∧ reached 111999 112000 = false ∧ reached s.vc.lineCount 112000 = true
        ∧ reached 171999 172000 = false ∧ reached 172000 172000 = true ∧ mixing0.forcedEnd = false)
    ∧ (let s := due 60000 [] (tracked .mixing { mixing0 with widest := true } 172000);
      s.it.endDue = some 60000 ∧ s.it.held = [])
    ∧ (let s := due 60000 [offer none] (tracked .mixing { mixing0 with widest := true } 172000);
      s.it.held ≠ []) := by decide +kernel

/-- FALLBACK a litre before each mark and at it, with the decisions outstanding and made. -/
theorem met_WindowOpensAtItsMark_fallback :
    (let s := tracked .fallback record0 48000;
      s.it.record = some record0 ∧ s.it.state = .fallback
        ∧ (54000 : Mark) = record0.midpoint.getD record0.predicted + halfWidth record0
            + s.ts.active.segment.fallbackGuard.setWidth 48
        ∧ fallbackDecision s record0 .headCut = 48000 ∧ fallbackDecision s record0 .tailCut = 54000
        ∧ reached 47999 48000 = false ∧ reached 48000 48000 = true ∧ reached 53999 54000 = false
        ∧ reached 54000 54000 = true)
    ∧ Outstanding record0 .headCut ∧ Outstanding record0 .tailCut ∧ ¬ Outstanding decided .headCut
    ∧ ¬ Outstanding decided .tailCut
    ∧ (tracked .fallback decided 54000).it.endDue = none ∧ (tracked .fallback decided 54000).it.held = []
    ∧ (due 54000 [offer none] (tracked .fallback decided 54000)).it.endDue = some 54000 :=
  ⟨by decide +kernel, ⟨by decide +kernel, Or.inl (by decide +kernel)⟩, ⟨by decide +kernel, Or.inl (by decide +kernel)⟩,
    (fun h => absurd h.1 (by decide +kernel)), (fun h => absurd h.1 (by decide +kernel)), by decide +kernel⟩

/-- A window with its record and two batches, in MIXING and unarmed; a decision raised to an earlier one's mark. -/
theorem met_WindowOpensAtItsMark_decisions :
    (let s := tracked .mixing mixing0 60000;
      s.it.record = some mixing0 ∧ s.bq = batch 7 1 1000 :: batch 8 2 51000 :: [batch 9 1 101000]
        ∧ s.it.volumeDue = false ∧ s.it.state = .mixing ∧ s.ts.active.segment.confirmationCount ≠ 0 ∧ s.ts.armed = false)
    ∧ (let s := tracked .mixing { mixing0 with headCut := some 57000 } 60000;
      decisionMove .transmix .tailCut 7 8 (destinationOutlet s (batch 7 1 1000)) (destinationOutlet s (batch 8 2 51000))
          = some (.tail, 8, 8, 9)
        ∧ (57000 : Mark) = atLeast none (atLeast (some 57000) 56000)) := by
  decide +kernel

theorem twoMarks (s : State) (h : ((markStep s).bind markStep).any (fun u => (markStep u).isNone) = true) :
    ∃ t, MarksActed 2 s t := by
  rcases h1 : markStep s with _ | u
  · rw [h1] at h
    cases h
  rw [h1] at h
  obtain ⟨v, h2, h3⟩ := lastStep _ markStep h
  exact ⟨v, .acted 1 s u v h1 (.acted 0 u v v h2 (.done v h3))⟩

/-- Two marks in one event: both extensions of a window. -/
theorem met_WindowOpensAtItsMark_marks :
    (∃ t, MarksActed 2 (tracked .watch record0 85000) t) ∧ 2 ≤ 12 * ((tracked .watch record0 85000).bq.length + 1) :=
  ⟨twoMarks _ (by decide +kernel), by decide +kernel⟩

theorem met_BatchIsAmended :
    (Serving queued ∧ firstBad (batchRanges (fields 0 1)) = some 0)
    ∧ (firstBad (batchRanges (fields 10 1)) = none ∧ ∀ b ∈ queued.bq, b.batchId ≠ (fields 10 1).batchId)
    ∧ (firstBad (batchRanges (fields 7 2)) = none ∧ queued.bq.findIdx? (fun b => b.batchId == (fields 7 2).batchId) = some 0
      ∧ queued.bq[0]? = some (batch 7 1 1000) ∧ ¬ MayBeAmended queued 0 (batch 7 1 1000) (fields 7 2))
    ∧ (queued.bq.findIdx? (fun b => b.batchId == (fields 9 6).batchId) = some 2 ∧ queued.bq[2]? = some (batch 9 1 101000)
      ∧ MayBeAmended queued 2 (batch 9 1 101000) (fields 9 6) ∧ ¬ Present queued (fields 9 6).product)
    ∧ (let f := { fields 7 1 with nominal := 60000 };
      MayBeAmended queued 0 (batch 7 1 1000) f ∧ Present queued f.product
        ∧ ∀ c, queued.bq[1]? = some c →
          NoWindowAt queued { c with predicted := headMark (batch 7 1 1000) + f.nominal.setWidth 48 }) := by
  refine ⟨⟨queued_serving, by decide +kernel⟩, ⟨by decide +kernel, by decide +kernel⟩,
    ⟨by decide +kernel, by decide +kernel, rfl, ?_⟩, ⟨by decide +kernel, rfl, Or.inl (by decide), present_product.2.2⟩,
    Or.inr ⟨rfl, Or.inr ⟨rfl, by decide +kernel⟩⟩, ⟨by decide, by decide +kernel, fun h => by cases h⟩, fun c h => ?_⟩
  · rintro (h | ⟨_, h | h⟩)
    · exact absurd h (by decide)
    · exact absurd h (by decide)
    · exact absurd h.2.1 (by decide +kernel)
  · cases h
    exact Or.inr (by decide +kernel)

theorem met_BatchIsDropped :
    Serving queued ∧ (10 : BatchId) ≠ 0 ∧ (∀ b ∈ queued.bq, b.batchId ≠ 10)
    ∧ queued.bq.findIdx? (fun b => b.batchId == 7) = some 0
    ∧ queued.bq.findIdx? (fun b => b.batchId == 8) = some 1 ∧ queued.it.state = .quiet
    ∧ queued.bq.findIdx? (fun b => b.batchId == 9) = some 2
    ∧ (∀ b c, queued.bq[0]? = some b → queued.bq[2]? = some c →
        NoWindowAt queued { c with predicted := headMark b + b.nominal.setWidth 48 })
    ∧ Serving (inWindow .watch queued) ∧ (inWindow .watch queued).it.state ≠ .quiet := by
  refine ⟨queued_serving, by decide, by decide +kernel, by decide +kernel, by decide +kernel, rfl, by decide +kernel,
    fun b c hb hc => ?_, ⟨rfl, rfl, rfl⟩, by decide +kernel⟩
  cases hb
  cases hc
  exact Or.inr (by decide +kernel)

/-- A batch added behind a single one, shortened at entry 0, and dropped at entry 1: each a report to a QUIET tracker
whose open mark is then reached. -/
theorem met_BatchIsAppended_window :
    let s := atCount 40000 running
    Serving s ∧ firstBad (batchRanges (fields 10 2)) = none ∧ s.bq = [batch 7 1 1000] ∧ (7 : BatchId) ≠ 10
      ∧ Present s (fields 10 2).product ∧ s.it.state = .quiet
      ∧ reached s.vc.lineCount (openMarkAt s (recordWith (fields 10 2) 51000 none)) = true :=
  ⟨⟨rfl, rfl, rfl⟩, by decide +kernel, rfl, by decide, present_product.2.1, rfl, by decide +kernel⟩

def shortened : BatchFields := { fields 7 1 with nominal := 1000 }

theorem met_BatchIsAmended_window :
    Serving queued ∧ firstBad (batchRanges shortened) = none
      ∧ queued.bq.findIdx? (fun b => b.batchId == shortened.batchId) = some 0
      ∧ MayBeAmended queued 0 (batch 7 1 1000) shortened ∧ Present queued shortened.product
      ∧ (batch 7 1 1000).nominal ≠ shortened.nominal
      ∧ reached queued.vc.lineCount (openMarkAt queued (batch 8 2 2000)) = true
      ∧ (let u := changeReported { queued with bq := [recordWith shortened 1000 none, batch 8 2 2000] };
        u.it.state ≠ .quiet ∧ u.bq.findIdx? (fun b => b.batchId == shortened.batchId) = some 0) :=
  ⟨queued_serving, by decide +kernel, by decide +kernel,
    Or.inr ⟨rfl, Or.inr ⟨rfl, by decide +kernel⟩⟩, ⟨by decide, by decide +kernel, fun h => by cases h⟩, by decide,
    by decide +kernel, by decide +kernel⟩

/-- Entry 0 shortened so far, before a batch of the same product, that its window ends within the event. -/
theorem met_BatchIsAmended_left :
    let s := atCount 90000 (queued.setBq [batch 7 1 1000, batch 9 1 51000])
    let u := changeReported { received s with bq := [recordWith shortened 1000 none, batch 9 1 2000] }
    Serving s ∧ u.bq.findIdx? (fun b => b.batchId == shortened.batchId) = none ∧ u.it.state = .quiet :=
  ⟨⟨rfl, rfl, rfl⟩, by decide +kernel⟩

theorem met_BatchIsDropped_window :
    let s := atCount 40000 queued
    Serving s ∧ s.bq.findIdx? (fun b => b.batchId == 8) = some 1 ∧ s.it.state = .quiet
      ∧ reached s.vc.lineCount (openMarkAt s (batch 9 1 51000)) = true
      ∧ (changeReported { received s with bq := [batch 7 1 1000, batch 9 1 51000] }).it.state ≠ .quiet :=
  ⟨⟨rfl, rfl, rfl⟩, by decide +kernel⟩

/-- The last position of a full queue, the first beyond one, and the first out of range. -/
theorem met_BatchIsRead :
    (Serving filled ∧ (31 : Byte).toNat ≤ 31 ∧ filled.bq[(31 : Byte).toNat]? = some (batch 7 1 1000)
      ∧ ((batch 7 1 1000).delivery.isSome = true ↔ (batch 7 1 1000).disposition = .deliverPart))
    ∧ 31 < (32 : Byte).toNat ∧ (Serving queued ∧ (3 : Byte).toNat ≤ 31 ∧ queued.bq.length ≤ (3 : Byte).toNat)
    ∧ ([] : List Byte).length ≠ 1 :=
  ⟨⟨⟨rfl, rfl, rfl⟩, by decide +kernel⟩, by decide +kernel, ⟨queued_serving, by decide +kernel⟩, by decide⟩

theorem met_InterfaceIsRead :
    (Serving (inWindow .mixing queued) ∧ (inWindow .mixing queued).it.record = some record0)
    ∧ (let s := stocked.setIt { stocked.it with history := [record0, record0, record0, record0] };
      Serving s ∧ 1 ≤ (4 : Byte).toNat ∧ (4 : Byte).toNat ≤ 4 ∧ s.it.history[(4 : Byte).toNat - 1]? = some record0)
    ∧ 4 < (5 : Byte).toNat
    ∧ (Serving stocked ∧ stocked.it.record = none ∧ stocked.it.history.length ≤ (1 : Byte).toNat - 1)
    ∧ ([] : List Byte).length ≠ 1 :=
  ⟨⟨⟨rfl, rfl, rfl⟩, rfl⟩, ⟨⟨rfl, rfl, rfl⟩, by decide +kernel, by decide +kernel, rfl⟩, by decide +kernel,
    ⟨stocked_serving, rfl, by decide +kernel⟩, by decide⟩

theorem met_TicketIsTaken :
    (let s := stocked.setTu { stocked.tu with completed := [ticket] };
      Serving s ∧ s.tu.completed = [ticket]) ∧ Serving stocked ∧ stocked.tu.completed = [] :=
  ⟨⟨⟨rfl, rfl, rfl⟩, rfl⟩, stocked_serving, rfl⟩

/-- The two ends of the accepted span of densities, and the values next to them. -/
theorem met_SampleIsCorrectedAndStored :
    (Running running ∧ running.de.ring.length ≤ 8 ∧ running.it.record.isSome = (running.it.state != .quiet)
      ∧ 50000 ≤ ((0 : Byte) ++ (0 : Byte) ++ (0xC3 : Byte) ++ (0x50 : Byte)).toNat
      ∧ ((0 : Byte) ++ (1 : Byte) ++ (0xAD : Byte) ++ (0xB0 : Byte)).toNat ≤ 110000)
    ∧ (stocked.ts.active.segment.densityAddress ≠ 0x21 ∧ [(0 : Byte), 1].length ≤ 200 ∧ [(0 : Byte), 1].length ≠ 7)
    ∧ ((0 : Byte) ++ (0 : Byte) ++ (0xC3 : Byte) ++ (0x4F : Byte)).toNat < 50000
    ∧ 110000 < ((0 : Byte) ++ (1 : Byte) ++ (0xAD : Byte) ++ (0xB1 : Byte)).toNat :=
  ⟨⟨⟨rfl, rfl⟩, by decide +kernel⟩, by decide +kernel⟩

theorem met_EvaluationReadsTheRing :
    (∃ x ∈ (sampled true running).de.ring, x.isNew = true)
    ∧ (let s := sampled false (inWindow .watch queued);
      (∀ x ∈ s.de.ring, x.isNew = false)
        ∧ s.de.last = some ⟨5, false, some ⟨70000, 70000, 2⟩, .fraction 4⟩ ∧ s.it.state = .watch
        ∧ s.it.record = some record0 ∧ s.it.held = [] ∧ s.it.endDue = none
        ∧ record0.blindCount + 1 < s.ts.active.segment.blindLimit.toNat)
    ∧ (let s := sampled true (inWindow .watch queued);
      s.it.state = .watch ∧ s.it.record = some record0 ∧ s.it.held = [] ∧ s.it.endDue = none
        ∧ (∃ x ∈ s.de.ring, x.isNew = true) ∧ (evalResult s s.vc.lineCount).figure = .fraction 0
        ∧ (0 : Int) < s.ts.active.segment.startThreshold.toNat) := by
  refine ⟨by decide +kernel, ⟨by decide +kernel, rfl, rfl, rfl, rfl, rfl, by decide +kernel⟩,
    ⟨rfl, rfl, rfl, rfl, by decide +kernel, by decide +kernel, by decide +kernel⟩⟩

/-- A blind evaluation before any other, and one whose last figure is of the other kind. -/
theorem met_EvaluationReadsTheRing_blind :
    ((∀ x ∈ running.de.ring, x.isNew = false) ∧ running.de.last = none)
    ∧ (let s := sampled false running;
      (∀ x ∈ s.de.ring, x.isNew = false) ∧ s.de.last = some ⟨5, false, some ⟨70000, 70000, 2⟩, .fraction 4⟩) :=
  ⟨⟨(by intro x h; cases h), rfl⟩, by decide +kernel, rfl⟩

/-- The offset moves at the excursion limit, 200, and at the settle volume; it stands one unit beyond. -/
theorem met_EvaluationReadsTheRing_offset :
    (let s := (atCount 11000 running).setDe { running.de with settleOrigin := some 1000, ring := [⟨70200, true⟩] };
      (evalResult s s.vc.lineCount).blind = false
        ∧ (evalResult s s.vc.lineCount).reading = some ⟨70200, 70200, 1⟩
        ∧ (evalResult s s.vc.lineCount).figure = .deviation 200 ∧ s.bq.head? = some (batch 7 1 1000)
        ∧ OffsetMoves s (batch 7 1 1000) 200 ∧ ¬ OffsetMoves s (batch 7 1 1000) 201)
    ∧ (evalResult running 1500).blind = true :=
  ⟨⟨by decide +kernel, by decide +kernel, by decide +kernel, rfl,
    ⟨rfl, rfl, by decide +kernel, by decide +kernel, 1000, rfl, by decide +kernel⟩,
    fun h => absurd h.2.2.2.1 (by decide +kernel)⟩, by decide +kernel⟩

/-- A postponed end; a held action that finds its place and one that does not. -/
theorem met_EvaluationReadsTheRing_held :
    (let s := due 60000 [] (tracked .mixing mixing0 60000); s.it.held = [] ∧ s.it.endDue ≠ none)
    ∧ offerAction (offer none) (withActions (actions 8) queued) = none
    ∧ ∃ u, offerAction (offer none) queued = some u :=
  ⟨by decide +kernel, by decide +kernel, _, rfl⟩

/-- A run one short of K and at K, with an excursion and without. -/
theorem met_EvaluationReadsTheRing_excursion :
    ((deviating false).it.state = .quiet ∧ (deviating false).bq.head? = some (batch 7 1 1000)
      ∧ (result 201).blind = false ∧ (result 201).figure = .deviation 201)
    ∧ (runAfter ⟨1, 1000⟩ true 1500).count < running.ts.active.segment.confirmationCount.toNat
    ∧ running.ts.active.segment.confirmationCount.toNat ≤ (runAfter ⟨2, 1000⟩ true 1500).count
    ∧ (deviating false).it.excursion = false ∧ (deviating true).it.excursion = true := by decide +kernel

/-- Blind results below the blind limit and at it, and fractions below the start threshold and at it. -/
theorem met_EvaluationReadsTheRing_window :
    (running.it.state = .quiet ∧ { result 5 with blind := true }.blind = true)
    ∧ (tracked .fallback record0 48000).it.state = .fallback
    ∧ (tracked .watch { record0 with blindCount := 3 } 60000).it.record = some { record0 with blindCount := 3 }
    ∧ { record0 with blindCount := 2 }.blindCount + 1 < queued.ts.active.segment.blindLimit.toNat
    ∧ ¬ { record0 with blindCount := 3 }.blindCount + 1 < queued.ts.active.segment.blindLimit.toNat
    ∧ (tracked .mixing mixing0 60000).it.state = .mixing ∧ (tracked .watch record0 60000).it.state = .watch
    ∧ (4 : Int) < queued.ts.active.segment.startThreshold.toNat
    ∧ ¬ (5 : Int) < queued.ts.active.segment.startThreshold.toNat
    ∧ { result 5 with figure := .fraction 5 }.figure = .fraction 5 := by decide +kernel

theorem address3 (s : State) (h : s.ts = stocked.ts) : AddressOf s 3 0xE3 := by
  intro p
  rw [h]
  revert p
  decide +kernel

theorem met_ValveReportIsTaken :
    (Running routed ∧ [(4 : Byte)].length ≤ 200 ∧ (∀ o : Outlet, routed.ts.active.outlets[o].valveAddress ≠ 0x99)
      ∧ 3 < (4 : Byte).toNat)
    ∧ (GuardOk routed.mg ∧ AddressOf routed 3 0xE3 ∧ (3 : Byte).toNat ≤ 3 ∧ routed.cs.engine = .idle
      ∧ routed.vc.lineState = .still)
    ∧ (let s := moving routed;
      Running s ∧ GuardOk s.mg ∧ AddressOf s 3 0xE3 ∧ s.cs.engine = .idle ∧ s.vc.lineState = .moving
        ∧ s.mg.openOrder = [3] ∧ (recordAfter 3 s.mg.valves[(3 : Outlet)]).confirmed ≠ .opened
        ∧ s.ts.active.segment.reliefOutlet.toNat = (9 : Outlet).val) :=
  ⟨⟨⟨rfl, rfl⟩, by decide +kernel⟩, ⟨routed_guardOk, address3 _ rfl, by decide, rfl, rfl⟩,
    ⟨rfl, rfl⟩, routed_guardOk, address3 _ rfl, rfl, rfl, rfl, by decide +kernel, by decide +kernel⟩

theorem address8 (s : State) (h : s.ts = stocked.ts) : AddressOf s 8 0xF0 := by
  intro p
  rw [h]
  revert p
  decide +kernel

/-- OPEN_NEW: the new outlet's confirmation, its loss, its fault with the OPEN under way, and another report. -/
theorem met_ValveReportIsTaken_openNew :
    (let s := inPhase .openNew (seq (some 3) false) (heard 8 .opened routed);
      Running s ∧ GuardOk s.mg ∧ AddressOf s 8 0xF0 ∧ s.cs.sequence = some (seq (some 3) false)
        ∧ (3 : Outlet) ≠ (seq (some 3) false).newOutlet ∧ s.vc.lineState = .still ∧ s.cs.engine = .openNew ∧ (8 : Outlet) = (seq (some 3) false).newOutlet
        ∧ s.mg.valves[(8 : Outlet)].confirmed ≠ .opened
        ∧ (reportTaken ⟨0, 0xF0, 0x31, [1]⟩ 8 1 s).mg.valves[(8 : Outlet)].confirmed = .opened
        ∧ (reportTaken ⟨0, 0xF0, 0x31, [3]⟩ 8 3 s).mg.valves[(8 : Outlet)].confirmed ≠ .opened
        ∧ Underway s ⟨8, .opens⟩)
    ∧ (let s := inPhase .openNew (seq (some 3) false) (routedTo 8 routed);
      Running s ∧ s.mg.valves[(8 : Outlet)].confirmed = .opened
        ∧ (reportTaken ⟨0, 0xF0, 0x31, [3]⟩ 8 3 s).mg.valves[(8 : Outlet)].confirmed ≠ .opened) := by
  refine ⟨⟨⟨rfl, rfl⟩, ⟨by decide +kernel, by decide +kernel⟩, address8 _ rfl, rfl, by decide +kernel, rfl, rfl, rfl, by decide +kernel,
    by decide +kernel, by decide +kernel, Or.inr (by decide +kernel)⟩, ⟨rfl, rfl⟩, by decide +kernel, by decide +kernel⟩

/-- OVERLAP and CLOSE_OLD: the new outlet lost; the old outlet's confirmation, with the close time running and over, and
its fault with the CLOSE under way. -/
theorem met_ValveReportIsTaken_closeOld :
    (let s := inPhase .overlap (seq (some 3) false) (heard 8 .closed (routedTo 8 routed));
      Running s ∧ s.cs.engine = .overlap ∧ s.mg.valves[(8 : Outlet)].confirmed = .opened
        ∧ (reportTaken ⟨0, 0xF0, 0x31, [0]⟩ 8 0 s).mg.valves[(8 : Outlet)].confirmed ≠ .opened)
    ∧ (let s := inPhase .closeOld (seq (some 3) false) (heard 3 .closed (routedTo 8 routed));
      Running s ∧ AddressOf s 3 0xE3 ∧ s.cs.engine = .closeOld ∧ (seq (some 3) false).oldOutlet = some 3
        ∧ (seq (some 3) false).closeConfirmed = false ∧ (seq (some 3) false).closeSent = false
        ∧ (reportTaken ⟨0, 0xE3, 0x31, [0]⟩ 3 0 s).mg.valves[(3 : Outlet)].confirmed = .closed ∧ s.cs.phase ≠ none
        ∧ Underway s ⟨3, .close⟩ ∧ (reportTaken ⟨0, 0xE3, 0x31, [2]⟩ 3 2 s).mg.valves[(3 : Outlet)].confirmed ≠ .closed)
    ∧ (let s := inPhase .closeOld (seq (some 3) false) (routedTo 8 routed);
      let u := s.setCs { s.cs with phase := none };
      u.cs.phase = none ∧ recoveryTime u (seq (some 3) false) ≠ 0 ∧ (seq (some 3) true).closeConfirmed = true) := by
  refine ⟨⟨⟨rfl, rfl⟩, rfl, by decide +kernel, by decide +kernel⟩,
    ⟨⟨rfl, rfl⟩, address3 _ rfl, rfl, rfl, rfl, rfl, by decide +kernel, by decide +kernel, Or.inr (by decide +kernel),
      by decide +kernel⟩, rfl, by decide +kernel, rfl⟩

/-- A line without an open outlet, MOVING and STILL. -/
theorem met_ValveReportIsTaken_guard :
    running.vc.lineState = .still ∧ (moving running).vc.lineState = .moving ∧ (moving running).mg.openOrder = [] :=
  ⟨rfl, rfl, rfl⟩

theorem met_ManifoldCommandIsJudged :
    (Running routed ∧ (0xE3 : Byte) ≠ routed.liu.address ∧ AddressOf routed 3 0xE3 ∧ routed.mg.mode = .manual
      ∧ ¬ LastStandingOpen routed 3)
    ∧ ([(2 : Byte)].length ≤ 200 ∧ [(2 : Byte)] ≠ [0] ∧ [(2 : Byte)] ≠ [1])
    ∧ (let s := moving routed;
      Running s ∧ (0xE3 : Byte) ≠ s.liu.address ∧ AddressOf s 3 0xE3 ∧ s.mg.mode = .manual ∧ LastStandingOpen s 3)
    ∧ (Running (held .auto) ∧ (0xE3 : Byte) ≠ (held .auto).liu.address ∧ AddressOf (held .auto) 3 0xE3
      ∧ (held .auto).mg.mode ≠ .manual)
    ∧ ManifoldBarred (held .auto) ∧ ∃ t, step ((held .auto).setPending [.valveCommand 0xE3 5 [1]]) = .next t := by
  refine ⟨⟨⟨rfl, rfl⟩, by decide +kernel, address3 _ rfl, rfl, fun h => absurd h.1 (by decide +kernel)⟩,
    by decide +kernel, ⟨⟨rfl, rfl⟩, by decide +kernel, address3 _ rfl, rfl, rfl, ⟨by decide +kernel, by decide +kernel⟩, ?_⟩,
    ⟨⟨rfl, rfl⟩, by decide +kernel, address3 _ rfl, by decide +kernel⟩, Or.inr (by intro f h; cases h), _, rfl⟩
  unfold StandsOpen
  decide +kernel

theorem met_ModeIsSet :
    (Serving routed ∧ 2 ≤ (2 : Byte).toNat) ∧ (Serving (auto routed) ∧ (auto routed).mg.mode = .auto)
    ∧ (Serving (held .auto) ∧ (held .auto).mg.mode = .held)
    ∧ (Serving (faulted routed) ∧ (faulted routed).mg.mode ≠ .auto ∧ (faulted routed).mg.mode ≠ .held
      ∧ (faulted routed).it.state = .quiet ∧ (faulted routed).it.excursion = false ∧ (faulted routed).bq ≠ []
      ∧ (faulted routed).mg.openOrder ≠ [] ∧ (faulted routed).cs.engine = .faulted)
    ∧ (routed.mg.mode = .manual ∧ routed.it.state = .quiet ∧ routed.it.excursion = false
      ∧ routed.bq.head? = some (batch 7 1 1000) ∧ routed.mg.openOrder.getLast? = some 3 ∧ routed.cs.engine = .idle
      ∧ routed.cs.queue = [] ∧ routed.ts.armed = false ∧ NoManifoldCommand routed
      ∧ firstDestination routed (batch 7 1 1000) = outletCode (some 3))
    ∧ (let s := routedTo 8 running;
      Serving s ∧ s.mg.openOrder.getLast? = some 8 ∧ NoManifoldCommand s
        ∧ firstDestination s (batch 7 1 1000) = outletCode (some 3) ∧ (3 : Outlet) ≠ 8 ∧ Usable s 3 ∧ CommandEnters s 3
        ∧ timeMs s.ts.active.outlets[(3 : Outlet)] s.ts.active.outlets[(3 : Outlet)].openTime 0 ≠ 0) := by
  refine ⟨⟨routed_serving, by decide⟩, ⟨⟨rfl, rfl, rfl⟩, rfl⟩, ⟨⟨rfl, rfl, rfl⟩, rfl⟩, ⟨⟨rfl, rfl, rfl⟩, by decide +kernel⟩,
    ⟨rfl, rfl, rfl, rfl, rfl, rfl, rfl, rfl, (by intro f h; cases h), by decide +kernel⟩,
    ⟨rfl, rfl, rfl⟩, rfl, (by intro f h; cases h), by decide +kernel, by decide, ⟨by decide +kernel, by decide +kernel⟩,
    ⟨by decide +kernel, (by intro c h; cases h)⟩, by decide +kernel⟩

/-- A manifold command being sent, and the flow not where entry 0 belongs. -/
theorem met_ModeIsSet_withdrawal :
    let s := onField ⟨.hunt, [⟨0xE3, 5, 0x32, [1]⟩, frame 1], [], some .forward⟩ (routedTo 8 running)
    Serving s ∧ s.mg.mode = .manual ∧ s.it.state = .quiet ∧ s.it.excursion = false
      ∧ s.bq.head? = some (batch 7 1 1000) ∧ s.mg.openOrder.getLast? = some 8 ∧ s.cs.engine ≠ .faulted
      ∧ firstDestination s (batch 7 1 1000) = outletCode (some 3)
      ∧ (decide ((3 : Outlet) ≠ 8) && decide (s.cs.queue.length < 8)) = true
      ∧ (withdrawn (received s)).liu.field.forward = [frame 1] :=
  ⟨⟨rfl, rfl, rfl⟩, by decide +kernel⟩

theorem met_ResumeEndsHeld :
    (Serving routed ∧ routed.mg.mode = .manual ∧ routed.cs.engine ≠ .faulted)
    ∧ (let s := faulted running;
      Serving s ∧ s.mg.mode = .manual ∧ s.cs.engine = .faulted ∧ s.mg.openOrder = [])
    ∧ (let s := faulted (withActions [act 3 1400] (held .manual));
      Serving s ∧ s.cs.sequence = none ∧ s.cs.phase = none ∧ s.cs.stroke = none ∧ s.cs.recovery = none
        ∧ s.ts.armed = false ∧ s.mg.openOrder ≠ [] ∧ s.mg.mode = .held ∧ s.mg.resumeMode = .manual)
    ∧ (let s := faulted (withActions [act 8 5000] (held .auto));
      Serving s ∧ s.mg.mode = .held ∧ s.mg.resumeMode = .auto ∧ s.mg.openOrder ≠ []
        ∧ reached s.vc.lineCount (act 8 5000).fire = false ∧ s.cs.sequence = none ∧ s.ts.armed = false)
    ∧ (let s := faulted (withActions [act 3 1400, act 8 5000] (held .auto));
      s.cs.queue = [act 3 1400] ++ [act 8 5000] ∧ reached s.vc.lineCount (act 3 1400).fire = true
        ∧ reached s.vc.lineCount (act 8 5000).fire = false) :=
  ⟨⟨routed_serving, by decide +kernel⟩, ⟨⟨rfl, rfl, rfl⟩, by decide +kernel⟩, ⟨⟨rfl, rfl, rfl⟩, by decide +kernel⟩,
    ⟨⟨rfl, rfl, rfl⟩, by decide +kernel⟩, by decide +kernel⟩

/-- Two reached actions collapsed into one that moves the flow, and one that finds it there. -/
theorem met_ResumeEndsHeld_collapse :
    (let s := faulted (withActions [act 3 1400, act 8 1500, act 9 1501] (held .auto));
      s.cs.queue = [act 3 1400, act 8 1500] ++ [act 9 1501] ∧ s.ts.armed = false
        ∧ (∀ x ∈ [act 3 1400, act 8 1500], reached s.vc.lineCount x.fire = true)
        ∧ [act 3 1400, act 8 1500].getLast? = some (act 8 1500) ∧ reached s.vc.lineCount (act 9 1501).fire = false)
    ∧ (let w := auto (received (held .auto));
      trapNoted 2 7 8 (received (held .auto)) = received (held .auto)
        ∧ StartsFreely ⟨.forced, 7, some 3, goesTo w 8, none, 1500, false⟩ w
        ∧ StartsFreely ⟨.forced, 7, some 3, goesTo w 3, none, 1500, false⟩ w) :=
  ⟨by decide +kernel, by decide +kernel, Or.inr ⟨⟨by decide +kernel, (by intro c h; cases h)⟩, by decide +kernel⟩,
    Or.inl (by decide +kernel)⟩

theorem met_OutletIsClearedOrRouted :
    (Serving routed ∧ (9 : Byte).toNat = (9 : Outlet).val) ∧ 9 < (10 : Byte).toNat
    ∧ (Serving (held .auto) ∧ (9 : Byte).toNat ≤ 9 ∧ (held .auto).mg.mode ≠ .manual)
    ∧ (let s := routedTo 8 running;
      Serving s ∧ (3 : Byte).toNat = (3 : Outlet).val ∧ s.mg.mode = .manual ∧ s.cs.engine = .idle ∧ s.cs.queue = []
        ∧ Usable s 3 ∧ s.mg.openOrder.getLast? ≠ some 3 ∧ CommandEnters s 3
        ∧ timeMs s.ts.active.outlets[(3 : Outlet)] s.ts.active.outlets[(3 : Outlet)].openTime 0 ≠ 0)
    ∧ (routed.ts.active.segment.reliefOutlet.toNat = (9 : Outlet).val ∧ Usable routed 3 ∧ ¬ Usable routed 0
      ∧ Usable routed 8 ∧ Serving noTransmix ∧ ¬ Usable noTransmix 0 ∧ ¬ Usable noTransmix 8) :=
  ⟨⟨routed_serving, by decide⟩, by decide, ⟨⟨rfl, rfl, rfl⟩, by decide +kernel⟩,
    ⟨⟨rfl, rfl, rfl⟩, by decide, rfl, rfl, rfl, ⟨by decide +kernel, by decide +kernel⟩, by decide +kernel,
      ⟨by decide +kernel, (by intro c h; cases h)⟩, by decide +kernel⟩,
    by decide +kernel, ⟨by decide +kernel, by decide +kernel⟩, fun h => absurd h.1 (by decide +kernel),
    ⟨by decide +kernel, by decide +kernel⟩, ⟨rfl, rfl, rfl⟩, fun h => absurd h.1 (by decide +kernel),
    fun h => absurd h.2 (by decide +kernel)⟩

/-- A ROUTE that moves the flow, and one to where it is. -/
theorem met_OutletIsClearedOrRouted_effect :
    (routed.ts.armed = false ∧ routed.cs.queue = []
      ∧ StartsFreely ⟨.forced, headId routed, routed.mg.openOrder.getLast?, goesTo routed 8, none, routed.vc.lineCount, false⟩
          routed)
    ∧ StartsFreely ⟨.forced, headId routed, routed.mg.openOrder.getLast?, goesTo routed 3, none, routed.vc.lineCount, false⟩
        routed :=
  ⟨⟨rfl, rfl, Or.inr ⟨⟨by decide +kernel, (by intro c h; cases h)⟩, by decide +kernel⟩⟩, Or.inl (by decide +kernel)⟩

/-- OPEN_NEW before and after the confirmation, OVERLAP without and with an old outlet, CLOSE_OLD before and after the
confirmation, RECOVERY, and a timer that does not run. -/
theorem met_PhasesEndAtTheirTimers :
    (let s := inPhase .openNew (seq (some 3) false) routed;
      Running s ∧ s.cs.engine = .openNew ∧ s.cs.sequence = some (seq (some 3) false) ∧ s.cs.phase = some ⟨0, 1000⟩
        ∧ s.mg.valves[(8 : Outlet)].confirmed ≠ .opened)
    ∧ (let s := inPhase .openNew (seq (some 3) false) (routedTo 8 routed);
      Running s ∧ s.mg.valves[(8 : Outlet)].confirmed = .opened
        ∧ timeMs s.ts.active.outlets[(8 : Outlet)] s.ts.active.outlets[(8 : Outlet)].overlapTime 1 ≠ 0)
    ∧ (let s := inPhase .overlap (seq none false) (routedTo 8 running);
      Running s ∧ s.cs.engine = .overlap ∧ s.cs.sequence = some (seq none false) ∧ recoveryTime s (seq none false) ≠ 0)
    ∧ (let s := inPhase .overlap (seq (some 3) false) (moving (routedTo 8 routed));
      Running s ∧ s.cs.engine = .overlap ∧ s.mg.valves[(3 : Outlet)].confirmed ≠ .closed ∧ CommandEnters s 3
        ∧ ¬ (s.vc.lineState = .moving ∧ s.mg.openOrder = [3])
        ∧ timeMs s.ts.active.outlets[(3 : Outlet)] s.ts.active.outlets[(3 : Outlet)].closeTime 2 ≠ 0)
    ∧ (let s := inPhase .closeOld (seq (some 3) true) (routedTo 8 routed);
      Running s ∧ s.cs.engine = .closeOld ∧ s.cs.phase = some ⟨0, 1000⟩ ∧ recoveryTime s (seq (some 3) true) ≠ 0
        ∧ (seq (some 3) false).closeConfirmed = false)
    ∧ (let s := routed.setCs { routed.cs with engine := .recovery, recovery := some ⟨0, 3000⟩ };
      Running s ∧ s.cs.engine = .recovery ∧ s.cs.recovery = some ⟨0, 3000⟩ ∧ s.ts.armed = false ∧ s.mg.mode ≠ .auto)
    ∧ (let s := (auto routed).setCs { routed.cs with
          engine := .recovery, queue := actions 8, recovery := some ⟨0, 3000⟩ };
      Running s ∧ s.cs.engine = .recovery ∧ s.cs.recovery = some ⟨0, 3000⟩ ∧ s.cs.queue.length ≤ 8)
    ∧ (Running routed ∧ routed.cs.phase = none ∧ routed.cs.stroke = none ∧ routed.cs.recovery = none) :=
  ⟨⟨⟨rfl, rfl⟩, by decide +kernel⟩, ⟨⟨rfl, rfl⟩, by decide +kernel⟩, ⟨⟨rfl, rfl⟩, by decide +kernel⟩,
    ⟨⟨rfl, rfl⟩, rfl, by decide +kernel, ⟨by decide +kernel, (by intro c h; cases h)⟩, by decide +kernel, by decide +kernel⟩,
    ⟨⟨rfl, rfl⟩, by decide +kernel⟩, ⟨⟨rfl, rfl⟩, by decide +kernel⟩, ⟨⟨rfl, rfl⟩, by decide +kernel⟩,
    ⟨rfl, rfl⟩, by decide +kernel⟩

theorem met_StrokeExpiryFailsTheSequence :
    (let s := inPhase .openNew (seq (some 3) false) (auto routed);
      Running s ∧ s.cs.engine = .openNew ∧ s.cs.sequence = some (seq (some 3) false) ∧ s.cs.stroke = some ⟨0, 30000⟩)
    ∧ (let s := inPhase .closeOld (seq (some 3) false) (routedTo 8 routed);
      Running s ∧ s.cs.engine = .closeOld ∧ s.cs.sequence = some (seq (some 3) false)
        ∧ (seq (some 3) false).oldOutlet = some 3 ∧ s.cs.stroke = some ⟨0, 30000⟩) :=
  ⟨⟨⟨rfl, rfl⟩, by decide +kernel⟩, ⟨⟨rfl, rfl⟩, by decide +kernel⟩⟩

/-- The stocked state is sound, its tables are in range, and it takes a step. -/
theorem met_SoundnessIsKept : Sound stocked ∧ TablesSound stocked ∧ ∃ t, step stocked = .next t := by
  have hm : GuardOk resetGuard := ⟨List.nodup_nil, by decide +kernel⟩
  have ht : TablesOk stockedTables := ⟨by decide +kernel, by decide +kernel, by decide +kernel, by decide +kernel⟩
  refine ⟨⟨⟨Nat.zero_le 8, Nat.zero_le 4⟩, ⟨Nat.zero_le 8, Nat.zero_le 4⟩, ?_, ?_, ?_, ?_, hm, ?_⟩, ⟨ht, ht⟩, _, rfl⟩
  · exact ⟨(by intro b h; cases h), Nat.zero_le 32, List.nodup_nil, trivial⟩
  · exact ⟨Nat.zero_le 8, (by decide +kernel : -(resetSegment.offsetLimit.toNat : Int) ≤ resetEvaluator.offset
      ∧ resetEvaluator.offset ≤ resetSegment.offsetLimit.toNat)⟩
  · exact ⟨rfl, (by intro h; cases h), Nat.zero_le 4⟩
  · exact ⟨⟨Nat.zero_le 8, trivial⟩, rfl⟩
  · exact ⟨Nat.zero_le 8, trivial, Nat.zero_le 16, (by intro t h; cases h), (by intro t h; cases h),
      (by intro t h; cases h)⟩

end Sys2Proof.Tests
end

section
/-! PROOFS. The Volume Counter and the passing of time: marks and totals, an idle step, the field frames that only pass,
the expiries of the silence and the still timer. -/

namespace Sys2Proof.Machine

/-! ## Marks -/

/-- R5 in numbers: the marks not yet reached lie 1 … 2^47 litres ahead. -/
theorem not_reached_iff (count m : Mark) :
    reached count m = false ↔ 1 ≤ (m - count).toNat ∧ (m - count).toNat ≤ 2 ^ 47 := by
  unfold reached
  rw [decide_eq_false_iff_not]
  bv_omega

/-- R5 in numbers: after an increment a mark is reached when it lies `n` litres ahead at most, or lay behind. -/
theorem reached_add_iff (before m : Mark) (n : BitVec 32) (h : 1 ≤ (m - before).toNat ∧ (m - before).toNat ≤ 2 ^ 47) :
    reached (before + n.setWidth 48) m = true ↔ (m - before).toNat ≤ n.toNat := by
  unfold reached
  rw [decide_eq_true_iff]
  bv_omega

/-- Settles O18, by the distance to the mark. -/
theorem advanceCrossesTheMarksAhead : Obligations.AdvanceCrossesTheMarksAhead := by
  intro before m n
  have hn : n.toNat < 2 ^ 32 := n.isLt
  unfold crossed
  rw [Bool.and_eq_true, Bool.not_eq_true', not_reached_iff]
  constructor
  · rintro ⟨hahead, hreached⟩
    exact ⟨hahead.1, (reached_add_iff before m n hahead).1 hreached⟩
  · rintro ⟨hlow, hhigh⟩
    have hahead : 1 ≤ (m - before).toNat ∧ (m - before).toNat ≤ 2 ^ 47 := ⟨hlow, by omega⟩
    exact ⟨hahead, (reached_add_iff before m n hahead).2 hhigh⟩

/-! ## Power-on -/

/-- Settles O4: the reset values of the eleven blocks are those of the rules. -/
theorem powerOnSetsResetValues : Obligations.PowerOnSetsResetValues := by
  intro pins s
  show Host.Outcome.next (resetAll pins s) = _
  unfold resetAll resetLink resetVolume
  rfl

/-! ## An idle step -/

theorem step_idle_expiry (c : Instr) (s : State) (hp : s.pending = []) (hd : dueExpiry s = some c) :
    step s = exec c (countRaces s) := by
  unfold step
  simp only [hp, hd]

theorem step_idle_passes (s : State) (hp : s.pending = []) (hd : dueExpiry s = none) :
    step s = .next (passTime s) := by
  unfold step
  simp only [hp, hd]

theorem dueExpiry_inReset (s : State) (h : s.inReset = true) : dueExpiry s = none := by
  unfold dueExpiry
  rw [if_pos h]

theorem dueExpiry_of_nil (s : State) (h : dueExpiries s = []) : dueExpiry s = none := by
  unfold dueExpiry
  rw [h, ite_self]

theorem dueExpiry_of_single (c : Instr) (s : State) (hr : s.inReset = false) (h : dueExpiries s = [c]) :
    dueExpiry s = some c := by
  unfold dueExpiry
  rw [hr, h]
  rfl

/-- Where several expiries are due, the free value picks one of them (log 3). -/
theorem dueExpiry_of_many (c d : Instr) (l : List Instr) (s : State) (hr : s.inReset = false)
    (h : dueExpiries s = c :: d :: l) : ∃ e, ExpiryDue s e ∧ dueExpiry s = some e := by
  have hpick : Config.freeExpiry s.races % ((d :: l).length + 1) < (c :: d :: l).length := Nat.mod_lt _ (Nat.succ_pos _)
  refine ⟨(c :: d :: l)[Config.freeExpiry s.races % ((d :: l).length + 1)], ?_, ?_⟩
  · rw [← mem_dueExpiries_iff, h]
    exact List.getElem_mem hpick
  · unfold dueExpiry
    rw [hr, h]
    exact List.getElem?_eq_getElem hpick

theorem countRaces_of_single (c : Instr) (s : State) (h : dueExpiries s = [c]) : countRaces s = s := by
  unfold countRaces
  rw [h]
  rfl

theorem countRaces_of_many (c d : Instr) (l : List Instr) (s : State) (h : dueExpiries s = c :: d :: l) :
    countRaces s = { s with races := s.races + 1 } := by
  unfold countRaces
  rw [h]
  exact if_neg (by simp)

/-- Settles O2, by the number of expiries that are due: none, one, or several. -/
theorem idleStepPassesTime : Obligations.IdleStepPassesTime := by
  refine ⟨fun s hp hr => ?_, fun s hp _ hnone => ?_, fun c s hp hr hc honly => ?_, fun c d s hp hr hc hd hne => ?_⟩
  · exact step_idle_passes s hp (dueExpiry_inReset s hr)
  · have hnil : dueExpiries s = [] :=
      List.eq_nil_iff_forall_not_mem.2 (fun c hc => hnone c ((mem_dueExpiries_iff s c).1 hc))
    exact step_idle_passes s hp (dueExpiry_of_nil s hnil)
  · have hsingle : dueExpiries s = [c] := by
      have hmem : ∀ d, d ∈ dueExpiries s ↔ d = c := fun d =>
        (mem_dueExpiries_iff s d).trans ⟨honly d, fun e => e ▸ hc⟩
      exact List.perm_singleton.1 ((List.perm_ext_iff_of_nodup (dueExpiries_nodup s) (List.nodup_singleton c)).2
        (fun d => (hmem d).trans List.mem_singleton.symm))
    rw [step_idle_expiry c s hp (dueExpiry_of_single c s hr hsingle), countRaces_of_single c s hsingle]
  · rw [← mem_dueExpiries_iff] at hc hd
    rcases hl : dueExpiries s with _ | ⟨x, _ | ⟨y, l⟩⟩
    · rw [hl] at hc
      exact absurd hc List.not_mem_nil
    · rw [hl, List.mem_singleton] at hc hd
      exact absurd (hc.trans hd.symm) hne
    · obtain ⟨e, he, hpick⟩ := dueExpiry_of_many x y l s hr hl
      exact ⟨e, he, by rw [step_idle_expiry e s hp hpick, countRaces_of_many x y l s hl]⟩

/-! ## Timers of the Volume Counter -/

/-- R8: what the silence timer's expiry does, at the moment it ends (log 4). -/
theorem silenceExpiry_running (s : State) (start : Time) (h : s.vc.silenceTimer = some start) :
    silenceExpiry s = raised .meter
      ⟨(s.bq.head?.map (·.batchId)).getD 0, s.vc.lineCount, none, 1, s.ts.active.segment.silenceTime.toNat⟩
      { s with
        vc := { s.vc with silenceTimer := none }
        now := max s.now (start + s.ts.active.segment.silenceTime.toNat * 1000) } := by
  unfold silenceExpiry
  rw [h]
  rfl

theorem silenceExpiry_stopped (s : State) (h : s.vc.silenceTimer = none) : silenceExpiry s = s := by
  unfold silenceExpiry
  rw [h]

/-- R9: what the still timer's expiry does, at the moment it ends (log 4). -/
theorem stillExpiry_running (s : State) (start : Time) (h : s.vc.stillTimer = some start) :
    stillExpiry s = raised .lineState
      ⟨(s.bq.head?.map (·.batchId)).getD 0, s.vc.lineCount, none, 0, s.ts.active.segment.stillTime.toNat⟩
      { s with
        vc := { s.vc with stillTimer := none, lineState := .still }
        now := max s.now (start + s.ts.active.segment.stillTime.toNat * 1000) } := by
  unfold stillExpiry
  rw [h]
  rfl

theorem stillExpiry_stopped (s : State) (h : s.vc.stillTimer = none) : stillExpiry s = s := by
  unfold stillExpiry
  rw [h]

/-- Settles O24. -/
theorem silenceIsReportedOnce : Obligations.SilenceIsReportedOnce :=
  ⟨fun s start hs ht => ⟨_, rfl, unless_ends silenceExpiry s _ hs.released (silenceExpiry_running s start ht)⟩,
    fun s hs ht => ⟨_, rfl, unless_ends silenceExpiry s s hs.released (silenceExpiry_stopped s ht)⟩⟩

/-- Settles O25. -/
theorem lineFallsStill : Obligations.LineFallsStill :=
  ⟨fun s start hs ht => ⟨_, rfl, unless_ends stillExpiry s _ hs.released (stillExpiry_running s start ht)⟩,
    fun s hs ht => ⟨_, rfl, unless_ends stillExpiry s s hs.released (stillExpiry_stopped s ht)⟩⟩

/-! ## Frames from FIELD -/

/-- R153 and R155: the end of a reception on FIELD puts the receiver in HUNT, forwards the frame and hands it to its
observer. -/
theorem receiveFrame_field (f : Frame) (s : State) (h : f.payload.length ≤ 200) :
    receiveFrame .field f s = observeField f (forwarded f s) := by
  have hforward : offerForward .control f (endReception .field s) = forwarded f s := by
    by_cases hfree : s.liu.control.forward.length < 8
    · have hcond : forwardFree (endReception .field s) .control = true := decide_eq_true hfree
      unfold offerForward forwarded
      rw [if_pos hcond, if_pos hfree]
      rfl
    · have hcond : ¬ forwardFree (endReception .field s) .control = true := fun e => hfree (of_decide_eq_true e)
      unfold offerForward forwarded
      rw [if_neg hcond, if_neg hfree]
      rfl
  unfold receiveFrame handOnFrame
  rw [if_pos h]
  exact congrArg (observeField f) hforward

/-- METER_TOTAL outside a reset: the frame is forwarded, the VC observes it, and the event ends. -/
theorem exec_meterTotal (dst src : Byte) (payload : List Byte) (s : State) (hr : s.inReset = false)
    (hl : payload.length ≤ 200) : exec (.meterTotal dst src payload) s
      = .next (finish (observeMeter src payload (forwarded ⟨dst, src, 0x11, payload⟩ s))) := by
  show Host.Outcome.next (unlessInReset (receiveFrame .field ⟨dst, src, kindMeterTotal, payload⟩) s) = _
  unfold unlessInReset
  rw [hr, receiveFrame_field _ s hl]
  rfl

/-- An event on FIELD that raised nothing and left the link as the forwarding left it ends with the frame forwarded. -/
theorem forwarded_finish (f : Frame) (s u : State) (hl : u.liu = (forwarded f s).liu) (hn : u.nu.testDue = false) :
    finish u = { u with liu := (finish u).liu } ∧ ForwardedFromField f s (finish u) := by
  have k := finish_settles u
  have hrest := k.rest
  rw [k.nuKept hn] at hrest
  refine ⟨hrest, ⟨?_, ⟨?_, ?_, ?_, fun x hx => ?_⟩, ⟨?_, ?_, ?_, fun x hx => ?_⟩⟩⟩
  · rw [k.address, hl]; rfl
  · rw [k.field.rx, hl]; rfl
  · rw [k.field.forward, hl]; rfl
  · rw [k.fieldQueue, hl]; rfl
  · exact k.field.sending x (by rw [hl]; exact hx)
  · rw [k.control.rx, hl]; rfl
  · rw [k.control.forward, hl]; rfl
  · rw [k.queueKept hn, hl]; rfl
  · exact k.control.sending x (by rw [hl]; exact hx)

/-! ## Meter frames -/

/-- R1: a frame that is not good is not taken. -/
theorem observeMeter_unusable (src : Byte) (payload : List Byte) (s : State)
    (h : src ≠ s.ts.active.segment.meterAddress ∨ payload.length ≠ 5 ∨ payload[4]? ≠ some 0) :
    observeMeter src payload s = s := by
  have hclass : meterClass s src payload ≠ .good := by
    unfold meterClass
    split
    · exact MeterClass.noConfusion
    · rename_i hforeign
      have hstatus : payload[4]? ≠ some 0 := by
        rcases h with h | h | h
        · exact absurd (Or.inl h) hforeign
        · exact absurd (Or.inr h) hforeign
        · exact h
      rw [if_neg hstatus]
      exact MeterClass.noConfusion
  unfold observeMeter
  cases hc : meterClass s src payload with
  | foreign => rfl
  | fault => rfl
  | good => exact absurd hc hclass

/-- The total of a payload: its first four bytes, most significant first (R1). -/
theorem paramAt_total (b3 b2 b1 b0 status : Byte) :
    (paramAt [b3, b2, b1, b0, status] 0 4 : BitVec 32) = b3 ++ b2 ++ b1 ++ b0 := by
  have happend : ∀ (x : Nat) (b : Byte), x <<< 8 ||| b.toNat = x * 256 + b.toNat := fun x b => by
    rw [← Nat.shiftLeft_add_eq_or_of_lt b.isLt, Nat.shiftLeft_eq]
  apply BitVec.eq_of_toNat_eq
  simp only [paramAt, beNat, List.drop_zero, List.take, List.foldl, BitVec.toNat_ofNat, BitVec.toNat_append, happend]
  omega

/-- R1: a good frame's total is taken. -/
theorem observeMeter_good (b3 b2 b1 b0 : Byte) (s : State) :
    observeMeter s.ts.active.segment.meterAddress [b3, b2, b1, b0, 0] s = takeTotal (b3 ++ b2 ++ b1 ++ b0) s := by
  have hclass : meterClass s s.ts.active.segment.meterAddress [b3, b2, b1, b0, 0] = .good := by
    unfold meterClass State.segment
    rw [if_neg (by simp)]
    rfl
  unfold observeMeter
  rw [hclass]
  exact congrArg (takeTotal · s) (paramAt_total b3 b2 b1 b0 0)

/-- METER_TOTAL with a good total outside a reset: the frame is forwarded, the total taken, and the event ends. -/
theorem exec_goodTotal (dst b3 b2 b1 b0 : Byte) (s : State) (hr : s.inReset = false) :
    exec (.meterTotal dst s.ts.active.segment.meterAddress [b3, b2, b1, b0, 0]) s
      = .next (finish (takeTotal (b3 ++ b2 ++ b1 ++ b0)
          (forwarded ⟨dst, s.ts.active.segment.meterAddress, 0x11, [b3, b2, b1, b0, 0]⟩ s))) := by
  rw [exec_meterTotal dst _ [b3, b2, b1, b0, 0] s hr (by simp)]
  generalize (⟨dst, s.ts.active.segment.meterAddress, 0x11, [b3, b2, b1, b0, 0]⟩ : Frame) = f
  exact congrArg (fun u => Host.Outcome.next (finish u)) (observeMeter_good b3 b2 b1 b0 (forwarded f s))

/-- R2 and R3: a first total, or one equal to the last, is stored and restarts the silence timer. -/
theorem takeTotal_uncounted (total : BitVec 32) (s : State)
    (h : s.vc.lastTotal = none ∨ s.vc.lastTotal = some total) :
    takeTotal total s = { s with vc := { s.vc with lastTotal := some total, silenceTimer := some s.now } } := by
  unfold takeTotal
  rcases h with h | h
  · rw [h]; rfl
  · rw [h]; exact if_pos rfl

/-- Settles O19. -/
theorem unusableMeterFrameOnlyPasses : Obligations.UnusableMeterFrameOnlyPasses := by
  intro dst src payload s hs hl hbad
  refine ⟨_, exec_meterTotal dst src payload s hs.released hl, ?_⟩
  rw [observeMeter_unusable src payload (forwarded ⟨dst, src, 0x11, payload⟩ s) hbad]
  exact forwarded_finish _ s _ rfl hs.settled

/-- Settles O20. -/
theorem firstOrEqualTotalCountsNothing : Obligations.FirstOrEqualTotalCountsNothing := by
  intro dst b3 b2 b1 b0 s hs hlast
  refine ⟨_, exec_goodTotal dst b3 b2 b1 b0 s hs.released, ?_⟩
  generalize (⟨dst, s.ts.active.segment.meterAddress, 0x11, [b3, b2, b1, b0, 0]⟩ : Frame) = f
  rw [takeTotal_uncounted _ (forwarded f s) hlast]
  exact forwarded_finish f s _ rfl hs.settled

end Sys2Proof.Machine
end

section
/-! PROOFS. An advance counted and delivered: what it leaves alone, and the turns in which the four blocks take it. -/

namespace Sys2Proof.Machine

/-! ## What an advance leaves alone -/

/-- What an advance leaves alone: the CONTROL port, the link address, the responder, the notice settings, the clock, and
the tables while no apply is armed. -/
structure AdvanceKeeps (s t : State) : Prop where
  control : t.liu.control = s.liu.control
  address : t.liu.address = s.liu.address
  mr : t.mr = s.mr
  master : t.nu.master = s.nu.master
  enables : t.nu.enables = s.nu.enables
  nuAddress : t.nu.address = s.nu.address
  now : t.now = s.now
  unarmed : s.ts.armed = false → t.ts = s.ts

theorem AdvanceKeeps.trans {s t u : State} (h : AdvanceKeeps s t) (k : AdvanceKeeps t u) : AdvanceKeeps s u where
  control := k.control.trans h.control
  address := k.address.trans h.address
  mr := k.mr.trans h.mr
  master := k.master.trans h.master
  enables := k.enables.trans h.enables
  nuAddress := k.nuAddress.trans h.nuAddress
  now := k.now.trans h.now
  unarmed := fun ha => (k.unarmed (by rw [h.unarmed ha]; exact ha)).trans (h.unarmed ha)

theorem Evolves.advanceKeeps {s t : State} (h : Evolves s t) : AdvanceKeeps s t :=
  ⟨h.control, h.address, h.mr, h.nuMaster, h.nuEnables, h.nuAddress, h.now, h.unarmed⟩

theorem Delivers.advanceKeeps {before : Mark} {s t : State} (h : Delivers before s t) : AdvanceKeeps s t :=
  ⟨h.control, h.address, h.mr, h.nuMaster, h.nuEnables, h.nuAddress, h.now, h.unarmed⟩

theorem countIncrement_keeps (n : BitVec 32) (s : State) : AdvanceKeeps s (countIncrement n s) := by
  unfold countIncrement
  simp only
  split <;> exact ⟨rfl, rfl, rfl, rfl, rfl, rfl, rfl, fun _ => rfl⟩

theorem advance_keeps (n : BitVec 32) (s : State) : AdvanceKeeps s (advance n s) := by
  rw [advance_eq]
  exact (settleLine_evolves s).advanceKeeps.trans
    ((countIncrement_keeps n _).trans (deliverAdvance_delivers _ _).advanceKeeps)

/-! ## A total taken -/

/-- A total above the last one is stored, restarts the silence timer and is an advance (R3). -/
theorem takeTotal_advances (total last : BitVec 32) (s : State) (h : s.vc.lastTotal = some last) (hne : total ≠ last) :
    takeTotal total s
      = advance (total - last) { s with vc := { s.vc with lastTotal := some total, silenceTimer := some s.now } } := by
  unfold takeTotal
  rw [h]
  exact if_neg hne

/-- R4: the line count goes on by the total minus the last one, modulo 2^32. -/
theorem takeTotal_lineCount (total last : BitVec 32) (s : State) (h : s.vc.lastTotal = some last) :
    (takeTotal total s).vc.lineCount = s.vc.lineCount + (total - last).setWidth 48 := by
  by_cases he : total = last
  · subst he
    rw [takeTotal_uncounted total s (Or.inr h), BitVec.sub_self]
    simp
  · rw [takeTotal_advances total last s h he, advance_lineCount]

theorem takeTotal_keeps (total last : BitVec 32) (s : State) (h : s.vc.lastTotal = some last) :
    AdvanceKeeps s (takeTotal total s) := by
  have hstored : ∀ x : VolumeCounter, AdvanceKeeps s { s with vc := x } :=
    fun _ => ⟨rfl, rfl, rfl, rfl, rfl, rfl, rfl, fun _ => rfl⟩
  by_cases he : total = last
  · rw [takeTotal_uncounted total s (Or.inr (he ▸ h))]
    exact hstored _
  · rw [takeTotal_advances total last s h he]
    exact (hstored _).trans (advance_keeps _ _)

/-! ## The line settled and the increment counted -/

/-- R9 and R10: the line settled by an increment. -/
theorem settleLine_eq (s : State) : settleLine s = lineSettled s := by
  unfold settleLine lineSettled State.moving
  cases hl : s.vc.lineState with
  | moving => rfl
  | still =>
    unfold startMoving
    simp only [guard_eq]
    rfl

theorem lineSettled_races (s : State) : (lineSettled s).races = s.races := by
  unfold lineSettled
  simp only
  split
  · rfl
  · rw [guarded_rest]
    rfl

/-- R3, R4 and R7: the increment of a total, counted on the settled line. -/
theorem countIncrement_eq (total n : BitVec 32) (s : State) :
    countIncrement n (settleLine { s with vc := { s.vc with lastTotal := some total, silenceTimer := some s.now } })
      = counted total n s := by
  rw [settleLine_eq]
  rfl

theorem counted_races (total n : BitVec 32) (s : State) : (counted total n s).races = s.races := by
  rw [← countIncrement_eq, (countIncrement_rest n _).1, settleLine_eq]
  exact lineSettled_races _

/-- R6: a total that is not the last one is counted, and the advance is delivered. -/
theorem takeTotal_delivers (total last : BitVec 32) (s : State) (h : s.vc.lastTotal = some last) (hne : total ≠ last) :
    takeTotal total s = deliverAdvance s.vc.lineCount (counted total (total - last) s) := by
  rw [takeTotal_advances total last s h hne, advance_eq, (settleLine_evolves _).lineCount, countIncrement_eq]

/-! ## The turns of an advance -/

/-- The CS, the IT and the DE in any of their orders (R6; log 6). -/
theorem receivers_perm (order : Nat) : (receivers order).Perm [engineRun, testMarks, evaluationTurn] := by
  unfold receivers
  split
  · exact List.Perm.refl _
  · exact (List.Perm.swap _ _ _).cons _
  · exact List.Perm.swap _ _ _
  · exact List.perm_append_comm (l₁ := [trackerAdvance, evaluatorAdvance]) (l₂ := [sequencerAdvance])
  · exact List.perm_append_comm (l₁ := [evaluatorAdvance]) (l₂ := [sequencerAdvance, trackerAdvance])
  · exact List.reverse_perm [sequencerAdvance, trackerAdvance, evaluatorAdvance]

/-- The TU's booking takes its turn among the other three (R142; log 6). -/
theorem deliverTurns_turns (before : Mark) (order place : Nat) (s : State) :
    ∃ turns : List (State → State),
      turns.Perm [bookAdvance s.routed before s.vc.lineCount, engineRun, testMarks, evaluationTurn]
        ∧ deliverTurns before order place s = runAll turns s := by
  refine ⟨(receivers order).take place ++ bookAdvance s.routed before s.vc.lineCount :: (receivers order).drop place,
    ?_, ?_⟩
  · refine List.perm_middle.trans (List.Perm.cons _ ?_)
    rw [List.take_append_drop]
    exact receivers_perm order
  · unfold deliverTurns runAll
    rw [List.foldl_append]
    rfl

theorem deliverInOrder_turns (before : Mark) (k : Nat) (s : State) :
    ∃ turns : List (State → State),
      turns.Perm [bookAdvance s.routed before s.vc.lineCount, engineRun, testMarks, evaluationTurn]
        ∧ deliverInOrder before k s = runAll turns s := by
  unfold deliverInOrder
  simp only
  split
  · exact deliverTurns_turns before _ _ s
  · exact deliverTurns_turns before _ 0 s

/-- R6: an advance is taken by the four blocks one after another; an order that matters is counted as settled (log 6). -/
theorem deliverAdvance_turns (before : Mark) (s : State) :
    ∃ (turns : List (State → State)) (r : Nat),
      turns.Perm [bookAdvance s.routed before s.vc.lineCount, engineRun, testMarks, evaluationTurn]
        ∧ (r = s.races ∨ r = s.races + 1) ∧ deliverAdvance before s = runAll turns { s with races := r } := by
  unfold deliverAdvance
  split
  · obtain ⟨turns, hperm, hrun⟩ := deliverInOrder_turns before 0 s
    exact ⟨turns, s.races, hperm, Or.inl rfl, hrun⟩
  · obtain ⟨turns, hperm, hrun⟩ :=
      deliverInOrder_turns before ((Config.freeOrder s.races).val % openOrders before s) (s.setRaces (s.races + 1))
    exact ⟨turns, s.races + 1, hperm, Or.inr rfl, hrun⟩

/-! ## The event of an advance -/

/-- Settles O21: what every total keeps, and the turns in which the four blocks take an increment. -/
theorem totalAdvancesTheLineCount : Obligations.TotalAdvancesTheLineCount := by
  refine ⟨fun dst b3 b2 b1 b0 last s hr hlast => ?_, fun dst b3 b2 b1 b0 last n c s hs hlast hn hn0 hc => ?_⟩
  · refine ⟨_, exec_goodTotal dst b3 b2 b1 b0 s hr, ?_⟩
    generalize (⟨dst, s.ts.active.segment.meterAddress, 0x11, [b3, b2, b1, b0, 0]⟩ : Frame) = f
    generalize b3 ++ b2 ++ b1 ++ b0 = total
    have hcount := takeTotal_lineCount total last (forwarded f s) hlast
    have hkeep := takeTotal_keeps total last (forwarded f s) hlast
    have hend := finish_settles (takeTotal total (forwarded f s))
    have hrest := hend.rest
    refine ⟨?_, fun ha => ?_, ?_, hend.address.trans hkeep.address, ?_, hend.nuMaster.trans hkeep.master,
      hend.nuEnables.trans hkeep.enables, hend.nuAddress.trans hkeep.nuAddress, ?_⟩
    · rw [hrest]; exact hcount
    · rw [hrest]; exact hkeep.unarmed ha
    · rw [hrest]; exact hkeep.mr
    · rw [hend.control.rx, hkeep.control]; rfl
    · rw [hrest]; exact hkeep.now
  · have hne : b3 ++ b2 ++ b1 ++ b0 ≠ last := fun e => hn0 (by rw [hn, e]; exact BitVec.sub_self last)
    generalize hf : (⟨dst, s.ts.active.segment.meterAddress, 0x11, [b3, b2, b1, b0, 0]⟩ : Frame) = f at hc
    have htaken := takeTotal_delivers (b3 ++ b2 ++ b1 ++ b0) last (forwarded f s) hlast hne
    rw [← hn, ← hc] at htaken
    have hraces : c.races = s.races := by rw [hc, counted_races]; rfl
    obtain ⟨turns, r, hperm, hr, hrun⟩ := deliverAdvance_turns s.vc.lineCount c
    refine ⟨turns, r, _, hperm, hraces ▸ hr, exec_goodTotal dst b3 b2 b1 b0 s hs.released, ?_⟩
    rw [hf, htaken]
    exact hrun ▸ finish_ends (deliverAdvance s.vc.lineCount c)

end Sys2Proof.Machine
end

section
/-! PROOFS. What the TU and the CS do with an advance: booking in parts, boundaries, insertions and starts, and the advance
that only counts and books. -/

namespace Sys2Proof.Machine

/-! ## Boundaries -/

/-- Taking a boundary writes the list of boundaries without reading it (R144). -/
theorem takeBoundary_of_boundaries (b : Boundary) (rest l : List Boundary) (mark : Mark) (s : State) :
    takeBoundary b rest mark { s with tu := { s.tu with boundaries := l } } = takeBoundary b rest mark s := by
  unfold takeBoundary closeCurrent
  cases s.tu.current with
  | none => rfl
  | some k =>
    cases ht : k.account.tailReported with
    | true => simp only [ht, if_true]; rfl
    | false =>
      simp only [ht, Bool.false_eq_true, if_false, releaseWaiting, State.setTu]
      cases s.tu.closing <;> rfl

/-- R141: the boundary that a midpoint forms for the arriving batch `x` behind a boundary at mark `last`. -/
def midpointBoundary (last : Option Mark) (midpoint : Mark) (x : BatchRecord) (s : State) : Boundary :=
  ⟨atLeast last (midpoint + s.ts.active.segment.leadVolume.setWidth 48),
    ⟨x.batchId, x.product, laneOf s x, 0, none, none, false, false, false, false, false⟩⟩

theorem boundaryMark_eq (midpoint : Mark) (s : State) :
    boundaryMark midpoint s
      = atLeast (s.tu.boundaries.getLast?.map (·.mark)) (midpoint + s.ts.active.segment.leadVolume.setWidth 48) := by
  unfold boundaryMark
  cases s.tu.boundaries.getLast? with
  | none => rfl
  | some l => exact raiseTo_eq _ _

theorem setBoundary_eq (midpoint : Mark) (x : BatchRecord) (b : Boundary) (s : State)
    (hb : b = midpointBoundary (s.tu.boundaries.getLast?.map (·.mark)) midpoint x s) :
    setBoundary midpoint x s =
      if reached s.vc.lineCount b.mark then
        takeReached (addBoundary b (makeRoom s)).tu.boundaries (addBoundary b (makeRoom s))
      else addBoundary b (makeRoom s) := by
  have hcount : (addBoundary b (makeRoom s)).vc.lineCount = s.vc.lineCount := (makeRoom_evolves s).lineCount
  unfold midpointBoundary at hb
  rw [← hcount, hb, ← boundaryMark_eq, laneOf_eq]
  rfl

theorem makeRoom_of_free (s : State) (h : s.tu.boundaries.length < 8) : makeRoom s = s := by
  unfold makeRoom
  split
  · exact if_neg (Nat.not_le.2 h)
  · rfl

theorem makeRoom_of_full (o : Boundary) (rest : List Boundary) (s : State) (h : s.tu.boundaries = o :: rest)
    (hl : rest.length = 7) : makeRoom s = takeBoundary o rest s.vc.lineCount s := by
  have hfull : 8 ≤ s.tu.boundaries.length := by rw [h, List.length_cons, hl]
  unfold makeRoom
  rw [h] at hfull ⊢
  exact if_pos hfull

/-- R143: the only boundary, already reached, is taken at the line count. -/
theorem takeReached_single (b : Boundary) (s : State) (h : reached s.vc.lineCount b.mark = true) :
    takeReached [b] s = takeBoundary b [] s.vc.lineCount s := by
  unfold takeReached
  rw [if_pos h]
  rfl

/-- R141 and R143, with a place free. -/
theorem setBoundary_of_free (midpoint : Mark) (x : BatchRecord) (b : Boundary) (s : State)
    (hl : s.tu.boundaries.length < 8)
    (hb : b = midpointBoundary (s.tu.boundaries.getLast?.map (·.mark)) midpoint x s) :
    (reached s.vc.lineCount b.mark = false →
        setBoundary midpoint x s = { s with tu := { s.tu with boundaries := s.tu.boundaries ++ [b] } })
      ∧ (reached s.vc.lineCount b.mark = true → s.tu.boundaries = [] →
        setBoundary midpoint x s = takeBoundary b [] s.vc.lineCount s) := by
  rw [setBoundary_eq midpoint x b s hb, makeRoom_of_free s hl]
  refine ⟨fun h => ?_, fun h hnil => ?_⟩
  · rw [h]; rfl
  · have hadd : addBoundary b s = { s with tu := { s.tu with boundaries := [b] } } := by
      unfold addBoundary
      rw [hnil]
      rfl
    rw [if_pos h, hadd]
    exact (takeReached_single b { s with tu := { s.tu with boundaries := [b] } } h).trans
      (takeBoundary_of_boundaries b [] [b] s.vc.lineCount s)

/-- R141: in a full list the oldest boundary gives way, taken at the line count. -/
theorem setBoundary_of_full (midpoint : Mark) (x : BatchRecord) (b o l : Boundary) (rest : List Boundary) (s : State)
    (ho : s.tu.boundaries = o :: rest) (hl : rest.length = 7) (hlast : rest.getLast? = some l)
    (hb : b = midpointBoundary (some l.mark) midpoint x s)
    (h : reached s.vc.lineCount b.mark = false) :
    setBoundary midpoint x s = addBoundary b (takeBoundary o rest s.vc.lineCount s) := by
  have hlast' : s.tu.boundaries.getLast? = some l := by
    rw [ho, List.getLast?_cons, hlast]
    rfl
  rw [setBoundary_eq midpoint x b s (by rw [hlast']; exact hb), h, makeRoom_of_full o rest s ho hl]
  rfl

/-! ## Booking in parts -/

/-- R142: where no boundary is left, the rest of the advance is booked whole. -/
theorem bookParts_nil (routed : Option Outlet) (before after pos : Mark) (s : State) :
    bookParts routed before after [] pos s = { s with tu := volumeBooked routed (after - pos) s.tu } := by
  rw [volumeBooked_eq]
  rfl

/-- R142: a boundary that the advance crosses is booked up to, and taken at its mark. -/
theorem bookParts_cons (routed : Option Outlet) (before after pos : Mark) (b : Boundary) (rest : List Boundary)
    (s : State) : bookParts routed before after (b :: rest) pos s =
      if crossed before after b.mark then
        bookParts routed before after rest b.mark
          (takeBoundary b rest b.mark { s with tu := volumeBooked routed (b.mark - pos) s.tu })
      else { s with tu := volumeBooked routed (after - pos) s.tu } := by
  rw [volumeBooked_eq, volumeBooked_eq]
  rfl

/-! ## The engine at rest and at work -/

theorem applyDue_unarmed (s : State) (h : s.ts.armed = false) : applyDue s = false := by
  rw [Bool.eq_false_iff]
  intro hd
  rw [applyDue_armed s hd] at h
  cases h

theorem canStart_unreached (s : State)
    (h : s.mg.mode = .auto → ∀ a, s.cs.queue.head? = some a → reached s.vc.lineCount a.fire = false) :
    canStart s = false := by
  rw [Bool.eq_false_iff]
  intro hc
  obtain ⟨a, rest, _, hmode, hqueue, hreached⟩ := (canStart_iff s).1 hc
  rw [h hmode a (by rw [hqueue]; rfl)] at hreached
  cases hreached

/-- R103: at IDLE with no apply armed the engine stays while no head action may start. -/
theorem engineStep_idle (s : State) (he : s.cs.engine = .idle) (ha : s.ts.armed = false)
    (h : s.mg.mode = .auto → ∀ a, s.cs.queue.head? = some a → reached s.vc.lineCount a.fire = false) :
    engineStep s = none := by
  unfold engineStep
  simp only [he]
  unfold idleStep
  rw [applyDue_unarmed s ha, canStart_unreached s h]
  rfl

theorem engineStep_faulted (s : State) (he : s.cs.engine = .faulted) : engineStep s = none := by
  unfold engineStep
  simp only [he]

/-- R107: in OPEN_NEW the engine waits for its phase timer. -/
theorem engineStep_opening (tm : Timer) (s : State) (he : s.cs.engine = .openNew) (hp : s.cs.phase = some tm) :
    engineStep s = none := by
  unfold engineStep
  cases hq : s.cs.sequence with
  | none => simp only [he]
  | some q => simp only [he, hp]; rfl

/-- R103: with no apply armed the engine's move at a start test that holds is the start of the head action. -/
theorem engineStep_starts (a : Action) (rest : List Action) (s : State) (hs : StartDue a rest s)
    (ha : s.ts.armed = false) : engineStep s = some (actionStarted false a rest s) := by
  have hstart : canStart s = true := (canStart_iff s).2 ⟨a, rest, hs⟩
  obtain ⟨he, _, hqueue, _⟩ := hs
  unfold engineStep
  simp only [he]
  unfold idleStep
  rw [applyDue_unarmed s ha, hstart, ← startAction_eq false a rest s hqueue]
  rfl

/-- The engine that can make one move only makes that one. -/
theorem engineRun_single (s u : State) (h : engineStep s = some u) (hu : engineStep u = none) : engineRun s = u := by
  show engineLoop (62 + 1 + 1) s = u
  unfold engineLoop
  rw [h]
  simp only
  unfold engineLoop
  rw [hu]

/-! ## The start of an action -/

/-- An event that may have been raised touches the latches alone. -/
theorem ite_raised_rest (p : Prop) [Decidable p] (e : Event) (c : Context) (s : State) :
    (if p then raised e c s else s) = { s with nu := (if p then raised e c s else s).nu } := by
  split <;> rfl

/-- R104: the start of an action whose outlet the flow takes already removes it. -/
theorem actionStarted_there (isRoute : Bool) (a : Action) (rest : List Action) (s : State)
    (h : s.mg.openOrder.getLast? = some (goesTo s a.target)) :
    ∃ (tu : TicketUnit) (nu : NoticeUnit),
      actionStarted isRoute a rest s = { s with tu := tu, nu := nu, cs := { s.cs with queue := rest } } := by
  unfold actionStarted
  rw [trapNoted_rest]
  simp only [h, if_true]
  rw [ite_raised_rest]
  exact ⟨_, _, rfl⟩

/-- R104 and R107: any other start begins the move, with the phase timer of the new outlet's open time. -/
theorem actionStarted_moves (isRoute : Bool) (a : Action) (rest : List Action) (s : State)
    (h : s.mg.openOrder.getLast? ≠ some (goesTo s a.target)) :
    ∃ (tu : TicketUnit) (nu : NoticeUnit) (q : Sequence), q.newOutlet = goesTo s a.target
      ∧ actionStarted isRoute a rest s
        = moveBegun q ({ a with target := goesTo s a.target } :: rest) { s with tu := tu, nu := nu } := by
  unfold actionStarted
  rw [trapNoted_rest]
  simp only [h, if_false]
  rw [ite_raised_rest]
  exact ⟨_, _, _, rfl, rfl⟩

theorem moveBegun_phase (q : Sequence) (o : Outlet) (queue : List Action) (s : State) (ho : q.newOutlet = o) :
    (moveBegun q queue s).cs.engine = .openNew
      ∧ (moveBegun q queue s).cs.phase = timerOf s.now
          (timeMs s.ts.active.outlets[o] s.ts.active.outlets[o].openTime 0) := by
  subst ho
  unfold moveBegun
  simp only
  refine ⟨(commandFormed_keeps _ _).1, ?_⟩
  rw [(commandFormed_rest _ _).2]

/-- After the start of one action the engine waits, where the next one's fire mark is not reached. -/
theorem engineStep_actionStarted (a : Action) (rest : List Action) (s : State) (he : s.cs.engine = .idle)
    (ha : s.ts.armed = false) (hf : StartsFreely a s)
    (hn : ∀ x, rest.head? = some x → reached s.vc.lineCount x.fire = false) :
    engineStep (actionStarted false a rest s) = none := by
  by_cases h : s.mg.openOrder.getLast? = some (goesTo s a.target)
  · obtain ⟨tu, nu, hstarted⟩ := actionStarted_there false a rest s h
    rw [hstarted]
    exact engineStep_idle _ he ha (fun _ => hn)
  · obtain ⟨tu, nu, q, hnew, hstarted⟩ := actionStarted_moves false a rest s h
    obtain ⟨-, htime⟩ := hf.resolve_left h
    obtain ⟨hengine, hphase⟩ :=
      moveBegun_phase q _ ({ a with target := goesTo s a.target } :: rest) { s with tu := tu, nu := nu } hnew
    rw [hstarted]
    exact engineStep_opening _ _ hengine (hphase.trans (if_neg htime))

/-! ## Insertions -/

/-- R99: an insertion adds the stored action to the queue, and touches the latches alone besides. -/
theorem inserted_rest (o : Offer) (s : State) : inserted o s = { s with
    nu := (inserted o s).nu, cs := { s.cs with queue := s.cs.queue ++ [storedAction o s] } } := by
  unfold inserted
  rw [trapNoted_rest]

/-- R99, step 5: an offer inserted at the head of an IDLE engine's queue in AUTO, its fire mark reached, starts. -/
theorem offerAction_starts (o : Offer) (s : State) (hv : o.volume = none) (hq : s.cs.queue = [])
    (he : s.cs.engine = .idle) (hm : s.mg.mode = .auto) (ha : s.ts.armed = false)
    (hr : reached s.vc.lineCount (storedAction o s).fire = true) :
    offerAction o s = some (engineRun (actionStarted false (storedAction o s) [] (inserted o s))) := by
  have hrest := inserted_rest o s
  have hqueue : (inserted o s).cs.queue = [storedAction o s] := by rw [hrest, hq]; rfl
  have hdue : StartDue (storedAction o s) [] (inserted o s) := by
    refine ⟨?_, ?_, hqueue, ?_⟩
    · rw [hrest]; exact he
    · rw [hrest]; exact hm
    · rw [hrest]; exact hr
  have hstep := engineStep_starts _ _ _ hdue (by rw [hrest]; exact ha)
  have hplaces : PlacesFree o s := by unfold PlacesFree; rw [hq, hv]; decide
  have haccepted : accepted o s = engineRun (inserted o s) := by
    unfold accepted insertedNow
    rw [hv]
    exact if_pos hq
  rw [offerAction_eq, if_pos hplaces, haccepted, engineRun_step _ _ (by simp [hqueue]) hstep]

/-! ## An advance that only counts and books -/

/-- Neither the CS nor the IT nor the DE has anything to do. -/
structure NothingDue (s : State) : Prop where
  engine : engineStep s = none
  marks : markStep s = none
  evaluation : evaluationDue s = false

/-- What keeps the three from acting: no evaluation mark reached, no second batch for a QUIET tracker, and an IDLE engine
with no action queued and no apply armed. -/
structure AtRest (s : State) : Prop where
  evaluation : reached s.vc.lineCount s.vc.nextEval = false
  batches : s.bq.length ≤ 1
  tracker : s.it.state = .quiet
  queue : s.cs.queue = []
  engine : s.cs.engine = .idle
  unarmed : s.ts.armed = false

theorem AtRest.nothingDue {s : State} (h : AtRest s) : NothingDue s where
  engine := engineStep_idle s h.engine h.unarmed (fun _ a ha => by rw [h.queue] at ha; cases ha)
  marks := markStep_single s h.tracker h.batches
  evaluation := h.evaluation

/-- The accounts do not make the three act. -/
theorem AtRest.setTu {s : State} (h : AtRest s) (x : TicketUnit) : AtRest { s with tu := x } :=
  ⟨h.evaluation, h.batches, h.tracker, h.queue, h.engine, h.unarmed⟩

theorem testMarks_none (s : State) (h : markStep s = none) : testMarks s = s := by
  show markLoop (12 * s.bq.length + 11 + 1) s = s
  unfold markLoop
  rw [h]

theorem evaluatorAdvance_none (s : State) (h : evaluationDue s = false) : evaluatorAdvance s = s := by
  unfold evaluatorAdvance
  rw [h]
  rfl

theorem NothingDue.runAll {s : State} (h : NothingDue s) :
    runAll [sequencerAdvance, trackerAdvance, evaluatorAdvance] s = s := by
  show evaluatorAdvance (testMarks (engineRun s)) = s
  rw [engineRun_stop s h.engine, testMarks_none s h.marks, evaluatorAdvance_none s h.evaluation]

/-- R140: where the other three have nothing to do, before the booking or after it, an advance is its booking. -/
theorem deliverAdvance_books (before : Mark) (s : State) (h : NothingDue s)
    (k : NothingDue (bookAdvance s.routed before s.vc.lineCount s)) :
    deliverAdvance before s = bookAdvance s.routed before s.vc.lineCount s := by
  have hwork : advanceWork s = 0 := by
    unfold advanceWork
    rw [h.engine, h.marks, h.evaluation]
    rfl
  have horder : orderIrrelevant before s = true := by
    unfold orderIrrelevant
    rw [hwork]
    rfl
  unfold deliverAdvance
  rw [if_pos horder]
  exact k.runAll

/-- R9: a MOVING line is settled by its timer and its origin alone. -/
theorem lineSettled_moving (s : State) (h : s.vc.lineState = .moving) :
    lineSettled s = { s with vc := { s.vc with stillTimer := some s.now, origin := s.now } } := by
  unfold lineSettled
  simp only [h, if_true]

/-- R3, R7 and R9: an increment on a MOVING line, not above the maximum meter step, is counted and raises nothing. -/
theorem counted_plain (total n : BitVec 32) (s : State) (hm : s.vc.lineState = .moving)
    (hn : n.toNat ≤ s.ts.active.segment.maxMeterStep.toNat) :
    counted total n s = { s with vc := countedAdvance s total n } := by
  unfold counted
  rw [lineSettled_moving { s with vc := { s.vc with lastTotal := some total, silenceTimer := some s.now } } hm]
  exact if_neg (Nat.not_lt.2 hn)

theorem bookAdvance_unbounded (routed : Option Outlet) (before after : Mark) (s : State) (h : s.tu.boundaries = []) :
    bookAdvance routed before after s = { s with tu := volumeBooked routed (after - before) s.tu } := by
  unfold bookAdvance
  rw [h]
  exact bookParts_nil routed before after before s

/-- R3, R4, R6, R9 and R140: a plain advance is counted and booked. -/
theorem takeTotal_plain (total last n : BitVec 32) (s : State) (hlast : s.vc.lastTotal = some last)
    (hn : n = total - last) (hn0 : n ≠ 0) (hstep : n.toNat ≤ s.ts.active.segment.maxMeterStep.toNat)
    (hmoving : s.vc.lineState = .moving) (hb : s.tu.boundaries = [])
    (hrest : AtRest { s with vc := countedAdvance s total n }) :
    takeTotal total s
      = { s with vc := countedAdvance s total n, tu := bookedAdvance s (n.setWidth 48) } := by
  have hne : total ≠ last := fun e => hn0 (by rw [hn, e]; exact BitVec.sub_self last)
  have hbooked := bookAdvance_unbounded (State.routed s) s.vc.lineCount (s.vc.lineCount + n.setWidth 48)
    { s with vc := countedAdvance s total n } hb
  have hlitres : s.vc.lineCount + n.setWidth 48 - s.vc.lineCount = n.setWidth 48 := by
    rw [BitVec.add_comm, BitVec.add_sub_cancel]
  rw [hlitres] at hbooked
  rw [takeTotal_delivers total last s hlast hne, ← hn, counted_plain total n s hmoving hstep]
  exact (deliverAdvance_books s.vc.lineCount _ hrest.nothingDue
    (hbooked ▸ (hrest.setTu (bookedAdvance s (n.setWidth 48))).nothingDue)).trans hbooked

/-- Settles O22: the plain advance, and clause by clause what the TU and the CS do with one. -/
theorem plainAdvanceIsCountedAndBooked : Obligations.PlainAdvanceIsCountedAndBooked := by
  refine ⟨fun dst b3 b2 b1 b0 last n s hs hlast hn hn0 hstep hmoving heval hbatches hquiet hbounds hqueue hidle hunarmed
      => ?plain,
    fun routed before after s => ⟨rfl, fun pos => ⟨bookParts_nil routed before after pos s,
      fun b rest => bookParts_cons routed before after pos b rest s⟩⟩,
    boundaryTaken_eq, setBoundary_of_free, setBoundary_of_full, offerAction_eq, offerAction_starts,
    fun a rest s he hm ha hq hr hf hn => ?starts, fun s ha h => ?stays⟩
  case plain =>
    refine ⟨_, exec_goodTotal dst b3 b2 b1 b0 s hs.released, ?_⟩
    generalize (⟨dst, s.ts.active.segment.meterAddress, 0x11, [b3, b2, b1, b0, 0]⟩ : Frame) = f
    rw [takeTotal_plain _ last n (forwarded f s) hlast hn hn0 hstep hmoving hbounds
      ⟨heval, hbatches, hquiet, hqueue, hidle, hunarmed⟩]
    exact forwarded_finish f s _ rfl hs.settled
  case starts =>
    exact engineRun_single s _ (engineStep_starts a rest s ⟨he, hm, hq, hr⟩ ha)
      (engineStep_actionStarted a rest s he ha hf hn)
  case stays =>
    rcases h with hfaulted | ⟨hidle, hunreached⟩
    · exact engineRun_stop s (engineStep_faulted s hfaulted)
    · exact engineRun_stop s (engineStep_idle s hidle ha hunreached)

end Sys2Proof.Machine
end

section
/-! PROOFS. Every step completes and keeps the state sound and its tables in range, and the state after a reset is both
(R149, R157). The laws say of each block what its operations keep; here the link, the responder and the resets are added,
and the commands one by one. -/

namespace Sys2Proof.Machine

/-! ## The state after a reset -/

theorem resetPort_bounded : PortBounded resetPort := ⟨Nat.zero_le 8, Nat.zero_le 4⟩

theorem resetEvaluator_ok : EvaluatorOk resetSegment resetEvaluator :=
  ⟨Nat.zero_le 8, (by decide +kernel : -(resetSegment.offsetLimit.toNat : Int) ≤ resetEvaluator.offset
    ∧ resetEvaluator.offset ≤ resetSegment.offsetLimit.toNat)⟩

theorem resetGuard_ok : GuardOk resetGuard := ⟨List.nodup_nil, by decide +kernel⟩

theorem resetTickets_ok : TicketsOk 0 resetTickets :=
  ⟨Nat.zero_le 8, trivial, Nat.zero_le 16, (by intro t h; cases h), (by intro t h; cases h), (by intro t h; cases h)⟩

theorem resetTables_ok : TablesOk resetTables where
  products := by decide +kernel
  outlets := by decide +kernel
  rules := by decide +kernel
  segment := by decide +kernel

/-- A reset leaves a sound state, whatever the state before (R174). -/
theorem resetAll_sound (address : Byte) (s : State) : Sound (resetAll address s) where
  field := resetPort_bounded
  control := resetPort_bounded
  bq := ⟨nofun, Nat.zero_le 32, List.nodup_nil, trivial⟩
  de := resetEvaluator_ok
  it := ⟨rfl, nofun, Nat.zero_le 4⟩
  cs := ⟨⟨Nat.zero_le 8, trivial⟩, rfl⟩
  mg := resetGuard_ok
  tu := resetTickets_ok

theorem resetAll_tables (address : Byte) (s : State) : TablesSound (resetAll address s) := ⟨resetTables_ok, resetTables_ok⟩

/-- Settles O60: the power-on state is that of a reset, no latch is set in it and nothing waits for the field. -/
theorem resetIsSound : Obligations.ResetIsSound :=
  ⟨resetAll_sound Config.resetPins State.reset, resetAll_tables Config.resetPins State.reset,
    ⟨Or.inl (fun _ h => h.1 (Vector.getElem_replicate _)), fun h => absurd rfl h⟩, Or.inl rfl⟩

/-! ## What keeps a state sound -/

/-- `t` is sound where `s` is, and its tables are in range where those of `s` are. -/
structure Keeps (s t : State) : Prop where
  sound : Sound s → Sound t
  tables : TablesSound s → TablesSound t

theorem Keeps.refl (s : State) : Keeps s s := ⟨id, id⟩

theorem Keeps.trans {s t u : State} (h : Keeps s t) (k : Keeps t u) : Keeps s u :=
  ⟨fun x => k.sound (h.sound x), fun x => k.tables (h.tables x)⟩

theorem Keeps.ite {s t u : State} {p : Prop} [Decidable p] (h : Keeps s t) (k : Keeps s u) :
    Keeps s (if p then t else u) := by
  split
  · exact h
  · exact k

theorem Reaches.keeps {s t : State} (h : Reaches s t) : Keeps s t := ⟨h.sound, h.tables⟩

theorem Evolves.keeps {s t : State} (h : Evolves s t) : Keeps s t := h.reaches.keeps

/-- Neither soundness nor the tables speak of the responder, the latches, the reset input, the clock or the commands. -/
theorem keeps_of_rest {s t : State} (h : t = { s with
    mr := t.mr, nu := t.nu, inReset := t.inReset, now := t.now, races := t.races, pending := t.pending }) : Keeps s t := by
  rw [h]
  exact ⟨fun k => ⟨k.field, k.control, k.bq, k.de, k.it, k.cs, k.mg, k.tu⟩, fun k => ⟨k.active, k.pending⟩⟩

theorem setPort_keeps (p : Port) (x : PortLink) (s : State) (h : PortBounded (s.port p) → PortBounded x) :
    Keeps s (s.setPort p x) := by
  cases p with
  | field => exact ⟨fun k => ⟨h k.field, k.control, k.bq, k.de, k.it, k.cs, k.mg, k.tu⟩, fun k => ⟨k.active, k.pending⟩⟩
  | control => exact ⟨fun k => ⟨k.field, h k.control, k.bq, k.de, k.it, k.cs, k.mg, k.tu⟩, fun k => ⟨k.active, k.pending⟩⟩

theorem resetAll_keeps (address : Byte) (s t : State) : Keeps s (resetAll address t) :=
  ⟨fun _ => resetAll_sound address t, fun _ => resetAll_tables address t⟩

/-! ## Events -/

theorem finish_keeps (s : State) : Keeps s (finish s) where
  sound := (finish_settles s).sound
  tables := fun k => by rw [(finish_settles s).rest]; exact ⟨k.active, k.pending⟩

theorem unlessInReset_keeps (f : State → State) (s : State) (h : Keeps s (f s)) : Keeps s (unlessInReset f s) :=
  (Keeps.refl s).ite (h.trans (finish_keeps (f s)))

/-! ## The link -/

/-- R157: a frame is appended to a forward queue only while a place is free. -/
theorem offerForward_keeps (p : Port) (f : Frame) (s : State) : Keeps s (offerForward p f s) := by
  unfold offerForward
  split
  · rename_i hfree
    refine setPort_keeps p _ s (fun k => ⟨?_, k.originated⟩)
    have := of_decide_eq_true hfree
    rw [List.length_append, List.length_singleton]
    omega
  · exact Keeps.refl s

/-- R159: a frame is appended to an originated queue only while a place is free. -/
theorem appendOriginated_keeps (p : Port) (f : Frame) (s : State) : Keeps s (appendOriginated p f s) := by
  unfold appendOriginated
  split
  · rename_i hfree
    refine setPort_keeps p _ s (fun k => ⟨k.forward, ?_⟩)
    have := of_decide_eq_true hfree
    rw [List.length_append, List.length_singleton]
    omega
  · exact Keeps.refl s

theorem setReceiver_keeps (p : Port) (r : Receiver) (s : State) : Keeps s (s.setPort p { s.port p with rx := r }) :=
  setPort_keeps p _ s (fun k => ⟨k.forward, k.originated⟩)

theorem endReception_keeps (p : Port) (s : State) : Keeps s (endReception p s) := setReceiver_keeps p .hunt s

theorem releaseHead_bounded (l : PortLink) (h : PortBounded l) : PortBounded (releaseHead l) := by
  unfold releaseHead
  split
  · exact ⟨h.forward, (List.tail_sublist _).length_le.trans h.originated⟩
  · exact ⟨(List.tail_sublist _).length_le.trans h.forward, h.originated⟩
  · exact h

theorem controlPlaceFreed_keeps (s : State) : Keeps s (controlPlaceFreed s) := by
  unfold controlPlaceFreed
  refine Keeps.trans (t := _) ?_ (keeps_of_rest rfl)
  split
  · exact (appendOriginated_keeps .control _ s).trans (keeps_of_rest rfl)
  · exact Keeps.refl s

/-- R160 and R163: the frame sent leaves its queue; the freed place is offered, or the restart is made. -/
theorem endTransmission_keeps (p : Port) (s : State) : Keeps s (endTransmission p s) := by
  have hreleased : Keeps s (s.setPort p (releaseHead (s.port p))) := setPort_keeps p _ s (releaseHead_bounded _)
  unfold endTransmission
  simp only
  split
  · exact hreleased.trans (offerCommands_evolves _).keeps
  · exact (resetAll_keeps _ s _).ite (hreleased.trans (controlPlaceFreed_keeps _))
  · exact hreleased

/-! ## The responder -/

theorem offerResponse_keeps (f : Frame) (q : Service) (s : State) : Keeps s (offerResponse f q s) :=
  ((appendOriginated_keeps .control f s).trans (keeps_of_rest rfl)).ite (keeps_of_rest rfl)

theorem inReady_keeps (src kind : Byte) (taken : State → State) (s : State) (h : Keeps s (taken s)) :
    Keeps s (inReady src kind taken s) := by
  unfold inReady
  split
  · exact h
  · exact appendOriginated_keeps .control _ s
  · exact Keeps.refl s
  · exact Keeps.refl s

theorem answer_keeps (src kind : Byte) (perform : State → Outcome) (s : State) (h : Reaches s (perform s).1) :
    Keeps s (answer src kind perform s) :=
  h.keeps.trans (offerResponse_keeps _ _ _)

theorem serve_keeps (src kind : Byte) (perform : State → Outcome) (s : State) (h : Reaches s (perform s).1) :
    Keeps s (serve src kind perform s) :=
  inReady_keeps src kind _ s (answer_keeps src kind perform s h)

theorem setSum_keeps (j : Option SumJob) (s : State) : Keeps s (s.setTs { s.ts with sum := j }) :=
  Reaches.keeps (setTs_reaches s _ rfl id)

theorem takeSumTables_keeps (src selector : Byte) (s : State) : Keeps s (takeSumTables src selector s) :=
  (answer_keeps src 0x16 _ s (Reaches.refl s)).ite ((setSum_keeps _ s).trans (keeps_of_rest rfl))

theorem takeRestart_keeps (src : Byte) (s : State) : Keeps s (takeRestart src s) :=
  (appendOriginated_keeps .control _ s).trans (keeps_of_rest rfl)

theorem completeSum_keeps (s : State) : Keeps s (completeSum s) := by
  unfold completeSum
  split
  · exact Keeps.refl s
  · refine Keeps.trans ?_ (applyIfDue_evolves false _).keeps
    split
    · exact (setSum_keeps none s).trans (offerResponse_keeps _ _ _)
    · exact setSum_keeps none s

theorem performPutSegment_reaches (r : SegmentRecord) (s : State) : Reaches s (performPutSegment r s).1 :=
  performPut_reaches _ _ _ s (fun h _ k => ⟨k.products, k.outlets, k.rules, h⟩)

theorem serveRequest_keeps (src : Byte) (q : Request) (s : State) : Keeps s (serveRequest src q s) := by
  cases q with
  | ping params => exact serve_keeps _ _ _ s (performPing_reaches params s)
  | ident => exact serve_keeps _ _ _ s (Reaches.refl s)
  | readStatus => exact serve_keeps _ _ _ s (Reaches.refl s)
  | setNotices master enables => exact serve_keeps _ _ _ s (performSetNotices_reaches src master enables s)
  | restart => exact inReady_keeps _ _ _ s (takeRestart_keeps src s)
  | putProduct index e => exact serve_keeps _ _ _ s (performPut_reaches _ _ _ s (setProduct_ok index e))
  | putOutlet index e => exact serve_keeps _ _ _ s (performPut_reaches _ _ _ s (setOutlet_ok index e))
  | putRule running arriving e => exact serve_keeps _ _ _ s (performPut_reaches _ _ _ s (setRule_ok running arriving e))
  | putSegment r => exact serve_keeps _ _ _ s (performPutSegment_reaches r s)
  | commit => exact serve_keeps _ _ _ s (performCommit_reaches s)
  | withdraw => exact serve_keeps _ _ _ s (performWithdraw_reaches s)
  | sumTables selector => exact inReady_keeps _ _ _ s (takeSumTables_keeps src selector s)
  | addBatch f => exact serve_keeps _ _ _ s (performAddBatch_reaches f s)
  | amendBatch f => exact serve_keeps _ _ _ s (performAmendBatch_reaches f s)
  | dropBatch batchId => exact serve_keeps _ _ _ s (performDropBatch_reaches batchId s)
  | readBatch position => exact serve_keeps _ _ _ s (performReadBatch_reaches position s)
  | readInterface selector => exact serve_keeps _ _ _ s (performReadInterface_reaches selector s)
  | takeTicket => exact serve_keeps _ _ _ s (performTakeTicket_reaches s)
  | setMode value => exact serve_keeps _ _ _ s (performSetMode_reaches value s)
  | resume => exact serve_keeps _ _ _ s (performResume_reaches s)
  | clearOutlet index => exact serve_keeps _ _ _ s (performClearOutlet_reaches index s)
  | route index => exact serve_keeps _ _ _ s (performRoute_reaches index s)

theorem handOverRequest_keeps (src : Byte) (payload : List Byte) (s : State) :
    Keeps s (handOverRequest src payload s) := by
  unfold handOverRequest
  split
  · exact serveRequest_keeps src _ s
  · exact serve_keeps _ _ _ s (Reaches.refl s)

/-! ## Frames handed on -/

theorem handOn_keeps (p : Port) (f : Frame) (s : State) : Keeps s (handOn p f s) := by
  cases p with
  | field => exact (offerForward_keeps .control f s).trans (observeField_reaches f _).keeps
  | control =>
    show Keeps s (handOnControl f s)
    unfold handOnControl
    refine ((handOverRequest_keeps _ _ s).ite (Keeps.refl s)).ite ?_
    split
    · exact (judgeManifold_evolves _ f s).keeps
    · exact offerForward_keeps .field f s

theorem receiveFrame_keeps (p : Port) (f : Frame) (s : State) : Keeps s (receiveFrame p f s) :=
  (endReception_keeps p s).trans ((handOn_keeps p f _).ite (Keeps.refl _))

theorem receiveBytes_keeps (p : Port) (bytes : List Byte) (s : State) : Keeps s (receiveBytes p bytes s) := by
  unfold receiveBytes
  split
  · exact receiveFrame_keeps p _ s
  · exact endReception_keeps p s

theorem endAtGap_keeps (p : Port) (s : State) : Keeps s (endAtGap p s) := by
  unfold endAtGap
  split
  · exact Keeps.refl s
  · exact (endReception_keeps p s).ite (receiveBytes_keeps p _ s)

theorem laterByte_keeps (p : Port) (b : Byte) (s : State) : Keeps s (laterByte p b s) := by
  unfold laterByte
  split
  · exact Keeps.refl s
  · exact setReceiver_keeps p _ s

theorem firstByte_keeps (p : Port) (b : Byte) (s : State) :
    Keeps s (firstByte p b (beforeByte p true s)) :=
  ((endAtGap_keeps p s).trans (finish_keeps _)).trans (setReceiver_keeps p _ _)

/-! ## Commands and steps -/

/-- An event's effect keeps the state sound, and so does the command that is this event. -/
theorem event_keeps (f : State → State) (s : State) (h : Keeps s (f s)) :
    ∃ t, (Host.Outcome.next (unlessInReset f s) : Host.Outcome State Fault Refusal) = .next t ∧ Keeps s t :=
  ⟨_, rfl, unlessInReset_keeps f s h⟩

theorem request_keeps (src : Byte) (q : Request) (s : State) :
    ∃ t, requestEvent (serveRequest src q) s = .next t ∧ Keeps s t :=
  event_keeps _ s ((endReception_keeps .control s).trans (serveRequest_keeps src q _))

/-- R149 and R157: every command completes, and keeps the state sound and the tables in range. -/
theorem exec_keeps (c : Instr) (s : State) : ∃ t, exec c s = .next t ∧ Keeps s t := by
  cases c with
  | powerOnReset pins => exact ⟨_, rfl, resetAll_keeps pins s s⟩
  | resetAsserted => exact ⟨_, rfl, (resetAll_keeps s.liu.address s s).trans (keeps_of_rest rfl)⟩
  | droppedFrame p bytes => exact event_keeps _ s (receiveBytes_keeps p bytes s)
  | meterTotal dst src payload => exact event_keeps _ s (receiveFrame_keeps .field _ s)
  | densitySample dst src payload => exact event_keeps _ s (receiveFrame_keeps .field _ s)
  | valveStatus dst src payload => exact event_keeps _ s (receiveFrame_keeps .field _ s)
  | fieldFrame f => exact event_keeps _ s (receiveFrame_keeps .field f s)
  | valveCommand dst src payload => exact event_keeps _ s (receiveFrame_keeps .control _ s)
  | controlFrame f => exact event_keeps _ s (receiveFrame_keeps .control f s)
  | consumedFrame src kind payload => exact event_keeps _ s (receiveFrame_keeps .control _ s)
  | unknownRequest src payload =>
    exact event_keeps _ s ((endReception_keeps .control s).trans (handOverRequest_keeps src payload _))
  | ping src params => exact request_keeps src (.ping params) s
  | ident src => exact request_keeps src .ident s
  | readStatus src => exact request_keeps src .readStatus s
  | setNotices src master enables => exact request_keeps src (.setNotices master enables) s
  | restart src => exact request_keeps src .restart s
  | putProduct src index e => exact request_keeps src (.putProduct index e) s
  | putOutlet src index e => exact request_keeps src (.putOutlet index e) s
  | putRule src running arriving e => exact request_keeps src (.putRule running arriving e) s
  | putSegment src r => exact request_keeps src (.putSegment r) s
  | commit src => exact request_keeps src .commit s
  | withdraw src => exact request_keeps src .withdraw s
  | sumTables src selector => exact request_keeps src (.sumTables selector) s
  | sumComplete => exact event_keeps _ s (completeSum_keeps s)
  | addBatch src f => exact request_keeps src (.addBatch f) s
  | amendBatch src f => exact request_keeps src (.amendBatch f) s
  | dropBatch src batchId => exact request_keeps src (.dropBatch batchId) s
  | readBatch src position => exact request_keeps src (.readBatch position) s
  | readInterface src selector => exact request_keeps src (.readInterface selector) s
  | takeTicket src => exact request_keeps src .takeTicket s
  | setModeAuto src value => exact request_keeps src (.setMode value) s
  | setModeManual src =>
    exact event_keeps _ s ((endReception_keeps .control s).trans (serve_keeps _ _ _ _ (performModeManual_reaches _)))
  | resume src => exact request_keeps src .resume s
  | clearOutlet src index => exact request_keeps src (.clearOutlet index) s
  | route src index => exact request_keeps src (.route index) s
  | frameTransmitted p => exact event_keeps _ s (endTransmission_keeps p s)
  | silenceTimerExpiry => exact event_keeps _ s (silenceExpiry_reaches s).keeps
  | stillTimerExpiry => exact event_keeps _ s (stillExpiry_reaches s).keeps
  | openTimeExpiry => exact event_keeps _ s (phaseExpiry_reaches .openNew s).keeps
  | overlapExpiry => exact event_keeps _ s (phaseExpiry_reaches .overlap s).keeps
  | closeTimeExpiry => exact event_keeps _ s (phaseExpiry_reaches .closeOld s).keeps
  | strokeTimerExpiry => exact event_keeps _ s (strokeExpiry_reaches s).keeps
  | recoveryExpiry => exact event_keeps _ s (recoveryExpires_reaches s).keeps
  | frameByteReceived p gap b =>
    cases gap with
    | true => exact event_keeps _ s (firstByte_keeps p b s)
    | false => exact event_keeps _ s (laterByte_keeps p b s)

theorem countRaces_keeps (s : State) : Keeps s (countRaces s) := (Keeps.refl s).ite (keeps_of_rest rfl)

/-- A step is a command of the queue, an expiry that is due, or a millisecond. -/
theorem step_keeps (s : State) : ∃ t, step s = .next t ∧ Keeps s t := by
  unfold step
  split
  · rename_i c rest _
    obtain ⟨t, ht, hk⟩ := exec_keeps c (s.setPending rest)
    exact ⟨t, ht, (keeps_of_rest rfl).trans hk⟩
  · split
    · rename_i c _
      obtain ⟨t, ht, hk⟩ := exec_keeps c (countRaces s)
      exact ⟨t, ht, (countRaces_keeps s).trans hk⟩
    · exact ⟨_, rfl, keeps_of_rest rfl⟩

/-- Settles O59: whatever a step is, it completes and keeps both. -/
theorem soundnessIsKept : Obligations.SoundnessIsKept := by
  have hkept : ∀ s t : State, step s = .next t → Keeps s t := fun s t ht => by
    obtain ⟨u, hu, hk⟩ := step_keeps s
    rw [ht] at hu
    cases hu
    exact hk
  exact ⟨fun s t hs ht => (hkept s t ht).sound hs, fun s t hs ht => (hkept s t ht).tables hs,
    fun s => (step_keeps s).imp fun _ h => h.1⟩

end Sys2Proof.Machine
end

section
/-! PROOFS. The tables: what they hold after a reset, their bytes and range tests, and the requests that put an entry into
the pending copy, withdraw an armed apply or begin a sum (R17 to R23, R27, R32, R33). -/

namespace Sys2Proof.Machine

/-! ## The tables after a reset and their bytes -/

/-- Settles O3. -/
theorem resetTableContents : Obligations.ResetTableContents :=
  ⟨fun i => Vector.getElem_replicate i.isLt, fun i => Vector.getElem_replicate i.isLt, by decide +kernel, rfl, rfl⟩

theorem fieldBytes_eq {w : Nat} (k : Nat) (x : BitVec w) : fieldBytes k x = bytesOf k x := rfl

theorem bytesOf_byte (b : Byte) : bytesOf 1 b = [b] := by
  simp [bytesOf, beBytes]

/-- A field of `k` bytes takes `k` bytes, whatever it holds. -/
theorem beBytes_length (k n : Nat) : (beBytes k n).length = k := by
  induction k with
  | zero => rfl
  | succ k ih => rw [beBytes, List.length_cons, ih]

theorem fieldBytes_length {w : Nat} (k : Nat) (x : BitVec w) : (fieldBytes k x).length = k := beBytes_length k x.toNat

theorem productBytes_eq (r : ProductEntry) : productBytes r = productEntryBytes r := by
  simp only [productBytes, fieldBytes_eq, bytesOf_byte]
  rfl

theorem outletBytes_eq (r : OutletEntry) : outletBytes r = outletEntryBytes r := by
  simp only [outletBytes, fieldBytes_eq, bytesOf_byte]
  rfl

theorem ruleBytes_eq (r : RuleEntry) : ruleBytes r = ruleEntryBytes r := by
  simp only [ruleBytes, fieldBytes_eq, bytesOf_byte]
  rfl

theorem segmentBytes_eq (r : SegmentRecord) : segmentBytes r = segmentRecordBytes r := by
  unfold segmentBytes segmentRecordBytes
  simp only [bytesOf_byte, fieldBytes_eq, List.append_assoc, List.cons_append, List.nil_append]

theorem tablesBytes_eq (t : Tables) : tablesBytes t = t.products.toList.flatMap productEntryBytes
    ++ t.outlets.toList.flatMap outletEntryBytes ++ t.rules.toList.flatMap ruleEntryBytes
    ++ segmentRecordBytes t.segment := by
  unfold tablesBytes
  rw [segmentBytes_eq, funext productBytes_eq, funext outletBytes_eq, funext ruleBytes_eq]

theorem productBytes_length (r : ProductEntry) : (productBytes r).length = 13 := by
  simp only [productBytes, List.length_append, fieldBytes_length]

theorem outletBytes_length (r : OutletEntry) : (outletBytes r).length = 12 := by
  simp only [outletBytes, List.length_append, fieldBytes_length]

theorem ruleBytes_length (r : RuleEntry) : (ruleBytes r).length = 5 := by
  simp only [ruleBytes, List.length_append, fieldBytes_length]

theorem segmentBytes_length (r : SegmentRecord) : (segmentBytes r).length = 63 := by
  unfold segmentBytes
  simp only [List.length_append, fieldBytes_length]

/-- Entries of one width fill a table of that many times their number. -/
theorem flatMap_entries_length {α : Type} {n : Nat} (v : Vector α n) (f : α → List Byte) (k : Nat)
    (h : ∀ x, (f x).length = k) : (v.toList.flatMap f).length = n * k := by
  rw [List.length_flatMap, List.map_congr_left (fun x _ => h x), List.map_const', List.sum_replicate,
    Vector.length_toList, smul_eq_mul]

theorem tablesBytes_length (t : Tables) : (tablesBytes t).length = 711 := by
  unfold tablesBytes
  rw [List.length_append, List.length_append, List.length_append,
    flatMap_entries_length _ productBytes 13 productBytes_length,
    flatMap_entries_length _ outletBytes 12 outletBytes_length,
    flatMap_entries_length _ ruleBytes 5 ruleBytes_length, segmentBytes_length]

/-- Settles O7. -/
theorem crcAndItsTableBytes : Obligations.CrcAndItsTableBytes :=
  ⟨by decide +kernel, by decide +kernel, tablesBytes_length, tablesBytes_eq⟩

/-! ## Range tests -/

theorem firstBad_nil : firstBad [] = none := rfl

/-- The first test that fails names its offset; one that holds leaves the rest to decide. -/
theorem firstBad_cons (off : Nat) (ok : Bool) (l : List (Nat × Bool)) :
    firstBad ((off, ok) :: l) = if ok = false then some off else firstBad l := by
  unfold firstBad
  cases ok <;> rfl

theorem within_false_iff (lo hi n : Nat) : within lo hi n = false ↔ n < lo ∨ hi < n := by
  unfold within
  rw [Bool.and_eq_false_iff, decide_eq_false_iff_not, decide_eq_false_iff_not, Nat.not_le, Nat.not_le]

/-- The link addresses are 1 to 254 (R18, R20). -/
theorem address_bad_iff (b : Byte) : b.toNat < 1 ∨ 254 < b.toNat ↔ b = 0 ∨ b = 255 := by
  bv_omega

theorem byte_bad_iff (b : Byte) : b.toNat < 1 ∨ 255 < b.toNat ↔ b = 0 := by
  bv_omega

theorem relief_bad_iff (b : Byte) : b.toNat < 8 ∨ 9 < b.toNat ↔ b ≠ 8 ∧ b ≠ 9 := by
  bv_omega

theorem byte_in_range (b : Byte) : 255 < b.toNat ↔ False :=
  iff_false_intro (Nat.not_lt.2 (Nat.le_of_lt_succ b.isLt))

theorem destination_bad_iff (d : Byte) :
    (within 0 7 d.toNat || d == 9) = false ↔ 7 < d.toNat ∧ d ≠ 9 := by
  simp [within_false_iff]

theorem multiplier_bad_iff (m : Byte) :
    (m == 1 || m == 2 || m == 4 || m == 8 || m == 16) = false ↔ m ∉ ([1, 2, 4, 8, 16] : List Byte) := by
  simp [and_assoc]

theorem depth_bad_iff (m : Byte) : (m == 1 || m == 2 || m == 4 || m == 8) = false ↔ m ∉ ([1, 2, 4, 8] : List Byte) := by
  simp [and_assoc]

theorem trim_bad_iff (x : Int) : (decide (-5000 ≤ x) && decide (x ≤ 5000)) = false ↔ x < -5000 ∨ 5000 < x := by
  rw [Bool.and_eq_false_iff, decide_eq_false_iff_not, decide_eq_false_iff_not, Int.not_le, Int.not_le]

/-- Settles O35: the tests of each request in their order, each with the figures that fail it. -/
theorem rangeTestsNameTheFirstBadField : Obligations.RangeTestsNameTheFirstBadField := by
  refine ⟨fun index e => ?_, fun index e => ?_, fun running arriving e => ?_, fun r => ?_⟩
  · unfold productRanges
    by_cases hcode : e.code = 0
    · simp [hcode, firstBad_cons, firstBad_nil, within_false_iff]
    · simp only [hcode, beq_iff_eq, if_false, firstBad_cons, firstBad_nil, destination_bad_iff, within_false_iff,
        Nat.not_lt_zero, false_or]
  · simp only [outletRanges, firstBad_cons, firstBad_nil, multiplier_bad_iff, trim_bad_iff, within_false_iff,
      address_bad_iff, byte_bad_iff, Nat.not_lt_zero, false_or]
  · simp only [ruleRanges, firstBad_cons, firstBad_nil, within_false_iff, Nat.not_lt_zero, false_or]
  · simp only [segmentRanges, firstBad_cons, firstBad_nil, depth_bad_iff, within_false_iff, address_bad_iff,
      relief_bad_iff, byte_in_range, Nat.not_lt_zero, false_or, if_false]

/-! ## Requests that touch the tables alone -/

/-- A request that changes at most the Table Store and raises nothing is answered, and nothing else happens. -/
theorem tables_answered (src kind : Byte) (perform : State → Outcome) (x : TableStore) (a : Answer) (s : State)
    (h : Serving s) (hp : Reaches (received s) (perform (received s)).1)
    (e : perform (received s) = ((received s).setTs x, a)) :
    ∃ t, requestEvent (serve src kind perform) s = .next t ∧ AnsweredOnly src kind (answerPayload kind a) s t
      ∧ t = { s with liu := t.liu, mr := t.mr, ts := x } := by
  obtain ⟨t, ht, hanswered, hrest⟩ := request_done_only src kind perform s h _ e (e ▸ hp) rfl h.settled
  exact ⟨t, ht, hanswered, hrest⟩

/-- R21 to R23: what a PUT whose range tests are `ranges` comes to, `taken` being its further test and `f` its effect
on the pending copy. -/
structure PutServed (src kind : Byte) (ranges : List (Nat × Bool)) (taken : Bool) (f : Tables → Tables)
    (s t : State) : Prop where
  locked : s.ts.armed = true → AnsweredOnly src kind [1, kind, 6] s t ∧ t = { s with liu := t.liu, mr := t.mr }
  ranged : s.ts.armed = false → ∀ off, firstBad ranges = some off →
    AnsweredOnly src kind [1, kind, 1, BitVec.ofNat 8 off] s t ∧ t = { s with liu := t.liu, mr := t.mr }
  duplicate : s.ts.armed = false → firstBad ranges = none → taken = true →
    AnsweredOnly src kind [1, kind, 5] s t ∧ t = { s with liu := t.liu, mr := t.mr }
  replaced : s.ts.armed = false → firstBad ranges = none → taken = false → AnsweredOnly src kind [0, kind, 0] s t
    ∧ t = { s with liu := t.liu, mr := t.mr, ts := { s.ts with pending := f s.ts.pending } }

theorem put_served (src kind : Byte) (ranges : List (Nat × Bool)) (duplicate : State → Bool) (f : Tables → Tables)
    (s : State) (h : Serving s) (hf : firstBad ranges = none → ∀ t, TablesOk t → TablesOk (f t)) :
    ∃ t, requestEvent (serve src kind (fun u => performPut ranges (duplicate u) f u)) s = .next t
      ∧ PutServed src kind ranges (duplicate (received s)) f s t := by
  have hreach := performPut_reaches ranges (duplicate (received s)) f (received s) hf
  have hserved := fun x a e => tables_answered src kind _ x a s h hreach e
  by_cases ha : s.ts.armed = true
  · obtain ⟨t, ht, hanswered, hrest⟩ := hserved s.ts (.refused .pendingLocked []) (if_pos ha)
    exact ⟨t, ht, fun _ => ⟨hanswered, hrest⟩, fun k => absurd ha (by simp [k]), fun k => absurd ha (by simp [k]),
      fun k => absurd ha (by simp [k])⟩
  · cases hb : firstBad ranges with
    | some off =>
      obtain ⟨t, ht, hanswered, hrest⟩ := hserved s.ts (.refused .range (oneByte off))
        ((if_neg ha).trans (by rw [hb]; rfl))
      refine ⟨t, ht, fun k => absurd k ha, fun _ o ho => ?_, fun _ k => ?_, fun _ k => ?_⟩
      · cases ho.symm.trans hb
        exact ⟨hanswered, hrest⟩
      · cases k.symm.trans hb
      · cases k.symm.trans hb
    | none =>
      cases hd : duplicate (received s) with
      | true =>
        obtain ⟨t, ht, hanswered, hrest⟩ := hserved s.ts (.refused .duplicate [])
          ((if_neg ha).trans (by rw [hb, hd]; rfl))
        exact ⟨t, ht, fun k => absurd k ha, fun _ o ho => (by cases ho.symm.trans hb), fun _ _ _ => ⟨hanswered, hrest⟩,
          fun _ _ k => Bool.noConfusion k⟩
      | false =>
        obtain ⟨t, ht, hanswered, hrest⟩ := hserved { s.ts with pending := f s.ts.pending } (.done [])
          ((if_neg ha).trans (by rw [hb, hd]; rfl))
        exact ⟨t, ht, fun k => absurd k ha, fun _ o ho => (by cases ho.symm.trans hb), fun _ _ k => Bool.noConfusion k,
          fun _ _ _ => ⟨hanswered, hrest⟩⟩

/-- R22: the test of PUT PRODUCT for a code that another entry holds. -/
theorem productDuplicate_iff (t : Tables) (index code : Byte) : productDuplicate t index code = true
    ↔ code ≠ 0 ∧ ∃ i : Fin 16, i.val ≠ index.toNat ∧ t.products[i].code = code := by
  unfold productDuplicate
  rw [Bool.and_eq_true, bne_iff_ne, List.any_eq_true]
  refine and_congr_right fun _ => ⟨?_, ?_⟩
  · rintro ⟨i, hi, hmatch⟩
    have hlt := List.mem_range.1 hi
    rw [Vector.getElem?_eq_getElem hlt] at hmatch
    simp only [Bool.and_eq_true, bne_iff_ne, Option.any_some, beq_iff_eq] at hmatch
    exact ⟨⟨i, hlt⟩, hmatch⟩
  · rintro ⟨i, hne, hcode⟩
    refine ⟨i.val, List.mem_range.2 i.isLt, ?_⟩
    rw [Vector.getElem?_eq_getElem i.isLt]
    simpa using ⟨hne, hcode⟩

/-- An entry replaced in a table, the others as they were. -/
theorem setIfInBounds_entry {α : Type} {n : Nat} (v : Vector α n) (k : Nat) (x : α) (i : Fin n) :
    (v.setIfInBounds k x)[i] = if i.val = k then x else v[i] := by
  rw [Fin.getElem_fin, Vector.getElem_setIfInBounds]
  exact if_congr eq_comm rfl rfl

/-- Settles O33: the three requests are PUTs with their own tests, and each replaces one entry of its table. -/
theorem putReplacesOnePendingEntry : Obligations.PutReplacesOnePendingEntry := by
  refine ⟨fun src index e s h => ?product, fun src index e s h => ?outlet, fun src running arriving e s h => ?rule⟩
  case product =>
    obtain ⟨t, ht, k⟩ := put_served src 0x10 (productRanges index e)
      (fun u => productDuplicate u.ts.pending index e.code) (setProduct index e) s h (setProduct_ok index e)
    refine ⟨t, ht, ?_⟩
    by_cases ha : s.ts.armed = true
    · rw [if_pos ha]
      exact k.locked ha
    · rw [if_neg ha]
      rw [Bool.not_eq_true] at ha
      cases hb : firstBad (productRanges index e) with
      | some off => exact k.ranged ha off hb
      | none =>
        simp only
        by_cases hd : productDuplicate s.ts.pending index e.code = true
        · rw [if_pos ((productDuplicate_iff _ _ _).1 hd)]
          exact k.duplicate ha hb hd
        · rw [if_neg (fun x => hd ((productDuplicate_iff _ _ _).2 x))]
          obtain ⟨hanswered, hrest⟩ := k.replaced ha hb (Bool.not_eq_true _ ▸ hd)
          have hts := congrArg State.ts hrest
          refine ⟨hanswered, by rw [hts]; exact hrest, fun i => ?_⟩
          rw [hts]
          exact setIfInBounds_entry _ _ _ i
  case outlet =>
    obtain ⟨t, ht, k⟩ := put_served src 0x11 (outletRanges index e) (fun _ => false) _ s h (setOutlet_ok index e)
    refine ⟨t, ht, ?_⟩
    by_cases ha : s.ts.armed = true
    · rw [if_pos ha]
      exact k.locked ha
    · rw [if_neg ha]
      rw [Bool.not_eq_true] at ha
      cases hb : firstBad (outletRanges index e) with
      | some off => exact k.ranged ha off hb
      | none =>
        obtain ⟨hanswered, hrest⟩ := k.replaced ha hb rfl
        have hts := congrArg State.ts hrest
        refine ⟨hanswered, by rw [hts]; exact hrest, fun i => ?_⟩
        rw [hts]
        exact setIfInBounds_entry _ _ _ i
  case rule =>
    obtain ⟨t, ht, k⟩ :=
      put_served src 0x12 (ruleRanges running arriving e) (fun _ => false) _ s h (setRule_ok running arriving e)
    refine ⟨t, ht, ?_⟩
    by_cases ha : s.ts.armed = true
    · rw [if_pos ha]
      exact k.locked ha
    · rw [if_neg ha]
      rw [Bool.not_eq_true] at ha
      cases hb : firstBad (ruleRanges running arriving e) with
      | some off => exact k.ranged ha off hb
      | none =>
        obtain ⟨hanswered, hrest⟩ := k.replaced ha hb rfl
        have hts := congrArg State.ts hrest
        refine ⟨hanswered, by rw [hts]; exact hrest, fun i => ?_⟩
        rw [hts]
        exact setIfInBounds_entry _ _ _ i

/-- Settles O34. -/
theorem putSegmentReplacesTheRecord : Obligations.PutSegmentReplacesTheRecord := by
  intro src r s h
  obtain ⟨t, ht, k⟩ := put_served src 0x13 (segmentRanges r) (fun _ => false) (fun t => { t with segment := r }) s h
    (fun hok _ x => ⟨x.products, x.outlets, x.rules, hok⟩)
  refine ⟨t, ht, ?_⟩
  by_cases ha : s.ts.armed = true
  · rw [if_pos ha]
    exact k.locked ha
  · rw [if_neg ha]
    rw [Bool.not_eq_true] at ha
    cases hb : firstBad (segmentRanges r) with
    | some off => exact k.ranged ha off hb
    | none => exact k.replaced ha hb rfl

/-! ## WITHDRAW and SUM TABLES -/

/-- An event that raised nothing changes nothing but the link at its end. -/
theorem finish_rest (u : State) (h : u.nu.testDue = false) : finish u = { u with liu := (finish u).liu } := by
  have hrest := (finish_settles u).rest
  rw [(finish_settles u).nuKept h] at hrest
  exact hrest

/-- A request event outside a reset. -/
theorem requestEvent_finish (handOver : State → State) (s : State) (h : s.inReset = false) :
    requestEvent handOver s = .next (finish (handOver (received s))) := by
  unfold requestEvent unlessInReset
  rw [h]
  rfl

/-- A reception ended with nothing else on the link. -/
theorem finish_endedOnControl (s u : State) (hl : u.liu = (received s).liu) (hn : u.nu.testDue = false) :
    EndedOnControl s (finish u) := by
  have k := finish_settles u
  refine ⟨?_, ⟨?_, ?_, ?_, fun x hx => ?_⟩, ⟨?_, ?_, ?_, fun x hx => ?_⟩⟩
  · rw [k.address, hl]; rfl
  · rw [k.control.rx, hl]; rfl
  · rw [k.control.forward, hl]; rfl
  · rw [k.queueKept hn, hl]; rfl
  · exact k.control.sending x (by rw [hl]; exact hx)
  · rw [k.field.rx, hl]; rfl
  · rw [k.field.forward, hl]; rfl
  · rw [k.fieldQueue, hl]; rfl
  · exact k.field.sending x (by rw [hl]; exact hx)

/-- R168 and R170: a request while a sum is in progress is answered BUSY, or its answer is discarded. -/
theorem serve_busy (src kind : Byte) (perform : State → Outcome) (s : State) (h : s.mr.state = .summing) :
    serve src kind perform s = { s with liu := { s.liu with control := { s.liu.control with
      originated := if s.liu.control.originated.length < 4 then
        s.liu.control.originated ++ [responseOf s src [3, kind, 0]] else s.liu.control.originated } } } := by
  unfold serve inReady
  rw [h]
  show appendOriginated .control (responseOf s src [3, kind, 0]) s = _
  by_cases hfree : s.liu.control.originated.length < 4
  · have hcond : originatedFree s .control = true := decide_eq_true hfree
    unfold appendOriginated
    rw [if_pos hcond, if_pos hfree]
    rfl
  · have hcond : ¬ originatedFree s .control = true := fun e => hfree (of_decide_eq_true e)
    unfold appendOriginated
    rw [if_neg hcond, if_neg hfree]

/-- Settles O38. -/
theorem withdrawDisarms : Obligations.WithdrawDisarms := by
  refine ⟨fun src s h => ?_, fun src s h hsum => ?_⟩
  · obtain ⟨t, ht, hanswered, hrest⟩ := tables_answered src 0x15 performWithdraw { s.ts with armed := false }
      (.done [boolByte s.ts.armed]) s h (performWithdraw_reaches _) rfl
    exact ⟨t, ht, hrest, hanswered⟩
  · refine ⟨_, requestEvent_finish _ s h.released, ?_⟩
    rw [serve_busy src 0x15 performWithdraw (received s) hsum]
    generalize hu : ({ received s with liu := _ } : State) = u
    have hn : u.nu.testDue = false := by rw [← hu]; exact h.settled
    refine ⟨?_, ?_⟩
    · rw [finish_rest u hn, ← hu]; rfl
    · rw [(finish_settles u).queueKept hn, ← hu]; rfl

/-- Settles O39. -/
theorem sumTablesStartsTheSum : Obligations.SumTablesStartsTheSum := by
  refine ⟨fun src selector s h hsel => ?_, fun src selector s h hsel => ?_⟩
  · have htaken : inReady src 0x16 (takeSumTables src selector) (received s) = { received s with
        ts := { s.ts with sum := some ⟨selector == 1, s.now⟩ }
        mr := { s.mr with state := .summing, service := some ⟨src, 0x16⟩ } } := by
      have hready : (received s).mr.state = .ready := h.ready
      unfold inReady takeSumTables
      rw [hready, if_neg (Nat.not_lt.2 hsel)]
      rfl
    exact ⟨_, (requestEvent_finish _ s h.released).trans (congrArg (fun u => Host.Outcome.next (finish u)) htaken),
      finish_rest _ h.settled, finish_endedOnControl s _ rfl h.settled⟩
  · have hrefused : inReady src 0x16 (takeSumTables src selector) (received s)
        = serve src 0x16 (refuse .range [0]) (received s) := by
      unfold serve inReady takeSumTables
      rw [if_pos hsel]
    obtain ⟨t, ht, hanswered, hrest⟩ := tables_answered src 0x16 (refuse .range [0]) s.ts (.refused .range [0]) s h
      (Reaches.refl _) rfl
    refine ⟨t, ?_, hrest, hanswered⟩
    rw [requestEvent_finish _ s h.released, ← hrefused] at ht
    exact (requestEvent_finish _ s h.released).trans ht

end Sys2Proof.Machine
end

section
/-! PROOFS. The seven tests of COMMIT: what each one names, and the first that fails (R24). -/

namespace Sys2Proof.Machine

/-! ## The first failing test -/

/-- The tests of a list, numbered from `k` on, fail exactly with their number and the index that `F` gives them. -/
def Numbered (F : Nat → Nat → Prop) : Nat → List (Option Conflict) → Prop
  | _, [] => True
  | k, x :: l => (∀ n i, x = some ⟨n, i⟩ ↔ n = k ∧ F n i) ∧ Numbered F (k + 1) l

/-- The first test of a numbered list that fails is the one before which none fails. -/
theorem Numbered.first_iff {F : Nat → Nat → Prop} (l : List (Option Conflict)) (k : Nat) (h : Numbered F k l) (n i : Nat) :
    l.foldr Option.or none = some ⟨n, i⟩ ↔
      k ≤ n ∧ n < k + l.length ∧ F n i ∧ ∀ m j, k ≤ m → m < n → ¬ F m j := by
  induction l generalizing k with
  | nil => exact ⟨fun e => (by cases e), fun ⟨hlow, hhigh, _⟩ => absurd hlow (Nat.not_le.2 hhigh)⟩
  | cons x l ih =>
    obtain ⟨hx, hl⟩ := h
    rw [List.foldr_cons, List.length_cons]
    rcases x with _ | ⟨m, j⟩
    · have hpass : ∀ j, ¬ F k j := fun j hj => by cases (hx k j).2 ⟨rfl, hj⟩
      rw [Option.none_or, ih (k + 1) hl]
      constructor
      · rintro ⟨hlow, hhigh, hfails, hfirst⟩
        refine ⟨by omega, by omega, hfails, fun m j hm hlt => ?_⟩
        rcases Nat.eq_or_lt_of_le hm with rfl | hm
        · exact hpass j
        · exact hfirst m j hm hlt
      · rintro ⟨hlow, hhigh, hfails, hfirst⟩
        rcases Nat.eq_or_lt_of_le hlow with rfl | hlow
        · exact absurd hfails (hpass i)
        · exact ⟨hlow, by omega, hfails, fun m j hm => hfirst m j (by omega)⟩
    · obtain ⟨rfl, hfails⟩ := (hx m j).1 rfl
      rw [Option.some_or]
      constructor
      · intro e
        cases e
        exact ⟨Nat.le_refl _, by omega, hfails, fun a b ha hb => absurd ha (Nat.not_le.2 hb)⟩
      · rintro ⟨hlow, -, hn, hfirst⟩
        rcases Nat.eq_or_lt_of_le hlow with rfl | hlow
        · exact (hx m i).2 ⟨rfl, hn⟩
        · exact absurd hfails (hfirst m j (Nat.le_refl _) hlow)

/-- The tests of COMMIT in their order (R24). -/
def commitTests (s : State) : List (Option Conflict) :=
  [commitTest1 s.ts.pending, commitTest2 s.ts.pending, commitTest3 s.ts.pending, commitTest4 s.ts.pending s.bq,
    commitTest5 s.ts.pending, commitTest6 s.ts.pending, commitTest7 s.ts.pending s.liu.address]

theorem commitConflict_eq (s : State) : commitConflict s = (commitTests s).foldr Option.or none := by
  unfold commitTests commitConflict
  simp only [List.foldr_cons, List.foldr_nil, Option.or_none]

/-- COMMIT has seven tests. -/
theorem commitFails_number (s : State) (n i : Nat) (h : CommitFails s n i) : 1 ≤ n ∧ n < 8 := by
  refine ⟨Nat.pos_of_ne_zero fun h0 => ?_, Nat.lt_of_not_le fun h8 => ?_⟩
  · subst h0
    exact h
  · obtain ⟨m, rfl⟩ := Nat.exists_eq_add_of_le' h8
    exact h

/-! ## What each test names -/

theorem ite_conflict_iff (p : Prop) [Decidable p] (k j n i : Nat) :
    (if p then none else some (⟨k, j⟩ : Conflict)) = some ⟨n, i⟩ ↔ n = k ∧ ¬ p ∧ i = j := by
  split
  · rename_i hp
    exact ⟨fun e => (by cases e), fun h => absurd hp h.2.1⟩
  · rename_i hp
    rw [Option.some.injEq, Conflict.mk.injEq]
    exact ⟨fun h => ⟨h.1.symm, hp, h.2.symm⟩, fun h => ⟨h.1.symm, h.2.2.symm⟩⟩

theorem map_conflict_iff {α : Type} (x : Option α) (k : Nat) (f : α → Nat) (n i : Nat) :
    x.map (fun a => (⟨k, f a⟩ : Conflict)) = some ⟨n, i⟩ ↔ n = k ∧ ∃ a, x = some a ∧ i = f a := by
  rw [Option.map_eq_some_iff]
  constructor
  · rintro ⟨a, ha, e⟩
    cases e
    exact ⟨rfl, a, ha, rfl⟩
  · rintro ⟨rfl, a, ha, rfl⟩
    exact ⟨a, ha, rfl⟩

/-- The first outlet of the table that meets a condition. -/
theorem find_allOutlets_iff (p : Outlet → Bool) (o : Outlet) :
    allOutlets.find? p = some o ↔ p o = true ∧ ∀ q < o, ¬ p q = true := by
  rw [show allOutlets = List.finRange 10 by decide, List.find?_eq_some_iff_getElem]
  refine and_congr_right fun _ => ?_
  simp only [List.getElem_finRange, Bool.not_eq_true']
  constructor
  · rintro ⟨i, hi, rfl, hfirst⟩ q hq
    exact Bool.not_eq_true _ ▸ hfirst q.val hq
  · intro hfirst
    exact ⟨o.val, by simp, rfl, fun j hj => Bool.not_eq_true _ ▸ hfirst ⟨j, by omega⟩ hj⟩

theorem outletOfByte_val (b : Byte) (h : b.toNat < 10) : (outletOfByte b).val = b.toNat :=
  congrArg Fin.val (dif_pos h : outletOfByte b = ⟨b.toNat, h⟩)

theorem commitTest1_iff (s : State) (n i : Nat) :
    commitTest1 s.ts.pending = some ⟨n, i⟩ ↔ n = 1 ∧ CommitFails s n i := by
  unfold commitTest1
  rw [ite_conflict_iff]
  exact and_congr_right fun e => by subst e; exact Iff.rfl

theorem commitTest2_iff (s : State) (h : s.ts.pending.segment.reliefOutlet.toNat < 10) (n i : Nat) :
    commitTest2 s.ts.pending = some ⟨n, i⟩ ↔ n = 2 ∧ CommitFails s n i := by
  unfold commitTest2
  simp only
  rw [ite_conflict_iff]
  refine and_congr_right fun e => ?_
  subst e
  have hval := outletOfByte_val _ h
  constructor
  · rintro ⟨hshut, hi⟩
    exact ⟨_, hval, hshut, hi⟩
  · rintro ⟨o, ho, hshut, hi⟩
    obtain rfl : o = outletOfByte s.ts.pending.segment.reliefOutlet := Fin.ext (ho.trans hval.symm)
    exact ⟨hshut, hi⟩

/-- Outlet `o` is the first of the outlets of `l` that holds the smallest trim (test 3 of R24). -/
def HoldsSmallestTrim (t : Tables) (l : List Outlet) (o : Outlet) : Prop :=
  o ∈ l ∧ (∀ p ∈ l, trimOf t o ≤ trimOf t p) ∧ ∀ p ∈ l, p < o → trimOf t o < trimOf t p

theorem HoldsSmallestTrim.unique {t : Tables} {l : List Outlet} {o p : Outlet} (ho : HoldsSmallestTrim t l o)
    (hp : HoldsSmallestTrim t l p) : o = p := by
  obtain ⟨hol, homin, hofirst⟩ := ho
  obtain ⟨hpl, hpmin, hpfirst⟩ := hp
  rcases lt_trichotomy o p with h | h | h
  · exact absurd (homin p hpl) (Int.not_le.2 (hpfirst o hol h))
  · exact h
  · exact absurd (hpmin o hol) (Int.not_le.2 (hofirst p hpl h))

theorem smallestTrim_holds (t : Tables) (l : List Outlet) (hl : l.Pairwise (· < ·)) :
    (smallestTrim t l = none → l = []) ∧ ∀ o, smallestTrim t l = some o → HoldsSmallestTrim t l o := by
  induction l with
  | nil => exact ⟨fun _ => rfl, fun o h => (by cases h)⟩
  | cons a l ih =>
    obtain ⟨ha, hl⟩ := List.pairwise_cons.1 hl
    obtain ⟨hnil, hsome⟩ := ih hl
    unfold smallestTrim
    cases hs : smallestTrim t l with
    | none =>
      obtain rfl := hnil hs
      refine ⟨fun h => (by cases h), fun o h => ?_⟩
      cases h
      simp [HoldsSmallestTrim]
    | some p =>
      obtain ⟨hpl, hpmin, hpfirst⟩ := hsome p hs
      simp only
      split
      · rename_i hlt
        refine ⟨fun h => (by cases h), fun o h => ?_⟩
        cases h
        refine ⟨List.mem_cons_of_mem a hpl, fun q hq => ?_, fun q hq hqp => ?_⟩
        · rcases List.mem_cons.1 hq with rfl | hq
          · exact Int.le_of_lt hlt
          · exact hpmin q hq
        · rcases List.mem_cons.1 hq with rfl | hq
          · exact hlt
          · exact hpfirst q hq hqp
      · rename_i hge
        refine ⟨fun h => (by cases h), fun o h => ?_⟩
        cases h
        refine ⟨List.mem_cons_self, fun q hq => ?_, fun q hq hqa => ?_⟩
        · rcases List.mem_cons.1 hq with rfl | hq
          · exact Int.le_refl _
          · exact (Int.not_lt.1 hge).trans (hpmin q hq)
        · rcases List.mem_cons.1 hq with rfl | hq
          · exact absurd hqa (lt_irrefl _)
          · exact absurd hqa (lt_asymm (ha q hq))

theorem smallestTrim_iff (t : Tables) (o : Outlet) :
    smallestTrim t (outletsWhere (fun p => t.outlets[p].enabled == 1)) = some o ↔
      t.outlets[o].enabled = 1 ∧ (∀ p : Outlet, t.outlets[p].enabled = 1 → trimOf t o ≤ trimOf t p)
        ∧ ∀ p : Outlet, p < o → t.outlets[p].enabled = 1 → trimOf t o < trimOf t p := by
  have hmem : ∀ p : Outlet, p ∈ outletsWhere (fun p => t.outlets[p].enabled == 1) ↔ t.outlets[p].enabled = 1 :=
    fun p => by
      unfold outletsWhere
      rw [List.mem_filter, beq_iff_eq]
      exact and_iff_right (mem_allOutlets p)
  have hsorted : (outletsWhere (fun p => t.outlets[p].enabled == 1)).Pairwise (· < ·) :=
    List.Pairwise.filter _ (by decide : allOutlets.Pairwise (· < ·))
  have hholds : HoldsSmallestTrim t (outletsWhere (fun p => t.outlets[p].enabled == 1)) o ↔
      t.outlets[o].enabled = 1 ∧ (∀ p : Outlet, t.outlets[p].enabled = 1 → trimOf t o ≤ trimOf t p)
        ∧ ∀ p : Outlet, p < o → t.outlets[p].enabled = 1 → trimOf t o < trimOf t p := by
    unfold HoldsSmallestTrim
    simp only [hmem]
    exact and_congr_right fun _ => and_congr_right fun _ => forall_congr' fun p => ⟨fun h a b => h b a, fun h a b => h b a⟩
  obtain ⟨hnil, hsome⟩ := smallestTrim_holds t _ hsorted
  rw [← hholds]
  refine ⟨hsome o, fun h => ?_⟩
  cases hs : smallestTrim t (outletsWhere (fun p => t.outlets[p].enabled == 1)) with
  | none =>
    have hmember := h.1
    rw [hnil hs] at hmember
    exact absurd hmember List.not_mem_nil
  | some p => exact congrArg some ((hsome p hs).unique h)

theorem commitTest3_iff (s : State) (n i : Nat) :
    commitTest3 s.ts.pending = some ⟨n, i⟩ ↔ n = 3 ∧ CommitFails s n i := by
  unfold commitTest3
  constructor
  · intro h
    split at h
    · cases h
    · rename_i o ho
      split at h
      · rename_i hlate
        cases h
        obtain ⟨hon, hmin, hfirst⟩ := (smallestTrim_iff _ o).1 ho
        exact ⟨rfl, o, hon, rfl, hmin, hfirst, hlate⟩
      · cases h
  · rintro ⟨rfl, o, hon, rfl, hmin, hfirst, hlate⟩
    rw [(smallestTrim_iff _ o).2 ⟨hon, hmin, hfirst⟩]
    exact if_pos hlate

theorem productOf_isNone_iff (t : Tables) (code : Byte) :
    (productOf t code).isNone = true ↔ ¬ CommitFails.Held t code := by
  unfold CommitFails.Held
  rw [← productOf_isSome, Option.isNone_iff_eq_none, Option.not_isSome_iff_eq_none]

theorem commitTest4_iff (s : State) (n i : Nat) :
    commitTest4 s.ts.pending s.bq = some ⟨n, i⟩ ↔ n = 4 ∧ CommitFails s n i := by
  unfold commitTest4
  rw [map_conflict_iff _ 4 (fun k => k)]
  refine and_congr_right fun e => ?_
  subst e
  constructor
  · rintro ⟨k, hk, rfl⟩
    obtain ⟨hlen, hmissing, hfirst⟩ := List.findIdx?_eq_some_iff_getElem.1 hk
    refine ⟨s.bq[i], List.getElem?_eq_getElem hlen, (productOf_isNone_iff _ _).1 hmissing, fun j c hj hc => ?_⟩
    obtain ⟨hjlen, rfl⟩ := List.getElem?_eq_some_iff.1 hc
    exact Classical.byContradiction fun hmiss => hfirst j hj ((productOf_isNone_iff _ _).2 hmiss)
  · rintro ⟨b, hb, hmissing, hfirst⟩
    obtain ⟨hlen, rfl⟩ := List.getElem?_eq_some_iff.1 hb
    refine ⟨i, List.findIdx?_eq_some_iff_getElem.2 ⟨hlen, (productOf_isNone_iff _ _).2 hmissing, fun j hj hnone => ?_⟩, rfl⟩
    exact (productOf_isNone_iff _ _).1 hnone (hfirst j _ hj (List.getElem?_eq_getElem (by omega)))

theorem laneShut_iff (t : Tables) (p : ProductEntry) :
    (p.code != 0 && decide (p.destination.toNat < 8) && t.outlets[outletOfByte p.destination].enabled == 0) = true ↔
      p.code ≠ 0 ∧ ∃ o : Outlet, o.val < 8 ∧ o.val = p.destination.toNat ∧ t.outlets[o].enabled = 0 := by
  rw [Bool.and_eq_true, Bool.and_eq_true, bne_iff_ne, decide_eq_true_iff, beq_iff_eq, and_assoc]
  refine and_congr_right fun _ => ⟨?_, ?_⟩
  · rintro ⟨hlane, hshut⟩
    have hval := outletOfByte_val p.destination (by omega)
    exact ⟨_, hval ▸ hlane, hval, hshut⟩
  · rintro ⟨o, hlane, hdest, hshut⟩
    obtain rfl : o = outletOfByte p.destination := Fin.ext (hdest.trans (outletOfByte_val _ (by omega)).symm)
    exact ⟨hdest ▸ hlane, hshut⟩

theorem commitTest5_iff (s : State) (n i : Nat) :
    commitTest5 s.ts.pending = some ⟨n, i⟩ ↔ n = 5 ∧ CommitFails s n i := by
  unfold commitTest5
  rw [map_conflict_iff _ 5 (fun k => k)]
  refine and_congr_right fun e => ?_
  subst e
  simp only [List.findIdx?_eq_some_iff_getElem, laneShut_iff, Vector.length_toList, Vector.getElem_toList]
  constructor
  · rintro ⟨k, ⟨hk, hshut, hfirst⟩, rfl⟩
    exact ⟨⟨i, hk⟩, rfl, hshut, fun l hl => hfirst l.val hl⟩
  · rintro ⟨k, rfl, hshut, hfirst⟩
    exact ⟨k.val, ⟨k.isLt, hshut, fun j hj => hfirst ⟨j, by omega⟩ hj⟩, rfl⟩

theorem addressShared_iff (t : Tables) (o : Outlet) :
    allOutlets.any (fun p => p != o && t.outlets[p].valveAddress == t.outlets[o].valveAddress) = true ↔
      CommitFails.AddressShared t o := by
  unfold CommitFails.AddressShared
  simp only [List.any_eq_true, Bool.and_eq_true, bne_iff_ne, beq_iff_eq, mem_allOutlets, true_and]

theorem commitTest6_iff (s : State) (n i : Nat) :
    commitTest6 s.ts.pending = some ⟨n, i⟩ ↔ n = 6 ∧ CommitFails s n i := by
  unfold commitTest6
  rw [map_conflict_iff _ 6 Fin.val]
  refine and_congr_right fun e => ?_
  subst e
  simp only [find_allOutlets_iff, addressShared_iff]
  exact exists_congr fun o => ⟨fun h => ⟨h.2, h.1⟩, fun h => ⟨h.2, h.1⟩⟩

theorem addressTaken_iff (s : State) (o : Outlet) :
    (s.ts.pending.outlets[o].valveAddress == s.ts.pending.segment.meterAddress
      || s.ts.pending.outlets[o].valveAddress == s.ts.pending.segment.densityAddress
      || s.ts.pending.outlets[o].valveAddress == s.liu.address) = true ↔ CommitFails.AddressTaken s s.ts.pending o := by
  unfold CommitFails.AddressTaken
  simp only [Bool.or_eq_true, beq_iff_eq, or_assoc]

theorem commitTest7_iff (s : State) (n i : Nat) :
    commitTest7 s.ts.pending s.liu.address = some ⟨n, i⟩ ↔ n = 7 ∧ CommitFails s n i := by
  unfold commitTest7
  rw [map_conflict_iff _ 7 Fin.val]
  refine and_congr_right fun e => ?_
  subst e
  simp only [find_allOutlets_iff, addressTaken_iff]
  exact exists_congr fun o => ⟨fun h => ⟨h.2, h.1⟩, fun h => ⟨h.2, h.1⟩⟩

/-! ## COMMIT's conflict -/

theorem commitTests_numbered (s : State) (h : s.ts.pending.segment.reliefOutlet.toNat < 10) :
    Numbered (CommitFails s) 1 (commitTests s) :=
  ⟨commitTest1_iff s, commitTest2_iff s h, commitTest3_iff s, commitTest4_iff s, commitTest5_iff s, commitTest6_iff s,
    commitTest7_iff s, trivial⟩

theorem commitConflict_iff (s : State) (h : s.ts.pending.segment.reliefOutlet.toNat < 10) (n i : Nat) :
    commitConflict s = some ⟨n, i⟩ ↔ CommitFails s n i ∧ ∀ m j : Nat, m < n → ¬ CommitFails s m j := by
  rw [commitConflict_eq, (commitTests_numbered s h).first_iff]
  constructor
  · rintro ⟨-, -, hfails, hfirst⟩
    exact ⟨hfails, fun m j hm hmj => hfirst m j (commitFails_number s m j hmj).1 hm hmj⟩
  · rintro ⟨hfails, hfirst⟩
    obtain ⟨hlow, hhigh⟩ := commitFails_number s n i hfails
    exact ⟨hlow, hhigh, hfails, fun m j _ => hfirst m j⟩

theorem commitConflict_none_test6 (s : State) (h : commitConflict s = none) : commitTest6 s.ts.pending = none := by
  unfold commitConflict at h
  simp only [Option.or_eq_none_iff] at h
  obtain ⟨-, -, -, -, -, h6, -⟩ := h
  exact h6

/-- Settles O37: the first failing test of the seven, each by its own row of R24. -/
theorem commitTestsNameTheirOutlet : Obligations.CommitTestsNameTheirOutlet := by
  refine fun s => ⟨fun hT => ?_, fun hT hrelief hP => ?_, fun hnone o p hne hsame => ?_, fun n i hr => commitConflict_iff s hr n i⟩
  · have h1 := (commitTest1_iff s 1 8).2 ⟨rfl, hT, rfl⟩
    rw [commitConflict_eq]
    unfold commitTests
    rw [List.foldr_cons, h1]
    rfl
  · have hr : s.ts.pending.segment.reliefOutlet.toNat < 10 := by rw [hrelief]; decide
    refine (commitConflict_iff s hr 2 9).2 ⟨⟨9, by rw [hrelief]; rfl, hP, rfl⟩, fun m j hm hfails => ?_⟩
    obtain rfl : m = 1 := by have := commitFails_number s m j hfails; omega
    exact hfails.1 hT
  · have hnot := commitConflict_none_test6 s hnone
    unfold commitTest6 at hnot
    rw [Option.map_eq_none_iff, List.find?_eq_none] at hnot
    exact hnot o (mem_allOutlets o) ((addressShared_iff _ o).2 ⟨p, Ne.symm hne, hsame.symm⟩)

end Sys2Proof.Machine
end

section
/-! PROOFS. COMMIT, armed or applied at once, and the completion of SUM TABLES (R24 to R32). -/

namespace Sys2Proof.Machine

/-! ## What an apply does to the tables -/

/-- The tables and the tickets are as they were. -/
structure StoreKept (s t : State) : Prop where
  ts : t.ts = s.ts
  tu : t.tu = s.tu

theorem StoreKept.trans {s t u : State} (h : StoreKept s t) (k : StoreKept t u) : StoreKept s u :=
  ⟨k.ts.trans h.ts, k.tu.trans h.tu⟩

theorem StoreKept.ite {s t u : State} {p : Prop} [Decidable p] (h : StoreKept s t) (k : StoreKept s u) :
    StoreKept s (if p then t else u) := by
  split
  · exact h
  · exact k

theorem queueTrapped_store (s : State) : StoreKept s (queueTrapped s) := by
  rw [queueTrapped_rest]; exact ⟨rfl, rfl⟩

theorem withdrawn_store (s : State) : StoreKept s (withdrawn s) := by
  rw [withdrawn_rest]; exact ⟨rfl, rfl⟩

theorem guarded_store (byStart : Bool) (s : State) : StoreKept s (guarded byStart s) := by
  rw [guarded_rest]; exact ⟨rfl, rfl⟩

/-- R29: an apply makes the pending copy the active one and disarms; it leaves the tickets alone. -/
theorem applied_store (window : Bool) (s : State) :
    StoreKept { s with ts := { s.ts with active := s.ts.pending, armed := false } } (applied window s) := by
  have hbegun : StoreKept { s with ts := { s.ts with active := s.ts.pending, armed := false } } { appliedTimers s with
      ts := { s.ts with active := s.ts.pending, armed := false }, de := appliedEvaluator s, mg := appliedGuard s } := by
    rw [(appliedTimers_rest s).1]; exact ⟨rfl, rfl⟩
  have hguarded : ∀ (p : Prop) [Decidable p] (u : State), StoreKept u (if p then guarded false u else u) :=
    fun _ _ u => (guarded_store false u).ite ⟨rfl, rfl⟩
  have hwithdrawn : ∀ u : State, StoreKept u (if u.mg.mode = .manual then u else withdrawn u) :=
    fun u => StoreKept.ite ⟨rfl, rfl⟩ (withdrawn_store u)
  have k := ((hbegun.trans (hguarded (s.mg.openOrder ≠ [] ∧ (appliedGuard s).openOrder = []) _)).trans
    (hwithdrawn _)).trans (queueTrapped_store _)
  exact ⟨k.ts, k.tu⟩

theorem applied_lineCount (window : Bool) (s : State) (h : s.ts.armed = true) :
    (applied window s).vc.lineCount = s.vc.lineCount :=
  applyTables_eq window s ▸ (applyTables_evolves window s h).lineCount

theorem applyChecked_due (window : Bool) (s : State) (h : ApplyDue s) : applyChecked window s = applied window s := if_pos h

theorem applyChecked_waits (window : Bool) (s : State) (h : ¬ ApplyDue s) : applyChecked window s = s := if_neg h

/-! ## COMMIT -/

theorem performCommit_armed (s : State) (h : s.ts.armed = true) : performCommit s = (s, .done [2]) := if_pos h

theorem performCommit_conflict (s : State) (c : Conflict) (ha : s.ts.armed = false) (hc : commitConflict s = some c) :
    performCommit s = (s, .refused .conflict [BitVec.ofNat 8 c.test, BitVec.ofNat 8 c.index]) := by
  unfold performCommit
  rw [ha, hc]
  rfl

/-- The state with an apply armed. -/
def armedFor (s : State) : State := { s with ts := { s.ts with armed := true } }

theorem performCommit_taken (s : State) (ha : s.ts.armed = false) (hc : commitConflict s = none) :
    performCommit s = (applyChecked false (armedFor s), .done [boolByte (applyDue (armedFor s))]) := by
  rw [← applyIfDue_eq]
  unfold performCommit
  rw [ha, hc]
  rfl

theorem performCommit_arms (s : State) (ha : s.ts.armed = false) (hc : commitConflict s = none)
    (h : ¬ ApplyDue (armedFor s)) : performCommit s = (armedFor s, .done [0]) := by
  have hdue : applyDue (armedFor s) = false := Bool.eq_false_iff.2 fun k => h ((applyDue_iff _).1 k)
  rw [performCommit_taken s ha hc, applyChecked_waits _ _ h, hdue]
  rfl

theorem performCommit_applies (s : State) (ha : s.ts.armed = false) (hc : commitConflict s = none)
    (h : ApplyDue (armedFor s)) : performCommit s = (applied false (armedFor s), .done [1]) := by
  rw [performCommit_taken s ha hc, applyChecked_due _ _ h, (applyDue_iff _).2 h]
  rfl

/-- R25 and R29: COMMIT at a quiet point applies within its event. -/
theorem commit_applies (src : Byte) (s : State) (h : Serving s) (ha : s.ts.armed = false) (hc : commitConflict s = none)
    (hdue : ApplyDue (armedFor s)) :
    ∃ t, exec (.commit src) s = .next t ∧ t.ts = { s.ts with active := s.ts.pending, armed := false }
      ∧ Answered src 0x14 [0, 0x14, 0, 1] s t
      ∧ t.vc.lineCount = s.vc.lineCount ∧ t.bq = s.bq ∧ t.it = s.it ∧ t.tu = s.tu := by
  have hperform := performCommit_applies (received s) ha hc hdue
  obtain ⟨t, ht, hdone⟩ := request_done src 0x14 performCommit s h (performCommit_reaches _)
  have hrest := hdone.rest
  have hanswered := hdone.answered
  change t = { (performCommit (received s)).1 with liu := t.liu, mr := t.mr, nu := t.nu } at hrest
  change Answered src 0x14 (answerPayload 0x14 (performCommit (received s)).2) s t at hanswered
  rw [hperform] at hrest hanswered
  have hbatches := applied_batches false (armedFor (received s))
  have hstore := applied_store false (armedFor (received s))
  have hcount := applied_lineCount false (armedFor (received s)) rfl
  refine ⟨t, ht, ?_, hanswered, ?_, ?_, ?_, ?_⟩
  · rw [hrest]; exact hstore.ts
  · rw [hrest]; exact hcount
  · rw [hrest]; exact hbatches.bq
  · rw [hrest]; exact hbatches.it
  · rw [hrest]; exact hstore.tu

/-- Settles O36: COMMIT refused, arming, applying and already armed, each its own branch of the performance. -/
theorem commitArmsOrApplies : Obligations.CommitArmsOrApplies := by
  refine ⟨fun src c s h ha hc => ?conflict, fun src s h ha hc hsum hbusy => ?arms,
    fun src s h ha hc hsum hq he hi => commit_applies src s h ha hc ⟨rfl, hq, he, hi, hsum⟩,
    fun src s h ha => ?armed, fun src s h ha hc hsum hq he hi => ?ends, applyIfDue_eq⟩
  case conflict =>
    obtain ⟨t, ht, hanswered, hrest⟩ := tables_answered src 0x14 performCommit s.ts _ s h (performCommit_reaches _)
      (performCommit_conflict (received s) c ha hc)
    exact ⟨t, ht, hrest, hanswered⟩
  case arms =>
    have hwaits : ¬ ApplyDue (armedFor (received s)) := fun ⟨_, hq, he, hi, _⟩ =>
      hbusy.elim (fun k => k hq) (fun k => k.elim (fun k => by rw [show s.it.excursion = false from he] at k; cases k)
        (fun k => k hi))
    obtain ⟨t, ht, hanswered, hrest⟩ := tables_answered src 0x14 performCommit { s.ts with armed := true } _ s h
      (performCommit_reaches _) (performCommit_arms (received s) ha hc hwaits)
    exact ⟨t, ht, hrest, hanswered⟩
  case armed =>
    obtain ⟨t, ht, hanswered, hrest⟩ := tables_answered src 0x14 performCommit s.ts _ s h (performCommit_reaches _)
      (performCommit_armed (received s) ha)
    exact ⟨t, ht, hrest, hanswered⟩
  case ends =>
    exact serve_ends src 0x14 performCommit s _ _ _ h (performCommit_applies (received s) ha hc ⟨rfl, hq, he, hi, hsum⟩) rfl

/-! ## The completion of SUM TABLES -/

/-- The response payload of a completed sum (R32, R33). -/
def sumPayload (s : State) (j : SumJob) : List Byte :=
  [0, 0x16, 0, if j.selectsActive then 1 else 0]
    ++ beBytes 2 (crc16 (tablesBytes (if j.selectsActive then s.ts.active else s.ts.pending))).toNat

/-- The state with no sum in progress. -/
def sumCleared (s : State) : State := { s with ts := { s.ts with sum := none } }

theorem sumPayload_eq (s : State) (j : SumJob) : answerPayload 0x16 (.done (sumData s j)) = sumPayload s j := by
  unfold sumPayload sumData answerPayload
  rw [fieldBytes_eq]
  cases j.selectsActive <;> rfl

theorem completeSum_idle (s : State) (h : s.ts.sum = none) : completeSum s = s := by
  unfold completeSum
  rw [h]

theorem completeSum_answers (s : State) (j : SumJob) (src : Byte) (hj : s.ts.sum = some j) (hm : s.mr.state = .summing)
    (hs : s.mr.service = some ⟨src, 0x16⟩) :
    completeSum s = applyChecked false (responseOffered src 0x16 (sumPayload s j) (sumCleared s)) := by
  rw [← applyIfDue_eq, ← sumPayload_eq, ← responseOffered_eq]
  unfold completeSum
  rw [hj]
  simp only [State.setTs_mr, hm, hs]
  rfl

/-- A completion offers its response, where it is awaited, and makes the test for an apply. -/
theorem completeSum_checks (s : State) (j : SumJob) (hj : s.ts.sum = some j) :
    ∃ u, completeSum s = applyChecked false u ∧ u = { sumCleared s with liu := u.liu, mr := u.mr } := by
  unfold completeSum
  rw [hj]
  simp only [applyIfDue_eq]
  refine ⟨_, rfl, ?_⟩
  split
  · exact offerResponse_rest _ _ _
  · rfl

/-- A response offered with nothing else raised: what stands on the link when the event has ended (R169). -/
theorem finish_responseOffered (src kind : Byte) (payload : List Byte) (u : State) (hn : u.nu.testDue = false) :
    let t := finish (responseOffered src kind payload u)
    t = { u with liu := t.liu, mr := t.mr } ∧ t.liu.address = u.liu.address ∧ PortKept u.liu.field t.liu.field
      ∧ t.liu.control.rx = u.liu.control.rx ∧ t.liu.control.forward = u.liu.control.forward
      ∧ (if u.liu.control.originated.length < 4 then
          t.liu.control.originated = u.liu.control.originated ++ [responseOf u src payload]
            ∧ t.mr = { u.mr with state := .ready, service := none, heldResponse := none }
        else t.liu.control.originated = u.liu.control.originated
          ∧ t.mr = { u.mr with
            state := .holding, service := some ⟨src, kind⟩, heldResponse := some (responseOf u src payload) }) := by
  intro t
  obtain ⟨x, hx⟩ : ∃ x, x = responseOffered src kind payload u := ⟨_, rfl⟩
  have ht : t = finish x := by rw [hx]
  have hrest : x = { u with liu := x.liu, mr := x.mr } ∧ x.liu.address = u.liu.address ∧ x.liu.field = u.liu.field
      ∧ x.liu.control.rx = u.liu.control.rx ∧ x.liu.control.forward = u.liu.control.forward := by
    rw [hx]
    unfold responseOffered
    split <;> exact ⟨rfl, rfl, rfl, rfl, rfl⟩
  obtain ⟨hx1, haddress, hfield, hrx, hforward⟩ := hrest
  have hxn : x.nu.testDue = false := by rw [hx1]; exact hn
  have k := finish_settles x
  have hfinish := finish_rest x hxn
  rw [← ht] at k hfinish
  refine ⟨?_, k.address.trans haddress, ?_, k.control.rx.trans hrx, k.control.forward.trans hforward, ?_⟩
  · rw [hfinish, hx1]
  · rw [← hfield]
    exact ⟨k.field.rx, k.field.forward, k.fieldQueue, k.field.sending⟩
  · rw [k.queueKept hxn, hfinish, hx]
    unfold responseOffered
    split <;> exact ⟨rfl, rfl⟩

theorem exec_sumComplete (s : State) : exec .sumComplete s = .next (unlessInReset completeSum s) := rfl

theorem unlessInReset_released (f : State → State) (s : State) (h : s.inReset = false) :
    unlessInReset f s = finish (f s) := by
  unfold unlessInReset
  rw [h]
  rfl

/-- An event that changes nothing and raised nothing leaves both ports as they were. -/
theorem finish_ports (s : State) (h : s.nu.testDue = false) (p : Port) : PortKept (s.port p) ((finish s).port p) := by
  have k := finish_settles s
  cases p with
  | field => exact ⟨k.field.rx, k.field.forward, k.fieldQueue, k.field.sending⟩
  | control => exact ⟨k.control.rx, k.control.forward, k.queueKept h, k.control.sending⟩

/-- Settles O40. -/
theorem sumCompletionAnswers : Obligations.SumCompletionAnswers := by
  refine ⟨fun s j src h hj hm hs ha => ?answers, fun s j h hj ha hq he hi => ?applies, fun s j src h hj hm hs => ?ends,
    fun s h hj => ?idle⟩
  case answers =>
    have hwaits : ¬ ApplyDue (responseOffered src 0x16 (sumPayload s j) (sumCleared s)) := by
      rintro ⟨k, -⟩
      unfold responseOffered at k
      split at k
      · exact absurd (ha.symm.trans k) (by decide)
      · exact absurd (ha.symm.trans k) (by decide)
    have hdone := completeSum_answers s j src hj hm hs
    rw [applyChecked_waits _ _ hwaits] at hdone
    obtain ⟨hrest, haddress, hfield, hrx, hforward, hqueue⟩ :=
      finish_responseOffered src 0x16 (sumPayload s j) (sumCleared s) h.settled
    refine ⟨_, (exec_sumComplete s).trans (congrArg _ ((unlessInReset_released _ s h.released).trans
      (congrArg finish hdone))), hrest, haddress, hfield, hrx, hforward, ?_⟩
    show if s.liu.control.originated.length < 4 then _ else _
    have hlen : (sumCleared s).liu.control.originated.length = s.liu.control.originated.length := rfl
    rw [hlen] at hqueue
    split
    · rename_i hfree
      rw [if_pos hfree] at hqueue
      exact hqueue
    · rename_i hfull
      rw [if_neg hfull] at hqueue
      obtain ⟨hkept, hmr⟩ := hqueue
      refine ⟨hkept, hmr.trans ?_⟩
      rw [← hs]
      rfl
  case applies =>
    obtain ⟨u, hu, hrest⟩ := completeSum_checks s j hj
    have hdue : ApplyDue u := by
      rw [hrest]
      exact ⟨ha, hq, he, hi, rfl⟩
    refine ⟨_, (exec_sumComplete s).trans (congrArg _ (unlessInReset_released _ s h.released)), ?_⟩
    rw [(finish_settles (completeSum s)).rest, hu, applyChecked_due _ _ hdue]
    show (applied false u).ts = _
    rw [(applied_store false u).ts, hrest]
    rfl
  case ends => exact ⟨_, exec_sumComplete s, unless_ends _ s _ h.released (completeSum_answers s j src hj hm hs)⟩
  case idle =>
    refine ⟨_, (exec_sumComplete s).trans (congrArg _ ((unlessInReset_released _ s h.released).trans
      (congrArg finish (completeSum_idle s hj)))), finish_rest s h.settled, (finish_settles s).address,
      finish_ports s h.settled⟩

end Sys2Proof.Machine
end

section
/-! PROOFS. The phases of a move end at their timers: each move of the engine on its own, and the events of the phase
timer and of the recovery timer (R105 to R111). -/

namespace Sys2Proof.Machine

/-! ## The engine's moves, one by one -/

/-- R107 and R108: the open time over and the OPEN confirmed, OVERLAP begins. -/
theorem engineStep_overlaps (q : Sequence) (s : State) (he : s.cs.engine = .openNew) (hq : s.cs.sequence = some q)
    (hp : s.cs.phase = none) (hc : s.mg.valves[q.newOutlet].confirmed = .opened) :
    engineStep s = some (overlapBegun q s) := by
  have hconfirmed := (phaseConfirmed_iff s q he hq).2 hc
  unfold engineStep
  rw [he, hq]
  simp only [hp, hconfirmed]
  rfl

theorem engineStep_unconfirmed (q : Sequence) (s : State) (he : s.cs.engine = .openNew) (hq : s.cs.sequence = some q)
    (hc : s.mg.valves[q.newOutlet].confirmed ≠ .opened) : engineStep s = none := by
  have hconfirmed : phaseConfirmed s = false := Bool.eq_false_iff.2 fun k => hc ((phaseConfirmed_iff s q he hq).1 k)
  unfold engineStep
  rw [he, hq]
  simp only [hconfirmed, Bool.and_false]
  rfl

/-- R108 and R109: the overlap time over, the old outlet closes. -/
theorem engineStep_closes (q : Sequence) (o : Outlet) (s : State) (he : s.cs.engine = .overlap)
    (hq : s.cs.sequence = some q) (hp : s.cs.phase = none) (ho : q.oldOutlet = some o) :
    engineStep s = some (closingBegun q o s) := by
  unfold engineStep
  rw [he, hq]
  simp only [hp, ho, enterCloseOld_eq]
  rfl

/-- R108 and R110: with no old outlet RECOVERY follows the overlap time. -/
theorem engineStep_recovers (q : Sequence) (s : State) (he : s.cs.engine = .overlap)
    (hq : s.cs.sequence = some q) (hp : s.cs.phase = none) (ho : q.oldOutlet = none) :
    engineStep s = some (recoveryBegun q s) := by
  unfold engineStep
  rw [he, hq]
  simp only [hp, ho, enterRecovery_eq]
  rfl

/-- R109 and R110: the close time over and the CLOSE confirmed, RECOVERY begins. -/
theorem engineStep_closed (q : Sequence) (s : State) (he : s.cs.engine = .closeOld) (hq : s.cs.sequence = some q)
    (hp : s.cs.phase = none) (hc : q.closeConfirmed = true) : engineStep s = some (recoveryBegun q s) := by
  unfold engineStep
  rw [he, hq]
  simp only [hp, hc, enterRecovery_eq]
  rfl

theorem engineStep_unclosed (q : Sequence) (s : State) (he : s.cs.engine = .closeOld) (hq : s.cs.sequence = some q)
    (hc : q.closeConfirmed = false) : engineStep s = none := by
  unfold engineStep
  rw [he, hq]
  simp only [hc, Bool.and_false]
  rfl

/-- R111: the recovery time over, the engine is IDLE. -/
theorem engineStep_idles (s : State) (he : s.cs.engine = .recovery) (hr : s.cs.recovery = none) :
    engineStep s = some { s with cs := { s.cs with engine := .idle } } := by
  unfold engineStep
  rw [he]
  simp only [hr]
  rfl

/-- A phase waits for its timer. -/
theorem engineStep_overlapping (tm : Timer) (s : State) (he : s.cs.engine = .overlap) (hp : s.cs.phase = some tm) :
    engineStep s = none := by
  unfold engineStep
  cases hq : s.cs.sequence with
  | none => simp only [he]
  | some q => simp only [he, hp]; rfl

theorem engineStep_closing (tm : Timer) (s : State) (he : s.cs.engine = .closeOld) (hp : s.cs.phase = some tm) :
    engineStep s = none := by
  unfold engineStep
  cases hq : s.cs.sequence with
  | none => simp only [he]
  | some q => simp only [he, hp]; rfl

theorem engineStep_recovering (tm : Timer) (s : State) (he : s.cs.engine = .recovery) (hr : s.cs.recovery = some tm) :
    engineStep s = none := by
  unfold engineStep
  simp only [he, hr]
  rfl

/-- A phase of non-zero length begins with its timer. -/
theorem timerOf_pos (now : Time) (length : Nat) (h : length ≠ 0) : timerOf now length = some ⟨now, length⟩ := if_neg h

/-! ## The engine's runs from the end of a phase -/

theorem engineRun_overlaps (q : Sequence) (s : State) (he : s.cs.engine = .openNew) (hq : s.cs.sequence = some q)
    (hp : s.cs.phase = none) (hc : s.mg.valves[q.newOutlet].confirmed = .opened)
    (ht : timeMs s.ts.active.outlets[q.newOutlet] s.ts.active.outlets[q.newOutlet].overlapTime 1 ≠ 0) :
    engineRun s = overlapBegun q s :=
  engineRun_single s _ (engineStep_overlaps q s he hq hp hc) (engineStep_overlapping _ _ rfl (timerOf_pos s.now _ ht))

theorem recoveryBegun_waits (q : Sequence) (s : State) (h : recoveryTime s q ≠ 0) : engineStep (recoveryBegun q s) = none :=
  engineStep_recovering ⟨s.now, recoveryTime s q⟩ _ rfl (if_neg h)

theorem closingBegun_waits (q : Sequence) (o : Outlet) (s : State)
    (h : timeMs s.ts.active.outlets[o] s.ts.active.outlets[o].closeTime 2 ≠ 0) :
    engineStep (closingBegun q o s) = none := by
  have hphase : (closingBegun q o s).cs.phase
      = timerOf s.now (timeMs s.ts.active.outlets[o] s.ts.active.outlets[o].closeTime 2) := by
    unfold closingBegun
    rw [(commandFormed_rest _ _).2]
  exact engineStep_closing _ (closingBegun q o s) (commandFormed_keeps _ _).1 (hphase.trans (timerOf_pos s.now _ h))

/-! ## The events of the timers -/

/-- The phase timer `tm` ended, the clock at the moment of its end (log 4). -/
def phaseEnded (tm : Timer) (s : State) : State :=
  { s with now := max s.now (tm.start + tm.length), cs := { s.cs with phase := none } }

/-- The recovery timer `tm` ended and the engine IDLE. -/
def recoveryEnded (tm : Timer) (s : State) : State :=
  { s with now := max s.now (tm.start + tm.length), cs := { s.cs with engine := .idle, recovery := none } }

theorem phaseExpiry_running (e : EngineState) (tm : Timer) (s : State) (he : s.cs.engine = e) (hp : s.cs.phase = some tm) :
    phaseExpiry e s = engineRun (phaseEnded tm s) := by
  unfold phaseExpiry
  rw [hp]
  exact if_pos he

theorem phaseExpiry_stopped (e : EngineState) (s : State) (h : s.cs.phase = none ∨ s.cs.engine ≠ e) :
    phaseExpiry e s = s := by
  unfold phaseExpiry
  cases hp : s.cs.phase with
  | none => rfl
  | some tm => exact if_neg (h.resolve_left (by rw [hp]; exact Option.some_ne_none tm))

theorem strokeExpiry_stopped (s : State) (h : s.cs.stroke = none) : strokeExpiry s = s := by
  unfold strokeExpiry
  rw [h]

theorem recoveryExpires_stopped (s : State) (h : s.cs.recovery = none) : recoveryExpires s = s := by
  unfold recoveryExpires
  rw [h]

/-- The recovery timer's expiry is the engine's run from RECOVERY without the timer. -/
theorem recoveryExpires_running (tm : Timer) (s : State) (hr : s.cs.recovery = some tm) :
    recoveryExpires s = engineRun
      { s with now := max s.now (tm.start + tm.length), cs := { s.cs with recovery := none } } := by
  unfold recoveryExpires
  rw [hr]
  rfl

/-- An expiry of the phase timer in its own engine state runs the engine on. -/
theorem phase_expires (c : Instr) (e : EngineState) (tm : Timer) (s u : State) (h : Running s)
    (hc : (c, e) ∈ [(Instr.openTimeExpiry, EngineState.openNew), (.overlapExpiry, .overlap), (.closeTimeExpiry, .closeOld)])
    (he : s.cs.engine = e) (hp : s.cs.phase = some tm) (hu : engineRun (phaseEnded tm s) = u) :
    ∃ t, exec c s = .next t ∧ EndsEvent u t := by
  have hend := unless_ends (phaseExpiry e) s u h.released ((phaseExpiry_running e tm s he hp).trans hu)
  simp only [List.mem_cons, Prod.mk.injEq, List.not_mem_nil, or_false] at hc
  rcases hc with ⟨rfl, rfl⟩ | ⟨rfl, rfl⟩ | ⟨rfl, rfl⟩ <;> exact ⟨_, rfl, hend⟩

/-- Settles O57: the engine's runs from the end of each timer, move by move. -/
theorem phasesEndAtTheirTimers : Obligations.PhasesEndAtTheirTimers := by
  refine ⟨engineRun_runs, fun c e tm s h hc he hp => phase_expires c e tm s _ h hc he hp rfl,
    fun tm s h he hr hlen => ?recovered, fun s q tm h he hq hp hc => ?unconfirmed,
    fun s q e tm h he hq hp hc he' ht => ?overlaps, fun s q tm h he hq hp ho ht => ?recovers,
    fun s q o e tm h he hq hp ho he' ht => ?closes, fun s q tm u h he hq hp hu => ?closed,
    fun s tm h he hr ha hwait => ?idle, fun c s h hc => ?stopped⟩
  case recovered =>
    refine ⟨_, rfl, unless_ends recoveryExpires s _ h.released ?_⟩
    rw [recoveryExpires_running tm s hr]
    exact engineRun_step _ _ hlen (engineStep_idles _ he rfl)
  case unconfirmed =>
    exact phase_expires .openTimeExpiry .openNew tm s _ h (by simp) he hp
      (engineRun_stop _ (engineStep_unconfirmed q (phaseEnded tm s) he hq hc))
  case overlaps =>
    subst he'
    exact phase_expires .openTimeExpiry .openNew tm s _ h (by simp) he hp
      (engineRun_overlaps q (phaseEnded tm s) he hq rfl hc ht)
  case recovers =>
    exact phase_expires .overlapExpiry .overlap tm s _ h (by simp) he hp
      (engineRun_single _ _ (engineStep_recovers q (phaseEnded tm s) he hq rfl ho)
        (recoveryBegun_waits q (phaseEnded tm s) ht))
  case closes =>
    subst he'
    exact phase_expires .overlapExpiry .overlap tm s _ h (by simp) he hp
      (engineRun_single _ _ (engineStep_closes q o (phaseEnded tm s) he hq rfl ho)
        (closingBegun_waits q o (phaseEnded tm s) ht))
  case closed =>
    subst hu
    obtain ⟨t, ht, hend⟩ := phase_expires .closeTimeExpiry .closeOld tm s _ h (by simp) he hp rfl
    refine ⟨t, ht, fun hc => ?_, fun hc hrecovery => ?_⟩
    · rwa [engineRun_stop _ (engineStep_unclosed q (phaseEnded tm s) he hq hc)] at hend
    · rwa [engineRun_single _ _ (engineStep_closed q (phaseEnded tm s) he hq rfl hc)
        (recoveryBegun_waits q (phaseEnded tm s) hrecovery)] at hend
  case idle =>
    refine ⟨_, rfl, unless_ends recoveryExpires s _ h.released ?_⟩
    rw [recoveryExpires_running tm s hr]
    exact engineRun_single _ _ (engineStep_idles _ he rfl) (engineStep_idle (recoveryEnded tm s) rfl ha hwait)
  case stopped =>
    rcases hc with ⟨rfl, hstop⟩ | ⟨rfl, hstop⟩ | ⟨rfl, hstop⟩ | ⟨rfl, hstop⟩ | ⟨rfl, hstop⟩
    · exact ⟨_, rfl, unless_ends _ s s h.released (phaseExpiry_stopped _ s hstop)⟩
    · exact ⟨_, rfl, unless_ends _ s s h.released (phaseExpiry_stopped _ s hstop)⟩
    · exact ⟨_, rfl, unless_ends _ s s h.released (phaseExpiry_stopped _ s hstop)⟩
    · exact ⟨_, rfl, unless_ends _ s s h.released (strokeExpiry_stopped s hstop)⟩
    · exact ⟨_, rfl, unless_ends _ s s h.released (recoveryExpires_stopped s hstop)⟩

end Sys2Proof.Machine
end

section
/-! PROOFS. What the offers of a window leave alone, and what each mark of the tracker's state does (R71 to R93). -/

namespace Sys2Proof.Machine

/-! ## Offers in a window -/

/-- In a window no apply is due, so the engine's moves leave the tables alone (R28). -/
theorem EngineMoves.tables {s t : State} (h : EngineMoves s t) (hw : s.it.state ≠ .quiet) : t.ts = s.ts := by
  have hnot : ¬ ApplyDue s := fun ⟨_, hquiet, _⟩ => hw hquiet
  cases h with
  | applies hd _ => exact absurd hd hnot
  | starts a rest _ _ => exact (actionStarted_leaves false a rest s).1
  | appliesFirst _ _ hd _ => exact absurd hd hnot
  | startsFirst _ _ hd _ => exact absurd hd hnot
  | closes _ _ _ _ _ _ =>
    obtain ⟨-, -, hts⟩ := commandFormed_keeps _ _
    exact hts
  | _ => rfl

theorem engineLoop_tables (n : Nat) (s : State) (hw : s.it.state ≠ .quiet) : (engineLoop n s).ts = s.ts := by
  induction n generalizing s with
  | zero => rfl
  | succ n ih =>
    unfold engineLoop
    split
    · rfl
    · rename_i u hu
      have hmove := engineStep_moves s u hu
      exact (ih u (by rw [hmove.batches.it]; exact hw)).trans (hmove.tables hw)

theorem insertedNow_tables (o : Offer) (s : State) (hw : s.it.state ≠ .quiet) : (insertedNow o s).ts = s.ts := by
  unfold insertedNow
  split
  · refine (engineLoop_tables 64 _ ?_).trans ?_
    · rw [inserted_rest]; exact hw
    · rw [inserted_rest]
  · rw [inserted_rest]

theorem accepted_tables (o : Offer) (s : State) (hw : s.it.state ≠ .quiet) : (accepted o s).ts = s.ts := by
  unfold accepted
  split
  · exact insertedNow_tables o s hw
  · exact (insertedNow_tables _ _ (by rw [(insertedNow_batches o s).it]; exact hw)).trans (insertedNow_tables o s hw)

/-- What an offer leaves alone: the tracker but for what waits in it, and in a window the tables. -/
structure OfferKept (s t : State) : Prop where
  it : t.it = { s.it with held := t.it.held, volumeDue := t.it.volumeDue }
  ts : s.it.state ≠ .quiet → t.ts = s.ts

theorem OfferKept.refl (s : State) : OfferKept s s := ⟨rfl, fun _ => rfl⟩

theorem OfferKept.trans {s t u : State} (h : OfferKept s t) (k : OfferKept t u) : OfferKept s u where
  it := by rw [k.it, h.it]
  ts hw := (k.ts (by rw [h.it]; exact hw)).trans (h.ts hw)

theorem OfferKept.ite {s t u : State} {p : Prop} [Decidable p] (h : OfferKept s t) (k : OfferKept s u) :
    OfferKept s (if p then t else u) := by
  split
  · exact h
  · exact k

theorem OfferKept.record {s t : State} (h : OfferKept s t) : t.it.record = s.it.record := by rw [h.it]

theorem OfferKept.tailRun {s t : State} (h : OfferKept s t) : t.it.tailRun = s.it.tailRun := by rw [h.it]

theorem offerTaken_kept (o : Offer) (s : State) : OfferKept s (offerTaken o s) := by
  unfold offerTaken
  refine OfferKept.ite ⟨?_, accepted_tables o s⟩ ⟨rfl, fun _ => rfl⟩
  rw [(accepted_batches o s).it]

theorem setVolumeDue_kept (b : Bool) (s : State) : OfferKept s { s with it := { s.it with volumeDue := b } } :=
  ⟨rfl, fun _ => rfl⟩

theorem offerVolumeAlone_kept (s : State) : OfferKept s (offerVolumeAlone s) := by
  unfold offerVolumeAlone
  split
  · refine (setVolumeDue_kept false s).trans (OfferKept.ite (OfferKept.refl _) ?_)
    split
    · rw [offerOrHold_eq]; exact offerTaken_kept _ _
    · exact OfferKept.refl _
  · exact OfferKept.refl s

theorem offerDecision_kept (z : ZoneRule) (p : Place) (b0 b1 : BatchRecord) (m : Mark) (s : State) :
    OfferKept s (offerDecision z p b0 b1 m s) := by
  unfold offerDecision
  refine (OfferKept.refl s).ite (OfferKept.ite (OfferKept.ite ?_ (OfferKept.refl s)) ?_)
  · exact (setVolumeDue_kept true s).trans (offerVolumeAlone_kept _)
  · rw [offerOrHold_eq]; exact offerTaken_kept _ _

/-! ## The record at a decision and at a midpoint -/

/-- R79: the midpoint is recorded with the drift. -/
theorem setMidpoint_record (m : Mark) (r : InterfaceRecord) (s : State) (hr : s.it.record = some r) :
    ∃ x, (setMidpoint m s).it.record = some { r with midpoint := some m, drift := x } := by
  refine ⟨some (reanchor m s.bq).2, ?_⟩
  unfold setMidpoint
  rw [(offerVolumeAlone_kept _).record]
  split
  · rw [(setBoundary_rest _ _ _).rest]
    exact congrArg (Option.map _) hr
  · exact congrArg (Option.map _) hr

/-- The head cut decided, or left for want of a pair: the disposition and what the tail cut reads stand. -/
structure HeadDecided (r : InterfaceRecord) (s t : State) : Prop where
  record : ∃ r', t.it.record = some r' ∧ r'.disposition = r.disposition ∧ r'.tailCut = r.tailCut
  tailRun : t.it.tailRun = s.it.tailRun
  ts : s.it.state ≠ .quiet → t.ts = s.ts

theorem decideAt_head (m : Mark) (r : InterfaceRecord) (s : State) (hr : s.it.record = some r) :
    HeadDecided r s (decideAt .headCut m s) := by
  unfold decideAt
  rw [hr]
  split
  · rename_i r0 b0 b1 rest hr0 hbq
    cases hr0
    have k := offerDecision_kept r.disposition .headCut b0 b1 (raisedMark r m) (s.setIt { s.it with
      record := some { r.setCut .headCut (raisedMark r m) with manual := r.manual || s.manualForTracker }
      headRun := zeroRun })
    exact ⟨⟨_, k.record, rfl, rfl⟩, k.tailRun, k.ts⟩
  · exact ⟨⟨r, hr, rfl, rfl⟩, rfl, fun _ => rfl⟩

/-! ## Outstanding decisions -/

theorem outstanding_head_iff (r : InterfaceRecord) :
    outstanding r .headCut = true ↔ r.headCut = none ∧ (r.disposition = .transmix ∨ r.disposition = .intoArriving) := by
  unfold outstanding hasDecision InterfaceRecord.cutMark
  simp only [Bool.and_eq_true, Bool.or_eq_true, beq_iff_eq, Option.isNone_iff_eq_none]
  exact And.comm

theorem outstanding_tail_iff (r : InterfaceRecord) :
    outstanding r .tailCut = true ↔ r.tailCut = none ∧ r.disposition ≠ .intoArriving := by
  have hdisposition : hasDecision r.disposition .tailCut = true ↔ r.disposition ≠ .intoArriving := by
    cases r.disposition <;> decide
  unfold outstanding InterfaceRecord.cutMark
  rw [Bool.and_eq_true, hdisposition, Option.isNone_iff_eq_none]
  exact And.comm

theorem outstanding_iff (r : InterfaceRecord) (p : Place) : outstanding r p = true ↔ Outstanding r p := by
  cases p with
  | headCut => exact outstanding_head_iff r
  | tailCut =>
    rw [outstanding_tail_iff]
    unfold Outstanding
    cases r.disposition <;> simp

theorem decideIfOutstanding_eq (p : Place) (m : Mark) (r : InterfaceRecord) (s : State) (hr : s.it.record = some r)
    (P : Prop) [Decidable P] (hP : outstanding r p = true ↔ P) :
    decideIfOutstanding p m s = if P then decideAt p m s else s := by
  unfold decideIfOutstanding
  rw [hr]
  exact if_congr hP rfl rfl

theorem setMidpointIfAbsent_eq (m : Mark) (r : InterfaceRecord) (s : State) (hr : s.it.record = some r) :
    setMidpointIfAbsent m s = if r.midpoint = none then setMidpoint m s else s := by
  unfold setMidpointIfAbsent
  rw [hr]
  exact if_congr Option.isNone_iff_eq_none rfl rfl

theorem fallbackMark_eq (s : State) (r : InterfaceRecord) (p : Place) : fallbackMark s r p = fallbackDecision s r p := by
  unfold fallbackMark fallbackDecision
  cases r.disposition <;> cases p <;> rfl

theorem fallbackDue_iff (s : State) (r : InterfaceRecord) (p : Place) :
    fallbackDue s r p = true ↔ Outstanding r p ∧ reached s.vc.lineCount (fallbackDecision s r p) = true := by
  unfold fallbackDue
  rw [Bool.and_eq_true, outstanding_iff, fallbackMark_eq]

/-! ## Marks acted on one after another -/

theorem markLoop_stop (n : Nat) (s : State) (h : markStep s = none) : markLoop n s = s := by
  cases n with
  | zero => rfl
  | succ n => unfold markLoop; rw [h]

theorem markLoop_acted {n : Nat} {s t : State} (h : MarksActed n s t) : ∀ k, n ≤ k → markLoop k s = t := by
  induction h with
  | done s hs => exact fun k _ => markLoop_stop k s hs
  | acted n s t u hs _ ih =>
    intro k hk
    cases k with
    | zero => exact absurd hk (Nat.not_succ_le_zero n)
    | succ k =>
      unfold markLoop
      rw [hs]
      exact ih k (Nat.le_of_succ_le_succ hk)

/-- R71: the marks of one event, as many as its bound allows (log 29). -/
theorem testMarks_acted (n : Nat) (s t : State) (h : MarksActed n s t) (hn : n ≤ 12 * (s.bq.length + 1)) :
    testMarks s = t := markLoop_acted h _ hn

theorem testMarks_stop (s : State) (h : markStep s = none) : testMarks s = s := markLoop_stop _ s h

theorem testMarks_one (s u : State) (h : markStep s = some u) (hu : markStep u = none) : testMarks s = u :=
  testMarks_acted 1 s u (.acted 0 s u u h (.done u hu)) (by omega)

end Sys2Proof.Machine
end

section
/-! PROOFS. A window from its open mark to its end: the marks of each of the tracker's states, the midpoint, the decisions
and the end (R71 to R90). -/

namespace Sys2Proof.Machine

/-! ## The open mark -/

theorem markStep_opens (b0 b1 : BatchRecord) (rest : List BatchRecord) (s : State) (hq : s.it.state = .quiet)
    (hb : s.bq = b0 :: b1 :: rest) (h : reached s.vc.lineCount (openMarkAt s b1) = true) :
    markStep s = some (openWindow b0 b1 s) := by
  unfold markStep
  simp only [hq, hb]
  exact if_pos h

theorem pairOf_eq (s : State) (b0 b1 : BatchRecord) :
    pairOf s b0 b1 = ⟨referenceDensity s b0, referenceDensity s b1, referenceDensity s b1 - referenceDensity s b0,
      decide ((referenceDensity s b1 - referenceDensity s b0).natAbs < s.ts.active.segment.minimumContrast.toNat)⟩ := by
  rw [referenceDensity_eq, referenceDensity_eq]
  rfl

theorem zoneOfByte_eq (b : Byte) : zoneOfByte b = if b = 0 then .transmix else if b = 1 then .intoRunning
    else if b = 2 then .intoArriving else .midpoint := by
  unfold zoneOfByte
  simp only [beq_iff_eq]

theorem newRecord_eq (s : State) (b0 b1 : BatchRecord) :
    newRecord s b0 b1 = { densityRecord s b0 b1
        (ruleAtFamilies s.ts.active (s.product b0.product).family (s.product b1.product).family) with
      cutMode := if (pairOf s b0 b1).lowContrast then .lowContrast else .density } := by
  unfold newRecord densityRecord
  simp only [zoneOfByte_eq]
  rfl

/-- Steps 3 to 6 of R74, once no excursion is under way. -/
theorem openRecord_eq (b0 b1 : BatchRecord) (s : State) (hx : s.it.excursion = false) (hr : s.it.excRun = ⟨0, 0⟩) :
    openRecord b0 b1 s = windowOpened b0 b1
      (ruleAtFamilies s.ts.active (s.product b0.product).family (s.product b1.product).family) s := by
  have hit : s.it = { s.it with excursion := false, excRun := ⟨0, 0⟩ } := by rw [← hx, ← hr]
  unfold openRecord windowOpened
  rw [newRecord_eq, pairOf_eq, hit]
  rfl

/-- The tracker not in EXCURSION, its excursion run cleared (step 1 of R74). -/
def excursionEnded (s : State) : State := { s with it := { s.it with excursion := false, excRun := ⟨0, 0⟩ } }

/-- Steps 1 and 2 of R74: the excursion over, with OFF_SPEC where one was under way, and a due apply performed. -/
def windowReady (b0 : BatchRecord) (s : State) : State :=
  applyChecked true (if s.it.excursion then
    raised .offSpec ⟨b0.batchId, (lastDeviation s).1, some (destinationOutlet s b0), 3, (lastDeviation s).2⟩
      (excursionEnded s) else excursionEnded s)

theorem applyChecked_it (window : Bool) (s : State) : (applyChecked window s).it = s.it := by
  unfold applyChecked
  split
  · exact (applied_batches window s).it
  · rfl

theorem windowReady_it (b0 : BatchRecord) (s : State) : (windowReady b0 s).it = (excursionEnded s).it := by
  unfold windowReady
  rw [applyChecked_it]
  split <;> rfl

theorem openWindow_eq (b0 b1 : BatchRecord) (rest : List BatchRecord) (s : State) (hb : s.bq = b0 :: rest) :
    openWindow b0 b1 s = windowOpened b0 b1 (ruleAtFamilies (windowReady b0 s).ts.active
      ((windowReady b0 s).product b0.product).family ((windowReady b0 s).product b1.product).family) (windowReady b0 s) := by
  have hhead : s.entry0Id = b0.batchId := by unfold State.entry0Id; rw [hb]; rfl
  have hended : endExcursionAtWindow b0 s = if s.it.excursion then
      raised .offSpec ⟨b0.batchId, (lastDeviation s).1, some (destinationOutlet s b0), 3, (lastDeviation s).2⟩
        (excursionEnded s) else excursionEnded s := by
    rw [destinationOutlet_eq, ← hhead]
    rfl
  unfold openWindow
  rw [applyIfDue_eq, hended]
  exact openRecord_eq b0 b1 (windowReady b0 s) (by rw [windowReady_it]; rfl) (by rw [windowReady_it]; rfl)

/-! ## The marks of the other states -/

theorem markStep_watch (r : InterfaceRecord) (s : State) (hs : s.it.state = .watch) (hr : s.it.record = some r) :
    markStep s = if reached s.vc.lineCount r.closeMark then some (closeMarkReached r s) else none := by
  unfold markStep
  simp only [hs, hr]

theorem markStep_overdue (s : State) (hs : s.it.state = .overdue) : markStep s = none := by
  unfold markStep
  simp only [hs]

theorem markStep_wide (r : InterfaceRecord) (start : Mark) (s : State) (hs : s.it.state = .mixing)
    (hr : s.it.record = some r) (hstart : r.startMark = some start) (hw : r.widest = false)
    (h : reached s.vc.lineCount (wideMark s start) = true) : markStep s = some (wideReached r (wideMark s start) s) := by
  unfold markStep
  simp only [hs, hr, hstart, hw, h]
  rfl

/-- R84 and R85: in MIXING with the wide mark acted on, or not reached, a postponed end is taken before the forced-end
mark. -/
theorem markStep_mixing (r : InterfaceRecord) (start : Mark) (s : State) (hs : s.it.state = .mixing)
    (hr : s.it.record = some r) (hstart : r.startMark = some start)
    (hw : r.widest = true ∨ reached s.vc.lineCount (wideMark s start) = false) :
    (∀ m, postponedEnd s = some m → markStep s = some (endInterface m s))
      ∧ (postponedEnd s = none → markStep s =
        if !r.forcedEnd && reached s.vc.lineCount (forcedMark s start) then some (forcedReached (forcedMark s start) s)
        else none) := by
  have hpast : (!r.widest && reached s.vc.lineCount (wideMark s start)) = false := by
    rcases hw with hw | hw <;> simp [hw]
  unfold markStep
  simp only [hs, hr, hstart, hpast, Bool.false_eq_true, if_false]
  exact ⟨fun m h => by rw [h], fun h => by rw [h]⟩

/-- R88: in FALLBACK the decisions come first, the head cut's before the tail cut's. -/
theorem markStep_fallback_head (r : InterfaceRecord) (s : State) (hs : s.it.state = .fallback)
    (hr : s.it.record = some r) (h : fallbackDue s r .headCut = true) :
    markStep s = some (decideAt .headCut (fallbackMark s r .headCut) s) := by
  unfold markStep
  simp only [hs, hr]
  exact if_pos h

theorem markStep_fallback_tail (r : InterfaceRecord) (s : State) (hs : s.it.state = .fallback)
    (hr : s.it.record = some r) (hhead : ¬ fallbackDue s r .headCut = true) (h : fallbackDue s r .tailCut = true) :
    markStep s = some (decideAt .tailCut (fallbackMark s r .tailCut) s) := by
  unfold markStep
  simp only [hs, hr]
  exact (if_neg hhead).trans (if_pos h)

/-- R88: in FALLBACK with no decision due, a postponed end is taken before the end mark. -/
theorem markStep_fallback (r : InterfaceRecord) (s : State) (hs : s.it.state = .fallback) (hr : s.it.record = some r)
    (hhead : ¬ fallbackDue s r .headCut = true) (htail : ¬ fallbackDue s r .tailCut = true) :
    (∀ m, postponedEnd s = some m → markStep s = some (endInterface m s))
      ∧ (postponedEnd s = none → markStep s =
        if s.it.endDue.isNone && reached s.vc.lineCount (fallbackEnd s r) then some (fallbackEndReached r s)
        else none) := by
  unfold markStep
  simp only [hs, hr, hhead, htail, Bool.false_eq_true, if_false]
  exact ⟨fun m h => by rw [h], fun h => by rw [h]⟩

theorem postponedEnd_held (s : State) (h : s.it.held ≠ []) : postponedEnd s = none := by
  unfold postponedEnd
  rw [List.isEmpty_eq_false_iff.2 h]
  rfl

theorem postponedEnd_free (s : State) (h : s.it.held = []) : postponedEnd s = s.it.endDue := by
  unfold postponedEnd
  rw [h]
  rfl

theorem postponedEnd_none (s : State) (h : s.it.endDue = none) : postponedEnd s = none := by
  unfold postponedEnd
  rw [h]
  exact ite_self _

theorem reachEnd_eq (m : Mark) (s : State) : reachEnd m s =
    if s.it.held = [] then endInterface m s else { s with it := { s.it with endDue := some m } } := by
  unfold reachEnd
  exact if_congr List.isEmpty_iff rfl rfl

/-- R76: an extension. -/
theorem closeMarkReached_extends (r : InterfaceRecord) (s : State)
    (h : r.extensions < s.ts.active.segment.maxExtensions.toNat) :
    closeMarkReached r s = raised .windowMissed ⟨r.arrivingId, s.vc.lineCount, none, 0, (r.extensions + 1 : Nat)⟩
      (recordChanged (fun r => { r with
        closeMark := r.closeMark + s.ts.active.segment.extensionVolume.setWidth 48
        extensions := r.extensions + 1 }) s) := if_pos h

/-- R76: the last close mark. -/
theorem closeMarkReached_overdue (r : InterfaceRecord) (s : State) (hr : s.it.record = some r)
    (h : s.ts.active.segment.maxExtensions.toNat ≤ r.extensions) :
    closeMarkReached r s = raised .windowMissed ⟨r.arrivingId, s.vc.lineCount, none, 1, r.extensions⟩
      { s with it := { s.it with state := .overdue, record := some { r with overdue := true } } } := by
  have hmapped : (s.mapRecord (fun r => { r with overdue := true })).setTracker .overdue
      = { s with it := { s.it with state := .overdue, record := some { r with overdue := true } } } := by
    unfold State.mapRecord
    rw [hr]
    rfl
  rw [← hmapped]
  exact if_neg (Nat.not_lt.2 h)

/-- R84: the wide mark acted on: the midpoint where it is absent, and the decisions still outstanding. -/
theorem wideReached_eq (r : InterfaceRecord) (m : Mark) (s a b c d : State) (hr : s.it.record = some r)
    (ha : a = raised .interfaceWide ⟨r.arrivingId, m, none, 0, r.lastFraction⟩
      (recordChanged (fun r => { r with widest := true }) s))
    (hb : b = if r.midpoint = none then setMidpoint m a else a)
    (hc : c = if r.headCut = none ∧ (r.disposition = .transmix ∨ r.disposition = .intoArriving) then
      decideAt .headCut m b else b)
    (hd : d = if r.tailCut = none ∧ r.disposition ≠ .intoArriving then decideAt .tailCut m c else c) :
    wideReached r m s = { d with it := { d.it with headRun := ⟨0, 0⟩, tailRun := ⟨0, 0⟩ } } := by
  have har : a.it.record = some { r with widest := true } := by
    rw [ha]
    exact congrArg (Option.map _) hr
  obtain ⟨rb, hbr, hbd, hbh, hbt⟩ : ∃ rb, b.it.record = some rb ∧ rb.disposition = r.disposition
      ∧ rb.headCut = r.headCut ∧ rb.tailCut = r.tailCut := by
    rw [hb]
    split
    · obtain ⟨x, hx⟩ := setMidpoint_record m _ a har
      exact ⟨_, hx, rfl, rfl, rfl⟩
    · exact ⟨_, har, rfl, rfl, rfl⟩
  obtain ⟨rc, hcr, hcd, hct⟩ : ∃ rc, c.it.record = some rc ∧ rc.disposition = r.disposition ∧ rc.tailCut = r.tailCut := by
    rw [hc]
    split
    · obtain ⟨rc, hcr, hcd, hct⟩ := (decideAt_head m rb b hbr).record
      exact ⟨rc, hcr, hcd.trans hbd, hct.trans hbt⟩
    · exact ⟨rb, hbr, hbd, hbt⟩
  have hmid : setMidpointIfAbsent m a = b := (setMidpointIfAbsent_eq m { r with widest := true } a har).trans hb.symm
  have hhead : decideIfOutstanding .headCut m b = c :=
    hc ▸ decideIfOutstanding_eq .headCut m rb b hbr _ (by rw [outstanding_head_iff, hbh, hbd])
  have htail : decideIfOutstanding .tailCut m c = d :=
    hd ▸ decideIfOutstanding_eq .tailCut m rc c hcr _ (by rw [outstanding_tail_iff, hct, hcd])
  rw [← htail, ← hhead, ← hmid, ha]
  rfl

/-! ## The midpoint -/

theorem reanchor_eq (m : Mark) (b0 b1 : BatchRecord) (rest : List BatchRecord) :
    reanchor m (b0 :: b1 :: rest)
      = (relinkFrom 1 (b0 :: { b1 with actual := some m } :: rest), (m - b1.predicted).toInt) := rfl

/-- R46 and R79: the midpoint re-anchors entry 1 and links the marks behind it. -/
theorem setMidpoint_reanchors (mark : Mark) (r : InterfaceRecord) (b0 b1 : BatchRecord) (rest : List BatchRecord)
    (s : State) (hr : s.it.record = some r) (hb : s.bq = b0 :: b1 :: rest) :
    ∃ bq' : List BatchRecord, bq'.length = s.bq.length ∧ bq'[0]? = some b0
      ∧ bq'[1]? = some { b1 with actual := some mark } ∧ MovedUp s.bq bq' 2 2 ∧ LinkedFrom bq' 1
      ∧ setMidpoint mark s = volumeOffered mark { b1 with actual := some mark }
          (setBoundary mark { b1 with actual := some mark } { s with
            bq := bq'
            it := { s.it with
              record := some { r with midpoint := some mark, drift := some (mark - b1.predicted).toInt } } }) := by
  have hone : (relinkFrom 1 (b0 :: { b1 with actual := some mark } :: rest))[1]? = some { b1 with actual := some mark } :=
    relinkFrom_get 1 _ 1 (Nat.le_refl 1)
  refine ⟨relinkFrom 1 (b0 :: { b1 with actual := some mark } :: rest), ?_, relinkFrom_get 1 _ 0 (Nat.zero_le 1), hone,
    fun n c hc => ?_, relinkFrom_links 1 _, ?_⟩
  · rw [relinkFrom_length, hb]
    rfl
  · rw [hb] at hc
    have hc' : (b0 :: { b1 with actual := some mark } :: rest)[2 + n]? = some c := by
      rw [Nat.add_comm 2 n] at hc ⊢
      exact hc
    exact relinkFrom_keeps 1 _ _ c hc'
  · have hset := setMidpoint_eq mark r { b1 with actual := some mark } s hr (by rw [hb, reanchor_eq]; exact hone)
    rw [hb, reanchor_eq] at hset
    exact hset

/-! ## Evaluations in MIXING -/

/-- A run that stands at a count confirmed an evaluation that holds. -/
theorem runAfter_holds (run : Run) (holds : Bool) (n : Mark) (k : Nat) (hk : k ≠ 0) (h : k ≤ (runAfter run holds n).count) :
    holds = true := by
  cases holds with
  | true => rfl
  | false => exact absurd (Nat.le_zero.1 h) hk

theorem advanceEnd_eq (n : Mark) (f : Int) (r : InterfaceRecord) (s : State) (hr : s.it.record = some r) :
    advanceEnd n f s =
      if s.ts.active.segment.confirmationCount.toNat ≤ nextEndRun s f
          ∧ ¬ (r.headCut = none ∧ (r.disposition = .transmix ∨ r.disposition = .intoArriving))
          ∧ ¬ (r.tailCut = none ∧ r.disposition ≠ .intoArriving)
          ∧ s.it.held = [] ∧ s.it.endDue = none then
        testMarks (endInterface n { s with it := { s.it with endRun := nextEndRun s f } })
      else { s with it := { s.it with endRun := nextEndRun s f } } := by
  have hdecided : s.it.record.any allDecided = true
      ↔ ¬ (r.headCut = none ∧ (r.disposition = .transmix ∨ r.disposition = .intoArriving))
        ∧ ¬ (r.tailCut = none ∧ r.disposition ≠ .intoArriving) := by
    rw [hr, ← outstanding_head_iff, ← outstanding_tail_iff]
    show allDecided r = true ↔ _
    unfold allDecided
    rw [Bool.and_eq_true, Bool.not_eq_true', Bool.not_eq_true', Bool.not_eq_true, Bool.not_eq_true]
  refine if_congr ?_ rfl rfl
  show _ ∧ s.it.record.any allDecided = true ∧ _ ↔ _
  rw [hdecided, and_assoc]
  exact Iff.rfl

end Sys2Proof.Machine
end

section
/-! PROOFS. The decision runs of an evaluation in MIXING, the window that an ADD BATCH opens, and the statement of the
window whole (R73 to R90). -/

namespace Sys2Proof.Machine

/-! ## Decision runs -/

theorem advanceHead_eq (n : Mark) (holds : Bool) (r : InterfaceRecord) (s : State) (hr : s.it.record = some r) :
    advanceHead n holds s = if outstanding r .headCut then
      confirmRun .headCut (runAfter s.it.headRun holds n)
        { s with it := { s.it with headRun := runAfter s.it.headRun holds n } } else s := by
  unfold advanceHead
  rw [hr]
  rfl

theorem advanceTail_eq (n : Mark) (holds : Bool) (r : InterfaceRecord) (s : State) (hr : s.it.record = some r) :
    advanceTail n holds s = if outstanding r .tailCut then
      confirmRun .tailCut (runAfter s.it.tailRun holds n)
        { s with it := { s.it with tailRun := runAfter s.it.tailRun holds n } } else s := by
  unfold advanceTail
  rw [hr]
  rfl

theorem confirmRun_eq (p : Place) (run : Run) (K : Nat) (s : State)
    (hK : s.ts.active.segment.confirmationCount.toNat = K) :
    confirmRun p run s = if K ≤ run.count then decideAt p run.first s else s := by
  subst hK
  rfl

theorem outstanding_head_eq (r : InterfaceRecord) : outstanding r .headCut
    = (r.headCut.isNone && (r.disposition == .transmix || r.disposition == .intoArriving)) := Bool.and_comm _ _

theorem outstanding_tail_eq (r : InterfaceRecord) : outstanding r .tailCut
    = (r.tailCut.isNone && r.disposition != .intoArriving) := by
  rw [Bool.eq_iff_iff, outstanding_tail_iff]
  simp

/-- What the head cut's run makes of the record: what the tail cut reads stands, and a head cut that is made lets the
tail cut through its gate, for its condition holds. -/
theorem advanceHead_decided (n : Mark) (holds : Bool) (r : InterfaceRecord) (s : State) (hr : s.it.record = some r)
    (hK : s.ts.active.segment.confirmationCount ≠ 0) :
    ∃ r1, (advanceHead n holds s).it.record = some r1 ∧ r1.disposition = r.disposition ∧ r1.tailCut = r.tailCut
      ∧ (r1.headCut.isSome || holds) = (r.headCut.isSome || holds)
      ∧ (advanceHead n holds s).it.tailRun = s.it.tailRun
      ∧ (s.it.state ≠ .quiet → (advanceHead n holds s).ts = s.ts) := by
  have hpos : s.ts.active.segment.confirmationCount.toNat ≠ 0 := fun h => hK (BitVec.eq_of_toNat_eq h)
  rw [advanceHead_eq n holds r s hr]
  split
  · unfold confirmRun
    split
    · rename_i hconfirmed
      have hholds := runAfter_holds s.it.headRun holds n _ hpos hconfirmed
      obtain ⟨⟨r1, h1, hd, ht⟩, hrun, hts⟩ := decideAt_head (runAfter s.it.headRun holds n).first r
        { s with it := { s.it with headRun := runAfter s.it.headRun holds n } } hr
      exact ⟨r1, h1, hd, ht, by rw [hholds, Bool.or_true, Bool.or_true], hrun, hts⟩
    · exact ⟨r, hr, rfl, rfl, rfl, rfl, fun _ => rfl⟩
  · exact ⟨r, hr, rfl, rfl, rfl, rfl, fun _ => rfl⟩

/-- R80: the head cut's condition, in the dispositions that have one. -/
theorem cutCondition_head (s : State) (r : InterfaceRecord) (b0 b1 : BatchRecord) (f : Int)
    (h : r.disposition ≠ .midpoint) :
    cutCondition s r b0 b1 .headCut f = decide (((s.product b0.product).tolerance.toNat : Int) < f) := by
  unfold cutCondition
  cases hd : r.disposition with
  | midpoint => exact absurd hd h
  | _ => rfl

/-- R80 and R81: the tail cut's condition with its gate. -/
theorem tailCondition_eq (s : State) (r r1 : InterfaceRecord) (b0 b1 : BatchRecord) (f : Int) (head : Bool)
    (hhead : head = decide (((s.product b0.product).tolerance.toNat : Int) < f)) (hd : r1.disposition = r.disposition)
    (hgate : (r1.headCut.isSome || cutCondition s r b0 b1 .headCut f)
      = (r.headCut.isSome || cutCondition s r b0 b1 .headCut f)) :
    (cutCondition s r b0 b1 .tailCut f && tailGate r1 (cutCondition s r b0 b1 .headCut f))
      = if r.disposition = .midpoint then decide (500 ≤ f)
        else decide (1000 - ((s.product b1.product).tolerance.toNat : Int) ≤ f)
          && (r.disposition != .transmix || r.headCut.isSome || head) := by
  unfold tailGate
  rw [Bool.or_assoc, hgate, hd]
  by_cases hm : r.disposition = .midpoint
  · rw [if_pos hm]
    unfold cutCondition
    rw [hm]
    exact Bool.and_true _
  · rw [if_neg hm, cutCondition_head s r b0 b1 f hm, ← hhead, Bool.or_assoc]
    refine congrArg (· && _) ?_
    unfold cutCondition
    cases hz : r.disposition with
    | midpoint => exact absurd hz hm
    | _ => rfl

/-- R81: the tail cut's run reads the record that the head cut's run leaves. -/
theorem advanceDecisions_of_head (n : Mark) (f : Int) (r r1 : InterfaceRecord) (b0 b1 : BatchRecord)
    (rest : List BatchRecord) (s : State) (hr : s.it.record = some r) (hb : s.bq = b0 :: b1 :: rest)
    (h1 : (advanceHead n (cutCondition s r b0 b1 .headCut f) s).it.record = some r1) :
    advanceDecisions n f s = advanceTail n
      (cutCondition s r b0 b1 .tailCut f && tailGate r1 (cutCondition s r b0 b1 .headCut f))
      (advanceHead n (cutCondition s r b0 b1 .headCut f) s) := by
  unfold advanceDecisions
  rw [hr, hb]
  simp only [h1]

/-- R81: the decision runs of an evaluation, the head cut's before the tail cut's. -/
theorem advanceDecisions_eq (n : Mark) (f : Int) (r : InterfaceRecord) (b0 b1 : BatchRecord) (rest : List BatchRecord)
    (s a : State) (K : Nat) (head tail : Bool) (headRun tailRun : Run) (hs : s.it.state = .mixing)
    (hr : s.it.record = some r) (hb : s.bq = b0 :: b1 :: rest)
    (hK0 : s.ts.active.segment.confirmationCount ≠ 0) (hK : K = s.ts.active.segment.confirmationCount.toNat)
    (hhead : head = decide (((s.product b0.product).tolerance.toNat : Int) < f))
    (htail : tail = if r.disposition = .midpoint then decide (500 ≤ f)
      else decide (1000 - ((s.product b1.product).tolerance.toNat : Int) ≤ f)
        && (r.disposition != .transmix || r.headCut.isSome || head))
    (hheadRun : headRun = runAfter s.it.headRun head n) (htailRun : tailRun = runAfter s.it.tailRun tail n)
    (ha : a = if r.headCut.isNone && (r.disposition == .transmix || r.disposition == .intoArriving) then
      if K ≤ headRun.count then decideAt .headCut headRun.first { s with it := { s.it with headRun := headRun } }
        else { s with it := { s.it with headRun := headRun } } else s) :
    advanceDecisions n f s = if r.tailCut.isNone && r.disposition != .intoArriving then
      if K ≤ tailRun.count then decideAt .tailCut tailRun.first { a with it := { a.it with tailRun := tailRun } }
        else { a with it := { a.it with tailRun := tailRun } } else a := by
  have hwindow : s.it.state ≠ .quiet := by rw [hs]; decide
  have hadvanced : advanceHead n (cutCondition s r b0 b1 .headCut f) s = a := by
    rw [advanceHead_eq n _ r s hr, outstanding_head_eq, ha]
    split
    · rename_i hout
      have hm : r.disposition ≠ .midpoint := by
        intro hm
        rw [hm] at hout
        cases hcut : r.headCut <;> rw [hcut] at hout <;> cases hout
      rw [cutCondition_head s r b0 b1 f hm, ← hhead, ← hheadRun]
      exact confirmRun_eq _ _ K _ hK.symm
    · rfl
  obtain ⟨r1, h1, hd, ht, hgate, hrun, hts⟩ :=
    advanceHead_decided n (cutCondition s r b0 b1 .headCut f) r s hr hK0
  rw [hadvanced] at h1 hrun hts
  have hts' : a.ts.active.segment.confirmationCount.toNat = K := by rw [hts hwindow, hK]
  rw [advanceDecisions_of_head n f r r1 b0 b1 rest s hr hb (hadvanced ▸ h1), hadvanced,
    tailCondition_eq s r r1 b0 b1 f head hhead hd hgate, ← htail, advanceTail_eq n tail r1 a h1, outstanding_tail_eq, ht, hd,
    hrun, ← htailRun]
  exact if_congr Iff.rfl (confirmRun_eq .tailCut tailRun K { a with it := { a.it with tailRun := tailRun } } hts') rfl

/-! ## A window opened by ADD BATCH -/

/-- A window in density mode opens where no excursion is under way and no apply is armed. -/
theorem testMarks_opens (b0 b1 : BatchRecord) (e : RuleEntry) (s : State) (hq : s.it.state = .quiet)
    (hx : s.it.excursion = false) (ha : s.ts.armed = false) (hb : s.bq = [b0, b1])
    (hopen : reached s.vc.lineCount (openMarkAt s b1) = true)
    (hcontrast : s.ts.active.segment.minimumContrast.toNat ≤ (referenceDensity s b1 - referenceDensity s b0).natAbs)
    (hclose : reached s.vc.lineCount (headMark b1 + s.ts.active.segment.lateMargin.setWidth 48) = false)
    (he : e = ruleAtFamilies s.ts.active (s.product b0.product).family (s.product b1.product).family) :
    testMarks s = { s with
      de := { s.de with pair := some ⟨referenceDensity s b0, referenceDensity s b1,
        referenceDensity s b1 - referenceDensity s b0, false⟩ }
      it := { s.it with
        state := .watch, excRun := ⟨0, 0⟩, record := some (densityRecord s b0 b1 e)
        headRun := ⟨0, 0⟩, tailRun := ⟨0, 0⟩, endRun := 0
        held := [], endDue := none, volumeDue := false } } := by
  have hready : windowReady b0 s = excursionEnded s := by
    unfold windowReady
    rw [hx]
    exact applyChecked_waits _ _ (fun ⟨harmed, _⟩ => absurd (ha.symm.trans harmed) (by decide))
  have hlow : decide ((referenceDensity (excursionEnded s) b1 - referenceDensity (excursionEnded s) b0).natAbs
      < (excursionEnded s).ts.active.segment.minimumContrast.toNat) = false := decide_eq_false (Nat.not_lt.2 hcontrast)
  have hopened : markStep s = some { s with
      de := { s.de with pair := some ⟨referenceDensity s b0, referenceDensity s b1,
        referenceDensity s b1 - referenceDensity s b0, false⟩ }
      it := { s.it with
        state := .watch, excRun := ⟨0, 0⟩, record := some (densityRecord s b0 b1 e)
        headRun := ⟨0, 0⟩, tailRun := ⟨0, 0⟩, endRun := 0
        held := [], endDue := none, volumeDue := false } } := by
    rw [markStep_opens b0 b1 [] s hq hb hopen, openWindow_eq b0 b1 [b1] s hb, hready, he]
    unfold windowOpened
    simp only [hlow, hx]
    rfl
  refine testMarks_one s _ hopened ?_
  rw [markStep_watch (densityRecord s b0 b1 e) _ rfl rfl]
  exact if_neg (ne_true_of_eq_false hclose)

theorem addedData_second (b0 b1 : BatchRecord) (s : State) (hb : s.bq = [b0, b1]) (hne : b0.batchId ≠ b1.batchId) :
    addedData s b1.batchId = [1] ++ bytesOf 6 b1.predicted := by
  have hpos : positionOf s b1.batchId = some 1 := by
    unfold positionOf
    rw [hb]
    simp [List.findIdx?_cons, hne]
  unfold addedData
  rw [hpos]
  simp only [hb]
  rfl

end Sys2Proof.Machine
end

section
/-! PROOFS. The statement of the window whole: each clause by the lemma of its own mark, midpoint or decision. -/

namespace Sys2Proof.Machine

/-- R41 and R74: the ADD BATCH that puts a second batch behind entry 0, its open mark reached. -/
theorem addBatch_opens (src : Byte) (f : BatchFields) (b0 b1 : BatchRecord) (e : RuleEntry) (s : State) (h : Serving s)
    (hf : firstBad (batchRanges f) = none) (hb : s.bq = [b0]) (hid : b0.batchId ≠ f.batchId) (hp : Present s f.product)
    (ha : s.ts.armed = false) (hq : s.it.state = .quiet) (hx : s.it.excursion = false)
    (hb1 : b1 = recordWith f (headMark b0 + b0.nominal.setWidth 48) none)
    (hopen : reached s.vc.lineCount (openMarkAt s b1) = true)
    (hcontrast : s.ts.active.segment.minimumContrast.toNat ≤ (referenceDensity s b1 - referenceDensity s b0).natAbs)
    (hclose : reached s.vc.lineCount (headMark b1 + s.ts.active.segment.lateMargin.setWidth 48) = false)
    (he : e = ruleAtFamilies s.ts.active (s.product b0.product).family (s.product b1.product).family) :
    ∃ t, exec (.addBatch src f) s = .next t
      ∧ t = { s with
          liu := t.liu, mr := t.mr
          bq := [b0, b1]
          de := { s.de with pair := some ⟨referenceDensity s b0, referenceDensity s b1,
            referenceDensity s b1 - referenceDensity s b0, false⟩ }
          it := { s.it with
            state := .watch, excRun := ⟨0, 0⟩, record := some (densityRecord s b0 b1 e)
            headRun := ⟨0, 0⟩, tailRun := ⟨0, 0⟩, endRun := 0
            held := [], endDue := none, volumeDue := false } }
      ∧ AnsweredOnly src 0x20 ([0, 0x20, 0, 1] ++ bytesOf 6 b1.predicted) s t := by
  have hopened := testMarks_opens b0 b1 e { received s with bq := [b0, b1] } hq hx ha rfl hopen hcontrast hclose he
  generalize hu : testMarks { received s with bq := [b0, b1] } = u at hopened
  have hadded : performAddBatch f (received s) = (u, .done (addedData u f.batchId)) := by
    have hlen : (received s).bq.length = 1 := congrArg List.length hb
    have hother : ∀ b ∈ (received s).bq, b.batchId ≠ f.batchId := by
      show ∀ b ∈ s.bq, b.batchId ≠ f.batchId
      rw [hb]
      simpa using hid
    refine performAddBatch_accepted f b0 (received s) hf (congrArg List.getLast? hb) (by rw [hlen]; decide) hother hp u ?_
    have hqueue : (received s).bq ++ [recordWith f (headMark b0 + b0.nominal.setWidth 48) none] = [b0, b1] := by
      rw [← hb1]
      exact congrArg (· ++ [b1]) hb
    rw [if_pos hlen, hqueue, ← hu]
    exact (if_pos hq).symm
  have hdata : addedData u f.batchId = [1] ++ bytesOf 6 b1.predicted := by
    have hid1 : b1.batchId = f.batchId := by rw [hb1]; rfl
    rw [← hid1]
    exact addedData_second b0 b1 u (by rw [hopened]) (hid1 ▸ hid)
  rw [hdata] at hadded
  have hreach := performAddBatch_reaches f (received s)
  rw [hadded] at hreach
  obtain ⟨t, ht, hanswered, hrest⟩ := request_done_only src 0x20 (performAddBatch f) s h _ hadded hreach
    (by rw [hopened]; rfl) (by rw [hopened]; exact h.settled)
  rw [hopened] at hrest
  exact ⟨t, ht, hrest, hanswered⟩

/-- R73 and R74: the open mark of a QUIET tracker. -/
theorem markStep_quiet (b0 b1 : BatchRecord) (rest : List BatchRecord) (s : State) (hq : s.it.state = .quiet)
    (hb : s.bq = b0 :: b1 :: rest) (h : reached s.vc.lineCount (openMarkAt s b1) = true) :
    markStep s = some (windowOpened b0 b1 (ruleAtFamilies (windowReady b0 s).ts.active
      ((windowReady b0 s).product b0.product).family ((windowReady b0 s).product b1.product).family)
      (windowReady b0 s)) := by
  rw [markStep_opens b0 b1 rest s hq hb h, openWindow_eq b0 b1 (b1 :: rest) s hb]

/-- R84 and R85: the marks of MIXING behind the wide mark. -/
theorem markStep_forced (r : InterfaceRecord) (start forced : Mark) (s : State) (hr : s.it.record = some r)
    (hs : s.it.state = .mixing) (hstart : r.startMark = some start)
    (hforced : forced = start + s.ts.active.segment.maxMixingVolume.setWidth 48 * 2)
    (hw : r.widest = true ∨ reached s.vc.lineCount (wideMark s start) = false) :
    (∀ m, s.it.endDue = some m → s.it.held = [] → markStep s = some (endInterface m s))
      ∧ (s.it.endDue = none ∨ s.it.held ≠ [] →
        (r.forcedEnd = true ∨ reached s.vc.lineCount forced = false → markStep s = none)
        ∧ (r.forcedEnd = false → reached s.vc.lineCount forced = true →
          let a := recordChanged (fun r => { r with forcedEnd := true }) s
          markStep s = some (if s.it.held = [] then endInterface forced a
            else { a with it := { a.it with endDue := some forced } }))) := by
  have hmark : forcedMark s start = forced := hforced.symm
  obtain ⟨hends, hwaits⟩ := markStep_mixing r start s hs hr hstart hw
  rw [hmark] at hwaits
  refine ⟨fun m hdue hheld => hends m ((postponedEnd_free s hheld).trans hdue), fun hpending => ?_⟩
  rw [hwaits (hpending.elim (postponedEnd_none s) (postponedEnd_held s))]
  refine ⟨fun hpast => if_neg ?_, fun hnot hreached => ?_⟩
  · rcases hpast with hpast | hpast <;> simp [hpast]
  · rw [hnot, hreached]
    exact congrArg some (reachEnd_eq forced _)

/-- R88: the marks of FALLBACK behind its decisions. -/
theorem markStep_fallbackEnd (r : InterfaceRecord) (finish : Mark) (s : State) (hr : s.it.record = some r)
    (hs : s.it.state = .fallback)
    (hfinish : finish = r.midpoint.getD r.predicted + halfWidth r + s.ts.active.segment.fallbackGuard.setWidth 48)
    (hhead : ¬ fallbackDue s r .headCut = true) (htail : ¬ fallbackDue s r .tailCut = true) :
    (∀ m, s.it.endDue = some m → s.it.held = [] → markStep s = some (endInterface m s))
      ∧ (s.it.endDue ≠ none → s.it.held ≠ [] → markStep s = none)
      ∧ (s.it.endDue = none → reached s.vc.lineCount finish = false → markStep s = none)
      ∧ (s.it.endDue = none → reached s.vc.lineCount finish = true →
        let a := if r.midpoint = none then setMidpoint r.predicted s else s
        markStep s = some (if a.it.held = [] then endInterface finish a
          else { a with it := { a.it with endDue := some finish } })) := by
  have hmark : fallbackEnd s r = finish := hfinish.symm
  obtain ⟨hends, hwaits⟩ := markStep_fallback r s hs hr hhead htail
  rw [hmark] at hwaits
  refine ⟨fun m hdue hheld => hends m ((postponedEnd_free s hheld).trans hdue), fun hdue hheld => ?_,
    fun hdue hreached => ?_, fun hdue hreached => ?_⟩
  · rw [hwaits (postponedEnd_held s hheld), Option.isNone_eq_false_iff.2 (Option.isSome_iff_ne_none.2 hdue)]
    rfl
  · rw [hwaits (postponedEnd_none s hdue), hreached, Bool.and_false]
    rfl
  · have hmid : setMidpointIfAbsent (fallbackCentre r) s = if r.midpoint = none then setMidpoint r.predicted s else s := by
      rw [setMidpointIfAbsent_eq _ r s hr]
      split
      · rename_i habsent
        unfold fallbackCentre
        rw [habsent]
        rfl
      · rfl
    rw [hwaits (postponedEnd_none s hdue), hreached, hdue]
    show some (fallbackEndReached r s) = _
    unfold fallbackEndReached
    rw [hmark, hmid, reachEnd_eq]

theorem fallbackDue_not (s : State) (r : InterfaceRecord) (p : Place)
    (h : ¬ Outstanding r p ∨ reached s.vc.lineCount (fallbackDecision s r p) = false) : ¬ fallbackDue s r p = true := by
  rw [fallbackDue_iff]
  rintro ⟨hout, hreached⟩
  exact h.elim (fun k => k hout) (fun k => by rw [k] at hreached; cases hreached)

/-- Settles O44. -/
theorem windowOpensAtItsMark : Obligations.WindowOpensAtItsMark := by
  refine ⟨fun src f b0 e s h hf hb hid hp ha hq hx => ?added, fun s => ?bound, fun s hq hlen => markStep_single s hq hlen,
    fun b0 b1 rest s hq hb => ?quiet, fun r s hr hs => ?watch, fun s hs => markStep_overdue s hs,
    fun r start wide forced s hr hs hstart hwide hforced => ?mixing, fun r finish s hr hs hfinish => ?fallback,
    fun mark r b0 b1 rest s hr hb => setMidpoint_reanchors mark r b0 b1 rest s hr hb,
    fun n f r b0 b1 rest s hs hr hb hK => ?decisions, fun n f s => ?evaluation, fun n f r s hr => advanceEnd_eq n f r s hr,
    fun p mark m r b0 b1 rest move s hr hb hm hraised => ?decided, fun m r s hr => endInterface_eq m r s hr⟩
  case added =>
    intro b1 dH dT hopen hcontrast hclose he
    exact addBatch_opens src f b0 b1 e s h hf hb hid hp ha hq hx rfl hopen hcontrast hclose he
  case bound => exact ⟨testMarks_stop s, fun u hu hstop => testMarks_one s u hu hstop, fun n t => testMarks_acted n s t⟩
  case quiet =>
    exact ⟨fun h => markStep_ahead s b0 b1 rest hq hb h,
      fun h => ⟨(lastDeviation s).1, (lastDeviation s).2, markStep_quiet b0 b1 rest s hq hb h⟩⟩
  case watch =>
    rw [markStep_watch r s hs hr]
    refine ⟨fun h => if_neg (ne_true_of_eq_false h), fun h hmore => ?_, fun h hlast => ?_⟩
    · rw [if_pos h, closeMarkReached_extends r s hmore]
    · rw [if_pos h, closeMarkReached_overdue r s hr hlast]
  case mixing =>
    subst hwide
    refine ⟨fun hw hreached => ?_, fun hw => markStep_forced r start forced s hr hs hstart hforced hw⟩
    intro a b c d
    exact (markStep_wide r start s hs hr hstart hw hreached).trans
      (congrArg some (wideReached_eq r (wideMark s start) s a b c d hr rfl rfl rfl rfl))
  case fallback =>
    refine ⟨fun hout hreached => ?_, fun hhead => ⟨fun hout hreached => ?_, fun htail => ?_⟩⟩
    · rw [markStep_fallback_head r s hs hr ((fallbackDue_iff s r .headCut).2 ⟨hout, hreached⟩), fallbackMark_eq]
    · rw [markStep_fallback_tail r s hs hr (fallbackDue_not s r .headCut hhead)
        ((fallbackDue_iff s r .tailCut).2 ⟨hout, hreached⟩), fallbackMark_eq]
    · exact markStep_fallbackEnd r finish s hr hs hfinish (fallbackDue_not s r .headCut hhead)
        (fallbackDue_not s r .tailCut htail)
  case decisions =>
    intro K outHead outTail head tail headRun tailRun a
    exact advanceDecisions_eq n f r b0 b1 rest s a K head tail headRun tailRun hs hr hb hK rfl rfl rfl rfl rfl rfl
  case evaluation =>
    unfold mixingEvaluation setMidpointIfAbsent
    by_cases hf : 500 ≤ f
    · simp only [hf, if_true, true_and]
    · simp only [hf, if_false, false_and]
  case decided =>
    subst hraised
    exact decideAt_eq p mark r b0 b1 rest move s hr hb hm

end Sys2Proof.Machine
end

section
/-! PROOFS. The batch queue, what its requests have in common: a request that leaves the queue alone or replaces it is
answered and nothing else happens, the tracker not told or finding no mark reached (R41, R73); where a batch stands; and the
33 bytes of READ BATCH (R49). -/

namespace Sys2Proof.Machine

/-! ## Requests that touch the queue alone -/

/-- A request that replaces at most the queue and raises nothing is answered, and nothing else happens. -/
theorem queue_answered (src kind : Byte) (perform : State → Outcome) (bq : List BatchRecord) (a : Answer) (s : State)
    (h : Serving s) (hp : Reaches (received s) (perform (received s)).1)
    (e : perform (received s) = ({ received s with bq := bq }, a)) :
    ∃ t, requestEvent (serve src kind perform) s = .next t ∧ t = { s with liu := t.liu, mr := t.mr, bq := bq }
      ∧ AnsweredOnly src kind (answerPayload kind a) s t := by
  obtain ⟨t, ht, hanswered, hrest⟩ := request_done_only src kind perform s h _ e (e ▸ hp) rfl h.settled
  exact ⟨t, ht, hrest, hanswered⟩

/-- A request that changes nothing is answered, and nothing else happens. -/
theorem unchanged_answered (src kind : Byte) (perform : State → Outcome) (a : Answer) (s : State) (h : Serving s)
    (e : perform (received s) = (received s, a)) :
    ∃ t, requestEvent (serve src kind perform) s = .next t ∧ t = { s with liu := t.liu, mr := t.mr }
      ∧ AnsweredOnly src kind (answerPayload kind a) s t :=
  queue_answered src kind perform s.bq a s h (by rw [e]; exact Reaches.refl _) e

/-! ## Where a batch stands -/

theorem positionOf_absent (s : State) (batchId : BatchId) (h : ∀ b ∈ s.bq, b.batchId ≠ batchId) :
    positionOf s batchId = none :=
  List.findIdx?_eq_none_iff.2 fun b hb => beq_false_of_ne (h b hb)

/-- A queue that is another one up to position `k`, and holds the batch there, holds it first there. -/
theorem findIdx?_of_ahead (p : BatchRecord → Bool) (old new : List BatchRecord) (k : Nat) (c : BatchRecord)
    (hold : ∀ i b, i < k → old[i]? = some b → p b = false) (hahead : ∀ i, i < k → new[i]? = old[i]?)
    (hc : new[k]? = some c) (hp : p c = true) : new.findIdx? p = some k := by
  obtain ⟨hk, rfl⟩ := List.getElem?_eq_some_iff.1 hc
  refine List.findIdx?_eq_some_iff_getElem.2 ⟨hk, hp, fun i hi => ?_⟩
  have hget : old[i]? = some new[i] := (hahead i hi).symm.trans (List.getElem?_eq_getElem _)
  rw [hold i _ hi hget]
  exact Bool.false_ne_true

/-- Before the position found no batch has the id. -/
theorem findIdx?_ahead (p : BatchRecord → Bool) (bq : List BatchRecord) (k i : Nat) (b : BatchRecord)
    (h : bq.findIdx? p = some k) (hi : i < k) (hb : bq[i]? = some b) : p b = false := by
  obtain ⟨_, _, hahead⟩ := List.findIdx?_eq_some_iff_getElem.1 h
  obtain ⟨hlt, rfl⟩ := List.getElem?_eq_some_iff.1 hb
  exact Bool.eq_false_iff.2 (hahead i hi)

/-- A batch appended behind batches of other ids stands last. -/
theorem findIdx?_appended (bq : List BatchRecord) (x : BatchRecord) (batchId : BatchId) (hx : x.batchId = batchId)
    (h : ∀ b ∈ bq, b.batchId ≠ batchId) :
    (bq ++ [x]).findIdx? (fun b => b.batchId == batchId) = some bq.length :=
  findIdx?_of_ahead _ bq _ _ x (fun _ b _ hb => beq_false_of_ne (h b (List.mem_of_getElem? hb)))
    (fun _ hi => List.getElem?_append_left hi) List.getElem?_concat_length (beq_iff_eq.2 hx)

/-- The batch that an AMEND BATCH names keeps its position (R44). -/
theorem QueueAmended.position {f : BatchFields} {k : Nat} {b : BatchRecord} {old new : List BatchRecord}
    (h : QueueAmended f k b old new) (hk : old.findIdx? (fun b => b.batchId == f.batchId) = some k) :
    new.findIdx? (fun b => b.batchId == f.batchId) = some k :=
  findIdx?_of_ahead _ old new k _ (fun i x hi hx => findIdx?_ahead _ old k i x hk hi hx) h.ahead h.amended
    (beq_self_eq_true f.batchId)

/-! ## The tracker told of a change that opens no window -/

/-- Where the open mark of entry 1 is not reached, or a window is open, the tracker has nothing to do (R41, R73). -/
theorem changeReported_waits (u : State) (h : ∀ c, u.bq[1]? = some c → NoWindowAt u c) : changeReported u = u := by
  refine changeReported_none u fun hq => ?_
  rcases hb : u.bq with _ | ⟨b0, _ | ⟨b1, rest⟩⟩
  · exact markStep_single u hq (by rw [hb]; exact Nat.zero_le 1)
  · exact markStep_single u hq (by rw [hb]; exact Nat.le_refl 1)
  · exact markStep_ahead u b0 b1 rest hq hb ((h b1 (by rw [hb]; rfl)).resolve_left (fun k => k hq))

/-! ## READ BATCH -/

/-- A first destination is a lane or PASS (R36). -/
theorem firstDestination_range (s : State) (b : BatchRecord) :
    (firstDestination s b).toNat < 8 ∨ firstDestination s b = 9 := by
  unfold firstDestination
  by_cases hpass : b.disposition = .passBy
  · exact Or.inr (if_pos hpass)
  · rw [if_neg hpass]
    by_cases hlane : (destinationOf s b).toNat < 8
    · rw [if_pos hlane]; exact Or.inl hlane
    · exact Or.inr (if_neg hlane)

theorem destinationOutlet_val (s : State) (b : BatchRecord) :
    (destinationOutlet s b).val = (firstDestination s b).toNat := by
  have hlt : (firstDestination s b).toNat < 10 := by
    rcases firstDestination_range s b with h | h
    · omega
    · rw [h]; decide
  unfold destinationOutlet
  rw [dif_pos hlt]

theorem outletByte_destination (s : State) (b : BatchRecord) :
    outletByte (some (s.firstOutlet b)) = firstDestination s b := by
  rw [← destinationOutlet_eq]
  show BitVec.ofNat 8 (destinationOutlet s b).val = _
  rw [destinationOutlet_val, BitVec.ofNat_toNat, BitVec.setWidth_eq]

/-- A batch with a lane goes there unless it passes by (R36). -/
theorem destinationOutlet_lane_iff (s : State) (b : BatchRecord) (h : b.disposition ≠ .passBy) :
    (destinationOutlet s b).val < 8 ↔ (destinationOf s b).toNat < 8 := by
  rw [destinationOutlet_val]
  unfold firstDestination
  rw [if_neg h]
  split
  · rfl
  · rename_i hlane
    exact iff_of_false (by decide) hlane

/-- A DELIVER_PART batch whose product has a lane goes on from there to PASS (R36). -/
theorem deliveryVolume_isSome_iff (s : State) (b : BatchRecord)
    (h : b.delivery.isSome = true ↔ b.disposition = .deliverPart) :
    (deliveryVolume s b).isSome = true ↔ b.disposition = .deliverPart ∧ (destinationOf s b).toNat < 8 := by
  unfold deliveryVolume
  by_cases hpart : b.disposition = .deliverPart
  · have hlane := destinationOutlet_lane_iff s b (by rw [hpart]; decide)
    by_cases hl : (destinationOf s b).toNat < 8
    · simp [hpart, hlane, hl, h]
    · simp [hlane, hl]
  · simp [hpart]

theorem secondDestination_eq (s : State) (b : BatchRecord)
    (h : b.delivery.isSome = true ↔ b.disposition = .deliverPart) :
    secondDestination s b = secondDestinationCode s b := by
  unfold secondDestination secondDestinationCode
  rw [← deliveryVolume_eq]
  exact if_congr (deliveryVolume_isSome_iff s b h) rfl rfl

theorem boolByte_eq (b : Bool) : boolByte b = bitByte b := by
  cases b <;> rfl

theorem dispositionByte_eq (d : Disposition) : dispositionByte d = dispositionCode d := by
  cases d <;> rfl

theorem batchData_eq (s : State) (position : Byte) (b : BatchRecord)
    (h : b.delivery.isSome = true ↔ b.disposition = .deliverPart) :
    batchData s position b = batchRecordBytes s position b := by
  unfold batchData batchRecordBytes
  rw [outletByte_destination, secondDestination_eq s b h, boolByte_eq, dispositionByte_eq]
  rfl

theorem performReadBatch_ranged (position : Byte) (s : State) (h : 31 < position.toNat) :
    performReadBatch position s = refuse .range [0] s := if_pos h

theorem performReadBatch_found (position : Byte) (b : BatchRecord) (s : State) (h : position.toNat ≤ 31)
    (hb : s.bq[position.toNat]? = some b) : performReadBatch position s = (s, .done (batchData s position b)) := by
  unfold performReadBatch
  rw [if_neg (Nat.not_lt.2 h), hb]

theorem performReadBatch_beyond (position : Byte) (s : State) (h : position.toNat ≤ 31)
    (hb : s.bq.length ≤ position.toNat) : performReadBatch position s = refuse .notFound [0] s := by
  unfold performReadBatch
  rw [if_neg (Nat.not_lt.2 h), List.getElem?_eq_none hb]

/-- A READ BATCH without exactly one parameter byte is no request (R166). -/
theorem parseRequest_readBatch (ps : List Byte) (h : ps.length ≠ 1) : parseRequest (0x23 :: ps) = none := by
  have hlength : lengthOk 0x23 ps.length = some (ps.length == 1) := rfl
  show (if lengthOk 0x23 ps.length = some true then requestOf 0x23 ps else none) = none
  rw [hlength, beq_false_of_ne h]
  rfl

/-- Settles O47: the record at the position, its three refusals, and a payload that is no READ BATCH. -/
theorem batchIsRead : Obligations.BatchIsRead := by
  refine ⟨fun src position b s h hpos hb hd => ?found, fun src position s h hpos => ?ranged,
    fun src position s h hpos hb => ?beyond, fun src ps s h hlen => ?unknown⟩
  case found =>
    have hread := unchanged_answered src 0x23 (performReadBatch position) _ s h
      (performReadBatch_found position b (received s) hpos hb)
    rw [batchData_eq (received s) position b hd] at hread
    exact hread
  case ranged =>
    exact unchanged_answered src 0x23 (performReadBatch position) _ s h (performReadBatch_ranged position _ hpos)
  case beyond =>
    exact unchanged_answered src 0x23 (performReadBatch position) _ s h (performReadBatch_beyond position _ hpos hb)
  case unknown =>
    have hserved : handOverRequest src (0x23 :: ps) = serve src 0x23 performUnknown := by
      funext u
      unfold handOverRequest
      rw [parseRequest_readBatch ps hlen]
      rfl
    show ∃ t, requestEvent (handOverRequest src (0x23 :: ps)) s = .next t ∧ _
    rw [hserved]
    exact unchanged_answered src 0x23 performUnknown .unknown s h rfl

end Sys2Proof.Machine
end

section
/-! PROOFS. ADD BATCH: its tests in their order (R38), the scheduling of a batch into an empty queue (R40), and a batch
appended behind another, which the tracker is told of when it is the new arriving batch (R39, R41). -/

namespace Sys2Proof.Machine

/-! ## The tests of ADD BATCH -/

theorem batchId_bad_iff (x : BatchId) : x.toNat < 1 ∨ 65535 < x.toNat ↔ x = 0 := by
  bv_omega

/-- A delivery volume lies in its range with disposition 1 and is 0 with any other (R35). -/
theorem delivery_bad_iff (f : BatchFields) :
    (if f.disposition == 1 then within 1000 f.nominal.toNat f.delivery.toNat else f.delivery == 0) = false
      ↔ (f.disposition = 1 ∧ (f.delivery.toNat < 1000 ∨ f.nominal.toNat < f.delivery.toNat))
        ∨ (f.disposition ≠ 1 ∧ f.delivery ≠ 0) := by
  by_cases h : f.disposition = 1
  · simp [h, within_false_iff]
  · rw [beq_false_of_ne h]
    simp only [Bool.false_eq_true, if_false, beq_eq_false_iff_ne, h, false_and, ne_eq, not_false_eq_true, true_and,
      false_or]

/-- A certified density is absent or lies in its range (R35). -/
theorem certified_bad_iff (x : BitVec 32) :
    (x == 0 || within 50000 110000 x.toNat) = false ↔ x ≠ 0 ∧ (x.toNat < 50000 ∨ 110000 < x.toNat) := by
  rw [Bool.or_eq_false_iff, beq_eq_false_iff_ne, within_false_iff]

/-- R38: the range tests of a batch's fields, each with the figures that fail it. -/
theorem batchRanges_first (f : BatchFields) : firstBad (batchRanges f) =
    if f.batchId = 0 then some 0
    else if f.product = 0 then some 2
    else if f.nominal.toNat < 1000 ∨ 100000000 < f.nominal.toNat then some 3
    else if 2 < f.disposition.toNat then some 7
    else if (f.disposition = 1 ∧ (f.delivery.toNat < 1000 ∨ f.nominal.toNat < f.delivery.toNat))
        ∨ (f.disposition ≠ 1 ∧ f.delivery ≠ 0) then some 8
    else if f.certified ≠ 0 ∧ (f.certified.toNat < 50000 ∨ 110000 < f.certified.toNat) then some 12
    else none := by
  unfold batchRanges
  simp only [firstBad_cons, firstBad_nil, within_false_iff, batchId_bad_iff, byte_bad_iff, delivery_bad_iff,
    certified_bad_iff, Nat.not_lt_zero, false_or]

theorem performAddBatch_ranged (f : BatchFields) (off : Nat) (s : State) (h : firstBad (batchRanges f) = some off) :
    performAddBatch f s = refuse .range (oneByte off) s := by
  unfold performAddBatch
  rw [h]

theorem performAddBatch_full (f : BatchFields) (s : State) (h : firstBad (batchRanges f) = none)
    (hfull : 32 ≤ s.bq.length) : performAddBatch f s = refuse .full [] s := by
  unfold performAddBatch
  rw [h]
  exact if_pos hfull

theorem performAddBatch_duplicate (f : BatchFields) (k : Nat) (s : State) (h : firstBad (batchRanges f) = none)
    (hroom : s.bq.length < 32) (hk : positionOf s f.batchId = some k) :
    performAddBatch f s = refuse .duplicate (oneByte k) s := by
  unfold performAddBatch
  rw [h]
  simp only [if_neg (Nat.not_le.2 hroom), hk]

theorem performAddBatch_absent (f : BatchFields) (s : State) (h : firstBad (batchRanges f) = none)
    (hroom : s.bq.length < 32) (hnew : ∀ b ∈ s.bq, b.batchId ≠ f.batchId) (hp : ¬ Present s f.product) :
    performAddBatch f s = refuse .notFound [1] s := by
  have hcode : codePresent s.ts f.product = false := Bool.eq_false_iff.2 fun k => hp ((codePresent_iff s _).1 k)
  unfold performAddBatch
  rw [h]
  simp only [if_neg (Nat.not_le.2 hroom), positionOf_absent s _ hnew, hcode]
  rfl

/-- Settles O41: the range tests one by one, and each refusal by the test that decides it. -/
theorem batchAddRefusals : Obligations.BatchAddRefusals := by
  refine ⟨batchRanges_first, fun src f off s h hf => ?ranged, fun src f s h hf hfull => ?full,
    fun src f k s h hf hroom hk => ?duplicate, fun src f s h hf hroom hnew hp => ?absent⟩
  case ranged =>
    exact unchanged_answered src 0x20 (performAddBatch f) _ s h (performAddBatch_ranged f off _ hf)
  case full =>
    exact unchanged_answered src 0x20 (performAddBatch f) _ s h (performAddBatch_full f _ hf hfull)
  case duplicate =>
    exact unchanged_answered src 0x20 (performAddBatch f) _ s h (performAddBatch_duplicate f k _ hf hroom hk)
  case absent =>
    exact unchanged_answered src 0x20 (performAddBatch f) _ s h (performAddBatch_absent f _ hf hroom hnew hp)

/-! ## The answer to an accepted ADD BATCH -/

theorem performAddBatch_taken (f : BatchFields) (s : State) (h : firstBad (batchRanges f) = none)
    (hroom : s.bq.length < 32) (hnew : ∀ b ∈ s.bq, b.batchId ≠ f.batchId) (hp : Present s f.product) :
    performAddBatch f s = (addBatch f s, .done (addedData (addBatch f s) f.batchId)) := by
  unfold performAddBatch
  rw [h]
  simp only [if_neg (Nat.not_le.2 hroom), positionOf_absent s _ hnew, (codePresent_iff s _).2 hp]
  rfl

/-- R39: the answer states the batch's position and predicted head mark. -/
theorem addedData_found (s : State) (batchId : BatchId) (k : Nat) (b : BatchRecord) (hk : positionOf s batchId = some k)
    (hb : s.bq[k]? = some b) : addedData s batchId = [BitVec.ofNat 8 k] ++ bytesOf 6 b.predicted := by
  unfold addedData
  rw [hk]
  simp only [hb]
  rfl

/-! ## A batch scheduled into an empty queue -/

/-- R40 and R145: the state after a scheduling. -/
def scheduled (f : BatchFields) (s : State) : State := { s with
  bq := [recordWith f s.vc.lineCount none]
  tu := { s.tu with current := some (emptyTicket f.batchId f.product (laneOf s (recordWith f s.vc.lineCount none))
    s.vc.lineCount) }
  de := { s.de with settleOrigin := some (s.de.settleOrigin.getD s.vc.lineCount) } }

theorem addBatch_empty (f : BatchFields) (s : State) (h : s.bq = []) : addBatch f s = scheduled f s := by
  unfold addBatch scheduled
  rw [h, laneOf_eq, ← recordOf_eq]
  rfl

/-- R36 and R140: the own lane of a ticket is the batch's first destination, and none for PASS. -/
theorem outletCode_laneOf (s : State) (b : BatchRecord) :
    outletCode (laneOf s b) = if firstDestination s b = 9 then 0xFF else firstDestination s b := by
  unfold laneOf
  rw [destinationOutlet_val]
  rcases firstDestination_range s b with h | h
  · have hne : firstDestination s b ≠ 9 := fun k => absurd h (by rw [k]; decide)
    rw [if_pos h, if_neg hne]
    show BitVec.ofNat 8 (destinationOutlet s b).val = _
    rw [destinationOutlet_val, BitVec.ofNat_toNat, BitVec.setWidth_eq]
  · rw [h]
    rfl

/-- Settles O42: the scheduling, with the lane that the first destination names. -/
theorem firstBatchIsScheduled : Obligations.FirstBatchIsScheduled := by
  intro src f s h hf hempty hp
  have hnone : (received s).bq = [] := hempty
  have htaken := performAddBatch_taken f (received s) hf (by rw [hnone]; decide) (by rw [hnone]; simp) hp
  have hdata : addedData (scheduled f (received s)) f.batchId = [0] ++ bytesOf 6 s.vc.lineCount :=
    addedData_found _ _ 0 (recordWith f s.vc.lineCount none)
      (findIdx?_appended [] _ _ rfl (by simp)) rfl
  rw [addBatch_empty f _ hnone, hdata] at htaken
  have hreach := performAddBatch_reaches f (received s)
  rw [htaken] at hreach
  obtain ⟨t, ht, hanswered, hrest⟩ := request_done_only src 0x20 (performAddBatch f) s h _ htaken hreach rfl h.settled
  exact ⟨t, _, ht, outletCode_laneOf s _, hrest, hanswered⟩

/-! ## A batch appended -/

/-- R37 and R39: the queue with a batch of the fields `f` behind its last one. -/
def appended (f : BatchFields) (last : BatchRecord) (bq : List BatchRecord) : List BatchRecord :=
  bq ++ [recordWith f (headMark last + last.nominal.setWidth 48) none]

/-- A batch behind two others, or one whose open mark is not reached, is only appended (R41). -/
theorem performAddBatch_appends (f : BatchFields) (last : BatchRecord) (s : State)
    (hf : firstBad (batchRanges f) = none) (hl : s.bq.getLast? = some last) (hroom : s.bq.length < 32)
    (hnew : ∀ b ∈ s.bq, b.batchId ≠ f.batchId) (hp : Present s f.product)
    (hwait : 2 ≤ s.bq.length ∨ NoWindowAt s (recordWith f (headMark last + last.nominal.setWidth 48) none)) :
    performAddBatch f s = ({ s with bq := appended f last s.bq }, .done ([BitVec.ofNat 8 s.bq.length]
      ++ bytesOf 6 (headMark last + last.nominal.setWidth 48))) := by
  have hadded := performAddBatch_accepted f last s hf hl hroom hnew hp { s with bq := appended f last s.bq } (by
    split
    · rename_i hone
      refine (changeReported_waits _ fun c hc => ?_).symm
      have hlast : (s.bq ++ [recordWith f (headMark last + last.nominal.setWidth 48) none])[s.bq.length]?
          = some (recordWith f (headMark last + last.nominal.setWidth 48) none) := List.getElem?_concat_length
      rw [hone] at hlast
      cases hc.symm.trans hlast
      exact hwait.resolve_left (by omega)
    · rfl)
  have hdata : addedData { s with bq := appended f last s.bq } f.batchId = [BitVec.ofNat 8 s.bq.length]
      ++ bytesOf 6 (headMark last + last.nominal.setWidth 48) :=
    addedData_found _ f.batchId s.bq.length (recordWith f (headMark last + last.nominal.setWidth 48) none)
      (findIdx?_appended s.bq _ f.batchId rfl hnew) List.getElem?_concat_length
  rw [hdata] at hadded
  exact hadded

/-- The last batch of a pair stays in the queue whatever the tracker does when it is told of it (R41, R47). -/
theorem changeReported_holds (u : State) (b0 b1 : BatchRecord) (hb : u.bq = [b0, b1]) :
    ∃ k b, (changeReported u).bq.findIdx? (fun b => b.batchId == b1.batchId) = some k
      ∧ (changeReported u).bq[k]? = some b := by
  have hlast : (batchIds (changeReported u).bq).getLast? = some b1.batchId := by
    have hstay : (batchIds (changeReported u).bq).getLast? = (batchIds u.bq).getLast? := by
      unfold changeReported
      split
      · exact testMarks_last u (Or.inl ‹_›)
      · rfl
    rw [hstay, hb]
    rfl
  obtain ⟨b, hmem, hid⟩ := List.mem_map.1 (List.mem_of_getLast? hlast)
  cases hk : (changeReported u).bq.findIdx? (fun b => b.batchId == b1.batchId) with
  | none => exact absurd (List.findIdx?_eq_none_iff.1 hk b hmem) (by simp [hid])
  | some k =>
    obtain ⟨hlt, -, -⟩ := List.findIdx?_eq_some_iff_getElem.1 hk
    exact ⟨k, _, rfl, List.getElem?_eq_getElem hlt⟩

/-- Settles O43: the batch only appended; the answer in every case; and the tracker told of a new arriving batch. -/
theorem batchIsAppended : Obligations.BatchIsAppended := by
  refine ⟨fun src f last s h hf hl hroom hnew hp hwait => ?appended, fun src f s h hf hroom hnew hp => ?answer,
    fun src f b0 s h hf hb hid hp => ?arriving⟩
  case appended =>
    exact queue_answered src 0x20 (performAddBatch f) _ _ s h (performAddBatch_reaches f _)
      (performAddBatch_appends f last (received s) hf hl hroom hnew hp hwait)
  case answer =>
    have htaken := performAddBatch_taken f (received s) hf hroom hnew hp
    obtain ⟨t, ht, hdone⟩ := request_done src 0x20 (performAddBatch f) s h (performAddBatch_reaches f _)
    have hdone : RequestDone src 0x20 s (performAddBatch f (received s)) t := hdone
    rw [htaken] at hdone
    refine ⟨t, ht, fun k b hk hb => ?_⟩
    have hbq : t.bq = (addBatch f (received s)).bq := (congrArg State.bq hdone.rest :)
    rw [hbq] at hk hb
    have hanswered := hdone.answered
    rw [addedData_found _ _ k b hk hb] at hanswered
    exact hanswered
  case arriving =>
    have hqueue : (received s).bq = [b0] := hb
    have hlen : (received s).bq.length = 1 := congrArg List.length hqueue
    have hadded := performAddBatch_accepted f b0 (received s) hf (by rw [hqueue]; rfl) (by omega)
      (by rw [hqueue]; simpa using hid) hp
      (changeReported { received s with bq := [b0, recordWith f (headMark b0 + b0.nominal.setWidth 48) none] })
      (by rw [if_pos hlen, hqueue]; rfl)
    obtain ⟨k, b, hk, hkb⟩ := changeReported_holds { received s with
      bq := [b0, recordWith f (headMark b0 + b0.nominal.setWidth 48) none] } b0 _ rfl
    obtain ⟨t, ht, hends⟩ := serve_ends src 0x20 (performAddBatch f) s _ _ _ h hadded
      (congrArg (fun d => answerPayload 0x20 (.done d)) (addedData_found _ _ k b hk hkb))
    exact ⟨k, b, _, t, rfl, hk, hkb, ht, hends⟩

end Sys2Proof.Machine
end

section
/-! PROOFS. AMEND BATCH and DROP BATCH: their refusals, the queue that an accepted one leaves, and the tracker told of a
change at position 1 or of entry 1's head mark (R41 to R45). -/

namespace Sys2Proof.Machine

/-! ## AMEND BATCH -/

theorem performAmendBatch_ranged (f : BatchFields) (off : Nat) (s : State) (h : firstBad (batchRanges f) = some off) :
    performAmendBatch f s = refuse .range (oneByte off) s := by
  unfold performAmendBatch
  rw [h]

theorem performAmendBatch_unqueued (f : BatchFields) (s : State) (h : firstBad (batchRanges f) = none)
    (hnew : ∀ b ∈ s.bq, b.batchId ≠ f.batchId) : performAmendBatch f s = refuse .notFound [0] s := by
  unfold performAmendBatch
  rw [h]
  simp only [positionOf_absent s _ hnew]

theorem performAmendBatch_placed (f : BatchFields) (k : Nat) (b : BatchRecord) (s : State)
    (h : firstBad (batchRanges f) = none) (hk : positionOf s f.batchId = some k) (hb : s.bq[k]? = some b)
    (hm : ¬ MayBeAmended s k b f) : performAmendBatch f s = refuse .state (oneByte k) s := by
  have htest : positionTest s k b f = false := Bool.eq_false_iff.2 fun e => hm ((positionTest_iff s k b f).1 e)
  unfold performAmendBatch
  rw [h]
  simp only [hk, hb, htest]
  rfl

theorem performAmendBatch_absent (f : BatchFields) (k : Nat) (b : BatchRecord) (s : State)
    (h : firstBad (batchRanges f) = none) (hk : positionOf s f.batchId = some k) (hb : s.bq[k]? = some b)
    (hm : MayBeAmended s k b f) (hp : ¬ Present s f.product) : performAmendBatch f s = refuse .notFound [1] s := by
  have hcode : codePresent s.ts f.product = false := Bool.eq_false_iff.2 fun e => hp ((codePresent_iff s _).1 e)
  unfold performAmendBatch
  rw [h]
  simp only [hk, hb, (positionTest_iff s k b f).2 hm, hcode]
  rfl

/-- R44: the answer states the position and the predicted head mark of the batch behind. -/
theorem answerAmend_found (batchId : BatchId) (k : Nat) (s : State) (hk : positionOf s batchId = some k) :
    answerAmend batchId s = (s, .done ([BitVec.ofNat 8 k]
      ++ bytesOf 6 (match s.bq[k + 1]? with | some c => c.predicted | none => 0))) := by
  unfold answerAmend
  rw [hk]
  cases hc : s.bq[k + 1]? <;> simp only [hc] <;> rfl

/-- Where the amended batch has left the queue, seven bytes are open (log 16). -/
theorem answerAmend_left (batchId : BatchId) (s : State) (hk : positionOf s batchId = none) :
    ∃ data : List Byte, data.length = 7 ∧ answerAmend batchId s = ({ s with races := s.races + 1 }, .done data) := by
  refine ⟨_, fieldBytes_length 7 (Config.freeAmendAnswer s.races), ?_⟩
  unfold answerAmend
  rw [hk]
  rfl

/-- R37: the first batch moved behind the entry `a`, linked to it. -/
theorem MovedUp.linked_first {old new : List BatchRecord} {i k : Nat} {a c : BatchRecord}
    (h : MovedUp old new i (k + 1)) (hlinked : LinkedFrom new k) (ha : new[k]? = some a) (hc : old[i]? = some c) :
    new[k + 1]? = some { c with predicted := headMark a + a.nominal.setWidth 48 } := by
  obtain ⟨m, hm⟩ := h 0 c hc
  have hpredicted : m = headMark a + a.nominal.setWidth 48 := hlinked k _ _ (Nat.le_refl k) ha hm
  rw [← hpredicted]
  exact hm

/-- A new nominal volume of entry 0 moves entry 1's head mark alone (R37, R44). -/
theorem QueueAmended.arriving {f : BatchFields} {b : BatchRecord} {old new : List BatchRecord}
    (h : QueueAmended f 0 b old new) (hn : b.nominal ≠ f.nominal) (x : BatchRecord) (hx : new[1]? = some x) :
    ∃ c, old[1]? = some c ∧ x = { c with predicted := headMark b + f.nominal.setWidth 48 } := by
  have hbehind := h.behind
  rw [if_neg hn] at hbehind
  obtain ⟨hmoved, hlinked⟩ := hbehind
  obtain ⟨hlt, -⟩ := List.getElem?_eq_some_iff.1 hx
  rw [h.length] at hlt
  have hc : old[1]? = some old[1] := List.getElem?_eq_getElem hlt
  exact ⟨_, hc, Option.some.inj (hx.symm.trans (hmoved.linked_first hlinked h.amended hc))⟩

/-- R45: at position 1 the batch moved up is linked behind entry 0. -/
theorem QueueShortened.arriving {old new : List BatchRecord} (h : QueueShortened 1 old new) (x : BatchRecord)
    (hx : new[1]? = some x) :
    ∃ b c, old[0]? = some b ∧ old[2]? = some c ∧ x = { c with predicted := headMark b + b.nominal.setWidth 48 } := by
  obtain ⟨hlt, -⟩ := List.getElem?_eq_some_iff.1 hx
  have hlen : 2 < old.length := by
    rw [← h.length]
    omega
  have hb : old[0]? = some old[0] := List.getElem?_eq_getElem (by omega)
  have hc : old[2]? = some old[2] := List.getElem?_eq_getElem hlen
  have hlinked := h.moved.linked_first h.linked ((h.ahead 0 Nat.zero_lt_one).trans hb) hc
  exact ⟨_, _, hb, hc, Option.some.inj (hx.symm.trans hlinked)⟩

/-- An AMEND BATCH that opens no window only replaces and links anew. -/
theorem performAmendBatch_only (f : BatchFields) (k : Nat) (b : BatchRecord) (s : State)
    (hf : firstBad (batchRanges f) = none) (hk : s.bq.findIdx? (fun b => b.batchId == f.batchId) = some k)
    (hb : s.bq[k]? = some b) (hm : MayBeAmended s k b f) (hp : Present s f.product)
    (hwait : k = 0 → b.nominal ≠ f.nominal → ∀ c, s.bq[1]? = some c →
      NoWindowAt s { c with predicted := headMark b + f.nominal.setWidth 48 }) :
    ∃ bq, QueueAmended f k b s.bq bq ∧ performAmendBatch f s = ({ s with bq := bq }, .done ([BitVec.ofNat 8 k]
      ++ bytesOf 6 (match bq[k + 1]? with | some c => c.predicted | none => 0))) := by
  obtain ⟨bq, hq, hamended⟩ := performAmendBatch_accepted f k b s hf hk hb hm hp
  have hkept : (if k = 0 ∧ b.nominal ≠ f.nominal then changeReported { s with bq := bq } else { s with bq := bq })
      = { s with bq := bq } := by
    split
    · rename_i hmoved
      obtain ⟨rfl, hn⟩ := hmoved
      refine changeReported_waits _ fun x hx => ?_
      obtain ⟨c, hc, rfl⟩ := hq.arriving hn x hx
      exact hwait rfl hn c hc
    · rfl
  rw [hkept, answerAmend_found f.batchId k { s with bq := bq } (hq.position hk)] at hamended
  exact ⟨bq, hq, hamended⟩

/-- Settles O45: the refusals by their tests, the queue only amended, and the tracker told of a moved head mark. -/
theorem batchIsAmended : Obligations.BatchIsAmended := by
  refine ⟨fun src f off s h hf => ?ranged, fun src f s h hf hnew => ?unqueued,
    fun src f k b s h hf hk hb hm => ?placed, fun src f k b s h hf hk hb hm hp => ?absent,
    fun src f k b s h hf hk hb hm hp hwait => ?amended, fun src f k b s h hf hk hb hm hp => ?told⟩
  case ranged =>
    exact unchanged_answered src 0x21 (performAmendBatch f) _ s h (performAmendBatch_ranged f off _ hf)
  case unqueued =>
    exact unchanged_answered src 0x21 (performAmendBatch f) _ s h (performAmendBatch_unqueued f _ hf hnew)
  case placed =>
    exact unchanged_answered src 0x21 (performAmendBatch f) _ s h (performAmendBatch_placed f k b _ hf hk hb hm)
  case absent =>
    exact unchanged_answered src 0x21 (performAmendBatch f) _ s h (performAmendBatch_absent f k b _ hf hk hb hm hp)
  case amended =>
    obtain ⟨bq, hq, hperform⟩ := performAmendBatch_only f k b (received s) hf hk hb hm hp hwait
    obtain ⟨t, ht, hrest, hanswered⟩ :=
      queue_answered src 0x21 (performAmendBatch f) bq _ s h (performAmendBatch_reaches f _) hperform
    have hbq : t.bq = bq := congrArg State.bq hrest
    rw [← hbq] at hrest hq hanswered
    exact ⟨t, ht, hrest, hq, hanswered⟩
  case told =>
    obtain ⟨bq, hq, hamended⟩ := performAmendBatch_accepted f k b (received s) hf hk hb hm hp
    generalize hu : (if k = 0 ∧ b.nominal ≠ f.nominal then changeReported { received s with bq := bq }
      else { received s with bq := bq }) = u at hamended
    cases hj : positionOf u f.batchId with
    | some j =>
      rw [answerAmend_found f.batchId j u hj] at hamended
      obtain ⟨t, ht, hends⟩ := serve_ends src 0x21 (performAmendBatch f) s _ _ _ h hamended rfl
      refine ⟨bq, u, t, hq, hu.symm, ht, fun i hi => ?_, fun hnone => ?_⟩
      · cases hi.symm.trans hj
        exact hends
      · cases hnone.symm.trans hj
    | none =>
      obtain ⟨data, hdata, hleft⟩ := answerAmend_left f.batchId u hj
      rw [hleft] at hamended
      obtain ⟨t, ht, hends⟩ := serve_ends src 0x21 (performAmendBatch f) s _ _ _ h hamended rfl
      exact ⟨bq, u, t, hq, hu.symm, ht, fun i hi => (by cases hi.symm.trans hj), fun _ => ⟨data, hdata, hends⟩⟩

/-! ## DROP BATCH -/

theorem performDropBatch_zero (s : State) : performDropBatch 0 s = refuse .range [0] s := if_pos rfl

theorem performDropBatch_unqueued (batchId : BatchId) (s : State) (h0 : batchId ≠ 0)
    (hnew : ∀ b ∈ s.bq, b.batchId ≠ batchId) : performDropBatch batchId s = refuse .notFound [0] s := by
  unfold performDropBatch
  rw [if_neg h0, positionOf_absent s _ hnew]

theorem performDropBatch_running (batchId : BatchId) (s : State) (h0 : batchId ≠ 0)
    (hk : positionOf s batchId = some 0) : performDropBatch batchId s = refuse .state [0] s := by
  unfold performDropBatch
  rw [if_neg h0, hk]
  rfl

theorem performDropBatch_arriving (batchId : BatchId) (s : State) (h0 : batchId ≠ 0)
    (hk : positionOf s batchId = some 1) (hw : s.it.state ≠ .quiet) :
    performDropBatch batchId s = refuse .state [1] s := by
  unfold performDropBatch
  rw [if_neg h0, hk]
  exact (if_neg Nat.one_ne_zero).trans (if_pos ⟨rfl, hw⟩)

/-- A DROP BATCH that opens no window only closes the queue up. -/
theorem performDropBatch_only (batchId : BatchId) (k : Nat) (s : State) (h0 : batchId ≠ 0)
    (hk : s.bq.findIdx? (fun b => b.batchId == batchId) = some k) (h1 : 1 ≤ k) (hq : k = 1 → s.it.state = .quiet)
    (hwait : k = 1 → ∀ b c, s.bq[0]? = some b → s.bq[2]? = some c →
      NoWindowAt s { c with predicted := headMark b + b.nominal.setWidth 48 }) :
    ∃ bq, QueueShortened k s.bq bq ∧ performDropBatch batchId s = ({ s with bq := bq }, .done (oneByte k)) := by
  obtain ⟨bq, hshort, hdropped⟩ := performDropBatch_accepted batchId k s h0 hk h1 hq
  have hkept : (if k = 1 then changeReported { s with bq := bq } else { s with bq := bq }) = { s with bq := bq } := by
    split
    · rename_i hone
      subst hone
      refine changeReported_waits _ fun x hx => ?_
      obtain ⟨b, c, hb, hc, rfl⟩ := hshort.arriving x hx
      exact hwait rfl b c hb hc
    · rfl
  rw [hkept] at hdropped
  exact ⟨bq, hshort, hdropped⟩

/-- Settles O46: the four refusals, the queue only closed up, and the tracker told of a batch moved up to position 1. -/
theorem batchIsDropped : Obligations.BatchIsDropped := by
  refine ⟨fun src s h => ?zero, fun src batchId s h h0 hnew => ?unqueued, fun src batchId s h h0 hk => ?running,
    fun src batchId s h h0 hk hw => ?arriving, fun src batchId k s h h0 hk h1 hq hwait => ?dropped,
    fun src batchId k s h h0 hk h1 hq => ?told⟩
  case zero =>
    exact unchanged_answered src 0x22 (performDropBatch 0) _ s h (performDropBatch_zero _)
  case unqueued =>
    exact unchanged_answered src 0x22 (performDropBatch batchId) _ s h (performDropBatch_unqueued batchId _ h0 hnew)
  case running =>
    exact unchanged_answered src 0x22 (performDropBatch batchId) _ s h (performDropBatch_running batchId _ h0 hk)
  case arriving =>
    exact unchanged_answered src 0x22 (performDropBatch batchId) _ s h (performDropBatch_arriving batchId _ h0 hk hw)
  case dropped =>
    obtain ⟨bq, hshort, hperform⟩ := performDropBatch_only batchId k (received s) h0 hk h1 hq hwait
    obtain ⟨t, ht, hrest, hanswered⟩ :=
      queue_answered src 0x22 (performDropBatch batchId) bq _ s h (performDropBatch_reaches batchId _) hperform
    have hbq : t.bq = bq := congrArg State.bq hrest
    rw [← hbq] at hrest hshort
    exact ⟨t, ht, hrest, hshort, hanswered⟩
  case told =>
    obtain ⟨bq, hshort, hdropped⟩ := performDropBatch_accepted batchId k (received s) h0 hk h1 hq
    obtain ⟨t, ht, hends⟩ := serve_ends src 0x22 (performDropBatch batchId) s _ _ _ h hdropped rfl
    exact ⟨bq, _, t, hshort, rfl, ht, hends⟩

end Sys2Proof.Machine
end

section
/-! PROOFS. Density samples: the roundings and the clamp of a correction, the class of a frame, and the ring it is stored
in (R53 to R57). -/

namespace Sys2Proof.Machine

/-! ## Roundings, clamps and bytes -/

theorem roundedQuotient_eq (num den : Int) : roundedQuotient num den = roundHalfAway num den := by
  unfold roundedQuotient roundHalfAway
  rw [← Int.sign_mul]
  rcases lt_trichotomy (num * den) 0 with hneg | hzero | hpos
  · rw [if_neg (not_le.2 hneg), Int.sign_eq_neg_one_of_neg hneg, neg_one_mul]
  · have hquotient : (2 * num.natAbs + den.natAbs) / (2 * den.natAbs) = 0 := by
      rcases Int.mul_eq_zero.1 hzero with rfl | rfl
      · rcases Nat.eq_zero_or_pos den.natAbs with hden | hden
        · rw [hden]; rfl
        · exact Nat.div_eq_of_lt (by simp; omega)
      · exact Nat.div_zero _
    rw [if_pos hzero.ge, hzero, hquotient]
    rfl
  · rw [if_pos hpos.le, Int.sign_eq_one_of_pos hpos, one_mul]

theorem clampInt_eq (lo hi x : Int) (h : lo ≤ hi) : clampInt lo hi x = if x < lo then lo else if hi < x then hi else x := by
  unfold clampInt
  omega

theorem toNat_append_byte {n : Nat} (x : BitVec n) (b : Byte) : (x ++ b).toNat = x.toNat * 256 + b.toNat := by
  rw [BitVec.toNat_append, ← Nat.shiftLeft_add_eq_or_of_lt b.isLt, Nat.shiftLeft_eq]

theorem beNat_append (bs : List Byte) (b : Byte) : beNat (bs ++ [b]) = beNat bs * 256 + b.toNat := by
  unfold beNat
  rw [List.foldl_append]
  rfl

theorem beNat_two (b1 b0 : Byte) : beNat [b1, b0] = (b1 ++ b0).toNat := by
  rw [toNat_append_byte]
  exact (beNat_append [b1] b0).trans (by simp [beNat])

theorem beNat_four (b3 b2 b1 b0 : Byte) : beNat [b3, b2, b1, b0] = (b3 ++ b2 ++ b1 ++ b0).toNat := by
  rw [toNat_append_byte, toNat_append_byte, ← beNat_two b3 b2, ← beNat_append, ← beNat_append]
  rfl

/-! ## The correction of a sample -/

/-- R54 and R56. -/
theorem correction_eq (beta : Nat) (temperature : Int) :
    correction beta (clampInt (-4000) 8000 temperature) = correctionAt beta temperature := by
  unfold correction correctionAt
  rw [roundedQuotient_eq, clampInt_eq _ _ _ (by decide)]

/-- R55, in a state whose record is active exactly in a window (R70). -/
theorem sampleBeta_eq (s : State) (hr : s.it.record.isSome = (s.it.state != .quiet)) : sampleBeta s = betaInForce s := by
  have hentry : ∀ b : Option BatchRecord,
      (match b.map (·.product) with
        | some code => (s.product code).beta.toNat
        | none => 0) = match b with
        | some b => (s.product b.product).beta.toNat
        | none => 0 := fun b => by cases b <;> rfl
  unfold sampleBeta sampleProduct betaInForce
  cases hrec : s.it.record with
  | none =>
    have hquiet : s.it.state = .quiet := by
      rw [hrec] at hr
      simpa using hr.symm
    rw [hquiet]
    exact hentry _
  | some r =>
    have hwindow : s.it.state ≠ .quiet := by
      rw [hrec] at hr
      simpa using hr.symm
    have hpick : (if 500 ≤ r.lastFraction then (s.bq[1]?).map (·.product) else s.bq.head?.map (·.product))
        = (if r.lastFraction < 500 then s.bq.head? else s.bq[1]?).map (·.product) := by
      rw [apply_ite (Option.map _), ← ite_not]
      exact if_congr Int.not_le rfl rfl
    simp only [hpick]
    cases hstate : s.it.state with
    | quiet => exact absurd hstate hwindow
    | _ => exact hentry _

/-- R57, in a ring of at most 8. -/
theorem storeSample_eq (x : Sample) (ring : List Sample) (h : ring.length ≤ 8) :
    storeSample x ring = (if ring.length = 8 then ring.tail else ring) ++ [x] :=
  congrArg (· ++ [x]) (if_congr ⟨fun hfull => Nat.le_antisymm h hfull, fun hfull => hfull.ge⟩ rfl rfl)

/-! ## The frame of a sample -/

/-- DENSITY_SAMPLE outside a reset: the frame is forwarded, the DE observes it, and the event ends. -/
theorem exec_densitySample (dst src : Byte) (payload : List Byte) (s : State) (hr : s.inReset = false)
    (hl : payload.length ≤ 200) : exec (.densitySample dst src payload) s
      = .next (finish (observeSample src payload (forwarded ⟨dst, src, 0x21, payload⟩ s))) := by
  show Host.Outcome.next (unlessInReset (receiveFrame .field ⟨dst, src, kindDensitySample, payload⟩) s) = _
  unfold unlessInReset
  rw [hr, receiveFrame_field _ s hl]
  rfl

/-- R53: what makes a sample accepted. -/
theorem sampleClass_accepted_iff (s : State) (src : Byte) (payload : List Byte) :
    sampleClass s src payload = .accepted ↔ src = s.ts.active.segment.densityAddress ∧ payload.length = 7
      ∧ payload[6]? = some 0 ∧ 50000 ≤ sampleDensity payload ∧ sampleDensity payload ≤ 110000 := by
  have hwithin : within 50000 110000 (sampleDensity payload) = true
      ↔ 50000 ≤ sampleDensity payload ∧ sampleDensity payload ≤ 110000 := by
    unfold within
    rw [Bool.and_eq_true, decide_eq_true_iff, decide_eq_true_iff]
  unfold sampleClass
  split
  · rename_i hforeign
    refine ⟨fun h => SampleClass.noConfusion h, fun ⟨hsrc, hlen, _⟩ => ?_⟩
    exact (hforeign.elim (absurd hsrc) (absurd hlen))
  · rename_i hknown
    obtain ⟨hsrc, hlen⟩ := not_or.1 hknown
    split
    · rename_i hgood
      exact ⟨fun _ => ⟨not_not.1 hsrc, not_not.1 hlen, hgood.1, hwithin.1 hgood.2⟩, fun _ => rfl⟩
    · rename_i hbad
      exact ⟨fun h => SampleClass.noConfusion h, fun ⟨_, _, hstatus, hdensity⟩ => absurd ⟨hstatus, hwithin.2 hdensity⟩ hbad⟩

theorem observeSample_passes (src : Byte) (payload : List Byte) (s : State) (h : sampleClass s src payload ≠ .accepted) :
    observeSample src payload s = s := by
  unfold observeSample
  cases hc : sampleClass s src payload with
  | accepted => exact absurd hc h
  | _ => rfl

/-- A sample that is not accepted is forwarded and changes nothing (R53). -/
theorem densitySample_passes (dst src : Byte) (payload : List Byte) (s : State) (hs : Running s)
    (hl : payload.length ≤ 200) (h : sampleClass s src payload ≠ .accepted) :
    ∃ t, exec (.densitySample dst src payload) s = .next t ∧ t = { s with liu := t.liu }
      ∧ ForwardedFromField ⟨dst, src, 0x21, payload⟩ s t := by
  refine ⟨_, exec_densitySample dst src payload s hs.released hl, ?_⟩
  rw [observeSample_passes src payload (forwarded ⟨dst, src, 0x21, payload⟩ s) h]
  exact forwarded_finish _ s _ rfl hs.settled

/-- R54 to R57: an accepted sample is corrected and stored. -/
theorem observeSample_accepted (d3 d2 d1 d0 t1 t0 : Byte) (s : State) (hring : s.de.ring.length ≤ 8)
    (hr : s.it.record.isSome = (s.it.state != .quiet)) (hlo : 50000 ≤ (d3 ++ d2 ++ d1 ++ d0).toNat)
    (hhi : (d3 ++ d2 ++ d1 ++ d0).toNat ≤ 110000) :
    observeSample s.ts.active.segment.densityAddress [d3, d2, d1, d0, t1, t0, 0] s = { s with
      de := { s.de with ring := (if s.de.ring.length = 8 then s.de.ring.tail else s.de.ring)
        ++ [⟨(d3 ++ d2 ++ d1 ++ d0).toNat + correctionAt (betaInForce s) (t1 ++ t0).toInt, true⟩] } } := by
  have hdensity : sampleDensity [d3, d2, d1, d0, t1, t0, 0] = (d3 ++ d2 ++ d1 ++ d0).toNat := beNat_four d3 d2 d1 d0
  have htemperature : (paramAt [d3, d2, d1, d0, t1, t0, 0] 4 2 : BitVec 16) = t1 ++ t0 :=
    (congrArg (BitVec.ofNat 16) (beNat_two t1 t0)).trans (BitVec.ofNat_toNat 16 (t1 ++ t0))
  have hclass : sampleClass s s.ts.active.segment.densityAddress [d3, d2, d1, d0, t1, t0, 0] = .accepted := by
    rw [sampleClass_accepted_iff, hdensity]
    exact ⟨rfl, rfl, rfl, hlo, hhi⟩
  unfold observeSample
  rw [hclass]
  simp only [takeSample]
  rw [hdensity, htemperature, correction_eq, sampleBeta_eq s hr, storeSample_eq _ _ hring]
  rfl

/-- Settles O50. -/
theorem sampleIsCorrectedAndStored : Obligations.SampleIsCorrectedAndStored := by
  refine ⟨fun dst d3 d2 d1 d0 t1 t0 s hs hring hr hlo hhi => ?accepted, fun dst src payload s hs hl hbad => ?unusable,
    fun dst d3 d2 d1 d0 t1 t0 status s hs hrange => ?beyond⟩
  case accepted =>
    refine ⟨_, exec_densitySample dst _ _ s hs.released (by simp), ?_⟩
    generalize (⟨dst, s.ts.active.segment.densityAddress, 0x21, [d3, d2, d1, d0, t1, t0, 0]⟩ : Frame) = f
    have hstored : observeSample s.ts.active.segment.densityAddress [d3, d2, d1, d0, t1, t0, 0] (forwarded f s) = _ :=
      observeSample_accepted d3 d2 d1 d0 t1 t0 (forwarded f s) hring hr hlo hhi
    rw [hstored]
    exact forwarded_finish f s _ rfl hs.settled
  case unusable =>
    refine densitySample_passes dst src payload s hs hl fun hclass => ?_
    obtain ⟨hsrc, hlen, hstatus, -⟩ := (sampleClass_accepted_iff s src payload).1 hclass
    exact hbad.elim (absurd hsrc) (Or.rec (absurd hlen) (absurd hstatus))
  case beyond =>
    refine densitySample_passes dst _ _ s hs (by simp) fun hclass => ?_
    obtain ⟨-, -, -, hlo, hhi⟩ := (sampleClass_accepted_iff s _ _).1 hclass
    rw [show sampleDensity [d3, d2, d1, d0, t1, t0, status] = _ from beNat_four d3 d2 d1 d0] at hlo hhi
    omega

end Sys2Proof.Machine
end

section
/-! PROOFS. Evaluations: the result of one, with a new sample and without (R58 to R64), and the offset it moves (R65 to
R67). -/

namespace Sys2Proof.Machine

/-! ## The reading (R60, R61) -/

theorem newestDensities_eq (n : Nat) (ring : List Sample) : newestDensities n ring = (newestOf n ring).reverse := by
  unfold newestDensities newestOf
  rw [List.take_reverse, List.map_reverse, List.reverse_reverse]

theorem newestOf_length (n : Nat) (ring : List Sample) (h : n ≤ ring.length) : (newestOf n ring).length = n := by
  unfold newestOf
  simpa using h

theorem readingOf_eq (s : State) (n : Nat) (mean : Int)
    (hn : n = min s.ts.active.segment.averagingDepth.toNat s.de.ring.length)
    (hmean : mean = ((newestOf n s.de.ring).sum + (n / 2 : Nat)) / (n : Int)) :
    readingOf s = ⟨mean, mean - s.de.offset, n⟩ := by
  have hlength : (newestDensities n s.de.ring).length = n := by
    rw [newestDensities_eq, List.length_reverse, newestOf_length n s.de.ring (hn ▸ Nat.min_le_right _ _)]
  have hsum : (newestDensities n s.de.ring).sum = (newestOf n s.de.ring).sum := by
    rw [newestDensities_eq, List.sum_reverse]
  have hmeanOf : meanOf (newestDensities n s.de.ring) = mean := by
    unfold meanOf
    rw [hlength, hsum, hmean]
  unfold readingOf State.segment
  rw [← hn]
  simp only [hmeanOf, hlength]

/-! ## The figure (R63, R64) -/

theorem fractionOf_eq (p : PairReferences) (d : Int) :
    fractionOf p d = max 0 (min 1000 (roundedQuotient (1000 * (d - p.running)) p.contrast)) := by
  rw [roundedQuotient_eq]
  rfl

theorem figureOf_eq (s : State) (d : Int) : figureOf s d = figureAt s d := by
  unfold figureOf figureAt figureDue
  cases hstate : s.it.state with
  | quiet =>
    cases hbq : s.bq with
    | nil => rfl
    | cons b rest => exact congrArg (fun x => Figure.deviation (d - x)) (referenceDensity_eq s b).symm
  | fallback => rfl
  | _ =>
    cases hpair : s.de.pair with
    | none => rfl
    | some p => exact congrArg Figure.fraction (fractionOf_eq p d)

/-! ## The result (R58, R59) -/

theorem evalResult_new (s : State) (mark : Mark) (h : ∃ x ∈ s.de.ring, x.isNew = true) :
    evalResult s mark = ⟨mark, false, some (readingOf s), figureAt s (readingOf s).d⟩ := by
  unfold evalResult
  rw [if_pos (List.any_eq_true.2 h)]
  exact congrArg (EvalResult.mk mark false (some (readingOf s))) (figureOf_eq s _)

theorem evalResult_blind (s : State) (mark : Mark) (h : ∀ x ∈ s.de.ring, x.isNew = false) :
    evalResult s mark = blindResult s mark :=
  if_neg fun hany => by
    obtain ⟨x, hx, hnew⟩ := List.any_eq_true.1 hany
    exact absurd ((h x hx).symm.trans hnew) (by decide)

/-- R58 and R59: an evaluation is blind exactly when no sample of the ring is new. -/
theorem evalResult_blind_iff (s : State) (mark : Mark) :
    (evalResult s mark).blind = true ↔ ∀ x ∈ s.de.ring, x.isNew = false := by
  constructor
  · intro hblind x hx
    by_contra hnew
    rw [evalResult_new s mark ⟨x, hx, Bool.not_eq_false _ ▸ hnew⟩] at hblind
    cases hblind
  · intro h
    rw [evalResult_blind s mark h]
    unfold blindResult
    split <;> rfl

/-! ## What a blind evaluation carries forward (R59) -/

theorem figureDue_fraction_iff (s : State) :
    figureDue s = .fraction ↔ s.it.state = .watch ∨ s.it.state = .mixing ∨ s.it.state = .overdue := by
  unfold figureDue
  cases s.it.state with
  | quiet => cases s.bq <;> simp
  | _ => simp

theorem figureDue_deviation_iff (s : State) : figureDue s = .deviation ↔ s.it.state = .quiet ∧ s.bq ≠ [] := by
  unfold figureDue
  cases s.it.state with
  | quiet => cases s.bq <;> simp
  | _ => simp

/-- R59: the last figure when it is of the kind due (log 37). -/
theorem carriedFigure_eq (s : State) (last : Figure) : carriedFigure (figureDue s) last =
    match last with
    | .fraction f =>
      if s.it.state = .watch ∨ s.it.state = .mixing ∨ s.it.state = .overdue then .fraction f else .absent
    | .deviation x => if s.it.state = .quiet ∧ s.bq ≠ [] then .deviation x else .absent
    | .absent => .absent := by
  cases last with
  | absent => cases figureDue s <;> rfl
  | deviation x =>
    refine Eq.trans ?_ (if_congr (figureDue_deviation_iff s) rfl rfl)
    cases figureDue s <;> rfl
  | fraction f =>
    refine Eq.trans ?_ (if_congr (figureDue_fraction_iff s) rfl rfl)
    cases figureDue s <;> rfl

theorem carriedFigure_or (due : FigureDue) (last : Figure) :
    carriedFigure due last = last ∨ carriedFigure due last = .absent := by
  unfold carriedFigure
  split
  · exact Or.inl rfl
  · exact Or.inl rfl
  · exact Or.inr rfl

theorem blindResult_first (s : State) (mark : Mark) (h : s.de.last = none) :
    blindResult s mark = ⟨mark, true, none, .absent⟩ := by
  unfold blindResult
  rw [h]

theorem blindResult_carries (s : State) (mark : Mark) (l : EvalResult) (h : s.de.last = some l) :
    blindResult s mark = ⟨mark, true, l.reading, carriedFigure (figureDue s) l.figure⟩ := by
  unfold blindResult
  rw [h]

/-! ## The offset (R65 to R67) -/

theorem settled_iff (s : State) : settled s = true ↔ ∃ o, s.de.settleOrigin = some o
    ∧ reached s.vc.lineCount (o + s.ts.active.segment.settleVolume.setWidth 48) = true := by
  unfold settled
  rw [Option.any_eq_true]
  rfl

theorem offsetMayMove_iff (s : State) (b : BatchRecord) (x : Int) (hb : s.bq.head? = some b) :
    offsetMayMove s x = true ↔ OffsetMoves s b x := by
  have hlimit : excursionLimit s = (s.product b.product).excursionLimit.toNat := by
    unfold excursionLimit
    rw [hb]
  unfold offsetMayMove OffsetMoves State.segment
  rw [hlimit, Bool.and_eq_true, Bool.and_eq_true, Bool.and_eq_true, Bool.and_eq_true, beq_iff_eq, Bool.not_eq_true',
    bne_iff_ne, decide_eq_true_iff, settled_iff]
  simp only [and_assoc]

theorem updatedOffset_eq (s : State) (raw : Int) : updatedOffset s raw =
    max (-(s.ts.active.segment.offsetLimit.toNat : Int)) (min s.ts.active.segment.offsetLimit.toNat
      (s.de.offset + roundedQuotient (raw - s.de.offset) (2 ^ s.ts.active.segment.baselineRate.toNat : Nat))) := by
  rw [roundedQuotient_eq]
  rfl

theorem figureAt_deviation (s : State) (d x : Int) (h : figureAt s d = .deviation x) :
    ∃ b, s.bq.head? = some b ∧ x = d - referenceDensity s b := by
  unfold figureAt at h
  cases hstate : s.it.state with
  | quiet =>
    rw [hstate] at h
    cases hb : s.bq.head? with
    | none => rw [hb] at h; cases h
    | some b => rw [hb] at h; exact ⟨b, rfl, (Figure.deviation.inj h).symm⟩
  | fallback => rw [hstate] at h; cases h
  | _ => rw [hstate] at h; cases hpair : s.de.pair <;> rw [hpair] at h <;> cases h

/-- R64: the deviation of an evaluation is its offset-corrected density less the reference of entry 0. -/
theorem evalResult_deviation (s : State) (mark : Mark) (x : Int) (hblind : (evalResult s mark).blind = false)
    (hx : (evalResult s mark).figure = .deviation x) :
    ∃ b, s.bq.head? = some b ∧ (evalResult s mark).reading = some (readingOf s)
      ∧ x = (readingOf s).d - referenceDensity s b := by
  have hnew : ∃ y ∈ s.de.ring, y.isNew = true := by
    by_contra hnone
    refine absurd ((evalResult_blind_iff s mark).2 fun y hy => ?_) (ne_true_of_eq_false hblind)
    exact eq_false_of_ne_true fun hy' => hnone ⟨y, hy, hy'⟩
  rw [evalResult_new s mark hnew] at hx ⊢
  obtain ⟨b, hb, hdeviation⟩ := figureAt_deviation s _ x hx
  exact ⟨b, hb, rfl, hdeviation⟩

/-- R66 and R67: the offset updated. -/
theorem offsetAfter_moves (s : State) (mark : Mark) (b : BatchRecord) (mean d x : Int) (k : Nat)
    (hblind : (evalResult s mark).blind = false) (hr : (evalResult s mark).reading = some ⟨mean, d, k⟩)
    (hx : (evalResult s mark).figure = .deviation x) (hb : s.bq.head? = some b) (hmoves : OffsetMoves s b x) :
    offsetAfter s (evalResult s mark) = max (-(s.ts.active.segment.offsetLimit.toNat : Int))
      (min s.ts.active.segment.offsetLimit.toNat
        (s.de.offset + roundedQuotient (mean - referenceDensity s b - s.de.offset)
          (2 ^ s.ts.active.segment.baselineRate.toNat : Nat))) := by
  have hraw : mean - (d - x) = mean - referenceDensity s b := by
    obtain ⟨b', hb', hreading, hdeviation⟩ := evalResult_deviation s mark x hblind hx
    cases hb.symm.trans hb'
    have hd : (readingOf s).d = d := congrArg Reading.d (Option.some.inj (hreading.symm.trans hr))
    rw [hdeviation, hd, Int.sub_sub_self]
  unfold offsetAfter
  rw [hblind, hr, hx]
  refine (if_pos ((offsetMayMove_iff s b x hb).2 hmoves)).trans ?_
  rw [updatedOffset_eq, hraw]

/-- R59 and R66: the offset left where it stands. -/
theorem offsetAfter_stands (s : State) (mark : Mark)
    (h : (evalResult s mark).blind = true ∨ (∀ x, (evalResult s mark).figure ≠ .deviation x)
      ∨ ∀ b x, s.bq.head? = some b → (evalResult s mark).figure = .deviation x → ¬ OffsetMoves s b x) :
    offsetAfter s (evalResult s mark) = s.de.offset := by
  unfold offsetAfter
  split
  · rename_i r hblind hr
    unfold nextOffset
    split
    · rename_i x hx
      obtain ⟨b, hb, -⟩ := evalResult_deviation s mark x hblind hx
      refine if_neg fun hmay => ?_
      rcases h with h | h | h
      · exact ne_true_of_eq_false hblind h
      · exact h x hx
      · exact h b x hb hx ((offsetMayMove_iff s b x hb).1 hmay)
    · rfl
  · rfl

end Sys2Proof.Machine
end

section
/-! PROOFS. What the tracker makes of an evaluation's result in each of its states (R78, R82, R86, R91, R92), and the
statement of the evaluation whole. -/

namespace Sys2Proof.Machine

/-! ## Excursions (R91, R92) -/

/-- R91: the excursion confirmed. -/
theorem enterExcursion_eq (b : BatchRecord) (first mark : Mark) (x : Int) (s a : State) (hb : s.bq.head? = some b)
    (ha : a = raised .offSpec ⟨b.batchId, mark, some 8, 0, x⟩
      (excursionOffered ⟨.forced, b.batchId, some (destinationOutlet s b), 8, .fromDecision first, false, none⟩
        { s with it := { s.it with excursion := true, excRun := ⟨0, 0⟩ } })) :
    enterExcursion b first mark x s
      = { a with tu := accountReported b.batchId (fun c => { c with excursion := true }) a.tu } := by
  unfold enterExcursion reportExcursion raiseOffSpec
  simp only [offerForced_eq]
  rw [← destinationOutlet_eq, accountReported_eq, ha]
  have hid : State.entry0Id (excursionOffered
      ⟨.forced, b.batchId, some (destinationOutlet s b), outletT, .fromDecision first, false, none⟩
      (s.setIt { s.it with excursion := true, excRun := zeroRun })) = b.batchId := by
    unfold State.entry0Id
    rw [(excursionOffered_keeps _ _).1, State.setIt_bq, hb]
    rfl
  rw [hid]
  rfl

/-- R92: the return confirmed; a due apply is performed after it (log 17). -/
theorem leaveExcursion_eq (b : BatchRecord) (first mark : Mark) (x : Int) (s a : State) (hb : s.bq.head? = some b)
    (ha : a = raised .offSpec ⟨b.batchId, mark, some (destinationOutlet s b), 1, x⟩
      (excursionOffered ⟨.forced, b.batchId, some 8, destinationOutlet s b, .fromDecision first, false, none⟩
        { s with it := { s.it with excRun := ⟨0, 0⟩ } })) :
    leaveExcursion b first mark x s = applyChecked false { a with it := { a.it with excursion := false } } := by
  unfold leaveExcursion raiseOffSpec
  simp only [offerForced_eq]
  rw [← destinationOutlet_eq, applyIfDue_eq, ha]
  have hid : State.entry0Id (excursionOffered
      ⟨.forced, b.batchId, some outletT, destinationOutlet s b, .fromDecision first, false, none⟩
      (s.setIt { s.it with excRun := zeroRun })) = b.batchId := by
    unfold State.entry0Id
    rw [(excursionOffered_keeps _ _).1, State.setIt_bq, hb]
    rfl
  rw [hid]
  rfl

/-- R91 and R92: a deviation moves the excursion run, and at K the excursion begins or ends. -/
theorem quietEvaluation_eq (b : BatchRecord) (mark : Mark) (x : Int) (run : Run) (s : State)
    (hb : s.bq.head? = some b) (hrun : run = runAfter s.it.excRun
      (decide ((s.product b.product).excursionLimit.toNat < x.natAbs) != s.it.excursion) mark) :
    quietEvaluation mark x s =
      if s.ts.active.segment.confirmationCount.toNat ≤ run.count then
        if s.it.excursion = true then leaveExcursion b run.first mark x s else enterExcursion b run.first mark x s
      else { s with it := { s.it with excRun := run } } := by
  have hlimit : excursionLimit s = (s.product b.product).excursionLimit.toNat := by
    unfold excursionLimit
    rw [hb]
  unfold quietEvaluation
  rw [hb]
  simp only [hlimit]
  rw [hrun]
  rfl

/-! ## A result by the tracker's state (R78) -/

theorem takeResult_deviation (res : EvalResult) (x : Int) (s : State) (hq : s.it.state = .quiet)
    (hblind : res.blind = false) (hx : res.figure = .deviation x) : takeResult res s = quietEvaluation res.mark x s := by
  unfold takeResult
  rw [hq, hblind, hx]

theorem takeResult_quiet (res : EvalResult) (s : State) (hq : s.it.state = .quiet)
    (h : res.blind = true ∨ ∀ x, res.figure ≠ .deviation x) : takeResult res s = s := by
  unfold takeResult
  rw [hq]
  rcases h with hblind | hfigure
  · rw [hblind]
  · cases hx : res.figure with
    | deviation x => exact absurd hx (hfigure x)
    | _ => cases res.blind <;> rfl

theorem takeResult_fallback (res : EvalResult) (s : State) (hs : s.it.state = .fallback) : takeResult res s =
    recordChanged (fun r => { r with blindCount := if res.blind = true then r.blindCount + 1 else 0 }) s := by
  unfold takeResult
  rw [hs]
  rfl

/-- The states of a window in which the density is read. -/
abbrev ReadsDensity (s : State) : Prop :=
  s.it.state = .watch ∨ s.it.state = .mixing ∨ s.it.state = .overdue

theorem takeResult_blind (res : EvalResult) (s : State) (hs : ReadsDensity s) (hblind : res.blind = true) :
    takeResult res s = blindEvaluation res.mark s := by
  unfold takeResult
  rcases hs with hs | hs | hs <;> rw [hs, hblind]

theorem takeResult_fraction (res : EvalResult) (f : Int) (s : State) (hs : ReadsDensity s) (hblind : res.blind = false)
    (hf : res.figure = .fraction f) : takeResult res s = densityEvaluation res.mark f s := by
  unfold takeResult
  rcases hs with hs | hs | hs <;> rw [hs, hblind, hf]

theorem mapRecord_record (g : InterfaceRecord → InterfaceRecord) (r : InterfaceRecord) (s : State)
    (hr : s.it.record = some r) : (s.mapRecord g).it.record = some (g r) := congrArg (Option.map g) hr

/-- R86: the density lost, in a state that differs from `s` in its record alone. -/
theorem loseDensity_eq (mark : Mark) (r : InterfaceRecord) (s : State) (hr : s.it.record = some r) :
    loseDensity r mark s = testMarks (raised .densityLost ⟨r.arrivingId, mark, none, 0, r.blindCount⟩
      { s with it := { s.it with
        state := .fallback, record := some { r with cutMode := .densityLost }
        headRun := ⟨0, 0⟩, tailRun := ⟨0, 0⟩, endRun := 0 } }) := by
  unfold loseDensity
  rw [hr]
  rfl

/-- R86: a blind result raises the blind count, and at the limit the density is lost. -/
theorem blindEvaluation_eq (mark : Mark) (r : InterfaceRecord) (s : State) (hr : s.it.record = some r) :
    blindEvaluation mark s =
      if r.blindCount + 1 < s.ts.active.segment.blindLimit.toNat then
        recordChanged (fun r => { r with blindCount := r.blindCount + 1 }) s
      else testMarks (raised .densityLost ⟨r.arrivingId, mark, none, 0, (r.blindCount + 1 : Nat)⟩
        { s with it := { s.it with
          state := .fallback, record := some { r with blindCount := r.blindCount + 1, cutMode := .densityLost }
          headRun := ⟨0, 0⟩, tailRun := ⟨0, 0⟩, endRun := 0 } }) := by
  have hcounted := mapRecord_record (fun r => { r with blindCount := r.blindCount + 1 }) r s hr
  unfold blindEvaluation
  simp only [hcounted]
  rw [loseDensity_eq mark _ _ hcounted, ← ite_not]
  exact if_congr Nat.not_le rfl rfl

/-- Step 4 of R78: a start detected. -/
theorem detectStart_eq (mark : Mark) (f : Int) (r : InterfaceRecord) (s : State) (hr : s.it.record = some r) :
    detectStart r mark f s = raised .interfaceStart ⟨r.arrivingId, mark, none, 0, f⟩
      { s with it := { s.it with state := .mixing, record := some { r with startMark := some mark } } } := by
  unfold detectStart State.mapRecord
  rw [hr]
  rfl

/-- Steps 3 to 5 of R78: the fraction recorded, and what it brings about. -/
theorem densityEvaluation_eq (mark : Mark) (f : Int) (r : InterfaceRecord) (s a : State) (hr : s.it.record = some r)
    (ha : a = recordChanged (fun r => { r with blindCount := 0, lastFraction := f }) s) :
    densityEvaluation mark f s =
      if s.it.state = .mixing then mixingEvaluation mark f a
      else if f < s.ts.active.segment.startThreshold.toNat then a
      else mixingEvaluation mark f (raised .interfaceStart ⟨r.arrivingId, mark, none, 0, f⟩
        { a with it := { a.it with
          state := .mixing
          record := some { r with blindCount := 0, lastFraction := f, startMark := some mark } } }) := by
  have hrecord : a.it.record = some { r with blindCount := 0, lastFraction := f } :=
    ha ▸ mapRecord_record (fun r => { r with blindCount := 0, lastFraction := f }) r s hr
  have hmapped : s.mapRecord (fun r => { r with blindCount := 0, lastFraction := f }) = a := ha.symm
  have hstate : a.it.state = s.it.state := ha ▸ rfl
  have hsegment : a.segment = s.ts.active.segment := ha ▸ rfl
  unfold densityEvaluation
  simp only [hmapped, hrecord]
  rw [detectStart_eq mark f _ a hrecord, hstate, hsegment, ← ite_not (f < _)]
  exact if_congr Iff.rfl rfl (if_congr Int.not_lt.symm rfl rfl)

/-! ## The evaluation event (R58, R78, R82) -/

theorem takePostponed_eq (s : State) :
    takePostponed s = if s.it.held = [] ∧ s.it.endDue ≠ none then testMarks s else s := by
  refine if_congr ?_ rfl rfl
  by_cases hheld : s.it.held = []
  · rw [postponedEnd_free s hheld, Option.isSome_iff_ne_none]
    exact ⟨fun h => ⟨hheld, h⟩, fun h => h.2⟩
  · rw [postponedEnd_held s hheld]
    exact ⟨fun h => Bool.noConfusion h, fun h => absurd h.1 hheld⟩

theorem offerHeld_none (s : State) (h : s.it.held = []) : offerHeld [] s = s := by
  show { s with it := { s.it with held := [] } } = s
  rw [← h]

/-- Steps 4 to 6 of R58, R78 and R82: the result stored, and taken by the tracker. -/
theorem evaluate_eq (s : State) : evaluate s = takePostponed (takeResult (evalResult s s.vc.lineCount)
    (offerHeld s.it.held (noteEvaluation s (evalResult s s.vc.lineCount)))) := rfl

/-- An evaluation with nothing held whose result leaves no end postponed. -/
theorem evaluate_free (s t : State) (hheld : s.it.held = [])
    (ht : takeResult (evalResult s s.vc.lineCount) (noteEvaluation s (evalResult s s.vc.lineCount)) = t)
    (hdue : t.it.endDue = none) : evaluate s = t := by
  rw [evaluate_eq, hheld, offerHeld_none (noteEvaluation s _) hheld, ht, takePostponed_eq]
  exact if_neg fun h => h.2 hdue

/-- The new marks of a ring without a new sample are clear already. -/
theorem clearNew_old (ring : List Sample) (h : ∀ x ∈ ring, x.isNew = false) :
    ring.map (fun x => { x with isNew := false }) = ring := by
  refine (List.map_congr_left fun x hx => ?_).trans (List.map_id ring)
  rw [← h x hx]
  rfl

/-- R59 and R78: a blind evaluation in WATCH below the blind limit. -/
theorem evaluate_watch_blind (s : State) (r : InterfaceRecord) (hs : s.it.state = .watch) (hr : s.it.record = some r)
    (hheld : s.it.held = []) (hdue : s.it.endDue = none) (hold : ∀ x ∈ s.de.ring, x.isNew = false)
    (hlimit : r.blindCount + 1 < s.ts.active.segment.blindLimit.toNat) :
    evaluate s = { s with
      de := { s.de with last := some (evalResult s s.vc.lineCount) }
      it := { s.it with record := some { r with blindCount := r.blindCount + 1 } } } := by
  have hblind := (evalResult_blind_iff s s.vc.lineCount).2 hold
  refine evaluate_free s _ hheld ?_ hdue
  rw [takeResult_blind _ (noteEvaluation s _) (Or.inl hs) hblind, blindEvaluation_eq _ r (noteEvaluation s _) hr]
  refine (if_pos hlimit).trans ?_
  unfold noteEvaluation recordChanged
  rw [offsetAfter_stands s _ (Or.inl hblind), clearNew_old _ hold, State.setDe_it, hr]
  rfl

/-- R78: a fraction below the start threshold in WATCH. -/
theorem evaluate_watch_fraction (s : State) (r : InterfaceRecord) (f : Int) (hs : s.it.state = .watch)
    (hr : s.it.record = some r) (hheld : s.it.held = []) (hdue : s.it.endDue = none)
    (hnew : ∃ x ∈ s.de.ring, x.isNew = true) (hf : (evalResult s s.vc.lineCount).figure = .fraction f)
    (hlow : f < s.ts.active.segment.startThreshold.toNat) :
    evaluate s = { s with
      de := { s.de with
        ring := s.de.ring.map (fun x => { x with isNew := false }), last := some (evalResult s s.vc.lineCount) }
      it := { s.it with record := some { r with blindCount := 0, lastFraction := f } } } := by
  have hblind : (evalResult s s.vc.lineCount).blind = false := by rw [evalResult_new s _ hnew]
  refine evaluate_free s _ hheld ?_ hdue
  rw [takeResult_fraction _ f (noteEvaluation s _) (Or.inl hs) hblind hf,
    densityEvaluation_eq _ f r (noteEvaluation s _) _ hr rfl]
  refine (if_neg fun hmixing => TrackerState.noConfusion (hs.symm.trans hmixing)).trans ((if_pos hlow).trans ?_)
  unfold noteEvaluation recordChanged
  rw [offsetAfter_stands s _ (Or.inr (Or.inl fun x hx => Figure.noConfusion (hf.symm.trans hx))), State.setDe_it, hr]
  rfl

/-! ## The statement -/

/-- R59: what a blind evaluation carries forward. -/
theorem evalResult_carries (s : State) (mark : Mark) (l : EvalResult) (hold : ∀ x ∈ s.de.ring, x.isNew = false)
    (hl : s.de.last = some l) :
    evalResult s mark = ⟨mark, true, l.reading, carriedFigure (figureDue s) l.figure⟩ :=
  (evalResult_blind s mark hold).trans (blindResult_carries s mark l hl)

/-- Settles O51: the result by the samples of the ring, the offset by the deviation, and what the tracker makes of the
result by its state. -/
theorem evaluationReadsTheRing : Obligations.EvaluationReadsTheRing := by
  refine ⟨fun s mark hnew => ?fresh, fun s mark l hold hl => ?carried,
    fun s r hs hr hheld hdue hold hlimit => evaluate_watch_blind s r hs hr hheld hdue hold hlimit,
    fun s r f hs hr hheld hdue hnew hf hlow => evaluate_watch_fraction s r f hs hr hheld hdue hnew hf hlow,
    fun s mark hold => ?blind, fun s res hres => ?event, takePostponed_eq, fun o rest s => ?held,
    fun b x res s hq hb hblind hx => ?quiet, fun res s => ⟨takeResult_quiet res s, takeResult_fallback res s⟩,
    fun r res s hr hblind hs => ?lost, fun r f res s hr hblind hf => ?fraction⟩
  case fresh =>
    intro n mean
    rw [evalResult_new s mark hnew, readingOf_eq s n mean rfl rfl]
  case carried =>
    rw [evalResult_carries s mark l hold hl]
    refine ⟨_, rfl, carriedFigure_or _ _, fun x hx hs => ?_, fun x hx hq hbq => ?_⟩
    · rw [hx, (figureDue_fraction_iff s).2 hs]
      rfl
    · rw [hx, (figureDue_deviation_iff s).2 ⟨hq, hbq⟩]
      rfl
  case blind =>
    refine ⟨fun hnone => (evalResult_blind s mark hold).trans (blindResult_first s mark hnone), fun l hl => ?_⟩
    rw [evalResult_carries s mark l hold hl]
    exact carriedFigure_eq s l.figure
  case event =>
    subst hres
    refine ⟨offsetAfter s (evalResult s s.vc.lineCount), evaluate_eq s, fun b mean d x k hblind hr hx hb hmoves => ?_,
      fun hstands => offsetAfter_stands s _ hstands⟩
    exact offsetAfter_moves s _ b mean d x k hblind hr hx hb hmoves
  case held =>
    refine ⟨rfl, fun hnone => ?_, fun u hu => ?_⟩
    · unfold offerHeld
      rw [hnone]
      rfl
    · conv_lhs => unfold offerHeld
      rw [hu]
  case quiet =>
    intro K beyond run go back
    rw [takeResult_deviation res x s hq hblind hx, quietEvaluation_eq b res.mark x run s hb rfl]
    refine ⟨fun hshort => if_neg (Nat.not_le.2 hshort), fun hfull hout => ?_, fun hfull hin => ?_⟩
    · intro a
      refine (if_pos hfull).trans ((if_neg (ne_true_of_eq_false hout)).trans ?_)
      exact enterExcursion_eq b run.first res.mark x s a hb rfl
    · intro a
      refine (if_pos hfull).trans ((if_pos hin).trans ?_)
      exact leaveExcursion_eq b run.first res.mark x s a hb rfl
  case lost =>
    rw [takeResult_blind res s hs hblind, blindEvaluation_eq res.mark r s hr]
  case fraction =>
    intro a
    refine ⟨fun hs => ?_, fun hs => ?_⟩
    · rw [takeResult_fraction res f s (Or.inr (Or.inl hs)) hblind hf, densityEvaluation_eq res.mark f r s a hr rfl]
      exact if_pos hs
    · rw [takeResult_fraction res f s (hs.imp id Or.inr) hblind hf, densityEvaluation_eq res.mark f r s a hr rfl]
      refine if_neg fun hmixing => ?_
      rcases hs with hs | hs <;> exact TrackerState.noConfusion (hs.symm.trans hmixing)

end Sys2Proof.Machine
end

section
/-! PROOFS. READ INTERFACE: the 76 bytes of the record that a selector names, its refusals, and a payload that is no
READ INTERFACE (R96). -/

namespace Sys2Proof.Machine

/-! ## The bytes of an interface record -/

theorem trackerByte_eq (s : State) : trackerByte s.it.state s.it.excursion = trackerCode s := by
  unfold trackerByte trackerCode
  cases s.it.state <;> rfl

/-- The present marks, each of its own weight, are the sum that the marks byte states. -/
theorem oneByte_marksPresent (r : InterfaceRecord) :
    oneByte (marksPresent r) = [sumOf [(r.startMark.isSome, 1), (r.headCut.isSome, 2), (r.midpoint.isSome, 4),
      (r.tailCut.isSome, 8), (r.endMark.isSome, 16), (r.drift.isSome, 32)]] := by
  simp only [oneByte, marksPresent, sumOf, flag, List.map_cons, List.map_nil, List.sum_cons, List.sum_nil,
    Nat.add_assoc, Nat.add_zero]

theorem oneByte_recordFlags (r : InterfaceRecord) :
    oneByte (recordFlags r) = [sumOf [(r.widest, 1), (r.overdue, 2), (r.forcedEnd, 4), (r.manual, 8)]] := by
  simp only [oneByte, recordFlags, sumOf, flag, List.map_cons, List.map_nil, List.sum_cons, List.sum_nil,
    Nat.add_assoc, Nat.add_zero]

theorem interfaceData_eq (selector state : Byte) (r : InterfaceRecord) :
    interfaceData selector state r = interfaceRecordBytes selector state r := by
  unfold interfaceData interfaceRecordBytes
  rw [oneByte_marksPresent, oneByte_recordFlags]
  simp only [List.append_assoc, List.cons_append, List.nil_append]
  rfl

/-! ## The record that a selector names -/

theorem selectedRecord_active (s : State) : selectedRecord s 0 = s.it.record := if_pos rfl

theorem selectedRecord_history (s : State) (selector : Byte) (h : selector ≠ 0) :
    selectedRecord s selector = s.it.history[selector.toNat - 1]? := if_neg h

/-- Neither the active record nor the history entry that the selector would name is there. -/
theorem selectedRecord_none (s : State) (selector : Byte) (hactive : selector = 0 → s.it.record = none)
    (hhistory : selector ≠ 0 → s.it.history.length ≤ selector.toNat - 1) : selectedRecord s selector = none := by
  by_cases h : selector = 0
  · rw [h, selectedRecord_active, hactive h]
  · rw [selectedRecord_history s selector h, List.getElem?_eq_none (hhistory h)]

/-! ## READ INTERFACE -/

theorem performReadInterface_ranged (selector : Byte) (s : State) (h : 4 < selector.toNat) :
    performReadInterface selector s = refuse .range [0] s := if_pos h

theorem performReadInterface_absent (selector : Byte) (s : State) (h : selector.toNat ≤ 4)
    (hr : selectedRecord s selector = none) : performReadInterface selector s = refuse .notFound [0] s := by
  unfold performReadInterface
  rw [if_neg (Nat.not_lt.2 h), hr]

theorem performReadInterface_found (selector : Byte) (r : InterfaceRecord) (s : State) (h : selector.toNat ≤ 4)
    (hr : selectedRecord s selector = some r) : performReadInterface selector s
      = (s, .done (interfaceRecordBytes selector (if selector = 0 then trackerCode s else 0) r)) := by
  unfold performReadInterface
  rw [if_neg (Nat.not_lt.2 h), hr, ← trackerByte_eq s, ← interfaceData_eq]

theorem performReadInterface_active (r : InterfaceRecord) (s : State) (hr : s.it.record = some r) :
    performReadInterface 0 s = (s, .done (interfaceRecordBytes 0 (trackerCode s) r)) :=
  performReadInterface_found 0 r s (Nat.zero_le 4) ((selectedRecord_active s).trans hr)

theorem performReadInterface_history (selector : Byte) (r : InterfaceRecord) (s : State) (hone : 1 ≤ selector.toNat)
    (hfour : selector.toNat ≤ 4) (hr : s.it.history[selector.toNat - 1]? = some r) :
    performReadInterface selector s = (s, .done (interfaceRecordBytes selector 0 r)) := by
  have hselector : selector ≠ 0 := fun h => absurd hone (by rw [h]; decide)
  rw [performReadInterface_found selector r s hfour ((selectedRecord_history s selector hselector).trans hr),
    if_neg hselector]

/-- A READ INTERFACE without exactly one parameter byte is no request (R166). -/
theorem parseRequest_readInterface (ps : List Byte) (h : ps.length ≠ 1) : parseRequest (0x30 :: ps) = none := by
  have hlength : lengthOk 0x30 ps.length = some (ps.length == 1) := rfl
  show (if lengthOk 0x30 ps.length = some true then requestOf 0x30 ps else none) = none
  rw [hlength, beq_false_of_ne h]
  rfl

/-- A payload that is no request is served by the answer UNKNOWN alone (R167). -/
theorem handOverRequest_unparsed (src kind : Byte) (ps : List Byte) (h : parseRequest (kind :: ps) = none) :
    handOverRequest src (kind :: ps) = serve src kind performUnknown := by
  funext s
  unfold handOverRequest
  rw [h]
  rfl

/-- Settles O48: the active record and a history record, the two refusals, and a payload that is no READ INTERFACE; each
is an answer that leaves the state as the request found it. -/
theorem interfaceIsRead : Obligations.InterfaceIsRead := by
  refine ⟨fun src r s h hr => ?active, fun src selector r s h hone hfour hr => ?history,
    fun src selector s h hbeyond => ?ranged, fun src selector s h hfour hactive hhistory => ?absent,
    fun src ps s h hlen => ?unknown⟩
  case active =>
    exact unchanged_answered src 0x30 (performReadInterface 0) _ s h (performReadInterface_active r (received s) hr)
  case history =>
    exact unchanged_answered src 0x30 (performReadInterface selector) _ s h
      (performReadInterface_history selector r (received s) hone hfour hr)
  case ranged =>
    exact unchanged_answered src 0x30 (performReadInterface selector) _ s h
      (performReadInterface_ranged selector (received s) hbeyond)
  case absent =>
    exact unchanged_answered src 0x30 (performReadInterface selector) _ s h
      (performReadInterface_absent selector (received s) hfour
        (selectedRecord_none (received s) selector hactive hhistory))
  case unknown =>
    show ∃ t, requestEvent (handOverRequest src (0x30 :: ps)) s = .next t ∧ _
    rw [handOverRequest_unparsed src 0x30 ps (parseRequest_readInterface ps hlen)]
    exact unchanged_answered src 0x30 performUnknown .unknown s h rfl

end Sys2Proof.Machine
end

section
/-! PROOFS. The start of an action in parts: what it reports, then its removal or the move begun; and the start of the
action that moves the flow now (R104, R116, R130). -/

namespace Sys2Proof.Machine

/-! ## The lane trap -/

theorem goesTo_usable (s : State) (o : Outlet) (h : Usable s o) : goesTo s o = o := if_pos h

theorem goesTo_transmix (s : State) (o : Outlet) (h : ¬ Usable s o) (h8 : Usable s 8) : goesTo s o = 8 :=
  (if_neg h).trans (if_pos h8)

theorem goesTo_relief (s : State) (o : Outlet) (h : ¬ Usable s o) (h8 : ¬ Usable s 8) : goesTo s o = reliefOf s :=
  (if_neg h).trans (if_neg h8)

theorem reliefOf_val (s : State) (r : Outlet) (h : s.ts.active.segment.reliefOutlet.toNat = r.val) :
    reliefOf s = r := by
  have hlt : s.ts.active.segment.reliefOutlet.toNat < 10 := by omega
  exact (dif_pos hlt).trans (Fin.ext h)

/-- R130: an outlet that the lane trap chose is not redirected again. -/
theorem goesTo_goesTo (s : State) (o : Outlet) : goesTo s (goesTo s o) = goesTo s o := by
  by_cases h : Usable s o
  · rw [goesTo_usable s o h, goesTo_usable s o h]
  · by_cases h8 : Usable s 8
    · rw [goesTo_transmix s o h h8, goesTo_usable s 8 h8]
    · rw [goesTo_relief s o h h8]
      by_cases hr : Usable s (reliefOf s)
      · exact goesTo_usable s _ hr
      · exact goesTo_relief s _ hr h8

theorem trapNoted_untouched (n : Nat) (b : BatchId) (o : Outlet) (s : State) (h : goesTo s o = o) :
    trapNoted n b o s = s := if_pos h

theorem goesTo_trapNoted (n : Nat) (b : BatchId) (o p : Outlet) (s : State) :
    goesTo (trapNoted n b o s) p = goesTo s p := by
  rw [trapNoted_rest]
  rfl

theorem trapNoted_setCs (n : Nat) (b : BatchId) (o : Outlet) (x : Sequencer) (s : State) :
    trapNoted n b o (s.setCs x) = (trapNoted n b o s).setCs x := by
  have hg : goesTo (s.setCs x) o = goesTo s o := rfl
  by_cases h : goesTo s o = o
  · rw [trapNoted_untouched n b o s h, trapNoted_untouched n b o (s.setCs x) h]
  · unfold trapNoted
    rw [if_neg h]
    exact if_neg h

/-! ## What a start reports -/

/-- R104: the litres by which the start of action `a` comes after its fire mark. -/
def startLateness (a : Action) (s : State) : Nat := (s.vc.lineCount - a.fire).toNat

/-- R104: the start of action `a` through the lane trap, its lateness reported. -/
def latenessReported (a : Action) (s : State) : State :=
  (trapNoted 1 a.batch a.target s).setTu
    (accountReported a.batch (fun x => { x with lateness := x.lateness + BitVec.ofNat 48 (startLateness a s) }) s.tu)

/-- R104 and R118: what the start of action `a` reports before the flow moves, LATE_CUT beyond the late limit
included. -/
def startReported (a : Action) (s : State) : State :=
  if s.ts.active.segment.lateLimit.toNat < startLateness a s then
    raised .lateCut
      ⟨a.batch, s.vc.lineCount, some (goesTo s a.target),
        reasonNumber a.reason + (if s.mg.openOrder.getLast? != a.source then 16 else 0),
        (min (startLateness a s) 2147483647 : Nat)⟩
      (latenessReported a s)
  else latenessReported a s

/-- R104: the sequence that the start of action `a` begins. -/
def startedSequence (isRoute : Bool) (a : Action) (s : State) : Sequence :=
  ⟨{ a with target := goesTo s a.target }, isRoute, goesTo s a.target, s.mg.openOrder.getLast?,
    s.mg.openOrder.getLast? != a.source, startLateness a s, false, false⟩

theorem latenessReported_setCs (a : Action) (x : Sequencer) (s : State) :
    latenessReported a (s.setCs x) = (latenessReported a s).setCs x := by
  unfold latenessReported
  rw [trapNoted_setCs]
  rfl

theorem startReported_setCs (a : Action) (x : Sequencer) (s : State) :
    startReported a (s.setCs x) = (startReported a s).setCs x := by
  by_cases h : s.ts.active.segment.lateLimit.toNat < startLateness a s
  · unfold startReported
    rw [if_pos h, latenessReported_setCs]
    exact if_pos h
  · unfold startReported
    rw [if_neg h, latenessReported_setCs]
    exact if_neg h

theorem startReported_cs (a : Action) (s : State) : (startReported a s).cs = s.cs := by
  have h : startReported a s = (startReported a s).setCs s.cs := startReported_setCs a s.cs s
  rw [h]
  rfl

/-! ## The start in parts -/

/-- R104: the start of an action is what it reports, and then its removal or the move begun. -/
theorem actionStarted_eq (isRoute : Bool) (a : Action) (rest : List Action) (s : State) :
    actionStarted isRoute a rest s =
      if s.mg.openOrder.getLast? = some (goesTo s a.target) then
        raised .cutDone
          ⟨a.batch, s.vc.lineCount, some (goesTo s a.target),
            reasonNumber a.reason + 8 + (if s.mg.openOrder.getLast? != a.source then 16 else 0)
              + (if isRoute then 32 else 0), (min (startLateness a s) 2147483647 : Nat)⟩
          ((startReported a s).setCs { s.cs with queue := rest })
      else moveBegun (startedSequence isRoute a s) ({ a with target := goesTo s a.target } :: rest)
        (startReported a s) := by
  have htu : (trapNoted 1 a.batch a.target s).tu = s.tu := by rw [trapNoted_rest]
  rw [← startReported_cs a s]
  unfold startReported latenessReported
  rw [← htu]
  rfl

/-- R104: what stood in the queue before a start is of no account: the start puts the queue in place anew. -/
theorem actionStarted_setQueue (isRoute : Bool) (a : Action) (rest queue : List Action) (s : State) :
    actionStarted isRoute a rest (s.setCs { s.cs with queue := queue }) = actionStarted isRoute a rest s := by
  rw [actionStarted_eq, actionStarted_eq, startReported_setCs, ← startReported_cs a s]
  rfl

/-- Whether a start at IDLE begins a sequence: it does unless the flow is there already (R104). -/
theorem actionStarted_idle_iff (isRoute : Bool) (a : Action) (rest : List Action) (s : State)
    (he : s.cs.engine = .idle) :
    (actionStarted isRoute a rest s).cs.engine = .idle ↔ s.mg.openOrder.getLast? = some (goesTo s a.target) := by
  by_cases h : s.mg.openOrder.getLast? = some (goesTo s a.target)
  · obtain ⟨tu, nu, hstarted⟩ := actionStarted_there isRoute a rest s h
    rw [hstarted]
    exact iff_of_true he h
  · obtain ⟨tu, nu, q, hnew, hstarted⟩ := actionStarted_moves isRoute a rest s h
    rw [hstarted, (moveBegun_phase q _ _ _ hnew).1]
    exact iff_of_false (by decide) h

/-- After the start of the only action, a route action or another, the engine waits where no apply is armed. -/
theorem engineStep_onlyStarted (isRoute : Bool) (a : Action) (s : State) (he : s.cs.engine = .idle)
    (ha : s.ts.armed = false) (hf : StartsFreely a s) : engineStep (actionStarted isRoute a [] s) = none := by
  by_cases h : s.mg.openOrder.getLast? = some (goesTo s a.target)
  · obtain ⟨tu, nu, hstarted⟩ := actionStarted_there isRoute a [] s h
    rw [hstarted]
    exact engineStep_idle _ he ha (fun _ x hx => by cases hx)
  · obtain ⟨tu, nu, q, hnew, hstarted⟩ := actionStarted_moves isRoute a [] s h
    obtain ⟨-, htime⟩ := hf.resolve_left h
    obtain ⟨hengine, hphase⟩ :=
      moveBegun_phase q _ [{ a with target := goesTo s a.target }] { s with tu := tu, nu := nu } hnew
    rw [hstarted]
    exact engineStep_opening _ _ hengine (hphase.trans (if_neg htime))

/-! ## The move that begins now -/

/-- R148: a report that changes no account changes nothing. -/
theorem accountReported_id (batch : BatchId) (tu : TicketUnit) : accountReported batch id tu = tu := by
  have hcolumn : (fun k : Ticket => { k with account := id k.account }) = id := rfl
  have hboundary : (fun b : Boundary => { b with account := id b.account }) = id := rfl
  unfold accountReported boundaryReported
  rw [hcolumn, hboundary, Option.map_id, id, id]
  split
  · rfl
  · split
    · rfl
    · split
      · rfl
      · split
        · rw [List.modify_id]
        · rfl

/-- An action whose fire mark is the line count starts on time. -/
theorem startLateness_now (r : Reason) (o : Outlet) (s : State) : startLateness (moveNow s r o) s = 0 := by
  show (s.vc.lineCount - s.vc.lineCount).toNat = 0
  rw [BitVec.sub_self]
  rfl

/-- The start of an action that is on time and not redirected reports nothing. -/
theorem startReported_now (r : Reason) (o : Outlet) (s : State) (h : Usable s o) :
    startReported (moveNow s r o) s = s := by
  have hlate := startLateness_now r o s
  have hid : (fun x : Account => { x with lateness := x.lateness + BitVec.ofNat 48 0 }) = id :=
    funext fun x => congrArg (fun y => { x with lateness := y }) (BitVec.add_zero x.lateness)
  have htrap : trapNoted 1 (moveNow s r o).batch (moveNow s r o).target s = s :=
    trapNoted_untouched 1 _ o s (goesTo_usable s o h)
  unfold startReported latenessReported
  rw [hlate, if_neg (Nat.not_lt_zero _), htrap, hid, accountReported_id]
  rfl

/-- The sequence that moves the flow to a usable outlet now. -/
def sequenceNow (isRoute : Bool) (r : Reason) (o : Outlet) (s : State) : Sequence :=
  ⟨moveNow s r o, isRoute, o, s.mg.openOrder.getLast?, false, 0, false, false⟩

theorem startedSequence_now (isRoute : Bool) (r : Reason) (o : Outlet) (s : State) (h : Usable s o) :
    startedSequence isRoute (moveNow s r o) s = sequenceNow isRoute r o s := by
  have hg : goesTo s (moveNow s r o).target = o := goesTo_usable s o h
  have hsource : (s.mg.openOrder.getLast? != (moveNow s r o).source) = false := bne_self_eq_false _
  unfold startedSequence sequenceNow
  rw [startLateness_now, hg, hsource]
  rfl

/-- R106: the OPEN of a sequence in OPEN_NEW that can enter its queue is sent. -/
theorem commandFormed_opens (o : Outlet) (s : State) (h : CommandEnters s o) :
    commandFormed ⟨o, .opens⟩ s = commandSent ⟨o, .opens⟩ s := by
  have hbar : closeBarred s ⟨o, .opens⟩ = false := rfl
  rw [← formCommand_eq, formCommand_enters _ _ h, enterCommand_sends _ _ h.1 hbar]

/-- R107: OPEN_NEW waits for the OPEN of its new outlet. -/
theorem awaiting_opening (q : Sequence) (s : State) (he : s.cs.engine = .openNew) (hq : s.cs.sequence = some q) :
    awaiting ⟨q.newOutlet, .opens⟩ s = some q := by
  unfold awaiting
  rw [hq, he]
  simp

/-- R107: OPEN_NEW entered by sequence `q`, before its OPEN is formed. -/
def openNewEntered (q : Sequence) (queue : List Action) (s : State) : State :=
  s.setCs { s.cs with
    queue := queue, engine := .openNew, sequence := some q
    phase := timerOf s.now (timeMs s.ts.active.outlets[q.newOutlet] s.ts.active.outlets[q.newOutlet].openTime 0) }

/-- R104, R106 and R107: a move begun whose OPEN enters at once, its open time not 0: the OPEN stands in its queue, the
phase timer runs, and the stroke timer unless the outlet is confirmed OPEN. -/
theorem moveBegun_sends (q : Sequence) (e : OutletEntry) (queue : List Action) (s : State)
    (hc : CommandEnters s q.newOutlet) (he : e = s.ts.active.outlets[q.newOutlet]) (ht : timeMs e e.openTime 0 ≠ 0) :
    moveBegun q queue s = { s with
      liu := { s.liu with field := { s.liu.field with
        originated := s.liu.field.originated ++ [⟨e.valveAddress, s.liu.address, 0x32, [1]⟩] } }
      mg := { s.mg with valves := commandedAs s q.newOutlet .opens }
      cs := { s.cs with
        queue := queue, engine := .openNew, sequence := some { q with closeSent := false }
        phase := some ⟨s.now, timeMs e e.openTime 0⟩
        stroke := if s.mg.valves[q.newOutlet].confirmed = .opened then s.cs.stroke
          else some ⟨s.now, e.strokeTimeout.toNat * 1000⟩ } } := by
  subst he
  have hsent := commandFormed_opens q.newOutlet (openNewEntered q queue s) hc
  refine hsent.trans ?_
  unfold commandSent
  rw [awaiting_opening q (openNewEntered q queue s) rfl rfl]
  unfold openNewEntered
  rw [timerOf_pos s.now _ ht]
  rfl

/-- R104, R106 and R107: the move to outlet `o` begun now, its OPEN in the FIELD originated queue. -/
def moveSentNow (isRoute : Bool) (r : Reason) (o : Outlet) (s : State) : State :=
  { s with
    liu := { s.liu with field := { s.liu.field with
      originated := s.liu.field.originated ++ [⟨s.ts.active.outlets[o].valveAddress, s.liu.address, 0x32, [1]⟩] } }
    mg := { s.mg with valves := commandedAs s o .opens }
    cs := openingFor s (moveNow s r o) isRoute }

/-- R104 and R107: the move to a usable outlet where the flow is not yet, begun now. -/
theorem actionStarted_now (isRoute : Bool) (r : Reason) (o : Outlet) (s : State) (hu : Usable s o)
    (hr : s.mg.openOrder.getLast? ≠ some o) (hc : CommandEnters s o)
    (ht : timeMs s.ts.active.outlets[o] s.ts.active.outlets[o].openTime 0 ≠ 0) :
    actionStarted isRoute (moveNow s r o) [] s = moveSentNow isRoute r o s := by
  have hg : goesTo s (moveNow s r o).target = o := goesTo_usable s o hu
  rw [actionStarted_eq, hg, if_neg hr, startReported_now r o s hu, startedSequence_now isRoute r o s hu,
    moveBegun_sends (sequenceNow isRoute r o s) _ _ s hc rfl ht]
  rfl

end Sys2Proof.Machine
end

section
/-! PROOFS. CLEAR OUTLET and ROUTE: their refusals, an outlet made available, and the route action inserted and started
(R116, R131, R136). -/

namespace Sys2Proof.Machine

/-! ## The refusals -/

theorem performClearOutlet_ranged (index : Byte) (s : State) (h : 9 < index.toNat) :
    performClearOutlet index s = refuse .range [0] s := if_pos h

theorem performRoute_ranged (index : Byte) (s : State) (h : 9 < index.toNat) :
    performRoute index s = refuse .range [0] s := if_pos h

theorem performRoute_barred (index : Byte) (s : State) (h : index.toNat ≤ 9) (hm : s.mg.mode ≠ .manual) :
    performRoute index s = refuse .state [1] s := (if_neg (Nat.not_lt.2 h)).trans (if_pos hm)

theorem performRoute_busy (index : Byte) (s : State) (h : index.toNat ≤ 9) (hm : s.mg.mode = .manual)
    (he : s.cs.engine ≠ .idle) : performRoute index s = refuse .state [2] s :=
  (if_neg (Nat.not_lt.2 h)).trans ((if_neg (not_not.2 hm)).trans (if_pos he))

/-! ## CLEAR OUTLET -/

theorem outletOfByte_eq (index : Byte) (o : Outlet) (h : index.toNat = o.val) : outletOfByte index = o :=
  Fin.ext ((outletOfByte_val index (by omega)).trans h)

theorem outletCode_eq (index : Byte) (o : Outlet) (h : index.toNat = o.val) : outletCode (some o) = index := by
  show BitVec.ofNat 8 o.val = index
  rw [← h, BitVec.ofNat_toNat, BitVec.setWidth_eq]

theorem outlet_not_ranged (index : Byte) (o : Outlet) (h : index.toNat = o.val) : ¬ 9 < index.toNat := by omega

theorem performClearOutlet_clears (index : Byte) (o : Outlet) (s : State) (h : index.toNat = o.val) :
    performClearOutlet index s = (setAvailable o true s, .done [if s.mg.valves[o].available then 0 else 1]) := by
  obtain rfl := outletOfByte_eq index o h
  have hbyte : ∀ b : Bool, boolByte (!b) = if b then 0 else 1 := by decide
  rw [← hbyte]
  exact if_neg (outlet_not_ranged index _ h)

/-! ## ROUTE -/

/-- R116 and R136: the route action to `o` through the lane trap and started at once. -/
def routeStarted (o : Outlet) (s : State) : State :=
  actionStarted true (moveNow s .forced (goesTo s o)) [] (trapNoted 0 (headId s) o s)

/-- R136: the two data bytes: the outlet after the lane trap, and whether a sequence began. -/
def routeData (o : Outlet) (s : State) : List Byte :=
  [outletCode (some (goesTo s o)), if s.mg.openOrder.getLast? = some (goesTo s o) then 0 else 1]

theorem storedAction_route (o : Outlet) (s : State) (hq : s.cs.queue = []) :
    storedAction (routeOffer s o) s = moveNow s .forced (goesTo s o) := by
  unfold storedAction
  rw [hq]
  rfl

/-- The route action alone in the queue (R99, R136). -/
theorem inserted_route (o : Outlet) (s : State) (hq : s.cs.queue = []) :
    inserted (routeOffer s o) s = (trapNoted 0 (headId s) o s).setCs
      { (trapNoted 0 (headId s) o s).cs with queue := [moveNow s .forced (goesTo s o)] } := by
  have hqueue : (trapNoted 0 (headId s) o s).cs.queue = [] := by rw [trapNoted_rest]; exact hq
  unfold inserted
  rw [storedAction_route o s hq]
  show State.setCs (trapNoted 0 (headId s) o s) { (trapNoted 0 (headId s) o s).cs with
    queue := (trapNoted 0 (headId s) o s).cs.queue ++ [moveNow s .forced (goesTo s o)] } = _
  rw [hqueue]
  rfl

theorem startAction_route (o : Outlet) (s : State) (hq : s.cs.queue = []) :
    startAction true (inserted (routeOffer s o) s) = routeStarted o s := by
  rw [inserted_route o s hq, startAction_eq true (moveNow s .forced (goesTo s o)) [] _ rfl, actionStarted_setQueue]
  rfl

/-- R136: a sequence began unless the flow is there already. -/
theorem routeStarted_idle_iff (o : Outlet) (s : State) (he : s.cs.engine = .idle) :
    (routeStarted o s).cs.engine = .idle ↔ s.mg.openOrder.getLast? = some (goesTo s o) := by
  have h := actionStarted_idle_iff true (moveNow s .forced (goesTo s o)) [] (trapNoted 0 (headId s) o s)
    (by rw [trapNoted_rest]; exact he)
  have hg : goesTo s (moveNow s .forced (goesTo s o)).target = goesTo s o := goesTo_goesTo s o
  have hm : (trapNoted 0 (headId s) o s).mg = s.mg := by rw [trapNoted_rest]
  rw [goesTo_trapNoted, hg, hm] at h
  exact h

/-- R116 and R136: ROUTE in MANUAL at an IDLE engine with an empty queue. -/
theorem performRoute_routes (index : Byte) (o : Outlet) (s : State) (h : index.toNat = o.val) (hm : s.mg.mode = .manual)
    (he : s.cs.engine = .idle) (hq : s.cs.queue = []) :
    performRoute index s = (engineRun (routeStarted o s), .done (routeData o s)) := by
  have hplace : s.cs.queue.length < 8 := by rw [hq]; decide
  have hbyte : boolByte ((routeStarted o s).cs.engine != .idle)
      = if s.mg.openOrder.getLast? = some (goesTo s o) then 0 else 1 := by
    by_cases hr : s.mg.openOrder.getLast? = some (goesTo s o)
    · rw [if_pos hr, (routeStarted_idle_iff o s he).2 hr]
      rfl
    · rw [if_neg hr, bne_iff_ne.2 (fun k => hr ((routeStarted_idle_iff o s he).1 k))]
      rfl
  have hroute : routeTo o s = (engineRun (routeStarted o s), routeData o s) := by
    unfold routeTo routeData
    rw [if_pos hplace, appendAction_eq]
    simp only
    rw [startAction_route o s hq, storedAction_route o s hq, hbyte]
    rfl
  unfold performRoute
  rw [if_neg (outlet_not_ranged index o h), if_neg (not_not.2 hm), if_neg (not_not.2 he), outletOfByte_eq index o h,
    hroute]

/-- R107: after the start of the route action that meets no obstacle the engine waits. -/
theorem engineRun_routeStarted (o : Outlet) (s : State) (he : s.cs.engine = .idle) (ha : s.ts.armed = false)
    (hf : StartsFreely (moveNow s .forced (goesTo s o)) s) : engineRun (routeStarted o s) = routeStarted o s := by
  refine engineRun_stop _ (engineStep_onlyStarted true _ (trapNoted 0 (headId s) o s) ?_ ?_ ?_)
  · rw [trapNoted_rest]; exact he
  · rw [trapNoted_rest]; exact ha
  · rw [trapNoted_rest]; exact hf

/-- R116: ROUTE to a usable outlet begins the move there, and the engine waits in OPEN_NEW. -/
theorem engineRun_routeStarted_moves (o : Outlet) (s : State) (hu : Usable s o)
    (hr : s.mg.openOrder.getLast? ≠ some o) (hc : CommandEnters s o)
    (ht : timeMs s.ts.active.outlets[o] s.ts.active.outlets[o].openTime 0 ≠ 0) :
    engineRun (routeStarted o s) = moveSentNow true .forced o s := by
  have hg : goesTo s o = o := goesTo_usable s o hu
  have hstarted : routeStarted o s = moveSentNow true .forced o s := by
    unfold routeStarted
    rw [hg, trapNoted_untouched 0 (headId s) o s hg, actionStarted_now true .forced o s hu hr hc ht]
  rw [hstarted]
  exact engineRun_stop _ (engineStep_opening _ _ rfl rfl)

/-- R116, R130 and R136: how ROUTE to outlet `o`, served in MANUAL at an IDLE engine with an empty queue, ends. -/
theorem route_ends (src index : Byte) (o : Outlet) (s u : State) (h : Serving s) (hi : index.toNat = o.val)
    (hm : s.mg.mode = .manual) (he : s.cs.engine = .idle) (hq : s.cs.queue = [])
    (hu : engineRun (routeStarted o (received s)) = u) :
    ∃ t, exec (.route src index) s = .next t ∧ EndsRequest src 0x53 ([0, 0x53, 0] ++ routeData o s) u t := by
  have hperform := performRoute_routes index o (received s) hi hm he hq
  rw [hu] at hperform
  exact serve_ends src 0x53 (performRoute index) s u _ _ h hperform rfl

/-- R169: the answer to such a ROUTE, and what its event leaves. -/
theorem route_done (src index : Byte) (o : Outlet) (s : State) (h : Serving s) (hi : index.toNat = o.val)
    (hm : s.mg.mode = .manual) (he : s.cs.engine = .idle) (hq : s.cs.queue = []) :
    ∃ t, exec (.route src index) s = .next t
      ∧ RequestDone src 0x53 s (engineRun (routeStarted o (received s)), .done (routeData o s)) t := by
  have hperform : performRoute index (received s) = (engineRun (routeStarted o (received s)), .done (routeData o s)) :=
    performRoute_routes index o (received s) hi hm he hq
  rw [← hperform]
  exact request_done src 0x53 (performRoute index) s h (performRoute_reaches index _)

/-- Settles O56: CLEAR OUTLET by its two cases, the refusals of ROUTE, and a ROUTE that is taken by the start of its
action. -/
theorem outletIsClearedOrRouted : Obligations.OutletIsClearedOrRouted := by
  refine ⟨fun src index o s h hi => ?cleared, fun src index s h hbeyond => ⟨?clearRanged, ?routeRanged⟩,
    fun src index s h hin hbar => ?refused, fun src index o s h hi hm he hq hu hr hc ht => ?moves,
    fun src index o r d s h hi hm he hq hrelief hd => ?answered,
    fun src index o a s h hi hm he hq ha hdef hf => ?starts, fun src index o a s h hi hm he hq hdef => ?runs⟩
  case cleared =>
    have hperform := performClearOutlet_clears index o (received s) hi
    obtain ⟨t, ht, hanswered, hrest⟩ := request_done_only src 0x52 (performClearOutlet index) s h _ hperform
      (hperform ▸ performClearOutlet_reaches index (received s)) rfl h.settled
    exact ⟨t, ht, hrest, hanswered⟩
  case clearRanged =>
    exact unchanged_answered src 0x52 (performClearOutlet index) _ s h
      (performClearOutlet_ranged index (received s) hbeyond)
  case routeRanged =>
    exact unchanged_answered src 0x53 (performRoute index) _ s h (performRoute_ranged index (received s) hbeyond)
  case refused =>
    by_cases hm : s.mg.mode = .manual
    · rw [if_pos hm]
      exact unchanged_answered src 0x53 (performRoute index) _ s h
        (performRoute_busy index (received s) hin hm (hbar.resolve_left (not_not.2 hm)))
    · rw [if_neg hm]
      exact unchanged_answered src 0x53 (performRoute index) _ s h (performRoute_barred index (received s) hin hm)
  case moves =>
    obtain ⟨t, ht', hdone⟩ := route_done src index o s h hi hm he hq
    rw [engineRun_routeStarted_moves o (received s) hu hr hc ht] at hdone
    have hrest := hdone.rest
    rw [hdone.nuKept h.settled] at hrest
    refine ⟨t, ht', hrest, ⟨hdone.field.rx, hdone.field.forward, hdone.fieldQueue, hdone.field.sending⟩, ?_⟩
    have hanswered := hdone.answered
    have hdata : routeData o s = [index, 1] := by
      unfold routeData
      rw [goesTo_usable s o hu, if_neg hr, outletCode_eq index o hi]
    rwa [hdata] at hanswered
  case answered =>
    have hg : goesTo s o = d := by
      rcases hd with ⟨hu, rfl⟩ | ⟨hu, h8, rfl⟩ | ⟨hu, h8, rfl⟩
      · exact goesTo_usable s _ hu
      · exact goesTo_transmix s o hu h8
      · exact (goesTo_relief s o hu h8).trans (reliefOf_val s _ hrelief)
    obtain ⟨t, ht, hdone⟩ := route_done src index o s h hi hm he hq
    subst hg
    exact ⟨t, ht, hdone.answered⟩
  case starts =>
    subst hdef
    exact route_ends src index o s _ h hi hm he hq (engineRun_routeStarted o (received s) he ha hf)
  case runs =>
    subst hdef
    exact route_ends src index o s _ h hi hm he hq rfl

end Sys2Proof.Machine
end

section
/-! PROOFS. The stroke timer's expiry: the open failure and the close failure of the sequence in service (R112,
R113). -/

namespace Sys2Proof.Machine

/-- The clock at the moment the stroke timer `tm` ends (log 4). -/
def strokeEnded (tm : Timer) (s : State) : State := { s with now := max s.now (tm.start + tm.length) }

theorem strokeElapsed_strokeEnded (tm : Timer) (s : State) (ht : s.cs.stroke = some tm) :
    strokeElapsed (strokeEnded tm s) = (max s.now (tm.start + tm.length) - tm.start) / 1000 := by
  have hstroke : (strokeEnded tm s).cs.stroke = some tm := ht
  unfold strokeElapsed
  rw [hstroke]
  rfl

/-- R112: in OPEN_NEW the expiry is an open failure. -/
theorem strokeExpiry_openNew (q : Sequence) (tm : Timer) (s : State) (he : s.cs.engine = .openNew)
    (hq : s.cs.sequence = some q) (ht : s.cs.stroke = some tm) :
    strokeExpiry s
      = openFailed q 0 ((max s.now (tm.start + tm.length) - tm.start) / 1000) (strokeEnded tm s) := by
  rw [← strokeElapsed_strokeEnded tm s ht]
  unfold strokeExpiry
  simp only [ht, he]
  exact openFailure_eq q 0 (strokeEnded tm s) hq

/-- R113: in CLOSE_OLD the expiry is a close failure. -/
theorem strokeExpiry_closeOld (q : Sequence) (o : Outlet) (tm : Timer) (s : State) (he : s.cs.engine = .closeOld)
    (hq : s.cs.sequence = some q) (ho : q.oldOutlet = some o) (ht : s.cs.stroke = some tm) :
    strokeExpiry s
      = closeFailed q o 1 ((max s.now (tm.start + tm.length) - tm.start) / 1000) (strokeEnded tm s) := by
  rw [← strokeElapsed_strokeEnded tm s ht]
  unfold strokeExpiry
  simp only [ht, he]
  exact closeFailure_eq q o 0 (strokeEnded tm s) hq ho

/-- Settles O58: in each of the two phases that a stroke timer runs in, its expiry is that phase's failure. -/
theorem strokeExpiryFailsTheSequence : Obligations.StrokeExpiryFailsTheSequence :=
  ⟨fun s q tm h he hq ht =>
      ⟨_, rfl, unless_ends strokeExpiry s _ h.released (strokeExpiry_openNew q tm s he hq ht)⟩,
    fun s q o tm h he hq ho ht =>
      ⟨_, rfl, unless_ends strokeExpiry s _ h.released (strokeExpiry_closeOld q o tm s he hq ho ht)⟩⟩

end Sys2Proof.Machine
end

section
/-! PROOFS. Manifold commands: what the MG makes of one in each mode (R126, R127), and what the event on CONTROL leaves
of the link. -/

namespace Sys2Proof.Machine

/-! ## Valve addresses -/

/-- R126: the outlet found at a valve address is the only one that has it. -/
theorem outletAtAddress_of_addressOf (s : State) (o : Outlet) (a : Byte) (h : AddressOf s o a) :
    outletAtAddress s.active a = some o := by
  cases hfound : outletAtAddress s.active a with
  | none =>
    have hnone := List.find?_eq_none.1 hfound o (mem_allOutlets o)
    exact absurd (beq_iff_eq.2 ((h o).2 rfl)) hnone
  | some p =>
    have haddress := List.find?_some (p := fun p : Outlet => s.active.outlets[p].valveAddress == a) hfound
    rw [(h p).1 (beq_iff_eq.1 haddress)]

/-! ## The judgement -/

/-- R127: the test of a CLOSE on the outlets standing open. -/
theorem closeWouldDeadHead_iff (s : State) (o : Outlet) : closeWouldDeadHead s o = true ↔ LastStandingOpen s o := by
  have hmoving : s.moving = true ↔ s.vc.lineState = .moving := beq_iff_eq
  have hstands : ∀ p : Outlet, standingOpen s p = true ↔ StandsOpen s p := fun p => by
    unfold standingOpen StandsOpen
    rw [Bool.and_eq_true, beq_iff_eq, bne_iff_ne]
  have hothers : allOutlets.all (fun p => p == o || !standingOpen s p) = true
      ↔ ∀ p : Outlet, p ≠ o → ¬ StandsOpen s p := by
    rw [List.all_eq_true]
    refine ⟨fun h p hp hopen => ?_, fun h p _ => ?_⟩
    · have hp' := h p (mem_allOutlets p)
      rw [(hstands p).2 hopen, Bool.not_true, Bool.or_false, beq_iff_eq] at hp'
      exact hp hp'
    · by_cases hp : p = o
      · rw [beq_iff_eq.2 hp, Bool.true_or]
      · rw [Bool.eq_false_iff.2 (fun k => h p hp ((hstands p).1 k)), Bool.not_false, Bool.or_true]
  unfold closeWouldDeadHead LastStandingOpen
  rw [Bool.and_eq_true, Bool.and_eq_true, hmoving, hstands, hothers, and_assoc]

/-- R127: in MANUAL an OPEN, or a CLOSE that leaves another outlet standing open, is forwarded. -/
theorem judgeManifold_moves (o : Outlet) (move : ValveMove) (f : Frame) (s : State) (hm : s.mg.mode = .manual)
    (hp : f.payload = [if move = .opens then 1 else 0]) (hc : move = .close → ¬ LastStandingOpen s o) :
    judgeManifold o f s = forwardCommand o (some move) f s := by
  unfold judgeManifold
  rw [if_pos hm, hp]
  cases move with
  | opens => exact if_pos rfl
  | close =>
    have hfree : ¬ closeWouldDeadHead s o = true := fun k => hc rfl ((closeWouldDeadHead_iff s o).1 k)
    exact (if_neg (by decide)).trans ((if_pos rfl).trans (if_neg hfree))

/-- R127: in MANUAL a command that is neither an OPEN nor a CLOSE is forwarded. -/
theorem judgeManifold_passes (o : Outlet) (f : Frame) (s : State) (hm : s.mg.mode = .manual) (h0 : f.payload ≠ [0])
    (h1 : f.payload ≠ [1]) : judgeManifold o f s = offerForward .field f s := by
  unfold judgeManifold
  rw [if_pos hm]
  split
  · rename_i b hb
    rw [if_neg (fun k => h1 (hb.trans (congrArg (fun x => [x]) k))),
      if_neg (fun k => h0 (hb.trans (congrArg (fun x => [x]) k)))]
    rfl
  · rfl

/-- R127 and R137: in MANUAL the CLOSE of the last outlet standing open on a moving line is blocked. -/
theorem judgeManifold_blocks (o : Outlet) (f : Frame) (s : State) (hm : s.mg.mode = .manual) (hp : f.payload = [0])
    (hl : LastStandingOpen s o) :
    judgeManifold o f s = raised .deadHead ⟨headId s, s.vc.lineCount, some o, 1, f.src.toNat⟩ s := by
  unfold judgeManifold
  rw [if_pos hm, hp]
  exact (if_neg (by decide)).trans ((if_pos rfl).trans (if_pos ((closeWouldDeadHead_iff s o).2 hl)))

/-- R126 and R137: in AUTO and HELD every manifold command is blocked. -/
theorem judgeManifold_owned (o : Outlet) (f : Frame) (s : State) (hm : s.mg.mode ≠ .manual) :
    judgeManifold o f s = raised .manifoldOwned
      ⟨headId s, s.vc.lineCount, some o, if f.payload = [0] then 0 else if f.payload = [1] then 1 else 2, f.src.toNat⟩
      s := by
  unfold judgeManifold
  rw [if_neg hm, ← positionFigure_eq]
  rfl

/-! ## The event on CONTROL -/

/-- R156: a frame received on CONTROL and offered to the FIELD forward queue. -/
def passed (f : Frame) (s : State) : State :=
  { received s with liu := { (received s).liu with field := { s.liu.field with
      forward := if s.liu.field.forward.length < 8 then s.liu.field.forward ++ [f] else s.liu.field.forward } } }

theorem offerForward_received (f : Frame) (s : State) : offerForward .field f (received s) = passed f s := by
  unfold offerForward passed
  by_cases hfree : s.liu.field.forward.length < 8
  · rw [if_pos hfree]
    exact if_pos (decide_eq_true hfree)
  · rw [if_neg hfree]
    exact if_neg (fun k => hfree (of_decide_eq_true k))

/-- R127: the commanded position is set when the command enters the FIELD forward queue. -/
theorem forwardCommand_received (o : Outlet) (move : ValveMove) (f : Frame) (s : State) :
    forwardCommand o (some move) f (received s) = (passed f s).setMg { s.mg with
      valves := if s.liu.field.forward.length < 8 then commandedAs s o move else s.mg.valves } := by
  by_cases hfree : s.liu.field.forward.length < 8
  · have hset : forwardCommand o (some move) f (received s) = setCommanded o (some move) (passed f s) := by
      rw [← offerForward_received]
      exact if_pos (decide_eq_true hfree)
    rw [hset, if_pos hfree]
    rfl
  · have hleft : forwardCommand o (some move) f (received s) = received s :=
      if_neg (fun k => hfree (of_decide_eq_true k))
    rw [hleft, if_neg hfree]
    unfold passed
    rw [if_neg hfree]
    rfl

/-- An event on CONTROL that raised nothing and left the link as the offer left it ends with the frame forwarded. -/
theorem passed_finish (f : Frame) (s u : State) (hl : u.liu = (passed f s).liu) (hn : u.nu.testDue = false) :
    finish u = { u with liu := (finish u).liu } ∧ ForwardedFromControl f s (finish u) := by
  have k := finish_settles u
  have hrest := k.rest
  rw [k.nuKept hn] at hrest
  refine ⟨hrest, ⟨?_, ⟨?_, ?_, ?_, fun x hx => ?_⟩, ⟨?_, ?_, ?_, fun x hx => ?_⟩⟩⟩
  · rw [k.address, hl]; rfl
  · rw [k.control.rx, hl]; rfl
  · rw [k.control.forward, hl]; rfl
  · rw [k.queueKept hn, hl]; rfl
  · exact k.control.sending x (by rw [hl]; exact hx)
  · rw [k.field.rx, hl]; rfl
  · rw [k.field.forward, hl]; rfl
  · rw [k.fieldQueue, hl]; rfl
  · exact k.field.sending x (by rw [hl]; exact hx)

/-- R156: a frame that is not for the part and is a manifold command is judged. -/
theorem handOnControl_judges (f : Frame) (o : Outlet) (s : State) (hd : f.dst ≠ s.liu.address)
    (hto : manifoldOutlet s f = some o) : handOnControl f s = judgeManifold o f s := by
  unfold handOnControl
  rw [if_neg hd, hto]

/-- VALVE_COMMAND to an outlet's valve outside a reset: the reception ends, the MG judges the command, and the event
ends. -/
theorem exec_valveCommand (dst src : Byte) (payload : List Byte) (o : Outlet) (s : State) (hs : Running s)
    (hd : dst ≠ s.liu.address) (ha : AddressOf s o dst) (hl : payload.length ≤ 200) :
    exec (.valveCommand dst src payload) s
      = .next (finish (judgeManifold o ⟨dst, src, 0x32, payload⟩ (received s))) := by
  have hto : manifoldOutlet (received s) ⟨dst, src, 0x32, payload⟩ = some o :=
    (if_pos rfl).trans (outletAtAddress_of_addressOf s o dst ha)
  have hjudged : receiveFrame .control ⟨dst, src, 0x32, payload⟩ s
      = judgeManifold o ⟨dst, src, 0x32, payload⟩ (received s) :=
    (if_pos hl).trans (handOnControl_judges _ o (received s) hd hto)
  show Host.Outcome.next (unlessInReset (receiveFrame .control ⟨dst, src, 0x32, payload⟩) s) = _
  unfold unlessInReset
  rw [hs.released, hjudged]
  rfl

end Sys2Proof.Machine
end

section
/-! PROOFS. While the mode is AUTO or HELD no manifold command comes to wait for the field, whatever the step (R126);
and the statement of the manifold commands. -/

namespace Sys2Proof.Machine

/-! ## What lets no manifold command in -/

/-- No manifold command waits in `t` outside MANUAL where none waits in `s`. -/
abbrev StaysBarred (s t : State) : Prop := ManifoldBarred s → ManifoldBarred t

theorem StaysBarred.trans {s t u : State} (h : StaysBarred s t) (k : StaysBarred t u) : StaysBarred s u := k ∘ h

theorem StaysBarred.ite {s t u : State} {p : Prop} [Decidable p] (h : StaysBarred s t) (k : StaysBarred s u) :
    StaysBarred s (if p then t else u) := by
  split
  · exact h
  · exact k

/-- The mode and the active valve addresses as they were, and no frame added that goes to the field. -/
theorem staysBarred_of_rest {s t : State} (hm : t.mg.mode = s.mg.mode) (ht : t.ts.active = s.ts.active)
    (hf : ∀ f ∈ t.liu.field.forward, f ∈ s.liu.field.forward) : StaysBarred s t := by
  intro h
  unfold ManifoldBarred NoManifoldCommand
  rw [hm, ht]
  exact h.imp id (fun hnone f hmem => hnone f (hf f hmem))

/-- The FIELD port's forward queue, the mode and the tables as they were. -/
theorem staysBarred_of_same {s t : State} (hm : t.mg = s.mg) (ht : t.ts = s.ts)
    (hf : t.liu.field.forward = s.liu.field.forward) : StaysBarred s t :=
  staysBarred_of_rest (by rw [hm]) (by rw [ht]) (fun _ h => hf ▸ h)

theorem finish_barred (s : State) : StaysBarred s (finish s) := by
  have k := finish_settles s
  exact staysBarred_of_same (by rw [k.rest]) (by rw [k.rest]) k.field.forward

theorem resetAll_barred (address : Byte) (s t : State) : StaysBarred s (resetAll address t) := fun _ => Or.inl rfl

/-! ## The link -/

theorem setReceiver_barred (p : Port) (r : Receiver) (s : State) :
    StaysBarred s (s.setPort p { s.port p with rx := r }) := by
  cases p with
  | field => exact staysBarred_of_same rfl rfl rfl
  | control => exact staysBarred_of_same rfl rfl rfl

theorem appendOriginated_barred (p : Port) (f : Frame) (s : State) : StaysBarred s (appendOriginated p f s) := by
  refine StaysBarred.ite ?_ id
  cases p with
  | field => exact staysBarred_of_same rfl rfl rfl
  | control => exact staysBarred_of_same rfl rfl rfl

theorem releaseHead_forward (l : PortLink) : ∀ f ∈ (releaseHead l).forward, f ∈ l.forward := by
  unfold releaseHead
  split
  · exact fun f h => h
  · exact fun f h => List.mem_of_mem_tail h
  · exact fun f h => h

theorem releaseHead_barred (p : Port) (s : State) : StaysBarred s (s.setPort p (releaseHead (s.port p))) := by
  cases p with
  | field => exact staysBarred_of_rest rfl rfl (releaseHead_forward s.liu.field)
  | control => exact staysBarred_of_same rfl rfl rfl

theorem controlPlaceFreed_barred (s : State) : StaysBarred s (controlPlaceFreed s) := by
  unfold controlPlaceFreed
  refine StaysBarred.trans (t := _) ?_ (staysBarred_of_same rfl rfl rfl)
  split
  · exact (appendOriginated_barred .control _ s).trans (staysBarred_of_same rfl rfl rfl)
  · exact id

theorem endTransmission_barred (p : Port) (s : State) : StaysBarred s (endTransmission p s) := by
  have hreleased := releaseHead_barred p s
  unfold endTransmission
  simp only
  split
  · exact hreleased.trans (offerCommands_evolves _).barred
  · exact (resetAll_barred _ s _).ite (hreleased.trans (controlPlaceFreed_barred _))
  · exact hreleased

/-! ## The responder -/

theorem offerResponse_barred (f : Frame) (q : Service) (s : State) : StaysBarred s (offerResponse f q s) := by
  unfold offerResponse
  split
  · exact (appendOriginated_barred .control f s).trans (staysBarred_of_same rfl rfl rfl)
  · exact staysBarred_of_same rfl rfl rfl

theorem inReady_barred (src kind : Byte) (taken : State → State) (s : State) (h : StaysBarred s (taken s)) :
    StaysBarred s (inReady src kind taken s) := by
  unfold inReady
  split
  · exact h
  · exact appendOriginated_barred .control _ s
  · exact id
  · exact id

theorem serve_barred (src kind : Byte) (perform : State → Outcome) (s : State) (h : Reaches s (perform s).1) :
    StaysBarred s (serve src kind perform s) :=
  inReady_barred src kind _ s (StaysBarred.trans h.barred (offerResponse_barred _ _ _))

theorem takeSumTables_barred (src selector : Byte) (s : State) : StaysBarred s (takeSumTables src selector s) :=
  StaysBarred.ite (offerResponse_barred _ _ s) (staysBarred_of_rest rfl rfl (fun _ h => h))

theorem takeRestart_barred (src : Byte) (s : State) : StaysBarred s (takeRestart src s) :=
  (appendOriginated_barred .control _ s).trans (staysBarred_of_same rfl rfl rfl)

theorem completeSum_barred (s : State) : StaysBarred s (completeSum s) := by
  have hended : StaysBarred s (s.setTs { s.ts with sum := none }) := staysBarred_of_rest rfl rfl (fun _ h => h)
  unfold completeSum
  split
  · exact id
  · refine StaysBarred.trans ?_ (applyIfDue_evolves false _).barred
    split
    · exact hended.trans (offerResponse_barred _ _ _)
    · exact hended

theorem serveRequest_barred (src : Byte) (q : Request) (s : State) : StaysBarred s (serveRequest src q s) := by
  cases q with
  | ping params => exact serve_barred _ _ _ s (performPing_reaches params s)
  | ident => exact serve_barred _ _ _ s (Reaches.refl s)
  | readStatus => exact serve_barred _ _ _ s (Reaches.refl s)
  | setNotices master enables => exact serve_barred _ _ _ s (performSetNotices_reaches src master enables s)
  | restart => exact inReady_barred _ _ _ s (takeRestart_barred src s)
  | putProduct index e => exact serve_barred _ _ _ s (performPut_reaches _ _ _ s (setProduct_ok index e))
  | putOutlet index e => exact serve_barred _ _ _ s (performPut_reaches _ _ _ s (setOutlet_ok index e))
  | putRule running arriving e =>
    exact serve_barred _ _ _ s (performPut_reaches _ _ _ s (setRule_ok running arriving e))
  | putSegment r => exact serve_barred _ _ _ s (performPutSegment_reaches r s)
  | commit => exact serve_barred _ _ _ s (performCommit_reaches s)
  | withdraw => exact serve_barred _ _ _ s (performWithdraw_reaches s)
  | sumTables selector => exact inReady_barred _ _ _ s (takeSumTables_barred src selector s)
  | addBatch f => exact serve_barred _ _ _ s (performAddBatch_reaches f s)
  | amendBatch f => exact serve_barred _ _ _ s (performAmendBatch_reaches f s)
  | dropBatch batchId => exact serve_barred _ _ _ s (performDropBatch_reaches batchId s)
  | readBatch position => exact serve_barred _ _ _ s (performReadBatch_reaches position s)
  | readInterface selector => exact serve_barred _ _ _ s (performReadInterface_reaches selector s)
  | takeTicket => exact serve_barred _ _ _ s (performTakeTicket_reaches s)
  | setMode value => exact serve_barred _ _ _ s (performSetMode_reaches value s)
  | resume => exact serve_barred _ _ _ s (performResume_reaches s)
  | clearOutlet index => exact serve_barred _ _ _ s (performClearOutlet_reaches index s)
  | route index => exact serve_barred _ _ _ s (performRoute_reaches index s)

theorem handOverRequest_barred (src : Byte) (payload : List Byte) (s : State) :
    StaysBarred s (handOverRequest src payload s) := by
  unfold handOverRequest
  split
  · exact serveRequest_barred src _ s
  · exact serve_barred _ _ _ s (Reaches.refl s)

/-! ## Frames handed on -/

theorem offerForward_control_barred (f : Frame) (s : State) : StaysBarred s (offerForward .control f s) :=
  StaysBarred.ite (staysBarred_of_same rfl rfl rfl) id

/-- R126 and R156: a manifold command from CONTROL passes in MANUAL alone, any other frame in every mode. -/
theorem handOn_barred (p : Port) (f : Frame) (s : State) : StaysBarred s (handOn p f s) := by
  cases p with
  | field => exact StaysBarred.trans (offerForward_control_barred f s) (observeField_reaches f _).barred
  | control =>
    show StaysBarred s (handOnControl f s)
    unfold handOnControl
    refine StaysBarred.ite (StaysBarred.ite (handOverRequest_barred _ _ s) id) ?_
    split
    · exact (judgeManifold_evolves _ f s).barred
    · rename_i hnone
      exact (offerForward_field_evolves f s (mayPass s f hnone)).barred

theorem receiveFrame_barred (p : Port) (f : Frame) (s : State) : StaysBarred s (receiveFrame p f s) :=
  StaysBarred.trans (setReceiver_barred p .hunt s) (StaysBarred.ite (handOn_barred p f _) id)

theorem receiveBytes_barred (p : Port) (bytes : List Byte) (s : State) : StaysBarred s (receiveBytes p bytes s) := by
  unfold receiveBytes
  split
  · exact receiveFrame_barred p _ s
  · exact setReceiver_barred p .hunt s

theorem endAtGap_barred (p : Port) (s : State) : StaysBarred s (endAtGap p s) := by
  unfold endAtGap
  split
  · exact id
  · exact StaysBarred.ite (setReceiver_barred p .hunt s) (receiveBytes_barred p _ s)

theorem laterByte_barred (p : Port) (b : Byte) (s : State) : StaysBarred s (laterByte p b s) := by
  unfold laterByte
  split
  · exact id
  · exact setReceiver_barred p _ s

/-! ## Commands and steps -/

theorem event_barred (f : State → State) (s : State) (h : StaysBarred s (f s)) :
    ∃ t, (Host.Outcome.next (unlessInReset f s) : Host.Outcome State Fault Refusal) = .next t ∧ StaysBarred s t :=
  ⟨_, rfl, StaysBarred.ite id (h.trans (finish_barred (f s)))⟩

theorem request_barred (src : Byte) (q : Request) (s : State) :
    ∃ t, requestEvent (serveRequest src q) s = .next t ∧ StaysBarred s t :=
  event_barred _ s (StaysBarred.trans (setReceiver_barred .control .hunt s) (serveRequest_barred src q _))

theorem exec_barred (c : Instr) (s : State) : ∃ t, exec c s = .next t ∧ StaysBarred s t := by
  cases c with
  | powerOnReset pins => exact ⟨_, rfl, resetAll_barred pins s s⟩
  | resetAsserted => exact ⟨_, rfl, fun _ => Or.inl rfl⟩
  | droppedFrame p bytes => exact event_barred _ s (receiveBytes_barred p bytes s)
  | meterTotal dst src payload => exact event_barred _ s (receiveFrame_barred .field _ s)
  | densitySample dst src payload => exact event_barred _ s (receiveFrame_barred .field _ s)
  | valveStatus dst src payload => exact event_barred _ s (receiveFrame_barred .field _ s)
  | fieldFrame f => exact event_barred _ s (receiveFrame_barred .field f s)
  | valveCommand dst src payload => exact event_barred _ s (receiveFrame_barred .control _ s)
  | controlFrame f => exact event_barred _ s (receiveFrame_barred .control f s)
  | consumedFrame src kind payload => exact event_barred _ s (receiveFrame_barred .control _ s)
  | unknownRequest src payload =>
    exact event_barred _ s
      (StaysBarred.trans (setReceiver_barred .control .hunt s) (handOverRequest_barred src payload _))
  | ping src params => exact request_barred src (.ping params) s
  | ident src => exact request_barred src .ident s
  | readStatus src => exact request_barred src .readStatus s
  | setNotices src master enables => exact request_barred src (.setNotices master enables) s
  | restart src => exact request_barred src .restart s
  | putProduct src index e => exact request_barred src (.putProduct index e) s
  | putOutlet src index e => exact request_barred src (.putOutlet index e) s
  | putRule src running arriving e => exact request_barred src (.putRule running arriving e) s
  | putSegment src r => exact request_barred src (.putSegment r) s
  | commit src => exact request_barred src .commit s
  | withdraw src => exact request_barred src .withdraw s
  | sumTables src selector => exact request_barred src (.sumTables selector) s
  | sumComplete => exact event_barred _ s (completeSum_barred s)
  | addBatch src f => exact request_barred src (.addBatch f) s
  | amendBatch src f => exact request_barred src (.amendBatch f) s
  | dropBatch src batchId => exact request_barred src (.dropBatch batchId) s
  | readBatch src position => exact request_barred src (.readBatch position) s
  | readInterface src selector => exact request_barred src (.readInterface selector) s
  | takeTicket src => exact request_barred src .takeTicket s
  | setModeAuto src value => exact request_barred src (.setMode value) s
  | setModeManual src => exact request_barred src (.setMode 0) s
  | resume src => exact request_barred src .resume s
  | clearOutlet src index => exact request_barred src (.clearOutlet index) s
  | route src index => exact request_barred src (.route index) s
  | frameTransmitted p => exact event_barred _ s (endTransmission_barred p s)
  | silenceTimerExpiry => exact event_barred _ s (silenceExpiry_reaches s).barred
  | stillTimerExpiry => exact event_barred _ s (stillExpiry_reaches s).barred
  | openTimeExpiry => exact event_barred _ s (phaseExpiry_reaches .openNew s).barred
  | overlapExpiry => exact event_barred _ s (phaseExpiry_reaches .overlap s).barred
  | closeTimeExpiry => exact event_barred _ s (phaseExpiry_reaches .closeOld s).barred
  | strokeTimerExpiry => exact event_barred _ s (strokeExpiry_reaches s).barred
  | recoveryExpiry => exact event_barred _ s (recoveryExpires_reaches s).barred
  | frameByteReceived p gap b =>
    cases gap with
    | true =>
      exact event_barred _ s
        (((endAtGap_barred p s).trans (finish_barred _)).trans (setReceiver_barred p _ _))
    | false => exact event_barred _ s (laterByte_barred p b s)

theorem countRaces_barred (s : State) : StaysBarred s (countRaces s) :=
  StaysBarred.ite id (staysBarred_of_same rfl rfl rfl)

/-- R126: a step is a command of the queue, an expiry that is due, or a millisecond; none lets a manifold command
wait. -/
theorem step_barred (s t : State) (h : step s = .next t) : StaysBarred s t := by
  have hends : ∀ (c : Instr) (u : State), StaysBarred s u → exec c u = .next t → StaysBarred s t := fun c u hu he => by
    obtain ⟨v, hv, hk⟩ := exec_barred c u
    rw [he] at hv
    cases hv
    exact hu.trans hk
  unfold step at h
  split at h
  · rename_i c rest _
    exact hends c (s.setPending rest) (staysBarred_of_same rfl rfl rfl) h
  · split at h
    · rename_i c _
      exact hends c (countRaces s) (countRaces_barred s) h
    · cases h
      exact staysBarred_of_same rfl rfl rfl

/-! ## The statement -/

/-- Settles O53: each command by its judgement, and the bar by what a step can be. -/
theorem manifoldCommandIsJudged : Obligations.ManifoldCommandIsJudged := by
  refine ⟨fun dst src move o s hs hd ha hm hc => ?forwarded, fun dst src payload o s hs hd ha hm hl h0 h1 => ?passes,
    fun dst src o s hs hd ha hm hlast => ?blocked, fun dst src payload o s hs hd ha hm hl => ?owned,
    fun s t hbar hstep => step_barred s t hstep hbar⟩
  case forwarded =>
    refine ⟨_, exec_valveCommand dst src _ o s hs hd ha (by simp), ?_⟩
    rw [judgeManifold_moves o move _ (received s) hm rfl hc, forwardCommand_received]
    exact passed_finish _ s _ rfl hs.settled
  case passes =>
    refine ⟨_, exec_valveCommand dst src payload o s hs hd ha hl, ?_⟩
    rw [judgeManifold_passes o _ (received s) hm h0 h1, offerForward_received]
    exact passed_finish _ s _ rfl hs.settled
  case blocked =>
    refine ⟨_, exec_valveCommand dst src [0] o s hs hd ha (by simp), ?_⟩
    rw [judgeManifold_blocks o _ (received s) hm rfl hlast]
    exact finish_ends _
  case owned =>
    refine ⟨_, exec_valveCommand dst src payload o s hs hd ha hl, ?_⟩
    rw [judgeManifold_owned o _ (received s) hm]
    exact finish_ends _

end Sys2Proof.Machine
end

section
/-! PROOFS. SET MODE: its refusals, the manifold taken with its withdrawal and its ALIGN action, and the manifold given
up (R132, R133). -/

namespace Sys2Proof.Machine

/-! ## Requests performed -/

/-- A request taken in READY, what it performs being known. -/
theorem request_performed (src kind : Byte) (perform : State → Outcome) (p : Outcome) (s : State) (h : Serving s)
    (hp : Reaches (received s) (perform (received s)).1) (e : perform (received s) = p) :
    ∃ t, requestEvent (serve src kind perform) s = .next t ∧ RequestDone src kind s p t := by
  rw [← e]
  exact request_done src kind perform s h hp

/-- A request that leaves the link and the latches alone is answered, and its event leaves what it performed. -/
theorem performed_answered (src kind : Byte) (perform : State → Outcome) (u : State) (a : Answer) (s : State)
    (h : Serving s) (hp : Reaches (received s) (perform (received s)).1) (e : perform (received s) = (u, a))
    (hl : u.liu.field = s.liu.field) (hn : u.nu = s.nu) :
    ∃ t, requestEvent (serve src kind perform) s = .next t ∧ t = { u with liu := t.liu, mr := t.mr }
      ∧ AnsweredOnly src kind (answerPayload kind a) s t := by
  obtain ⟨t, ht, hanswered, hrest⟩ :=
    request_done_only src kind perform s h (u, a) e (by rw [← e]; exact hp) hl (by rw [hn]; exact h.settled)
  exact ⟨t, ht, hrest, hanswered⟩

/-! ## The refusals -/

theorem performSetMode_ranged (value : Byte) (s : State) (h : 2 ≤ value.toNat) :
    performSetMode value s = refuse .range [0] s := by
  have h0 : value ≠ 0 := fun k => absurd (k ▸ h) (by decide)
  have h1 : value ≠ 1 := fun k => absurd (k ▸ h) (by decide)
  exact (if_neg h0).trans (if_neg h1)

theorem performSetMode_auto (s : State) : performSetMode 1 s = performModeAuto s :=
  (if_neg (by decide)).trans (if_pos rfl)

theorem modeByte_eq (m : Mode) : modeByte m = modeCode m := by cases m <;> rfl

/-- R132: the two data bytes of SET MODE. -/
theorem modeData_eq (s : State) (aligned : Bool) :
    modeData s aligned = [modeCode s.mg.mode, if aligned then 1 else 0] := by
  unfold modeData
  rw [modeByte_eq]
  rfl

theorem performModeAuto_already (s : State) (h : s.mg.mode = .auto) : performModeAuto s = (s, .done [1, 0]) := by
  have hdata := modeData_eq s false
  rw [h] at hdata
  exact (if_pos h).trans (congrArg (fun data => (s, Answer.done data)) hdata)

/-- R132: the five tests of AUTO, the first that fails deciding. -/
theorem autoRefusal_eq (s : State) : autoRefusal s =
    if s.mg.mode = .held then some 4
    else if s.it.state ≠ .quiet ∨ s.it.excursion = true then some 1
    else if s.bq = [] then some 2
    else if s.mg.openOrder = [] then some 3
    else if s.cs.engine = .faulted then some 5
    else none := by
  have hrouted : s.routed = none ↔ s.mg.openOrder = [] := List.getLast?_eq_none_iff
  unfold autoRefusal
  simp only [hrouted]

theorem autoRefusal_some (s : State) (d : Byte)
    (hd : d = (if s.mg.mode = .held then 4
        else if s.it.state ≠ .quiet ∨ s.it.excursion = true then 1
        else if s.bq = [] then 2
        else if s.mg.openOrder = [] then 3
        else if s.cs.engine = .faulted then 5
        else 0)) (h0 : d ≠ 0) : autoRefusal s = some d := by
  revert h0
  rw [hd, autoRefusal_eq]
  split_ifs
  · exact fun _ => rfl
  · exact fun _ => rfl
  · exact fun _ => rfl
  · exact fun _ => rfl
  · exact fun _ => rfl
  · exact fun h => absurd rfl h

theorem performModeAuto_refused (d : Byte) (s : State) (hm : s.mg.mode ≠ .auto) (h : autoRefusal s = some d) :
    performModeAuto s = refuse .state [d] s := by
  unfold performModeAuto
  rw [if_neg hm, h]

/-! ## The manifold taken -/

/-- R132: SET MODE AUTO may take the manifold: in MANUAL, in QUIET without an excursion, batch `b` at entry 0, the flow
at outlet `o`, the engine not FAULTED; entry 0 belongs at outlet `d`. -/
structure Takes (b : BatchRecord) (o d : Outlet) (s : State) : Prop where
  manual : s.mg.mode = .manual
  quiet : s.it.state = .quiet
  calm : s.it.excursion = false
  batch : s.bq.head? = some b
  routed : s.mg.openOrder.getLast? = some o
  works : s.cs.engine ≠ .faulted
  belongs : firstDestination s b = outletCode (some d)

theorem Takes.unrefused {b : BatchRecord} {o d : Outlet} {s : State} (h : Takes b o d s) : autoRefusal s = none := by
  have hbatch := h.batch
  have hrouted := h.routed
  rw [autoRefusal_eq, if_neg (by rw [h.manual]; decide), if_neg (by rw [h.quiet, h.calm]; decide),
    if_neg (fun k => by rw [k] at hbatch; cases hbatch), if_neg (fun k => by rw [k] at hrouted; cases hrouted),
    if_neg h.works]

/-- R36: the outlet of a batch's first destination, from its code. -/
theorem firstOutlet_of_code (s : State) (b : BatchRecord) (d : Outlet)
    (h : firstDestination s b = outletCode (some d)) : s.firstOutlet b = d := by
  have hval : (firstDestination s b).toNat = d.val := by
    rw [h]
    exact Nat.mod_eq_of_lt (Nat.lt_trans d.isLt (by decide))
  have hlt : (firstDestination s b).toNat < 10 := by omega
  rw [← destinationOutlet_eq]
  exact (dif_pos hlt).trans (Fin.ext hval)

/-- R132: the ALIGN action as it is offered. -/
def alignTo (b : BatchRecord) (o d : Outlet) : Offer := ⟨.align, b.batchId, some o, d, .now, false, none⟩

/-- R126 and R132: the mode AUTO, and the manifold commands withdrawn. -/
def manifoldTaken (s : State) : State := withdrawn { s with mg := { s.mg with mode := .auto } }

/-- R132: whether an ALIGN action is inserted: the flow is not where entry 0 belongs, and a place is free. -/
def aligns (o d : Outlet) (s : State) : Bool := decide (d ≠ o) && decide (s.cs.queue.length < 8)

/-- R132: the state that SET MODE AUTO leaves when it takes the manifold. -/
def aligned (b : BatchRecord) (o d : Outlet) (s : State) : State :=
  if aligns o d s then engineRun (insertedNow (alignTo b o d) (manifoldTaken s)) else engineRun (manifoldTaken s)

theorem aligns_there (o : Outlet) (s : State) : aligns o o s = false :=
  (congrArg (· && decide (s.cs.queue.length < 8)) (decide_eq_false (not_not.2 rfl))).trans (Bool.false_and _)

theorem aligns_moves {o d : Outlet} (s : State) (hd : d ≠ o) (hq : s.cs.queue = []) : aligns o d s = true := by
  unfold aligns
  rw [hq, decide_eq_true hd]
  rfl

theorem alignOffer_taken {b : BatchRecord} {o d : Outlet} {s : State} (h : Takes b o d s) :
    alignOffer (manifoldTaken s) = if d = o then none else some (alignTo b o d) := by
  have hbatch : (manifoldTaken s).bq.head? = some b := by
    unfold manifoldTaken; rw [withdrawn_rest]; exact h.batch
  have hrouted : (manifoldTaken s).routed = some o := by
    unfold manifoldTaken; rw [withdrawn_rest]; exact h.routed
  have hfirst : (manifoldTaken s).firstOutlet b = d := by
    unfold manifoldTaken; rw [withdrawn_rest]; exact firstOutlet_of_code s b d h.belongs
  unfold alignOffer
  rw [hbatch]
  simp only [hrouted, hfirst, Option.some.injEq, @eq_comm _ o d]
  rfl

/-- R99 and R132: the offer of the ALIGN action finds its place or is dropped. -/
theorem takeManifold_eq {b : BatchRecord} {o d : Outlet} {s : State} (h : Takes b o d s) :
    takeManifold s = (aligned b o d s, aligns o d s) := by
  have hqueue : (manifoldTaken s).cs.queue = s.cs.queue := by unfold manifoldTaken; rw [withdrawn_rest]
  have hplaces : PlacesFree (alignTo b o d) (manifoldTaken s) ↔ s.cs.queue.length < 8 := by
    unfold PlacesFree
    rw [hqueue]
    exact Nat.lt_iff_add_one_le.symm
  have hoffer : (alignOffer (manifoldTaken s)).bind (offerAction · (manifoldTaken s))
      = if aligns o d s then some (insertedNow (alignTo b o d) (manifoldTaken s)) else none := by
    rw [alignOffer_taken h]
    unfold aligns
    by_cases hd : d = o
    · simp [hd]
    · by_cases hfree : s.cs.queue.length < 8
      · rw [if_neg hd, Option.bind_some, offerAction_eq, if_pos (hplaces.2 hfree)]
        simp [hd, hfree, accepted, alignTo]
      · rw [if_neg hd, Option.bind_some, offerAction_eq, if_neg (fun k => hfree (hplaces.1 k))]
        simp [hfree]
  have htaken : withdrawManifold (s.setMg { s.mg with mode := .auto }) = manifoldTaken s := withdrawManifold_eq _
  unfold takeManifold aligned
  simp only [htaken, hoffer]
  cases aligns o d s <;> rfl

theorem idle_works (s : State) (h : s.cs.engine = .idle) : s.cs.engine ≠ .faulted := by
  rw [h]
  decide

/-- R132: SET MODE AUTO that passes its tests. -/
theorem performSetMode_takes {b : BatchRecord} {o d : Outlet} {s : State} (h : Takes b o d s) :
    performSetMode 1 s = (aligned b o d s,
      .done [modeCode (aligned b o d s).mg.mode, if aligns o d s then 1 else 0]) := by
  rw [performSetMode_auto]
  unfold performModeAuto
  rw [if_neg (by rw [h.manual]; decide), h.unrefused]
  simp only
  rw [takeManifold_eq h, modeData_eq]

/-! ## Nothing to withdraw -/

theorem manifoldTo_none (s : State) (h : NoManifoldCommand s) : ∀ f ∈ s.liu.field.forward, manifoldTo s f = none := by
  intro f hf
  unfold manifoldTo
  split
  · rename_i hkind
    exact List.find?_eq_none.2 (fun o _ k => h f hf hkind o (beq_iff_eq.1 k))
  · rfl

/-- R126: where no manifold command waits the withdrawal changes nothing. -/
theorem withdrawn_none (s : State) (h : NoManifoldCommand s) : withdrawn s = s := by
  have hto := manifoldTo_none s h
  have hgone : s.liu.field.forward.filter (fun f => (manifoldTo s f).isSome) = [] :=
    List.filter_eq_nil_iff.2 (fun f hf => by rw [hto f hf]; decide)
  have hkept : s.liu.field.forward.filter (fun f => (manifoldTo s f).isNone) = s.liu.field.forward :=
    List.filter_eq_self.2 (fun f hf => by rw [hto f hf]; rfl)
  have hhead : s.liu.field.forward.head?.any (fun f => (manifoldTo s f).isSome) = false := by
    cases hq : s.liu.field.forward with
    | nil => rfl
    | cons f rest => exact congrArg Option.isSome (hto f (by rw [hq]; exact List.mem_cons_self))
  unfold withdrawn
  simp only [hgone, hkept, hhead, Bool.false_eq_true, and_false, if_false, List.foldl_nil]

theorem manifoldTaken_none (s : State) (h : NoManifoldCommand s) :
    manifoldTaken s = { s with mg := { s.mg with mode := .auto } } := withdrawn_none _ h

/-- R132: with the flow where entry 0 belongs and nothing queued or armed, the mode alone changes. -/
theorem aligned_there (b : BatchRecord) (d : Outlet) (s : State) (he : s.cs.engine = .idle) (hq : s.cs.queue = [])
    (ha : s.ts.armed = false) (hn : NoManifoldCommand s) :
    aligned b d d s = { s with mg := { s.mg with mode := .auto } } := by
  unfold aligned
  rw [aligns_there, manifoldTaken_none s hn]
  exact engineRun_stop _ (engineStep_idle _ he ha (fun _ a hhead => by rw [hq] at hhead; cases hhead))

theorem reached_self (m : Mark) : reached m m = true := by
  unfold reached
  rw [BitVec.sub_self]
  rfl

/-- R99: the ALIGN action as stored where it is alone in the queue. -/
theorem storedAction_align (b : BatchRecord) (o d : Outlet) (s : State) (hq : s.cs.queue = []) :
    storedAction (alignTo b o d) s = ⟨.align, b.batchId, some o, goesTo s d, none, s.vc.lineCount, false⟩ := by
  unfold storedAction
  rw [hq]
  rfl

/-- R132: to a usable outlet the ALIGN action is the move from the routed outlet now. -/
theorem inserted_align (b : BatchRecord) (o d : Outlet) (s : State) (hb : s.bq.head? = some b)
    (ho : s.mg.openOrder.getLast? = some o) (hq : s.cs.queue = []) (hu : Usable s d) :
    inserted (alignTo b o d) s = s.setCs { s.cs with queue := [moveNow s .align d] } := by
  have htrap : trapNoted 0 (alignTo b o d).batch (alignTo b o d).target s = s :=
    trapNoted_untouched 0 _ d s (goesTo_usable s d hu)
  have hstored : storedAction (alignTo b o d) s = moveNow s .align d := by
    unfold moveNow
    rw [storedAction_align b o d s hq, goesTo_usable s d hu, hb, ho]
    rfl
  unfold inserted
  rw [htrap, hstored]
  show s.setCs { s.cs with queue := s.cs.queue ++ [moveNow s .align d] } = _
  rw [hq]
  rfl

/-- R103, R104 and R107: the ALIGN action inserted where nothing stands in its way moves the flow at once. -/
theorem insertedNow_align (b : BatchRecord) (o d : Outlet) (s : State) (hm : s.mg.mode = .auto)
    (hb : s.bq.head? = some b) (ho : s.mg.openOrder.getLast? = some o) (he : s.cs.engine = .idle) (hq : s.cs.queue = [])
    (ha : s.ts.armed = false) (hd : d ≠ o) (hu : Usable s d) (hc : CommandEnters s d)
    (ht : timeMs s.ts.active.outlets[d] s.ts.active.outlets[d].openTime 0 ≠ 0) :
    insertedNow (alignTo b o d) s = moveSentNow false .align d s := by
  have hrouted : s.mg.openOrder.getLast? ≠ some d := fun k => hd (Option.some.inj (k.symm.trans ho))
  have hstep : engineStep (s.setCs { s.cs with queue := [moveNow s .align d] })
      = some (moveSentNow false .align d s) := by
    rw [← actionStarted_now false .align d s hu hrouted hc ht, ← actionStarted_setQueue]
    exact engineStep_starts _ [] _ ⟨he, hm, rfl, reached_self _⟩ ha
  unfold insertedNow
  rw [if_pos hq, inserted_align b o d s hb ho hq hu]
  exact engineRun_single _ _ hstep (engineStep_opening _ _ rfl rfl)

/-- R132: the state with the flow on its way to where entry 0 belongs. -/
theorem aligned_moves {b : BatchRecord} {o d : Outlet} {s : State} (h : Takes b o d s) (he : s.cs.engine = .idle)
    (hq : s.cs.queue = []) (ha : s.ts.armed = false) (hn : NoManifoldCommand s) (hd : d ≠ o) (hu : Usable s d)
    (hc : CommandEnters s d) (ht : timeMs s.ts.active.outlets[d] s.ts.active.outlets[d].openTime 0 ≠ 0) :
    aligned b o d s = moveSentNow false .align d { s with mg := { s.mg with mode := .auto } } := by
  unfold aligned
  rw [aligns_moves s hd hq, manifoldTaken_none s hn, if_pos rfl,
    insertedNow_align b o d { s with mg := { s.mg with mode := .auto } } rfl h.batch h.routed he hq ha hd hu hc ht]
  exact engineRun_stop _ (engineStep_opening _ _ rfl rfl)

/-! ## The manifold given up -/

theorem performModeManual_already (s : State) (h : s.mg.mode = .manual) : performModeManual s = (s, .done [0, 0]) := by
  have hdata := modeData_eq s false
  rw [h] at hdata
  unfold performModeManual
  rw [if_pos h]
  exact congrArg (fun data => (s, Answer.done data)) hdata

/-- R101 and R133: the queue left to a sequence in service, and held actions discarded. -/
theorem giveUpManifold_eq (s : State) : giveUpManifold s = { s with
    mg := { s.mg with mode := .manual }, it := { s.it with held := [] }
    cs := { s.cs with queue := if s.cs.sequence = none then [] else s.cs.queue.take 1 } } := by
  have hqueue : (if s.cs.sequence.isSome then s.cs.queue.take 1 else [])
      = if s.cs.sequence = none then [] else s.cs.queue.take 1 := by
    cases s.cs.sequence <;> rfl
  rw [← hqueue]
  rfl

theorem performModeManual_gives (s : State) (h : s.mg.mode ≠ .manual) :
    performModeManual s = (giveUpManifold s, .done [0, 0]) := by
  unfold performModeManual
  rw [if_neg h]
  exact congrArg (fun data => (giveUpManifold s, Answer.done data)) (modeData_eq (giveUpManifold s) false)

/-! ## The statement -/

/-- Settles O54: the refusals by their tests, AUTO by what taking the manifold comes to, and MANUAL by giving it up. -/
theorem modeIsSet : Obligations.ModeIsSet := by
  refine ⟨fun src value s h hv => ?ranged, fun src s h hm => ?already, fun src d s h hm hd h0 => ?refused,
    fun src b o s h hm hquiet hcalm hb ho he hq ha hn hfirst => ?there,
    fun src b o d s h hm hquiet hcalm hb ho he hq ha hn hfirst hd hu hc htime => ?moves,
    fun src b o d w x al s h hm hquiet hcalm hb ho he hfirst hw hal hx => ?takes,
    fun src s h hm => ?manual, fun src s h hm => ?gives⟩
  case ranged =>
    exact unchanged_answered src 0x50 (performSetMode value) _ s h (performSetMode_ranged value (received s) hv)
  case already =>
    exact unchanged_answered src 0x50 (performSetMode 1) _ s h
      ((performSetMode_auto _).trans (performModeAuto_already (received s) hm))
  case refused =>
    have hrefused : autoRefusal (received s) = some d := autoRefusal_some (received s) d hd h0
    exact unchanged_answered src 0x50 (performSetMode 1) _ s h
      ((performSetMode_auto _).trans (performModeAuto_refused d (received s) hm hrefused))
  case there =>
    have htakes : Takes b o o (received s) := ⟨hm, hquiet, hcalm, hb, ho, idle_works (received s) he, hfirst⟩
    have hperform := performSetMode_takes htakes
    rw [aligned_there b o (received s) he hq ha hn, aligns_there] at hperform
    exact performed_answered src 0x50 (performSetMode 1) _ _ s h (performSetMode_reaches 1 _) hperform rfl rfl
  case moves =>
    have htakes : Takes b o d (received s) := ⟨hm, hquiet, hcalm, hb, ho, idle_works (received s) he, hfirst⟩
    have hperform := performSetMode_takes htakes
    rw [aligned_moves htakes he hq ha hn hd hu hc htime, aligns_moves (received s) hd hq] at hperform
    obtain ⟨t, ht, hdone⟩ := request_performed src 0x50 (performSetMode 1) _ s h (performSetMode_reaches 1 _) hperform
    have hrest := hdone.rest
    rw [hdone.nuKept h.settled] at hrest
    exact ⟨t, ht, hrest, ⟨hdone.field.rx, hdone.field.forward, hdone.fieldQueue, hdone.field.sending⟩, hdone.answered⟩
  case takes =>
    have htakes : Takes b o d (received s) := ⟨hm, hquiet, hcalm, hb, ho, he, hfirst⟩
    subst hw hal hx
    exact serve_ends src 0x50 (performSetMode 1) s _ _ _ h (performSetMode_takes htakes) rfl
  case manual =>
    exact unchanged_answered src 0x50 performModeManual _ s h (performModeManual_already (received s) hm)
  case gives =>
    have hperform := performModeManual_gives (received s) hm
    rw [giveUpManifold_eq] at hperform
    exact performed_answered src 0x50 performModeManual _ _ s h (performModeManual_reaches _) hperform rfl rfl

end Sys2Proof.Machine
end

section
/-! PROOFS. RESUME: its refusals, the reached actions and the one that stands for them, and the return to MANUAL or AUTO
(R114, R135). -/

namespace Sys2Proof.Machine

/-! ## The refusals -/

/-- R135: nothing is held and no failure stands in MANUAL. -/
theorem performResume_needless (s : State) (h : s.mg.mode = .auto ∨ (s.mg.mode = .manual ∧ s.cs.engine ≠ .faulted)) :
    performResume s = refuse .state [1] s := if_pos h

/-- R135: what RESUME can end: HELD, or a failure in MANUAL. -/
abbrev Resumable (s : State) : Prop := s.mg.mode = .held ∨ (s.mg.mode = .manual ∧ s.cs.engine = .faulted)

theorem Resumable.not_needless {s : State} (h : Resumable s) :
    ¬ (s.mg.mode = .auto ∨ (s.mg.mode = .manual ∧ s.cs.engine ≠ .faulted)) := by
  rcases h with hm | ⟨hm, he⟩
  · rw [hm]; simp
  · rw [hm, he]; simp

theorem performResume_shut (s : State) (h : Resumable s) (ho : s.mg.openOrder = []) :
    performResume s = refuse .state [2] s := (if_neg h.not_needless).trans (if_pos ho)

/-! ## The reached actions -/

/-- R135: the reached actions are the run at the head before the first that is not reached. -/
theorem reachedRun_eq (run rest : List Action) (s : State) (hq : s.cs.queue = run ++ rest)
    (hrun : ∀ a ∈ run, reached s.vc.lineCount a.fire = true)
    (hrest : ∀ a, rest.head? = some a → reached s.vc.lineCount a.fire = false) : reachedRun s = run := by
  have hstop : rest.takeWhile (fun a => reached s.vc.lineCount a.fire) = [] := by
    cases rest with
    | nil => rfl
    | cons a tail => exact List.takeWhile_cons_of_neg (by rw [hrest a rfl]; decide)
  unfold reachedRun
  rw [hq, List.takeWhile_append_of_pos hrun, hstop, List.append_nil]

/-- R135: the bytes of how many actions were replaced, and of their greatest lateness. -/
def resumeBytes (s : State) (run : List Action) : List Byte :=
  BitVec.ofNat 8 run.length
    :: beBytes 4 (min ((run.map (fun a => (s.vc.lineCount - a.fire).toNat)).foldl max 0) 2147483647)

theorem resumeData_eq (s : State) (run : List Action) : resumeData s run = resumeBytes s run := by
  unfold resumeData resumeBytes greatestLateness
  rw [List.foldl_map]
  rfl

theorem resumeBytes_nil (s : State) : resumeBytes s [] = [0, 0, 0, 0, 0] := by
  unfold resumeBytes
  rw [List.map_nil]
  decide

/-- R135: the action that stands for the reached ones whose last is `a`. -/
def standIn (a : Action) (s : State) : Action :=
  ⟨a.reason, a.batch, s.mg.openOrder.getLast?, goesTo s a.target, none, s.vc.lineCount, false⟩

/-- R135, steps 1 and 2: the reached actions `run` replaced by the one that stands for them. -/
def collapsed (run rest : List Action) (s : State) : State :=
  match run.getLast? with
  | none => s
  | some a => (trapNoted 2 a.batch a.target s).setCs { (trapNoted 2 a.batch a.target s).cs with
      queue := standIn a s :: rest }

theorem collapse_eq (run rest : List Action) (s : State) (hq : s.cs.queue = run ++ rest)
    (hrun : reachedRun s = run) : collapse s = collapsed run rest s := by
  have hdrop : s.cs.queue.drop run.length = rest := by rw [hq, List.drop_left]
  unfold collapse collapsed
  rw [hrun]
  cases run.getLast? with
  | none => rfl
  | some a =>
    simp only [laneTrap_eq, hdrop]
    rfl

/-! ## The return -/

/-- R114 and R135: the mode `m` and the engine IDLE, with nothing in service. -/
def resumed (m : Mode) (s : State) : State := returnToIdle (s.setMg { s.mg with mode := m })

theorem resumeAuto_eq (run rest : List Action) (s : State) (hq : s.cs.queue = run ++ rest) (hrun : reachedRun s = run) :
    resumeAuto s = engineRun (resumed .auto (collapsed run rest s)) := by
  unfold resumeAuto
  rw [collapse_eq run rest s hq hrun]
  rfl

/-- R135: RESUME in HELD with resume mode AUTO. -/
theorem performResume_auto (run rest : List Action) (s : State) (hm : s.mg.mode = .held) (hr : s.mg.resumeMode = .auto)
    (ho : s.mg.openOrder ≠ []) (hq : s.cs.queue = run ++ rest) (hrun : ∀ a ∈ run, reached s.vc.lineCount a.fire = true)
    (hrest : ∀ a, rest.head? = some a → reached s.vc.lineCount a.fire = false) :
    performResume s = (engineRun (resumed .auto (collapsed run rest s)), .done (resumeBytes s run)) := by
  have hresumable : Resumable s := Or.inl hm
  have hreached : reachedRun s = run := reachedRun_eq run rest s hq hrun hrest
  unfold performResume
  rw [if_neg hresumable.not_needless, if_neg ho, if_pos ⟨hm, hr⟩, resumeAuto_eq run rest s hq hreached, hreached,
    resumeData_eq]

/-- R135: where RESUME returns to MANUAL. -/
abbrev ResumesManual (s : State) : Prop :=
  (s.mg.mode = .manual ∧ s.cs.engine = .faulted) ∨ (s.mg.mode = .held ∧ s.mg.resumeMode = .manual)

/-- R135: the queue emptied, and no sequence kept from it. -/
def emptied (s : State) : State := s.setCs { s.cs with sequence := none, queue := [] }

theorem emptied_still (s : State) (h : s.cs.sequence = none) : emptied s = s.setCs { s.cs with queue := [] } := by
  unfold emptied
  rw [← h]

theorem resumeManual_eq (s : State) : resumeManual s = engineRun (resumed .manual (emptied s)) := rfl

/-- R135: RESUME that returns to MANUAL empties the queue. -/
theorem performResume_manual (s : State) (h : ResumesManual s) (ho : s.mg.openOrder ≠ []) :
    performResume s = (engineRun (resumed .manual (emptied s)), .done [0, 0, 0, 0, 0]) := by
  have hresumable : Resumable s := h.elim Or.inr (fun k => Or.inl k.1)
  have hmode : ¬ (s.mg.mode = .held ∧ s.mg.resumeMode = .auto) := by
    rcases h with ⟨hm, -⟩ | ⟨-, hr⟩
    · rw [hm]; simp
    · rw [hr]; simp
  unfold performResume
  rw [if_neg hresumable.not_needless, if_neg ho, if_neg hmode, resumeData_eq, resumeBytes_nil, resumeManual_eq]

/-- R111 and R135: after the return the engine waits where no apply is armed and nothing is to start. -/
theorem engineRun_resumed (m : Mode) (s : State) (ha : s.ts.armed = false)
    (h : m = .auto → ∀ a, s.cs.queue.head? = some a → reached s.vc.lineCount a.fire = false) :
    engineRun (resumed m s) = resumed m s := engineRun_stop _ (engineStep_idle _ rfl ha h)

/-- R135: with nothing in service the return touches the mode and the engine's state alone. -/
theorem resumed_still (m : Mode) (s : State) (hseq : s.cs.sequence = none) (hphase : s.cs.phase = none)
    (hstroke : s.cs.stroke = none) (hrec : s.cs.recovery = none) :
    resumed m s = { s with mg := { s.mg with mode := m }, cs := { s.cs with engine := .idle } } := by
  have hcs : ({ s.cs with
      engine := .idle, sequence := none, phase := none, stroke := none, recovery := none } : Sequencer)
      = { s.cs with engine := .idle } := by
    rw [Sequencer.mk.injEq]
    exact ⟨rfl, rfl, hseq.symm, hphase.symm, hstroke.symm, hrec.symm, rfl, rfl⟩
  exact congrArg (fun cs => State.setCs (s.setMg { s.mg with mode := m }) cs) hcs

/-- R103 and R104: the action that stands for the reached ones starts at once, and the engine then waits. -/
theorem engineRun_standIn (c : Action) (rest : List Action) (s : State) (hm : s.mg.mode = .auto)
    (he : s.cs.engine = .idle) (ha : s.ts.armed = false) (hc : reached s.vc.lineCount c.fire = true)
    (hf : StartsFreely c s) (hn : ∀ x, rest.head? = some x → reached s.vc.lineCount x.fire = false) :
    engineRun (s.setCs { s.cs with queue := c :: rest }) = actionStarted false c rest s := by
  have hdue : StartDue c rest (s.setCs { s.cs with queue := c :: rest }) := ⟨he, hm, rfl, hc⟩
  refine engineRun_single _ _ ?_ (engineStep_actionStarted c rest s he ha hf hn)
  rw [engineStep_starts c rest _ hdue ha, actionStarted_setQueue]

/-- R135, steps 1 to 4: the state that RESUME starts the action from that stands for the reached ones. -/
def collapsing (a : Action) (s : State) : State := resumed .auto (trapNoted 2 a.batch a.target s)

theorem engineRun_collapsed (run rest : List Action) (a : Action) (s : State) (hlast : run.getLast? = some a)
    (ha : s.ts.armed = false) (hf : StartsFreely (standIn a s) (collapsing a s))
    (hn : ∀ x, rest.head? = some x → reached s.vc.lineCount x.fire = false) :
    engineRun (resumed .auto (collapsed run rest s)) = actionStarted false (standIn a s) rest (collapsing a s) := by
  have hcount : (collapsing a s).vc.lineCount = s.vc.lineCount := by unfold collapsing; rw [trapNoted_rest]; rfl
  have harmed : (collapsing a s).ts.armed = false := by unfold collapsing; rw [trapNoted_rest]; exact ha
  have hcollapsed : resumed .auto (collapsed run rest s)
      = (collapsing a s).setCs { (collapsing a s).cs with queue := standIn a s :: rest } := by
    unfold collapsed
    rw [hlast]
    rfl
  rw [hcollapsed]
  exact engineRun_standIn _ rest _ rfl rfl harmed (by rw [hcount]; exact reached_self _) hf (by rw [hcount]; exact hn)

/-! ## The statement -/

/-- Settles O55: the refusals by their tests, and each return by what RESUME makes of the queue before the engine runs
on. -/
theorem resumeEndsHeld : Obligations.ResumeEndsHeld := by
  refine ⟨fun src s h hneedless => ?needless, fun src s h hres ho => ?shut,
    fun src s h hseq hphase hstroke hrec ha ho hback => ?manualStill,
    fun src s h hm hr ho hhead hseq hphase hstroke hrec ha => ?autoStill,
    fun src run rest s h hm hr ho hq hrun hrest => ?answered,
    fun src a c run rest w s h hm hr ho ha hq hrun hlast hrest hc hw hf => ?starts,
    fun src run rest w s h hm hr ho hq hrun hrest hw => ?autoRuns, fun src s h ho hback => ?manualRuns⟩
  case needless => exact unchanged_answered src 0x51 performResume _ s h (performResume_needless (received s) hneedless)
  case shut => exact unchanged_answered src 0x51 performResume _ s h (performResume_shut (received s) hres ho)
  case manualStill =>
    have hwaits : engineRun (resumed .manual (emptied (received s))) = _ :=
      (engineRun_resumed .manual (emptied (received s)) ha (fun k => by cases k)).trans
        (resumed_still .manual (emptied (received s)) rfl hphase hstroke hrec)
    have hperform := performResume_manual (received s) hback ho
    rw [hwaits, emptied_still (received s) hseq] at hperform
    exact performed_answered src 0x51 performResume _ _ s h (performResume_reaches _) hperform rfl rfl
  case autoStill =>
    have hwaits : engineRun (resumed .auto (received s)) = _ :=
      (engineRun_resumed .auto (received s) ha (fun _ => hhead)).trans
        (resumed_still .auto (received s) hseq hphase hstroke hrec)
    have hperform := performResume_auto [] s.cs.queue (received s) hm hr ho rfl (fun _ k => by cases k) hhead
    rw [show collapsed [] s.cs.queue (received s) = received s from rfl, hwaits, resumeBytes_nil] at hperform
    exact performed_answered src 0x51 performResume _ _ s h (performResume_reaches _) hperform rfl rfl
  case answered =>
    have hperform := performResume_auto run rest (received s) hm hr ho hq hrun hrest
    obtain ⟨t, ht, hdone⟩ := request_performed src 0x51 performResume _ s h (performResume_reaches _) hperform
    exact ⟨t, ht, hdone.answered⟩
  case starts =>
    have hperform := performResume_auto run rest (received s) hm hr ho hq hrun hrest
    have hstarted : engineRun (resumed .auto (collapsed run rest (received s))) = actionStarted false c rest w := by
      subst hw hc
      exact engineRun_collapsed run rest a (received s) hlast ha hf hrest
    rw [hstarted] at hperform
    exact serve_ends src 0x51 performResume s _ _ _ h hperform rfl
  case autoRuns =>
    have hperform := performResume_auto run rest (received s) hm hr ho hq hrun hrest
    subst hw
    exact serve_ends src 0x51 performResume s _ _ _ h hperform rfl
  case manualRuns =>
    exact serve_ends src 0x51 performResume s _ _ _ h (performResume_manual (received s) hback ho) rfl

end Sys2Proof.Machine
end

section
/-! PROOFS. Reports of valves: the record and the open order (R123, R124), what the engine makes of a report in each of
its phases (R107 to R109, R112, R113), and the dead-head guard behind it (R125, R129). -/

namespace Sys2Proof.Machine

/-! ## A report taken -/

/-- R122: the report that a position byte spells. -/
theorem reportOfByte_some (b : Byte) (h : b.toNat ≤ 3) :
    ∃ r, reportOfByte b = some r ∧ (r == .fault) = decide (b = 3) ∧ ∀ v, reportedRecord r v = recordAfter b v := by
  have hbyte : b = 0 ∨ b = 1 ∨ b = 2 ∨ b = 3 := by bv_omega
  rcases hbyte with rfl | rfl | rfl | rfl
  · exact ⟨.closed, rfl, rfl, fun _ => rfl⟩
  · exact ⟨.opened, rfl, rfl, fun _ => rfl⟩
  · exact ⟨.travel, rfl, rfl, fun _ => rfl⟩
  · exact ⟨.fault, rfl, rfl, fun _ => rfl⟩

theorem reportOfByte_none (b : Byte) (h : 3 < b.toNat) : reportOfByte b = none := by
  obtain ⟨n, hn⟩ := Nat.exists_eq_add_of_le' h
  unfold reportOfByte
  rw [hn]
  rfl

/-- R122: a frame that reports no outlet's valve, or spells no position, is disregarded. -/
theorem reportOf_none (s : State) (src : Byte) (payload : List Byte)
    (h : (∀ o : Outlet, s.ts.active.outlets[o].valveAddress ≠ src) ∨ payload.length ≠ 1
      ∨ ∃ b, payload = [b] ∧ 3 < b.toNat) : reportOf s src payload = none := by
  unfold reportOf
  split
  · rename_i o b hfound
    have haddress := List.find?_some (p := fun p : Outlet => s.active.outlets[p].valveAddress == src) hfound
    rcases h with h | h | ⟨c, hc, h⟩
    · exact absurd (beq_iff_eq.1 haddress) (h o)
    · exact absurd rfl h
    · cases hc
      rw [reportOfByte_none b h]
      rfl
  · rfl

/-- R124: the open order by the two positions, where it names the outlets confirmed OPEN. -/
theorem orderAfter_eq (o : Outlet) (now : Position) (mg : ManifoldGuard) (h : GuardOk mg) :
    orderAfter o now mg.openOrder = openOrderAfter o mg.valves[o].confirmed now mg.openOrder := by
  have hmem := h.opened o
  unfold orderAfter openOrderAfter
  by_cases hnow : now = .opened
  · by_cases hwas : mg.valves[o].confirmed = .opened
    · rw [if_pos hnow, if_pos (hmem.2 hwas), if_neg (fun k => k.1 hwas), if_neg (fun k => k.2 hnow)]
    · rw [if_pos hnow, if_neg (fun k => hwas (hmem.1 k)), if_pos ⟨hwas, hnow⟩]
  · rw [if_neg hnow, if_neg (fun k => hnow k.2)]
    by_cases hwas : mg.valves[o].confirmed = .opened
    · rw [if_pos ⟨hwas, hnow⟩]
    · rw [if_neg (fun k => hwas k.1)]
      refine List.filter_eq_self.2 (fun p hp => decide_eq_true (fun k => ?_))
      subst k
      exact hwas (hmem.1 hp)

/-- R124: the loss of the only outlet in the open order empties it. -/
theorem openOrderAfter_last (o : Outlet) (now : Position) (mg : ManifoldGuard) (h : GuardOk mg)
    (hlast : mg.openOrder = [o]) (hnow : now ≠ .opened) :
    openOrderAfter o mg.valves[o].confirmed now mg.openOrder = [] := by
  have hwas : mg.valves[o].confirmed = .opened := (h.opened o).1 (by rw [hlast]; exact List.mem_singleton_self o)
  unfold openOrderAfter
  rw [if_neg (fun k => hnow k.2), if_pos ⟨hwas, hnow⟩, hlast]
  exact List.filter_cons_of_neg (by simp)

theorem takeReport_eq (f : Frame) (o : Outlet) (b : Byte) (r : Report) (s : State) (hg : GuardOk s.mg)
    (hr : ∀ v, reportedRecord r v = recordAfter b v) : takeReport o r (forwarded f s) = reportTaken f o b s := by
  have hvalves : (forwarded f s).mg = s.mg := rfl
  unfold takeReport reportTaken
  simp only [hvalves, hr]
  rw [orderAfter_eq o _ s.mg hg]
  rfl

/-! ## The event of a report -/

/-- VALVE_STATUS outside a reset: the frame is forwarded, the MG observes it, and the event ends. -/
theorem exec_valveStatus (dst src : Byte) (payload : List Byte) (s : State) (hs : Running s)
    (hl : payload.length ≤ 200) : exec (.valveStatus dst src payload) s
      = .next (finish (observeValve src payload (forwarded ⟨dst, src, 0x31, payload⟩ s))) := by
  show Host.Outcome.next (unlessInReset (receiveFrame .field ⟨dst, src, kindValveStatus, payload⟩) s) = _
  unfold unlessInReset
  rw [hs.released, receiveFrame_field _ s hl]
  rfl

/-- R125 and R129: what a report of outlet `o` with position byte `b` comes to: the engine takes it, then the guard. -/
theorem exec_report (dst src b : Byte) (o : Outlet) (u s : State) (hs : Running s) (hg : GuardOk s.mg)
    (ha : AddressOf s o src) (hb : b.toNat ≤ 3) (hu : u = reportTaken ⟨dst, src, 0x31, [b]⟩ o b s) :
    exec (.valveStatus dst src [b]) s
      = .next (finish (afterReport s u (engineReport o s.mg.valves[o].confirmed (decide (b = 3)) u))) := by
  subst hu
  obtain ⟨r, hbyte, hfault, hrecord⟩ := reportOfByte_some b hb
  rw [exec_valveStatus dst src [b] s hs (by simp)]
  generalize (⟨dst, src, 0x31, [b]⟩ : Frame) = f
  have hreport : reportOf (forwarded f s) src [b] = some (o, r) := by
    have haddress : outletAtAddress (forwarded f s).active src = some o := outletAtAddress_of_addressOf s o src ha
    unfold reportOf
    rw [haddress]
    simp only [hbyte, Option.map_some]
  have hwhen : ∀ u : State, (!(forwarded f s).mg.openOrder.isEmpty && u.mg.openOrder.isEmpty) = true
      ↔ s.mg.openOrder ≠ [] ∧ u.mg.openOrder = [] := fun u => by
    rw [Bool.and_eq_true, Bool.not_eq_true', List.isEmpty_iff, ← Bool.not_eq_true, List.isEmpty_iff]
    rfl
  unfold observeValve
  rw [hreport]
  simp only
  unfold valveReport afterReport
  simp only [takeReport_eq f o b r s hg hrecord, hfault, guard_eq, hwhen]
  rfl

/-! ## The engine's part -/

/-- R125: with no sequence in a phase that waits for a valve the engine takes no report. -/
theorem engineReport_idle (o : Outlet) (was : Position) (isFault : Bool) (s : State)
    (he : s.cs.engine = .idle ∨ s.cs.engine = .recovery ∨ s.cs.engine = .faulted) :
    engineReport o was isFault s = s := by
  unfold engineReport
  rcases he with he | he | he
  · simp only [he]
  · simp only [he]
  · simp only [he]

section InService

variable (q : Sequence) (o : Outlet) (was : Position) (isFault : Bool) (s : State)

/-- R107, R108 and R112: in OPEN_NEW the new outlet's report. -/
theorem engineReport_openNew (he : s.cs.engine = .openNew) (hq : s.cs.sequence = some q) (ho : o = q.newOutlet) :
    engineReport o was isFault s = openNewReport q was isFault s := by
  unfold engineReport
  simp only [he, hq]
  exact if_pos ho

/-- R108 and R112: in OVERLAP the new outlet's report. -/
theorem engineReport_overlap (he : s.cs.engine = .overlap) (hq : s.cs.sequence = some q) (ho : o = q.newOutlet) :
    engineReport o was isFault s = watchedReport q was isFault s := by
  unfold engineReport
  simp only [he, hq]
  exact if_pos ho

/-- R108 and R112: in CLOSE_OLD the new outlet's report, watched until the CLOSE has entered its queue. -/
theorem engineReport_closeOld_new (he : s.cs.engine = .closeOld) (hq : s.cs.sequence = some q) (ho : o = q.newOutlet) :
    engineReport o was isFault s = if q.closeSent then s else watchedReport q was isFault s := by
  unfold engineReport
  simp only [he, hq]
  exact if_pos ho

/-- R109 and R113: in CLOSE_OLD the old outlet's report. -/
theorem engineReport_closeOld_old (he : s.cs.engine = .closeOld) (hq : s.cs.sequence = some q) (hnew : o ≠ q.newOutlet)
    (hold : q.oldOutlet = some o) : engineReport o was isFault s = closeOldReport q o isFault s := by
  unfold engineReport
  simp only [he, hq]
  exact (if_neg hnew).trans (if_pos hold)

/-- R125: the report of an outlet that the phase does not wait for (log 19). -/
theorem engineReport_other (hq : s.cs.sequence = some q) (hnew : o ≠ q.newOutlet)
    (he : s.cs.engine = .openNew ∨ s.cs.engine = .overlap ∨ (s.cs.engine = .closeOld ∧ q.oldOutlet ≠ some o)) :
    engineReport o was isFault s = s := by
  unfold engineReport
  rcases he with he | he | ⟨he, hold⟩
  · simp only [he, hq]
    exact if_neg hnew
  · simp only [he, hq]
    exact if_neg hnew
  · simp only [he, hq]
    exact (if_neg hnew).trans (if_neg hold)

/-- R107: the confirmation of the new outlet stops the stroke timer. -/
theorem openNewReport_confirmed (hwas : was ≠ .opened) (hnow : s.mg.valves[q.newOutlet].confirmed = .opened) :
    openNewReport q was isFault s = engineRun { s with cs := { s.cs with stroke := none } } :=
  (if_neg hwas).trans (if_pos hnow)

/-- R112: the new outlet confirmed OPEN before and not any more. -/
theorem openNewReport_lost (hwas : was = .opened) (hnow : s.mg.valves[q.newOutlet].confirmed ≠ .opened) :
    openNewReport q was isFault s = openFailure (4 + flag isFault 2) s := (if_pos hwas).trans (if_neg hnow)

/-- R112: the FAULT report of a new outlet whose OPEN is under way. -/
theorem openNewReport_fault (hwas : was ≠ .opened) (hnow : s.mg.valves[q.newOutlet].confirmed ≠ .opened)
    (hf : (isFault && commandPending s ⟨q.newOutlet, .opens⟩) = true) :
    openNewReport q was isFault s = openFailure 2 s := (if_neg hwas).trans ((if_neg hnow).trans (if_pos hf))

theorem openNewReport_kept (h : was = .opened ↔ s.mg.valves[q.newOutlet].confirmed = .opened)
    (hf : was ≠ .opened → ¬ (isFault && commandPending s ⟨q.newOutlet, .opens⟩) = true) :
    openNewReport q was isFault s = s := by
  by_cases hwas : was = .opened
  · exact (if_pos hwas).trans (if_pos (h.1 hwas))
  · exact (if_neg hwas).trans ((if_neg (fun k => hwas (h.2 k))).trans (if_neg (hf hwas)))

/-- R109: the confirmation of the old outlet stops the stroke timer and is remembered. -/
theorem closeOldReport_confirmed (hc : q.closeConfirmed = false) (hnow : s.mg.valves[o].confirmed = .closed) :
    closeOldReport q o isFault s = engineRun { s with cs := { s.cs with
      stroke := none, sequence := some { q with closeConfirmed := true } } } :=
  (if_neg (by rw [hc]; decide)).trans (if_pos hnow)

/-- R113: the FAULT report of an old outlet whose CLOSE is under way. -/
theorem closeOldReport_fault (hc : q.closeConfirmed = false) (hnow : s.mg.valves[o].confirmed ≠ .closed)
    (hf : (isFault && commandPending s ⟨o, .close⟩) = true) : closeOldReport q o isFault s = closeFailure 2 s :=
  (if_neg (by rw [hc]; decide)).trans ((if_neg hnow).trans (if_pos hf))

theorem closeOldReport_kept (h : q.closeConfirmed = true ∨ (s.mg.valves[o].confirmed ≠ .closed
    ∧ ¬ (isFault && commandPending s ⟨o, .close⟩) = true)) : closeOldReport q o isFault s = s := by
  by_cases hc : q.closeConfirmed = true
  · exact if_pos hc
  · obtain ⟨hnow, hf⟩ := h.resolve_left hc
    exact (if_neg hc).trans ((if_neg hnow).trans (if_neg hf))

end InService

/-! ## The report against the words of the statement -/

/-- R109: the command held in the list, or its stroke timer running. -/
theorem faultUnderway_iff (b : Byte) (c : Command) (s : State) :
    (decide (b = 3) && commandPending s c) = true ↔ b = 3 ∧ Underway s c := by
  unfold commandPending Underway
  rw [Bool.and_eq_true, Bool.or_eq_true, decide_eq_true_iff, List.contains_iff_mem, Option.isSome_iff_ne_none]

theorem lostFlags_eq (b : Byte) : 4 + flag (decide (b = 3)) 2 = if b = 3 then 6 else 4 := by
  by_cases hb : b = 3
  · rw [if_pos hb, decide_eq_true hb]; rfl
  · rw [if_neg hb, decide_eq_false hb]; rfl

/-- R123: a FAULT report confirms neither position. -/
theorem reportTaken_fault (f : Frame) (o : Outlet) (b : Byte) (s : State) (hb : b = 3) :
    (reportTaken f o b s).mg.valves[o].confirmed = .fault := by
  have hrecord : (reportTaken f o b s).mg.valves[o] = recordAfter b s.mg.valves[o] := Vector.getElem_set_self o.isLt
  rw [hrecord, hb]
  rfl

/-- R112: the loss of the confirmed new outlet. -/
theorem openFailure_lost (b : Byte) (q : Sequence) (s : State) (hq : s.cs.sequence = some q) :
    openFailure (4 + flag (decide (b = 3)) 2) s = openFailed q (if b = 3 then 6 else 4) (strokeElapsed s) s := by
  rw [lostFlags_eq]
  exact openFailure_eq q _ s hq

theorem watchedReport_lost (b : Byte) (q : Sequence) (was : Position) (s : State) (hq : s.cs.sequence = some q)
    (hwas : was = .opened) (hnow : s.mg.valves[q.newOutlet].confirmed ≠ .opened) :
    watchedReport q was (decide (b = 3)) s = openFailed q (if b = 3 then 6 else 4) (strokeElapsed s) s :=
  (if_pos ⟨hwas, hnow⟩).trans (openFailure_lost b q s hq)

theorem watchedReport_kept (q : Sequence) (was : Position) (isFault : Bool) (s : State)
    (h : was ≠ .opened ∨ s.mg.valves[q.newOutlet].confirmed = .opened) : watchedReport q was isFault s = s :=
  if_neg (fun k => h.elim (fun hwas => hwas k.1) (fun hnow => k.2 hnow))

/-- The guard's chance comes behind whatever the engine made of the report (R125, R129). -/
theorem afterReport_ends (s u x y : State) (h : x = y) :
    EndsEvent (afterReport s u y) (finish (afterReport s u x)) := by
  rw [h]
  exact finish_ends _

/-! ## The guard behind a report -/

/-- R129: the report that takes the last outlet off the open order of a moving line makes the guard act. -/
theorem afterReport_acts (s u x : State) (hbefore : s.mg.openOrder ≠ []) (hafter : u.mg.openOrder = [])
    (hm : x.vc.lineState = .moving) (hx : x.mg.openOrder = []) : afterReport s u x = guardActed false x :=
  (if_pos ⟨hbefore, hafter⟩).trans (if_pos ⟨hm, hx⟩)

/-- R129: no guard where the open order was empty already, stays filled, or the line is STILL. -/
theorem afterReport_waits (s u x : State)
    (h : u.mg.openOrder ≠ [] ∨ s.mg.openOrder = [] ∨ x.vc.lineState = .still) : afterReport s u x = x := by
  unfold afterReport
  split
  · rename_i hend
    have hstill := (h.resolve_left (not_not.2 hend.2)).resolve_left hend.1
    exact if_neg (fun k => by rw [hstill] at k; cases k.1)
  · rfl

/-! ## The statement -/

/-- Settles O52: each report by the phase the engine is in and the outlet it names, then the guard. -/
theorem valveReportIsTaken : Obligations.ValveReportIsTaken := by
  refine ⟨fun dst src payload s hs hl hbad => ?disregarded,
    fun dst src b o v order s hs hg ha hb he hv horder hguard => ?recorded,
    fun dst src b o s hs hg ha hb he hm hlast hnow => ?guarded,
    fun dst src b o q u s hs hg ha hb hq hu => ⟨_, exec_report dst src b o u s hs hg ha hb hu, ?inService⟩,
    fun byStart s => guard_eq byStart s⟩
  case disregarded =>
    have hignored : observeValve src payload (forwarded ⟨dst, src, 0x31, payload⟩ s)
        = forwarded ⟨dst, src, 0x31, payload⟩ s := by
      unfold observeValve
      rw [reportOf_none (forwarded ⟨dst, src, 0x31, payload⟩ s) src payload hbad]
    refine ⟨_, exec_valveStatus dst src payload s hs hl, ?_⟩
    rw [hignored]
    exact forwarded_finish _ s _ rfl hs.settled
  case recorded =>
    subst hv horder
    have huntaken := engineReport_idle o s.mg.valves[o].confirmed (decide (b = 3))
      (reportTaken ⟨dst, src, 0x31, [b]⟩ o b s) he
    refine ⟨_, exec_report dst src b o _ s hs hg ha hb rfl, ?_⟩
    rw [huntaken, afterReport_waits s _ _ hguard]
    exact forwarded_finish _ s _ rfl hs.settled
  case guarded =>
    obtain ⟨u, hu⟩ : ∃ u, u = reportTaken ⟨dst, src, 0x31, [b]⟩ o b s := ⟨_, rfl⟩
    have hempty : u.mg.openOrder = [] := by rw [hu]; exact openOrderAfter_last o _ s.mg hg hlast hnow
    refine ⟨_, exec_report dst src b o u s hs hg ha hb hu, ?_⟩
    rw [← hu, engineReport_idle o _ _ u (by rw [hu]; exact he),
      afterReport_acts s u u (by rw [hlast]; exact List.cons_ne_nil o []) hempty (by rw [hu]; exact hm) hempty]
    exact finish_ends _
  case inService =>
    have hcs : u.cs = s.cs := by rw [hu]; rfl
    have hstroke : strokeElapsed s = strokeElapsed u := by rw [hu]; rfl
    have hway : ∀ c, (decide (b = 3) && commandPending u c) = true ↔ b = 3 ∧ Underway s c := fun c => by
      rw [faultUnderway_iff]; unfold Underway; rw [hcs]
    have hfault : b = 3 → u.mg.valves[o].confirmed = .fault := by rw [hu]; exact reportTaken_fault _ o b s
    clear hu
    rw [← hcs] at hq
    rw [← hcs, hstroke]
    refine ⟨fun he ho => ?openNew, fun he ho => ?overlap, fun he ho => ?closeOldNew, fun he hnew hold => ?closeOldOld,
      fun hnew he => afterReport_ends s u _ u (engineReport_other q o _ _ u hq hnew he)⟩
    case openNew =>
      subst ho
      rw [engineReport_openNew q _ _ _ u he hq rfl]
      refine ⟨fun hwas hnow => afterReport_ends s u _ _ (openNewReport_confirmed q _ _ u hwas hnow),
        fun hwas hnow => afterReport_ends s u _ _ ?lost, fun hwas hb3 hunder => afterReport_ends s u _ _ ?fault,
        fun hsame hunder => afterReport_ends s u _ _ (openNewReport_kept q _ _ u hsame ?kept)⟩
      case lost => exact (openNewReport_lost q _ _ u hwas hnow).trans (openFailure_lost b q u hq)
      case fault =>
        exact (openNewReport_fault q _ _ u hwas (by rw [hfault hb3]; decide) ((hway _).2 ⟨hb3, hunder⟩)).trans
          (openFailure_eq q 2 u hq)
      case kept => exact fun hwas k => hunder hwas ((hway _).1 k).1 ((hway _).1 k).2
    case overlap =>
      subst ho
      rw [engineReport_overlap q _ _ _ u he hq rfl]
      exact ⟨fun hwas hnow => afterReport_ends s u _ _ (watchedReport_lost b q _ u hq hwas hnow),
        fun hkept => afterReport_ends s u _ _ (watchedReport_kept q _ _ u hkept)⟩
    case closeOldNew =>
      subst ho
      rw [engineReport_closeOld_new q _ _ _ u he hq rfl]
      refine ⟨fun hsent hwas hnow => afterReport_ends s u _ _ ?_, fun hkept => afterReport_ends s u _ _ ?_⟩
      · exact (if_neg (by rw [hsent]; decide)).trans (watchedReport_lost b q _ u hq hwas hnow)
      · by_cases hsent : q.closeSent = true
        · exact if_pos hsent
        · exact (if_neg hsent).trans (watchedReport_kept q _ _ u (hkept.resolve_left hsent))
    case closeOldOld =>
      rw [engineReport_closeOld_old q o _ _ u he hq hnew hold]
      refine ⟨fun hc hnow => afterReport_ends s u _ _ (closeOldReport_confirmed q o _ u hc hnow),
        fun hc hb3 hunder => afterReport_ends s u _ _ ?fault,
        fun hkept => afterReport_ends s u _ _ (closeOldReport_kept q o _ u (hkept.imp id (fun k => ⟨k.1, ?kept⟩)))⟩
      case fault =>
        exact (closeOldReport_fault q o _ u hc (by rw [hfault hb3]; decide) ((hway _).2 ⟨hb3, hunder⟩)).trans
          (closeFailure_eq q o 2 u hq hold)
      case kept => exact fun hf => k.2 ((hway _).1 hf).1 ((hway _).1 hf).2

end Sys2Proof.Machine
end

section
/-! PROOFS. TAKE TICKET: the 69 bytes of the oldest completed ticket, which leaves the list, the refusal of an empty
list, and a payload that is no TAKE TICKET (R150). -/

namespace Sys2Proof.Machine

/-! ## The bytes of a ticket -/

theorem outletByte_eq (o : Option Outlet) : outletByte o = outletCode o := by
  cases o <;> rfl

/-- An absent width is 0, and a width above the greatest four-byte figure is stated as that figure. -/
theorem widthBytes_eq (w : Option Mark) : widthBytes w = statedWidth w := by
  unfold widthBytes statedWidth
  cases w with
  | none => rfl
  | some m =>
    have hmin : min m.toNat 4294967295 = if 4294967295 < m.toNat then 4294967295 else m.toNat := by
      split <;> omega
    exact congrArg (beBytes 4) hmin

theorem oneByte_widthsPresent (a : Account) :
    oneByte (flag a.headWidth.isSome 1 + flag a.tailWidth.isSome 2)
      = [sumOf [(a.headWidth.isSome, 1), (a.tailWidth.isSome, 2)]] := by
  simp only [oneByte, sumOf, flag, List.map_cons, List.map_nil, List.sum_cons, List.sum_nil, Nat.add_zero]

/-- The flags of TICKET_READY and the mark of a discarded predecessor are one sum of weights. -/
theorem oneByte_ticketFlags (t : Ticket) :
    oneByte (ticketFlags t + flag t.predecessorDiscarded 16)
      = [sumOf [(t.account.fallback, 1), (t.account.overdue, 2), (t.account.excursion, 4), (t.account.wide, 8),
          (t.predecessorDiscarded, 16)]] := by
  simp only [oneByte, ticketFlags, sumOf, flag, List.map_cons, List.map_nil, List.sum_cons, List.sum_nil,
    Nat.add_assoc, Nat.add_zero]

theorem ticketData_eq (remaining : Nat) (t : Ticket) (unticketed : Mark) :
    ticketData remaining t unticketed = ticketBytes remaining t unticketed := by
  unfold ticketData ticketBytes
  rw [oneByte_widthsPresent, oneByte_ticketFlags, outletByte_eq, widthBytes_eq, widthBytes_eq]
  rfl

/-! ## TAKE TICKET -/

theorem performTakeTicket_taken (k : Ticket) (rest : List Ticket) (s : State) (h : s.tu.completed = k :: rest) :
    performTakeTicket s = (s.setTu { s.tu with completed := rest },
      .done (ticketBytes rest.length k s.tu.unticketed)) := by
  unfold performTakeTicket
  rw [h, ← ticketData_eq]

theorem performTakeTicket_empty (s : State) (h : s.tu.completed = []) :
    performTakeTicket s = refuse .notFound (bytesOf 6 s.tu.unticketed) s := by
  unfold performTakeTicket
  rw [h, fieldBytes_eq]

/-- A TAKE TICKET with parameters is no request (R150, R166). -/
theorem parseRequest_takeTicket (p : Byte) (ps : List Byte) : parseRequest (0x40 :: p :: ps) = none := by
  have hlength : lengthOk 0x40 (p :: ps).length = some false := rfl
  show (if lengthOk 0x40 (p :: ps).length = some true then requestOf 0x40 (p :: ps) else none) = none
  rw [hlength]
  rfl

/-- Settles O49: the oldest ticket leaves the list and is the answer; the refusal of an empty list and the answer to a
payload that is no TAKE TICKET leave the state as the request found it. -/
theorem ticketIsTaken : Obligations.TicketIsTaken := by
  refine ⟨fun src k rest s h hk => ?taken, fun src s h hempty => ?empty, fun src p ps s h => ?unknown⟩
  case taken =>
    exact performed_answered src 0x40 performTakeTicket _ _ s h (performTakeTicket_reaches _)
      (performTakeTicket_taken k rest (received s) hk) rfl rfl
  case empty =>
    exact unchanged_answered src 0x40 performTakeTicket _ s h (performTakeTicket_empty (received s) hempty)
  case unknown =>
    show ∃ t, requestEvent (handOverRequest src (0x40 :: p :: ps)) s = .next t ∧ _
    rw [handOverRequest_unparsed src 0x40 (p :: ps) (parseRequest_takeTicket p ps)]
    exact unchanged_answered src 0x40 performUnknown .unknown s h rfl

end Sys2Proof.Machine
end

section
/-! PROOFS. Frames as bytes: the layout against the judgement (R153, R154), and why the check finds one changed byte
(R33). -/

namespace Sys2Proof.Machine

/-! ## The layout -/

theorem beBytes_two (n : Nat) : beBytes 2 n = [BitVec.ofNat 8 (n / 256), BitVec.ofNat 8 n] := by
  simp [beBytes, Nat.shiftRight_eq_div_pow]

/-- The two check bytes, most significant first, give the check back (R33). -/
theorem ofNat_beNat_beBytes (c : BitVec 16) : BitVec.ofNat 16 (beNat (beBytes 2 c.toNat)) = c := by
  rw [beBytes_two, beNat_two]
  apply BitVec.eq_of_toNat_eq
  rw [toNat_append_byte, BitVec.toNat_ofNat, BitVec.toNat_ofNat, BitVec.toNat_ofNat]
  omega

/-- Two bytes are the check bytes of the number that they spell. -/
theorem beBytes_ofNat_beNat (bs : List Byte) (h : bs.length = 2) :
    beBytes 2 (BitVec.ofNat 16 (beNat bs)).toNat = bs := by
  obtain ⟨b1, b0, rfl⟩ := List.length_eq_two.1 h
  rw [beBytes_two, beNat_two, toNat_append_byte, BitVec.toNat_ofNat]
  have hhigh : BitVec.ofNat 8 ((b1.toNat * 256 + b0.toNat) % 2 ^ 16 / 256) = b1 := by bv_omega
  have hlow : BitVec.ofNat 8 ((b1.toNat * 256 + b0.toNat) % 2 ^ 16) = b0 := by bv_omega
  rw [hhigh, hlow]

/-- Section 9.1: a frame on the line, written out. -/
theorem frameBytes_eq (f : Frame) : frameBytes f = [0xA5, f.dst, f.src, f.kind, BitVec.ofNat 8 f.payload.length]
    ++ f.payload
    ++ [BitVec.ofNat 8 ((crc16 ([f.dst, f.src, f.kind, BitVec.ofNat 8 f.payload.length] ++ f.payload)).toNat / 256),
        BitVec.ofNat 8 (crc16 ([f.dst, f.src, f.kind, BitVec.ofNat 8 f.payload.length] ++ f.payload)).toNat] := by
  unfold frameBytes
  rw [beBytes_two]
  rfl

theorem frameBody_length (f : Frame) : (frameBody f).length = f.payload.length + 4 := rfl

theorem frameBytes_length (f : Frame) : (frameBytes f).length = f.payload.length + 7 := by
  unfold frameBytes
  rw [List.length_cons, List.length_append, frameBody_length, beBytes_length]

/-! ## The judgement -/

/-- R154: what a reception of at least five bytes must meet to be a good frame. -/
structure GoodReception (sync dst src kind len : Byte) (rest : List Byte) : Prop where
  sync : sync = 0xA5
  short : len.toNat ≤ 200
  length : rest.length = len.toNat + 2
  check : crc16 (dst :: src :: kind :: len :: rest.take len.toNat) = BitVec.ofNat 16 (beNat (rest.drop len.toNat))

theorem judgeFrame_iff (sync dst src kind len : Byte) (rest : List Byte) (f : Frame) :
    judgeFrame (sync :: dst :: src :: kind :: len :: rest) = some f
      ↔ GoodReception sync dst src kind len rest ∧ ⟨dst, src, kind, rest.take len.toNat⟩ = f := by
  unfold judgeFrame
  rw [Option.ite_none_right_eq_some, Option.some.injEq]
  refine and_congr_left fun _ => ?_
  simp only [Bool.and_eq_true, beq_iff_eq, decide_eq_true_eq]
  exact ⟨fun ⟨⟨⟨hsync, hshort⟩, hlength⟩, hcheck⟩ => ⟨hsync, hshort, hlength, hcheck⟩,
    fun h => ⟨⟨⟨h.sync, h.short⟩, h.length⟩, h.check⟩⟩

/-- A reception shorter than the five bytes before a payload is no frame. -/
theorem five_of_judgeFrame (bytes : List Byte) (f : Frame) (h : judgeFrame bytes = some f) :
    ∃ sync dst src kind len rest, bytes = sync :: dst :: src :: kind :: len :: rest := by
  unfold judgeFrame at h
  split at h
  · exact ⟨_, _, _, _, _, _, rfl⟩
  · cases h

/-- A good reception is its frame on the line. -/
theorem GoodReception.layout {sync dst src kind len : Byte} {rest : List Byte}
    (h : GoodReception sync dst src kind len rest) :
    frameBytes ⟨dst, src, kind, rest.take len.toNat⟩ = sync :: dst :: src :: kind :: len :: rest := by
  have hlen : BitVec.ofNat 8 (rest.take len.toNat).length = len := by
    rw [List.length_take_of_le (by rw [h.length]; omega), BitVec.ofNat_toNat, BitVec.setWidth_eq]
  have hcheck : beBytes 2 (BitVec.ofNat 16 (beNat (rest.drop len.toNat))).toNat = rest.drop len.toNat :=
    beBytes_ofNat_beNat _ (by rw [List.length_drop, h.length]; omega)
  unfold frameBytes frameBody
  simp only
  rw [hlen, h.check, hcheck, h.sync, List.cons_append, List.cons_append, List.cons_append, List.cons_append,
    List.take_append_drop]
  rfl

/-- A payload that a frame can carry has its length in one byte. -/
theorem lengthByte_toNat (n : Nat) (h : n ≤ 200) : (BitVec.ofNat 8 n).toNat = n :=
  Nat.mod_eq_of_lt (h.trans_lt (by decide))

/-- A frame on the line is a good reception of its own payload. -/
theorem goodReception_of_frame (f : Frame) (h : f.payload.length ≤ 200) :
    GoodReception 0xA5 f.dst f.src f.kind (BitVec.ofNat 8 f.payload.length)
      (f.payload ++ beBytes 2 (crc16 (frameBody f)).toNat) := by
  have hlen := lengthByte_toNat f.payload.length h
  refine ⟨rfl, hlen.le.trans h, ?_, ?_⟩
  · rw [List.length_append, beBytes_length, hlen]
  · rw [hlen, List.take_left, List.drop_left, ofNat_beNat_beBytes]
    rfl

/-- R154: the judgement inverts the layout. -/
theorem judgeFrame_eq_some_iff (bytes : List Byte) (f : Frame) :
    judgeFrame bytes = some f ↔ f.payload.length ≤ 200 ∧ bytes = frameBytes f := by
  constructor
  · intro h
    obtain ⟨sync, dst, src, kind, len, rest, rfl⟩ := five_of_judgeFrame bytes f h
    obtain ⟨hgood, rfl⟩ := (judgeFrame_iff sync dst src kind len rest f).1 h
    exact ⟨(List.length_take_le _ _).trans hgood.short, hgood.layout.symm⟩
  · rintro ⟨hshort, rfl⟩
    have hpayload : (f.payload ++ beBytes 2 (crc16 (frameBody f)).toNat).take (BitVec.ofNat 8 f.payload.length).toNat
        = f.payload := by
      rw [lengthByte_toNat f.payload.length hshort, List.take_left]
    exact (judgeFrame_iff _ _ _ _ _ _ f).2
      ⟨goodReception_of_frame f hshort, congrArg (Frame.mk f.dst f.src f.kind) hpayload⟩

/-- Settles O8: the layout of the statement is the frame on the line. -/
theorem frameJudgementInvertsLayout : Obligations.FrameJudgementInvertsLayout := by
  intro bytes f
  rw [judgeFrame_eq_some_iff, frameBytes_eq]

/-! ## The check finds one changed byte -/

/-- 0x1021 is odd, so the bit shifted out can be read from the register after the shift. -/
theorem crcShift_getLsbD_zero (r : BitVec 16) : (crcShift r).getLsbD 0 = r.msb := by
  unfold crcShift
  cases h : r.msb <;> simp

theorem crcShift_injective : Function.Injective crcShift := by
  intro a b h
  have hmsb : a.msb = b.msb := by rw [← crcShift_getLsbD_zero, ← crcShift_getLsbD_zero, h]
  have hshift : a <<< 1 = b <<< 1 := by
    unfold crcShift at h
    rw [hmsb] at h
    split at h
    · exact (BitVec.xor_left_inj _).1 h
    · exact h
  refine BitVec.eq_of_getLsbD_eq fun i hi => ?_
  rcases Nat.lt_succ_iff_lt_or_eq.1 hi with hlow | rfl
  · have hbit (r : BitVec 16) : (r <<< 1).getLsbD (i + 1) = r.getLsbD i := by
      simp only [BitVec.getLsbD_shiftLeft, Nat.succ_lt_succ hlow, Nat.not_lt.2 (Nat.le_add_left 1 i), decide_true,
        decide_false, Bool.not_false, Bool.true_and, Nat.add_sub_cancel]
    rw [← hbit a, ← hbit b, hshift]
  · exact hmsb

theorem crcShifts_injective : ∀ n : Nat, Function.Injective (crcShifts n)
  | 0 => fun _ _ h => h
  | n + 1 => (crcShifts_injective n).comp crcShift_injective

theorem crcByte_injective (b : Byte) : Function.Injective (crcByte · b) :=
  fun _ _ h => (BitVec.xor_left_inj _).1 (crcShifts_injective 8 h)

/-- Different bytes taken into one register leave it different. -/
theorem crcByte_byte_injective (r : BitVec 16) : Function.Injective (crcByte r) := by
  intro b c h
  have hshift : b.setWidth 16 <<< 8 = c.setWidth 16 <<< 8 := (BitVec.xor_right_inj _).1 (crcShifts_injective 8 h)
  bv_omega

theorem foldl_crcByte_injective (l : List Byte) : Function.Injective (l.foldl crcByte ·) := by
  induction l with
  | nil => exact fun _ _ h => h
  | cons b l ih => exact ih.comp (crcByte_injective b)

/-- R33: a list in which one byte is changed has another CRC. -/
theorem foldl_crcByte_set_ne (b : Byte) (l : List Byte) : ∀ (r : BitVec 16) (i : Nat), i < l.length → l[i]? ≠ some b →
    (l.set i b).foldl crcByte r ≠ l.foldl crcByte r := by
  induction l with
  | nil => exact fun r i hi => absurd hi (Nat.not_lt_zero i)
  | cons c l ih =>
    intro r i hi hne
    cases i with
    | zero => exact fun h => hne (congrArg some (crcByte_byte_injective r (foldl_crcByte_injective l h)).symm)
    | succ i => exact ih (crcByte r c) i (Nat.lt_of_succ_lt_succ hi) hne

theorem crc16_set_ne (b : Byte) (l : List Byte) (i : Nat) (hi : i < l.length) (hne : l[i]? ≠ some b) :
    crc16 (l.set i b) ≠ crc16 l :=
  foldl_crcByte_set_ne b l _ i hi hne

/-- A body and its check with one byte changed, in the body or in the check, are no body with its check. -/
theorem checked_set_ne (b : Byte) (body body' : List Byte) (i : Nat) (hl : body'.length = body.length)
    (hi : i < (body ++ beBytes 2 (crc16 body).toNat).length)
    (hne : (body ++ beBytes 2 (crc16 body).toNat)[i]? ≠ some b) :
    (body ++ beBytes 2 (crc16 body).toNat).set i b ≠ body' ++ beBytes 2 (crc16 body').toNat := by
  intro h
  by_cases hin : i < body.length
  · rw [List.set_append_left _ _ hin] at h
    rw [List.getElem?_append_left hin] at hne
    obtain ⟨hbody, hcheck⟩ := List.append_inj h (by rw [List.length_set, hl])
    have hcrc : crc16 body = crc16 body' := by
      rw [← ofNat_beNat_beBytes (crc16 body), hcheck, ofNat_beNat_beBytes]
    exact crc16_set_ne b body i hin hne (hbody ▸ hcrc.symm)
  · rw [List.set_append_right _ _ (Nat.le_of_not_lt hin)] at h
    rw [List.getElem?_append_right (Nat.le_of_not_lt hin)] at hne
    rw [List.length_append] at hi
    obtain ⟨hbody, hcheck⟩ := List.append_inj h hl.symm
    rw [← hbody] at hcheck
    refine hne ?_
    rw [← hcheck]
    exact List.getElem?_set_self (by omega)

/-- Settles O9: a changed sync byte is no sync byte, and a change behind it is in the body or in the check. -/
theorem oneCorruptByteIsDropped : Obligations.OneCorruptByteIsDropped := by
  intro f i b _ hi hne
  refine Option.eq_none_iff_forall_ne_some.2 fun g hg => ?_
  obtain ⟨-, hbytes⟩ := (judgeFrame_eq_some_iff _ g).1 hg
  have hlength : (frameBody g).length = (frameBody f).length := by
    have := congrArg List.length hbytes
    rw [List.length_set, frameBytes_length, frameBytes_length] at this
    rw [frameBody_length, frameBody_length]
    omega
  unfold frameBytes at hbytes hi hne
  cases i with
  | zero => exact hne (congrArg some (List.head_eq_of_cons_eq hbytes).symm)
  | succ i =>
    exact checked_set_ne b (frameBody f) (frameBody g) i hlength (Nat.lt_of_succ_lt_succ hi) hne
      (List.tail_eq_of_cons_eq hbytes)

end Sys2Proof.Machine
end

section
/-! PROOFS. Receivers (R153) and the frames they end (R154 to R156): bytes collected, frames dropped, frames that pass.
-/

namespace Sys2Proof.Machine

/-! ## What a reception leaves alone -/

/-- `t` is `s` but for the receiver of port `p` and transmitters that may have begun. -/
structure OnlyReceiver (p : Port) (s t : State) : Prop where
  rest : t = { s with liu := t.liu }
  address : t.liu.address = s.liu.address
  kept : ∀ q, PortKept { s.port q with rx := (t.port q).rx } (t.port q)
  others : ∀ q, q ≠ p → (t.port q).rx = (s.port q).rx

theorem OnlyReceiver.refl (p : Port) (s : State) : OnlyReceiver p s s :=
  ⟨rfl, rfl, fun _ => ⟨rfl, rfl, rfl, fun _ h => h⟩, fun _ _ => rfl⟩

theorem OnlyReceiver.trans {p : Port} {s t u : State} (h : OnlyReceiver p s t) (k : OnlyReceiver p t u) :
    OnlyReceiver p s u where
  rest := by rw [k.rest, h.rest]
  address := k.address.trans h.address
  kept q := ⟨rfl, (k.kept q).forward.trans (h.kept q).forward, (k.kept q).originated.trans (h.kept q).originated,
    fun x hx => (k.kept q).sending x ((h.kept q).sending x hx)⟩
  others q hq := (k.others q hq).trans (h.others q hq)

theorem OnlyReceiver.settled {p : Port} {s t : State} (h : OnlyReceiver p s t) (hs : s.nu.testDue = false) :
    t.nu.testDue = false := by rw [h.rest]; exact hs

/-- A port whose receiver is not that of another one. -/
theorem OnlyReceiver.port_kept {p : Port} {s t : State} (h : OnlyReceiver p s t) (q : Port)
    (hq : (t.port q).rx = (s.port q).rx) : PortKept (s.port q) (t.port q) :=
  ⟨hq, (h.kept q).forward, (h.kept q).originated, (h.kept q).sending⟩

theorem OnlyReceiver.port_ended {p : Port} {s t : State} (h : OnlyReceiver p s t) (hp : (t.port p).rx = .hunt) :
    PortEnded (s.port p) (t.port p) :=
  ⟨hp, (h.kept p).forward, (h.kept p).originated, (h.kept p).sending⟩

theorem port_setPort_same (p : Port) (l : PortLink) (s : State) : (s.setPort p l).port p = l := by cases p <;> rfl

theorem port_setPort_ne (p q : Port) (l : PortLink) (s : State) (h : q ≠ p) : (s.setPort p l).port q = s.port q := by
  cases p with
  | field =>
    cases q with
    | field => exact absurd rfl h
    | control => rfl
  | control =>
    cases q with
    | field => rfl
    | control => exact absurd rfl h

theorem setReceiver_only (p : Port) (r : Receiver) (s : State) :
    OnlyReceiver p s (s.setPort p { s.port p with rx := r }) where
  rest := by cases p <;> rfl
  address := by cases p <;> rfl
  kept q := by
    by_cases hq : q = p
    · rw [hq, port_setPort_same]; exact ⟨rfl, rfl, rfl, fun _ h => h⟩
    · rw [port_setPort_ne p q _ s hq]; exact ⟨rfl, rfl, rfl, fun _ h => h⟩
  others q hq := by rw [port_setPort_ne p q _ s hq]

/-- The end of an event that raised nothing only begins transmissions. -/
theorem finish_only (p : Port) (s : State) (h : s.nu.testDue = false) : OnlyReceiver p s (finish s) where
  rest := finish_rest s h
  address := (finish_settles s).address
  kept q := ⟨rfl, (finish_ports s h q).forward, (finish_ports s h q).originated, (finish_ports s h q).sending⟩
  others q _ := (finish_ports s h q).rx

/-- An event that sets a receiver and raises nothing. -/
theorem receiver_finish (p : Port) (r : Receiver) (s : State) (h : s.nu.testDue = false) :
    OnlyReceiver p s (finish (s.setPort p { s.port p with rx := r }))
      ∧ ((finish (s.setPort p { s.port p with rx := r })).port p).rx = r := by
  have hset := setReceiver_only p r s
  have hn := hset.settled h
  refine ⟨hset.trans (finish_only p _ hn), (finish_ports _ hn p).rx.trans ?_⟩
  rw [port_setPort_same]

/-! ## Bytes -/

theorem exec_laterByte (p : Port) (b : Byte) (s : State) (h : s.inReset = false) :
    exec (.frameByteReceived p false b) s = .next (finish (laterByte p b s)) :=
  congrArg Host.Outcome.next (unlessInReset_released _ s h)

theorem exec_firstByte (p : Port) (b : Byte) (s : State) (h : s.inReset = false) :
    exec (.frameByteReceived p true b) s = .next (finish (firstByte p b (finish (endAtGap p s)))) :=
  congrArg Host.Outcome.next (unlessInReset_released _ s h)

theorem laterByte_hunt (p : Port) (b : Byte) (s : State) (h : (s.port p).rx = .hunt) : laterByte p b s = s := by
  unfold laterByte
  rw [h]

theorem laterByte_receiving (p : Port) (b : Byte) (bytes : List Byte) (overrun : Bool) (s : State)
    (h : (s.port p).rx = .receiving bytes overrun) :
    laterByte p b s = s.setPort p { s.port p with rx := keepByte bytes overrun b } := by
  unfold laterByte
  rw [h]

theorem endAtGap_hunt (p : Port) (s : State) (h : (s.port p).rx = .hunt) : endAtGap p s = s := by
  unfold endAtGap
  rw [h]

theorem endAtGap_overrun (p : Port) (bytes : List Byte) (s : State) (h : (s.port p).rx = .receiving bytes true) :
    endAtGap p s = endReception p s := by
  unfold endAtGap
  rw [h]
  rfl

theorem endAtGap_receiving (p : Port) (bytes : List Byte) (s : State) (h : (s.port p).rx = .receiving bytes false) :
    endAtGap p s = receiveBytes p bytes s := by
  unfold endAtGap
  rw [h]
  rfl

/-- A frame begun after a gap at which nothing but the receiver changed. -/
theorem firstByte_only (p : Port) (b : Byte) (s u : State) (hs : s.nu.testDue = false) (hu : OnlyReceiver p s u) :
    OnlyReceiver p s (finish (firstByte p b (finish u)))
      ∧ ((finish (firstByte p b (finish u))).port p).rx = .receiving [b] false := by
  have hended := hu.trans (finish_only p u (hu.settled hs))
  obtain ⟨honly, hrx⟩ := receiver_finish p (.receiving [b] false) (finish u) (hended.settled hs)
  exact ⟨hended.trans honly, hrx⟩

/-- Settles O10, by what the receiver was doing and whether a gap came before the byte. -/
theorem receiverCollectsBytes : Obligations.ReceiverCollectsBytes := by
  intro p b s hs
  refine ⟨fun gap => ⟨_, rfl⟩, fun hrx t ht => ?disregarded, fun bytes overrun hrx t ht => ?kept,
    fun hrx t ht => ?begun⟩
  case disregarded =>
    rw [exec_laterByte p b s hs.released, laterByte_hunt p b s hrx] at ht
    cases ht
    exact ⟨finish_rest s hs.settled, (finish_settles s).address, finish_ports s hs.settled⟩
  case kept =>
    rw [exec_laterByte p b s hs.released, laterByte_receiving p b bytes overrun s hrx] at ht
    cases ht
    obtain ⟨honly, hkept⟩ := receiver_finish p (keepByte bytes overrun b) s hs.settled
    exact ⟨honly.rest, honly.address, hkept, fun q => ⟨honly.kept q, honly.others q⟩⟩
  case begun =>
    rw [exec_firstByte p b s hs.released, endAtGap_hunt p s hrx] at ht
    cases ht
    obtain ⟨honly, hbegun⟩ := firstByte_only p b s s hs.settled (OnlyReceiver.refl p s)
    exact ⟨honly.rest, honly.address, hbegun, fun q => ⟨honly.kept q, honly.others q⟩⟩

/-! ## Frames dropped -/

/-- DROPPED_FRAME outside a reset: the bytes are judged and the event ends. -/
theorem exec_droppedFrame (p : Port) (bytes : List Byte) (s : State) (h : s.inReset = false) :
    exec (.droppedFrame p bytes) s = .next (finish (receiveBytes p bytes s)) :=
  congrArg Host.Outcome.next (unlessInReset_released _ s h)

theorem receiveBytes_bad (p : Port) (bytes : List Byte) (s : State) (h : judgeFrame bytes = none) :
    receiveBytes p bytes s = endReception p s := by
  unfold receiveBytes
  rw [h]

theorem receiveBytes_good (p : Port) (bytes : List Byte) (f : Frame) (h : judgeFrame bytes = some f) :
    receiveBytes p bytes = receiveFrame p f := by
  funext s
  unfold receiveBytes
  rw [h]

/-- Settles O12: nothing but the receiver changes. -/
theorem failedFrameIsDiscarded : Obligations.FailedFrameIsDiscarded := by
  intro p bytes s hs hbad
  obtain ⟨honly, hhunt⟩ := receiver_finish p .hunt s hs.settled
  refine ⟨_, (exec_droppedFrame p bytes s hs.released).trans ?_, honly.rest, honly.address, honly.port_ended hhunt,
    fun q hq => honly.port_kept q (honly.others q hq)⟩
  rw [receiveBytes_bad p bytes s hbad]
  rfl

/-! ## The frame that a gap ends -/

/-- A transmitter that had its chance begins nothing more when only its receiver changes (R160). -/
theorem beginSending_again (r : Receiver) (l : PortLink) :
    beginSending { beginSending l with rx := r } = { beginSending l with rx := r } := by
  obtain ⟨rx, forward, originated, tx⟩ := l
  cases tx with
  | some x => rfl
  | none => cases originated <;> cases forward <;> rfl

/-- Both transmitters had their chance, and only a receiver changed since. -/
theorem beginTransmissions_again (p : Port) (r : Receiver) (s : State) :
    beginTransmissions ((beginTransmissions s).setPort p { (beginTransmissions s).port p with rx := r })
      = (beginTransmissions s).setPort p { (beginTransmissions s).port p with rx := r } := by
  cases p with
  | field =>
    exact congrArg s.setLiu (congrArg₂ (LinkUnit.mk s.liu.address) (beginSending_again r s.liu.field)
      (beginSending_again (beginSending s.liu.control).rx s.liu.control))
  | control =>
    exact congrArg s.setLiu (congrArg₂ (LinkUnit.mk s.liu.address)
      (beginSending_again (beginSending s.liu.field).rx s.liu.field) (beginSending_again r s.liu.control))

/-- After an event a byte that begins a frame changes its receiver and nothing else. -/
theorem finish_firstByte (p : Port) (b : Byte) (s : State) :
    finish (firstByte p b (finish s))
      = (finish s).setPort p { (finish s).port p with rx := .receiving [b] false } := by
  have hn : (firstByte p b (finish s)).nu.testDue = false :=
    (setReceiver_only p (.receiving [b] false) (finish s)).settled (finish_testDue s)
  rw [finish_settled _ hn]
  exact beginTransmissions_again p (.receiving [b] false) (dueEmission s)

/-- Settles O11: the frame that a gap ends is a dropped frame's event, then the byte; and the rows of a good frame are
one event by the frame's own kind. -/
theorem gapEndsTheCollectedFrame : Obligations.GapEndsTheCollectedFrame := by
  refine ⟨fun p b bytes s t u hs hrx ht hu => ?judged, fun p b bytes s hs hrx => ?overrun,
    fun bytes f s hgood => ?handedOn, fun dst src payload s => ⟨rfl, rfl, rfl⟩⟩
  case judged =>
    rw [exec_droppedFrame p bytes s hs.released] at ht
    rw [exec_firstByte p b s hs.released, endAtGap_receiving p bytes s hrx] at hu
    cases ht
    cases hu
    exact finish_firstByte p b _
  case overrun =>
    obtain ⟨honly, hbegun⟩ := firstByte_only p b s _ hs.settled (setReceiver_only p .hunt s)
    refine ⟨_, (exec_firstByte p b s hs.released).trans ?_, honly.rest, honly.address, hbegun,
      fun q => ⟨honly.kept q, honly.others q⟩⟩
    rw [endAtGap_overrun p bytes s hrx]
    rfl
  case handedOn =>
    have hdropped (p : Port) : exec (.droppedFrame p bytes) s = .next (unlessInReset (receiveFrame p f) s) := by
      show Host.Outcome.next (unlessInReset (receiveBytes p bytes) s) = _
      rw [receiveBytes_good p bytes f hgood]
    exact ⟨hdropped .field, hdropped .control⟩

/-! ## Frames that pass -/

/-- R155: a kind that no block observes. -/
theorem observeField_other (f : Frame) (s : State) (h1 : f.kind ≠ kindMeterTotal) (h2 : f.kind ≠ kindDensitySample)
    (h3 : f.kind ≠ kindValveStatus) : observeField f s = s := by
  unfold observeField
  rw [if_neg h1, if_neg h2, if_neg h3]

/-- Settles O13: the observer of such a kind does nothing. -/
theorem fieldFrameIsForwarded : Obligations.FieldFrameIsForwarded := by
  intro f s hs hwf
  unfold WellFormed payloadOk at hwf
  simp only [Bool.and_eq_true, decide_eq_true_eq, bne_iff_ne] at hwf
  obtain ⟨⟨⟨hshort, hmeter⟩, hdensity⟩, hvalve⟩ := hwf
  have hreceived : receiveFrame .field f s = forwarded f s :=
    (receiveFrame_field f s hshort).trans (observeField_other f _ hmeter hdensity hvalve)
  refine ⟨_, congrArg Host.Outcome.next (unlessInReset_released _ s hs.released), ?_⟩
  rw [hreceived]
  exact forwarded_finish f s _ rfl hs.settled

/-- CONTROL_FRAME outside a reset: the reception ends, the frame is sorted, and the event ends. -/
theorem receiveFrame_control (f : Frame) (s : State) (h : f.payload.length ≤ 200) :
    receiveFrame .control f s = handOnControl f (received s) :=
  if_pos h

theorem manifoldOutlet_none (f : Frame) (s : State)
    (h : f.kind = 0x32 → ∀ o : Outlet, s.ts.active.outlets[o].valveAddress ≠ f.dst) : manifoldOutlet s f = none := by
  unfold manifoldOutlet outletAtAddress
  split
  · rename_i hkind
    exact List.find?_eq_none.2 fun o _ ho => h hkind o (beq_iff_eq.1 ho)
  · rfl

/-- R156: a frame to another address that is no manifold command passes. -/
theorem handOnControl_passes (f : Frame) (s : State) (hd : f.dst ≠ s.liu.address) (hto : manifoldOutlet s f = none) :
    handOnControl f s = offerForward .field f s := by
  unfold handOnControl
  rw [if_neg hd, hto]

/-- R156: a frame to the part that is no request is discarded. -/
theorem handOnControl_discards (f : Frame) (s : State) (hd : f.dst = s.liu.address) (hk : f.kind ≠ kindRequest) :
    handOnControl f s = s := by
  unfold handOnControl
  rw [if_pos hd, if_neg hk]

/-- Settles O14, by the lines of the table of R156. -/
theorem controlFrameIsSorted : Obligations.ControlFrameIsSorted := by
  refine ⟨fun f s hs hshort hd hto => ?passes, fun src kind payload s hs hshort hkind => ⟨rfl, ?consumed⟩,
    fun dst src payload s => rfl⟩
  case passes =>
    have hpassed : receiveFrame .control f s = passed f s :=
      (receiveFrame_control f s hshort).trans ((handOnControl_passes f (received s) hd
        (manifoldOutlet_none f (received s) hto)).trans (offerForward_received f s))
    refine ⟨_, congrArg Host.Outcome.next (unlessInReset_released _ s hs.released), ?_⟩
    rw [hpassed]
    exact passed_finish f s _ rfl hs.settled
  case consumed =>
    have hdiscarded : receiveFrame .control ⟨s.liu.address, src, kind, payload⟩ s = endReception .control s :=
      (receiveFrame_control _ s hshort).trans (handOnControl_discards _ (received s) rfl hkind)
    obtain ⟨honly, hhunt⟩ := receiver_finish .control .hunt s hs.settled
    refine ⟨_, congrArg Host.Outcome.next (unlessInReset_released _ s hs.released), ?_⟩
    rw [hdiscarded]
    exact ⟨honly.rest, honly.address, honly.port_ended hhunt,
      honly.port_kept .field (honly.others .field Port.noConfusion)⟩

end Sys2Proof.Machine
end

section
/-! PROOFS. The end of a transmission (R159, R160): the frame sent leaves its queue, and the freed place goes to a
command of the list, to a held response, or, at the end of the restart response, to the reset (R163, R173). -/

namespace Sys2Proof.Machine

/-- FRAME_TRANSMITTED outside a reset: the transmission ends, and so does the event. -/
theorem exec_frameTransmitted (p : Port) (s : State) (h : s.inReset = false) :
    exec (.frameTransmitted p) s = .next (finish (endTransmission p s)) :=
  congrArg Host.Outcome.next (unlessInReset_released _ s h)

/-- R160: what the frame sent leaves of its port. -/
theorem releaseHead_eq (l : PortLink) (x : TxSource) (h : l.tx = some x) : releaseHead l = { l with
    originated := if x = .originated then l.originated.tail else l.originated
    forward := if x = .forward then l.forward.tail else l.forward
    tx := none } := by
  unfold releaseHead
  rw [h]
  cases x <;> rfl

/-- R160: the frame sent from the originated queue of port `p` left it. -/
def originatedSent (p : Port) (s : State) : State :=
  s.setPort p { s.port p with originated := (s.port p).originated.tail, tx := none }

theorem endTransmission_forward (p : Port) (s : State) (htx : (s.port p).tx = some .forward) :
    endTransmission p s = s.setPort p (releaseHead (s.port p)) := by
  unfold endTransmission
  simp only [htx]

theorem endTransmission_field (s : State) (htx : s.liu.field.tx = some .originated) :
    endTransmission .field s = offerCommands (originatedSent .field s) := by
  have hl : (s.port .field).tx = some .originated := htx
  unfold endTransmission
  simp only [hl]
  rw [releaseHead_eq (s.port .field) .originated hl]
  rfl

theorem frameSending_originated (l : PortLink) (h : l.tx = some .originated) : frameSending l = l.originated.head? := by
  unfold frameSending
  rw [h]

/-- R159 and R163: an originated frame sent on CONTROL ends the restart, or frees its place. -/
theorem endTransmission_control (s : State) (htx : s.liu.control.tx = some .originated) :
    endTransmission .control s =
      if endsRestart s s.liu.control.originated.head? then resetAll s.liu.address (originatedSent .control s)
      else controlPlaceFreed (originatedSent .control s) := by
  have hl : (s.port .control).tx = some .originated := htx
  unfold endTransmission
  simp only [hl]
  rw [frameSending_originated _ hl, releaseHead_eq (s.port .control) .originated hl]
  rfl

/-! ## The restart response -/

/-- R163: the frame whose transmission ends is the restart response. -/
theorem endsRestart_of_response (f : Frame) (s : State) (hm : s.mr.state = .restartPending)
    (hheld : s.mr.heldResponse = none) (hf : s.mr.restartResponse = some f) : endsRestart s (some f) = true := by
  unfold endsRestart
  rw [hm, hheld, hf]
  simp

/-- No notice is due after a reset and both queues are empty, so the event ends with the reset values. -/
theorem finish_resetAll (address : Byte) (s : State) : finish (resetAll address s) = resetAll address s := rfl

/-- Settles O6: the reset of the restart is that of a power-on with the address as it was. -/
theorem restartTakesEffectAtItsResponse : Obligations.RestartTakesEffectAtItsResponse := by
  intro s f hr hm hheld hf htx hhead
  have hends : endsRestart s s.liu.control.originated.head? = true :=
    hhead ▸ endsRestart_of_response f s hm hheld hf
  rw [exec_frameTransmitted .control s hr, endTransmission_control s htx, if_pos hends, finish_resetAll]
  rfl

/-! ## Queues -/

/-- A place has freed in the queue. -/
theorem originatedSent_free (p : Port) (s : State) (h : (s.port p).originated.length ≤ 4) :
    ((originatedSent p s).port p).originated.length < 4 := by
  unfold originatedSent
  rw [port_setPort_same, List.length_tail]
  omega

theorem enterCommands_full (l : List Command) (s : State) (h : 4 ≤ s.liu.field.originated.length) :
    enterCommands l s = s := by
  cases l with
  | nil => rfl
  | cons c rest => exact if_neg fun hfree => absurd (of_decide_eq_true hfree) (Nat.not_lt.2 h)

theorem enterCommands_free (c : Command) (rest : List Command) (s : State) (h : s.liu.field.originated.length < 4) :
    enterCommands (c :: rest) s = enterCommands rest (enterCommand c (s.setCs { s.cs with commands := rest })) :=
  if_pos (decide_eq_true h)

/-- R106: the CLOSE that is discarded. -/
theorem closeBarred_iff (c : Command) (s : State) : closeBarred s c = true
    ↔ c.move = .close ∧ s.vc.lineState = .moving ∧ s.mg.openOrder = [c.outlet] := by
  unfold closeBarred State.moving
  rw [Bool.and_eq_true, Bool.and_eq_true, beq_iff_eq, beq_iff_eq, beq_iff_eq, and_assoc]

theorem enterCommand_barred (c : Command) (s : State) (h : closeBarred s c = true) : enterCommand c s = s := if_pos h

/-- R106: the oldest command takes the freed place, and the queue is full again. -/
theorem offerCommands_enters (c : Command) (rest : List Command) (s : State)
    (hl : s.liu.field.originated.length = 4) (hc : s.cs.commands = c :: rest)
    (hb : ¬ (c.move = .close ∧ s.vc.lineState = .moving ∧ s.mg.openOrder = [c.outlet])) :
    offerCommands (originatedSent .field s) = commandEntered c rest s := by
  have hroom := originatedSent_free .field s hl.le
  have hcommands : (originatedSent .field s).cs.commands = c :: rest := hc
  have hpasses : closeBarred ((originatedSent .field s).setCs { s.cs with commands := rest }) c = false :=
    Bool.eq_false_iff.2 fun k => hb ((closeBarred_iff c _).1 k)
  have hentered : enterCommand c ((originatedSent .field s).setCs { s.cs with commands := rest })
      = commandEntered c rest s :=
    enterCommand_sends c _ hroom hpasses
  have hfull : 4 ≤ (commandEntered c rest s).liu.field.originated.length := by
    show 4 ≤ (s.liu.field.originated.tail ++ [_]).length
    rw [List.length_append, List.length_tail, hl, List.length_singleton]
  unfold offerCommands
  rw [hcommands, enterCommands_free c rest _ hroom]
  exact (congrArg (enterCommands rest) hentered).trans (enterCommands_full rest _ hfull)

/-- R106: the only command of the list, a CLOSE that is discarded. -/
theorem offerCommands_discards (c : Command) (s : State) (hl : s.liu.field.originated.length < 4)
    (hc : s.cs.commands = [c]) (hb : c.move = .close ∧ s.vc.lineState = .moving ∧ s.mg.openOrder = [c.outlet]) :
    offerCommands s = s.setCs { s.cs with commands := [] } := by
  unfold offerCommands
  rw [hc, enterCommands_free c [] s hl,
    enterCommand_barred c (s.setCs { s.cs with commands := [] }) ((closeBarred_iff c _).2 hb)]
  rfl

/-- R160: with no command waiting the frame sent leaves its queue and nothing else happens. -/
theorem endTransmission_releases (p : Port) (x : TxSource) (s : State) (htx : (s.port p).tx = some x)
    (hc : s.cs.commands = []) (hp : p = .control → x = .forward) :
    endTransmission p s = s.setPort p (releaseHead (s.port p)) := by
  cases x with
  | forward => exact endTransmission_forward p s htx
  | originated =>
    cases p with
    | control => exact absurd (hp rfl) TxSource.noConfusion
    | field =>
      rw [endTransmission_field s htx, releaseHead_eq _ _ htx]
      have hnone : (originatedSent .field s).cs.commands = [] := hc
      unfold offerCommands
      rw [hnone]
      rfl

/-- The end of an event that only replaced a port and raised nothing. -/
theorem setPort_finish (p : Port) (l : PortLink) (s : State) (hs : s.nu.testDue = false) :
    finish (s.setPort p l) = { s with liu := (finish (s.setPort p l)).liu }
      ∧ (finish (s.setPort p l)).liu.address = s.liu.address ∧ PortKept l ((finish (s.setPort p l)).port p)
      ∧ ∀ q, q ≠ p → PortKept (s.port q) ((finish (s.setPort p l)).port q) := by
  have hn : (s.setPort p l).nu.testDue = false := by cases p <;> exact hs
  refine ⟨?_, ?_, ?_, fun q hq => ?_⟩
  · refine (finish_rest _ hn).trans ?_
    cases p <;> rfl
  · refine (finish_settles _).address.trans ?_
    cases p <;> rfl
  · have hkept := finish_ports _ hn p
    rwa [port_setPort_same] at hkept
  · have hkept := finish_ports _ hn q
    rwa [port_setPort_ne p q l s hq] at hkept

/-- Settles O16: an empty command list leaves the release alone, a command enters the freed place, or it is discarded.
-/
theorem sentFrameLeavesItsQueue : Obligations.SentFrameLeavesItsQueue := by
  refine ⟨fun p s x hs htx hc hp => ?released, fun s c rest hs htx hl hc hb => ?entered,
    fun s c hs htx hl hc hclose hmoving hopen => ?discarded⟩
  case released =>
    refine ⟨_, exec_frameTransmitted p s hs.released, ?_⟩
    rw [endTransmission_releases p x s htx hc hp, releaseHead_eq _ x htx]
    obtain ⟨hrest, haddress, hkept, hothers⟩ := setPort_finish p _ s hs.settled
    exact ⟨hrest, haddress, hkept.rx, hkept.originated, hkept.forward, hothers⟩
  case entered =>
    refine ⟨_, exec_frameTransmitted .field s hs.released, ?_⟩
    rw [endTransmission_field s htx, offerCommands_enters c rest s hl hc hb]
    exact finish_ends _
  case discarded =>
    refine ⟨_, exec_frameTransmitted .field s hs.released, ?_⟩
    rw [endTransmission_field s htx,
      offerCommands_discards c _ (originatedSent_free .field s hl.le) hc ⟨hclose, hmoving, hopen⟩]
    exact finish_ends _

/-! ## The held response -/

/-- No restart is ended: a response is held, the MR waits for none, or the frame sent is not its response (R163). -/
theorem not_endsRestart (sent : Option Frame) (s : State)
    (h : s.mr.heldResponse ≠ none ∨ s.mr.state ≠ .restartPending ∨ sent = none ∨ s.mr.restartResponse ≠ sent) :
    ¬ endsRestart s sent = true := by
  intro hends
  unfold endsRestart at hends
  simp only [Bool.and_eq_true, beq_iff_eq, Option.isNone_iff_eq_none, Option.isSome_iff_ne_none] at hends
  obtain ⟨⟨⟨hstate, hheld⟩, hsent⟩, hresponse⟩ := hends
  rcases h with h | h | h | h
  · exact h hheld
  · exact h hstate
  · exact hsent h
  · exact h hresponse.symm

/-- R159: a held response takes the freed place, and the NU's test is due behind it. -/
theorem controlPlaceFreed_held (f : Frame) (s : State) (hl : s.liu.control.originated.length < 4)
    (hf : s.mr.heldResponse = some f) : controlPlaceFreed s = tested { s with
      liu := { s.liu with control := { s.liu.control with originated := s.liu.control.originated ++ [f] } }
      mr := { s.mr with
        heldResponse := none
        state := if s.mr.state = .restartPending then .restartPending else .ready
        service := if s.mr.state = .restartPending then s.mr.service else none } } := by
  have happend : appendOriginated .control f s = { s with
      liu := { s.liu with control := { s.liu.control with originated := s.liu.control.originated ++ [f] } } } :=
    if_pos (decide_eq_true hl)
  unfold controlPlaceFreed
  rw [hf]
  simp only
  rw [happend]
  rfl

theorem controlPlaceFreed_free (s : State) (hf : s.mr.heldResponse = none) : controlPlaceFreed s = tested s := by
  unfold controlPlaceFreed
  rw [hf]
  rfl

/-- Settles O17: with and without a held response. -/
theorem heldResponseTakesTheFreedPlace : Obligations.HeldResponseTakesTheFreedPlace := by
  refine ⟨fun s f hs htx hl hf => ?held, fun s hs htx hf hnone => ?free⟩
  case held =>
    have hends := not_endsRestart s.liu.control.originated.head? s (Or.inl (by rw [hf]; exact Option.some_ne_none f))
    refine ⟨_, exec_frameTransmitted .control s hs.released, ?_⟩
    rw [endTransmission_control s htx, if_neg hends,
      controlPlaceFreed_held f _ (originatedSent_free .control s hl) hf]
    exact finish_ends _
  case free =>
    have hends := not_endsRestart s.liu.control.originated.head? s
      (Or.inr (hnone.imp id (Or.imp (fun h => by rw [h]; rfl) id)))
    refine ⟨_, exec_frameTransmitted .control s hs.released, ?_⟩
    rw [endTransmission_control s htx, if_neg hends, controlPlaceFreed_free (originatedSent .control s) hf]
    exact finish_ends _

end Sys2Proof.Machine
end

section
/-! PROOFS. Requests that are answered UNKNOWN: no kind byte, a kind that is not in the table, or a parameter length
that the kind does not allow (R166, R167). -/

namespace Sys2Proof.Machine

theorem byte_of_toNat (b : Byte) (n : Nat) (h : b.toNat = n) : b = BitVec.ofNat 8 n := by
  rw [← h, BitVec.ofNat_toNat, BitVec.setWidth_eq]

/-- R166: a row of the table but PING's allows one parameter length. -/
theorem requestLength_of_lengthOk (kind : Byte) (n : Nat) (hkind : kind ≠ 0x01) (h : lengthOk kind n = some true) :
    requestLength kind = some n := by
  unfold lengthOk at h
  split at h
  case h_1 hping => exact absurd (byte_of_toNat kind _ hping) hkind
  case h_23 => cases h
  all_goals
    rename_i hrow
    rw [byte_of_toNat kind _ hrow, eq_of_beq (Option.some.inj h)]
    rfl

/-- R166: PING allows 197 parameter bytes at most. -/
theorem lengthOk_ping (n : Nat) : lengthOk 0x01 n = some (decide (n ≤ 197)) := rfl

/-- R167: a kind that is not in the table, or a length that its row does not allow, spells no request. -/
theorem parseRequest_unallowed (kind : Byte) (ps : List Byte) (hrow : kind ≠ 0x01 → requestLength kind ≠ some ps.length)
    (hping : kind = 0x01 → 197 < ps.length) : parseRequest (kind :: ps) = none := by
  refine if_neg fun h => ?_
  by_cases hkind : kind = 0x01
  · rw [hkind, lengthOk_ping] at h
    exact absurd (of_decide_eq_true (Option.some.inj h)) (Nat.not_le.2 (hping hkind))
  · exact hrow hkind (requestLength_of_lengthOk kind ps.length hkind h)

theorem exec_unknownRequest (src : Byte) (payload : List Byte) (s : State) :
    exec (.unknownRequest src payload) s = requestEvent (handOverRequest src payload) s := rfl

/-- R156: a request frame to the part is its payload handed over. -/
theorem receiveFrame_request (src : Byte) (payload : List Byte) (s : State) (h : payload.length ≤ 200) :
    receiveFrame .control ⟨s.liu.address, src, kindRequest, payload⟩ s
      = handOverRequest src payload (endReception .control s) := by
  have hown : handOnControl ⟨s.liu.address, src, kindRequest, payload⟩ (received s)
      = handOverRequest src payload (received s) :=
    (if_pos rfl).trans (if_pos rfl)
  exact (receiveFrame_control _ s h).trans hown

/-- Settles O27: such a payload spells no request, and UNKNOWN leaves every block as it was. -/
theorem unknownRequestIsAnsweredUnknown : Obligations.UnknownRequestIsAnsweredUnknown := by
  refine ⟨fun src s hs => ?empty, fun src kind ps s hs hrow hping => ?unallowed, fun src payload s hshort => ?frame⟩
  case empty => exact unchanged_answered src 0 performUnknown .unknown s hs rfl
  case unallowed =>
    rw [exec_unknownRequest, handOverRequest_unparsed src kind ps (parseRequest_unallowed kind ps hrow hping)]
    exact unchanged_answered src kind performUnknown .unknown s hs rfl
  case frame =>
    have hevent := receiveFrame_request src payload s hshort
    show Host.Outcome.next (unlessInReset _ s) = Host.Outcome.next (unlessInReset _ s)
    unfold unlessInReset
    exact congrArg (fun u => Host.Outcome.next (if s.inReset then s else finish u)) hevent

end Sys2Proof.Machine
end

section
/-! PROOFS. Within an event no transmitter begins (R160): the valve commands and the withdrawal, the tables' apply, and
the tickets. What begins a transmission is the end of the event alone (log 9). -/

namespace Sys2Proof.Machine

/-! ## What begins no transmission -/

/-- A transmitter idle in `s` is idle in `t`. -/
def StaysIdle (s t : State) : Prop := ∀ p : Port, (s.port p).tx = none → (t.port p).tx = none

theorem StaysIdle.refl (s : State) : StaysIdle s s := fun _ h => h

theorem StaysIdle.trans {s t u : State} (h : StaysIdle s t) (k : StaysIdle t u) : StaysIdle s u :=
  fun p hp => k p (h p hp)

theorem StaysIdle.ite {s t u : State} {p : Prop} [Decidable p] (h : StaysIdle s t) (k : StaysIdle s u) :
    StaysIdle s (if p then t else u) := by
  split
  · exact h
  · exact k

/-- A change outside the LIU. -/
theorem staysIdle_of_liu {s t : State} (h : t.liu = s.liu) : StaysIdle s t := fun p hp => by
  unfold State.port at hp ⊢
  rw [h]
  exact hp

/-- An operation after a change outside the LIU. -/
theorem StaysIdle.after {s t u : State} (k : StaysIdle t u) (h : t.liu = s.liu) : StaysIdle s u :=
  (staysIdle_of_liu h).trans k

theorem StaysIdle.raised {s t : State} (h : StaysIdle s t) (e : Event) (c : Context) : StaysIdle s (raise e c t) :=
  h.trans (staysIdle_of_liu rfl)

/-- A port replaced by one whose transmitter was not begun. -/
theorem setPort_staysIdle (p : Port) (l : PortLink) (s : State) (h : (s.port p).tx = none → l.tx = none) :
    StaysIdle s (s.setPort p l) := by
  intro q hq
  by_cases hqp : q = p
  · rw [hqp, port_setPort_same]
    exact h (hqp ▸ hq)
  · rw [port_setPort_ne p q l s hqp]
    exact hq

/-! ## Queues and receivers -/

theorem offerForward_staysIdle (p : Port) (f : Frame) (s : State) : StaysIdle s (offerForward p f s) :=
  StaysIdle.ite (setPort_staysIdle p _ s id) (StaysIdle.refl s)

theorem appendOriginated_staysIdle (p : Port) (f : Frame) (s : State) : StaysIdle s (appendOriginated p f s) :=
  StaysIdle.ite (setPort_staysIdle p _ s id) (StaysIdle.refl s)

theorem endReception_staysIdle (p : Port) (s : State) : StaysIdle s (endReception p s) := setPort_staysIdle p _ s id

/-! ## Valve commands and the withdrawal -/

theorem noteEntry_staysIdle (c : Command) (s : State) : StaysIdle s (noteEntry c s) :=
  StaysIdle.ite (staysIdle_of_liu rfl) (StaysIdle.refl s)

theorem enterCommand_staysIdle (c : Command) (s : State) : StaysIdle s (enterCommand c s) := by
  refine StaysIdle.ite (StaysIdle.refl s) (StaysIdle.trans ?_ (noteEntry_staysIdle c _))
  exact (appendOriginated_staysIdle .field _ s).trans (staysIdle_of_liu rfl)

theorem formCommand_staysIdle (c : Command) (s : State) : StaysIdle s (formCommand c s) :=
  StaysIdle.ite (staysIdle_of_liu rfl) (StaysIdle.ite (enterCommand_staysIdle c s) (staysIdle_of_liu rfl))

theorem enterCommands_staysIdle (l : List Command) (s : State) : StaysIdle s (enterCommands l s) := by
  induction l generalizing s with
  | nil => exact StaysIdle.refl s
  | cons c rest ih =>
    have hentered : StaysIdle s (enterCommand c (s.setCs { s.cs with commands := rest })) :=
      (enterCommand_staysIdle c _).after rfl
    exact StaysIdle.ite (hentered.trans (ih _)) (StaysIdle.refl s)

theorem noteWithdrawn_liu (s : State) (f : Frame) : (noteWithdrawn s f).liu = s.liu := by
  unfold noteWithdrawn
  split
  · rfl
  · rfl

theorem foldl_noteWithdrawn_staysIdle (l : List Frame) (s : State) : StaysIdle s (l.foldl noteWithdrawn s) := by
  induction l generalizing s with
  | nil => exact StaysIdle.refl s
  | cons f rest ih => exact (ih _).after (noteWithdrawn_liu s f)

/-- R158: a withdrawal can cut a transmission off and begins none. -/
theorem withdrawManifold_staysIdle (s : State) : StaysIdle s (withdrawManifold s) := by
  refine StaysIdle.trans ?_ (foldl_noteWithdrawn_staysIdle _ _)
  refine setPort_staysIdle .field _ s fun hidle => ?_
  show (if cutsOff s then none else s.liu.field.tx) = none
  split
  · rfl
  · exact hidle

theorem laneTrap_liu (n : Nat) (a : Action) (s : State) : (laneTrap n a s).2.liu = s.liu := by
  rw [laneTrap_eq]
  unfold trapNoted
  split
  · rfl
  · rfl

theorem trapEach_liu (n : Nat) (cond : Action → Bool) (l : List Action) (s : State) :
    (trapEach n cond l s).2.liu = s.liu := by
  induction l generalizing s with
  | nil => rfl
  | cons a rest ih =>
    refine (ih _).trans ?_
    split
    · exact laneTrap_liu n a s
    · rfl

theorem enterHeld_staysIdle (s : State) : StaysIdle s (enterHeld s) :=
  StaysIdle.ite (StaysIdle.refl s) ((withdrawManifold_staysIdle _).after rfl)

theorem abandon_liu (s : State) : (abandon s).liu = s.liu := by
  unfold abandon
  split
  · rfl
  · rfl
  · rfl

theorem openRelief_staysIdle (s : State) : StaysIdle s (openRelief s) :=
  StaysIdle.ite (StaysIdle.refl s) (formCommand_staysIdle _ s)

theorem guard_staysIdle (byStart : Bool) (s : State) : StaysIdle s (guard byStart s) := by
  refine StaysIdle.ite (StaysIdle.trans ?_ (staysIdle_of_liu (abandon_liu _))) (StaysIdle.refl s)
  have hraised : StaysIdle s (raiseDeadHead byStart s (openRelief s)) :=
    (openRelief_staysIdle s).trans (staysIdle_of_liu rfl)
  exact StaysIdle.ite (hraised.trans (enterHeld_staysIdle _)) hraised

theorem forwardCommand_staysIdle (o : Outlet) (m : Option ValveMove) (f : Frame) (s : State) :
    StaysIdle s (forwardCommand o m f s) := by
  unfold forwardCommand
  split
  · exact StaysIdle.ite ((offerForward_staysIdle .field f s).trans (staysIdle_of_liu rfl)) (StaysIdle.refl s)
  · exact offerForward_staysIdle .field f s

theorem judgeManifold_staysIdle (o : Outlet) (f : Frame) (s : State) : StaysIdle s (judgeManifold o f s) := by
  unfold judgeManifold
  refine StaysIdle.ite ?_ (staysIdle_of_liu rfl)
  split
  · exact StaysIdle.ite (forwardCommand_staysIdle _ _ f s) (StaysIdle.ite
      (StaysIdle.ite (staysIdle_of_liu rfl) (forwardCommand_staysIdle _ _ f s)) (forwardCommand_staysIdle _ _ f s))
  · exact forwardCommand_staysIdle _ _ f s

/-! ## The apply -/

theorem applyMeterAddress_liu (a b : SegmentRecord) (s : State) : (applyMeterAddress a b s).liu = s.liu := by
  unfold applyMeterAddress
  split
  · rfl
  · rfl

theorem applySilenceTime_liu (a b : SegmentRecord) (s : State) : (applySilenceTime a b s).liu = s.liu := by
  unfold applySilenceTime
  split
  · rfl
  · rfl

theorem applyStillTime_liu (a b : SegmentRecord) (s : State) : (applyStillTime a b s).liu = s.liu := by
  unfold applyStillTime
  split
  · rfl
  · rfl

theorem applyManifold_staysIdle (a b : Tables) (s : State) : StaysIdle s (applyManifold a b s) := by
  have hguarded : StaysIdle s (if !s.mg.openOrder.isEmpty && (s.setMg (applyToGuard a b s.mg)).mg.openOrder.isEmpty then
      guard false (s.setMg (applyToGuard a b s.mg)) else s.setMg (applyToGuard a b s.mg)) :=
    StaysIdle.ite ((guard_staysIdle false _).after rfl) (staysIdle_of_liu rfl)
  exact StaysIdle.ite hguarded (hguarded.trans (withdrawManifold_staysIdle _))

theorem applyToQueue_liu (s : State) : (applyToQueue s).liu = s.liu := trapEach_liu 3 _ s.cs.queue s

theorem applyTables_staysIdle (window : Bool) (s : State) : StaysIdle s (applyTables window s) := by
  have hcounter (u : State) (a b : SegmentRecord) :
      (applyStillTime a b (applySilenceTime a b (applyMeterAddress a b u))).liu = u.liu := by
    rw [applyStillTime_liu, applySilenceTime_liu, applyMeterAddress_liu]
  refine StaysIdle.trans (StaysIdle.trans (t := _) ?_ (applyManifold_staysIdle s.ts.active s.ts.pending _))
    (staysIdle_of_liu (applyToQueue_liu _))
  exact staysIdle_of_liu (hcounter _ _ _)

theorem applyIfDue_staysIdle (window : Bool) (s : State) : StaysIdle s (applyIfDue window s) :=
  StaysIdle.ite (applyTables_staysIdle window s) (StaysIdle.refl s)

/-! ## Tickets -/

theorem TicketsOnly.liu {s t : State} (h : TicketsOnly s t) : t.liu = s.liu := by rw [h.rest]

theorem takeReached_liu (bs : List Boundary) (s : State) : (takeReached bs s).liu = s.liu := by
  induction bs generalizing s with
  | nil => rfl
  | cons b rest ih =>
    unfold takeReached
    split
    · exact (ih _).trans (takeBoundary_rest b rest _ s).liu
    · rfl

theorem makeRoom_liu (s : State) : (makeRoom s).liu = s.liu := by
  unfold makeRoom
  split
  · split
    · exact (takeBoundary_rest _ _ _ s).liu
    · rfl
  · rfl

theorem setBoundary_liu (m : Mark) (b : BatchRecord) (s : State) : (setBoundary m b s).liu = s.liu := by
  unfold setBoundary
  simp only
  split
  · exact (takeReached_liu _ _).trans (makeRoom_liu s)
  · exact makeRoom_liu s

end Sys2Proof.Machine
end

section
/-! PROOFS. Within an event no transmitter begins (R160): the sequence engine and the insertion of actions. -/

namespace Sys2Proof.Machine

/-! ## Failures and phases -/

theorem openFailure_staysIdle (flags : Nat) (s : State) : StaysIdle s (openFailure flags s) := by
  unfold openFailure
  split
  · exact StaysIdle.refl s
  · rename_i q _
    have hclosed : StaysIdle s (setAvailable q.newOutlet false (formCommand ⟨q.newOutlet, .close⟩ (stopTimers s))) :=
      ((formCommand_staysIdle _ (stopTimers s)).after rfl).trans (staysIdle_of_liu rfl)
    refine StaysIdle.raised (StaysIdle.trans ?_ ((enterHeld_staysIdle _).after rfl)) _ _
    split
    · exact hclosed.trans (staysIdle_of_liu rfl)
    · exact hclosed

theorem dropCommand_liu (c : Command) (s : State) : (dropCommand c s).liu = s.liu := rfl

theorem closeFailure_staysIdle (flags : Nat) (s : State) : StaysIdle s (closeFailure flags s) := by
  unfold closeFailure
  split
  · exact StaysIdle.refl s
  · split
    · exact StaysIdle.refl s
    · simp only
      refine StaysIdle.raised ((enterHeld_staysIdle _).after ?_) _ _
      exact (State.setCs_liu _ _).trans (dropCommand_liu _ _)

theorem enterCloseOld_staysIdle (q : Sequence) (o : Outlet) (s : State) : StaysIdle s (enterCloseOld q o s) :=
  (formCommand_staysIdle _ _).after rfl

theorem enterOpenNew_staysIdle (q : Sequence) (s : State) : StaysIdle s (enterOpenNew q s) :=
  (formCommand_staysIdle _ _).after rfl

/-! ## Starting an action -/

theorem lateCut_liu (c : Prop) [Decidable c] (a : Action) (lateness : Nat) (mismatch : Bool) (s : State) :
    (if c then raiseLateCut a lateness mismatch s else s).liu = s.liu := by
  split
  · rfl
  · rfl

theorem reportLateness_liu (batch : BatchId) (n : Nat) (s : State) : (reportLateness batch n s).liu = s.liu := rfl

theorem startAction_staysIdle (route : Bool) (s : State) : StaysIdle s (startAction route s) := by
  unfold startAction
  split
  · exact StaysIdle.refl s
  · rename_i a _ _
    simp only
    refine StaysIdle.ite ?removed ?begun
    case removed =>
      refine StaysIdle.raised (staysIdle_of_liu ((State.setCs_liu _ _).trans ?_)) _ _
      rw [lateCut_liu, reportLateness_liu, State.setCs_liu, laneTrap_liu]
    case begun =>
      refine (enterOpenNew_staysIdle _ _).after ?_
      rw [lateCut_liu, reportLateness_liu, State.setCs_liu, laneTrap_liu]

/-! ## The engine within one event -/

theorem idleStep_staysIdle (s t : State) (h : idleStep s = some t) : StaysIdle s t := by
  unfold idleStep at h
  split at h
  · split at h
    · cases h
      exact StaysIdle.ite ((applyTables_staysIdle false _).after rfl) ((startAction_staysIdle false _).after rfl)
    · cases h
      exact applyTables_staysIdle false s
  · split at h
    · cases h
      exact startAction_staysIdle false s
    · cases h

theorem engineStep_staysIdle (s t : State) (h : engineStep s = some t) : StaysIdle s t := by
  unfold engineStep at h
  split at h
  · exact idleStep_staysIdle s t h
  · split at h
    · cases h
      exact staysIdle_of_liu rfl
    · cases h
  · split at h
    · cases h
      split
      · exact enterCloseOld_staysIdle _ _ s
      · exact staysIdle_of_liu rfl
    · cases h
  · split at h
    · cases h
      exact staysIdle_of_liu rfl
    · cases h
  · split at h
    · cases h
      exact staysIdle_of_liu rfl
    · cases h
  · cases h

theorem engineLoop_staysIdle (n : Nat) (s : State) : StaysIdle s (engineLoop n s) := by
  induction n generalizing s with
  | zero => exact StaysIdle.refl s
  | succ n ih =>
    unfold engineLoop
    split
    · exact StaysIdle.refl s
    · exact (engineStep_staysIdle s _ ‹_›).trans (ih _)

theorem engineRun_staysIdle (s : State) : StaysIdle s (engineRun s) := engineLoop_staysIdle 64 s

/-! ## Reports of valves -/

theorem openNewReport_staysIdle (q : Sequence) (was : Position) (isFault : Bool) (s : State) :
    StaysIdle s (openNewReport q was isFault s) :=
  StaysIdle.ite (StaysIdle.ite (StaysIdle.refl s) (openFailure_staysIdle _ s))
    (StaysIdle.ite ((engineRun_staysIdle _).after rfl)
      (StaysIdle.ite (openFailure_staysIdle _ s) (StaysIdle.refl s)))

theorem watchedReport_staysIdle (q : Sequence) (was : Position) (isFault : Bool) (s : State) :
    StaysIdle s (watchedReport q was isFault s) :=
  StaysIdle.ite (openFailure_staysIdle _ s) (StaysIdle.refl s)

theorem closeOldReport_staysIdle (q : Sequence) (o : Outlet) (isFault : Bool) (s : State) :
    StaysIdle s (closeOldReport q o isFault s) :=
  StaysIdle.ite (StaysIdle.refl s) (StaysIdle.ite ((engineRun_staysIdle _).after rfl)
    (StaysIdle.ite (closeFailure_staysIdle _ s) (StaysIdle.refl s)))

theorem engineReport_staysIdle (o : Outlet) (was : Position) (isFault : Bool) (s : State) :
    StaysIdle s (engineReport o was isFault s) := by
  unfold engineReport
  split
  · exact StaysIdle.ite (openNewReport_staysIdle _ was isFault s) (StaysIdle.refl s)
  · exact StaysIdle.ite (watchedReport_staysIdle _ was isFault s) (StaysIdle.refl s)
  · exact StaysIdle.ite (StaysIdle.ite (StaysIdle.refl s) (watchedReport_staysIdle _ was isFault s))
      (StaysIdle.ite (closeOldReport_staysIdle _ o isFault s) (StaysIdle.refl s))
  · exact StaysIdle.refl s

/-! ## Insertion -/

theorem appendAction_liu (o : Offer) (s : State) : (appendAction o s).2.liu = s.liu :=
  laneTrap_liu 0 (offeredAction o) s

theorem insertAction_staysIdle (o : Offer) (s : State) : StaysIdle s (insertAction o s).2 :=
  StaysIdle.ite ((engineRun_staysIdle _).after (appendAction_liu o s)) (staysIdle_of_liu (appendAction_liu o s))

theorem offerAction_staysIdle (o : Offer) (s t : State) (h : offerAction o s = some t) : StaysIdle s t := by
  unfold offerAction at h
  split at h
  · split at h
    · cases h
      exact insertAction_staysIdle o s
    · cases h
  · split at h
    · cases h
      exact (insertAction_staysIdle o s).trans (insertAction_staysIdle _ _)
    · cases h

end Sys2Proof.Machine
end

section
/-! PROOFS. Within an event no transmitter begins (R160): the tracker, the evaluations, an advance delivered to the four
blocks, and the field frames they observe. -/

namespace Sys2Proof.Machine

/-! ## Offers of the tracker -/

theorem removeRunning_liu (s : State) : (removeRunning s).liu = s.liu := by
  unfold removeRunning
  simp only
  split
  · rfl
  · rfl

theorem offerHeld_staysIdle (l : List Offer) (s : State) : StaysIdle s (offerHeld l s) := by
  induction l generalizing s with
  | nil => exact staysIdle_of_liu rfl
  | cons o rest ih =>
    unfold offerHeld
    split
    · exact (offerAction_staysIdle o s _ ‹_›).trans (ih _)
    · exact staysIdle_of_liu rfl

theorem offerOrHold_staysIdle (o : Offer) (s : State) : StaysIdle s (offerOrHold o s) := by
  unfold offerOrHold
  refine StaysIdle.ite ?_ (staysIdle_of_liu rfl)
  split
  · exact offerAction_staysIdle o s _ ‹_›
  · exact staysIdle_of_liu rfl

theorem offerVolumeAlone_staysIdle (s : State) : StaysIdle s (offerVolumeAlone s) := by
  unfold offerVolumeAlone
  split
  · refine StaysIdle.ite (staysIdle_of_liu rfl) ?_
    split
    · exact (offerOrHold_staysIdle _ _).after rfl
    · exact staysIdle_of_liu rfl
  · exact StaysIdle.refl s

/-! ## The midpoint and the decisions -/

theorem setMidpoint_staysIdle (m : Mark) (s : State) : StaysIdle s (setMidpoint m s) := by
  unfold setMidpoint
  refine (offerVolumeAlone_staysIdle _).after ?_
  split
  · exact setBoundary_liu m _ _
  · rfl

theorem setMidpointIfAbsent_staysIdle (m : Mark) (s : State) : StaysIdle s (setMidpointIfAbsent m s) :=
  StaysIdle.ite (setMidpoint_staysIdle m s) (StaysIdle.refl s)

theorem offerDecision_staysIdle (z : ZoneRule) (p : Place) (b0 b1 : BatchRecord) (m : Mark) (s : State) :
    StaysIdle s (offerDecision z p b0 b1 m s) :=
  StaysIdle.ite (StaysIdle.refl s)
    (StaysIdle.ite (StaysIdle.ite ((offerVolumeAlone_staysIdle _).after rfl) (StaysIdle.refl s))
      (offerOrHold_staysIdle _ s))

theorem decideAt_staysIdle (p : Place) (m : Mark) (s : State) : StaysIdle s (decideAt p m s) := by
  unfold decideAt
  split
  · exact (offerDecision_staysIdle _ _ _ _ _ _).after rfl
  · exact StaysIdle.refl s

theorem decideIfOutstanding_staysIdle (p : Place) (m : Mark) (s : State) : StaysIdle s (decideIfOutstanding p m s) :=
  StaysIdle.ite (decideAt_staysIdle p m s) (StaysIdle.refl s)

/-! ## Windows -/

theorem endInterface_staysIdle (m : Mark) (s : State) : StaysIdle s (endInterface m s) := by
  unfold endInterface
  split
  · exact StaysIdle.refl s
  · simp only
    refine StaysIdle.trans ((applyIfDue_staysIdle false _).after ?_) (staysIdle_of_liu (removeRunning_liu _))
    exact (reportInterface_rest _ m _).liu

theorem reachEnd_staysIdle (m : Mark) (s : State) : StaysIdle s (reachEnd m s) :=
  StaysIdle.ite (endInterface_staysIdle m s) (staysIdle_of_liu rfl)

theorem endExcursionAtWindow_liu (b0 : BatchRecord) (s : State) : (endExcursionAtWindow b0 s).liu = s.liu := by
  unfold endExcursionAtWindow
  simp only
  split
  · rfl
  · rfl

theorem openWindow_staysIdle (b0 b1 : BatchRecord) (s : State) : StaysIdle s (openWindow b0 b1 s) :=
  ((applyIfDue_staysIdle true _).after (endExcursionAtWindow_liu b0 s)).trans (staysIdle_of_liu rfl)

theorem closeMarkReached_liu (r : InterfaceRecord) (s : State) : (closeMarkReached r s).liu = s.liu := by
  unfold closeMarkReached
  simp only
  split
  · rfl
  · rfl

theorem wideReached_staysIdle (r : InterfaceRecord) (m : Mark) (s : State) : StaysIdle s (wideReached r m s) := by
  unfold wideReached
  simp only
  refine StaysIdle.trans ?_ (staysIdle_of_liu rfl)
  refine StaysIdle.trans ?_ (decideIfOutstanding_staysIdle .tailCut m _)
  refine StaysIdle.trans ?_ (decideIfOutstanding_staysIdle .headCut m _)
  exact (setMidpointIfAbsent_staysIdle m _).after rfl

theorem forcedReached_staysIdle (m : Mark) (s : State) : StaysIdle s (forcedReached m s) :=
  (reachEnd_staysIdle m _).after rfl

theorem fallbackEndReached_staysIdle (r : InterfaceRecord) (s : State) : StaysIdle s (fallbackEndReached r s) :=
  (setMidpointIfAbsent_staysIdle _ s).trans (reachEnd_staysIdle _ _)

/-! ## Marks -/

theorem markStep_staysIdle (s t : State) (h : markStep s = some t) : StaysIdle s t := by
  unfold markStep at h
  simp only at h
  split at h
  · split at h
    · split at h
      · cases h
        exact openWindow_staysIdle _ _ s
      · cases h
    · cases h
  · split at h
    · cases h
      exact staysIdle_of_liu (closeMarkReached_liu _ s)
    · cases h
  · split at h
    · cases h
    · split at h
      · cases h
        exact wideReached_staysIdle _ _ s
      · split at h
        · cases h
          exact endInterface_staysIdle _ s
        · split at h
          · cases h
            exact forcedReached_staysIdle _ s
          · cases h
  · split at h
    · cases h
      exact decideAt_staysIdle _ _ s
    · split at h
      · cases h
        exact decideAt_staysIdle _ _ s
      · split at h
        · cases h
          exact endInterface_staysIdle _ s
        · split at h
          · cases h
            exact fallbackEndReached_staysIdle _ s
          · cases h
  · cases h

theorem markLoop_staysIdle (n : Nat) (s : State) : StaysIdle s (markLoop n s) := by
  induction n generalizing s with
  | zero => exact StaysIdle.refl s
  | succ n ih =>
    unfold markLoop
    split
    · exact StaysIdle.refl s
    · exact (markStep_staysIdle s _ ‹_›).trans (ih _)

theorem testMarks_staysIdle (s : State) : StaysIdle s (testMarks s) := markLoop_staysIdle _ s

theorem reportChange_staysIdle (s : State) : StaysIdle s (reportChange s) :=
  StaysIdle.ite (testMarks_staysIdle s) (StaysIdle.refl s)

/-! ## Evaluations in a window -/

theorem blindEvaluation_staysIdle (m : Mark) (s : State) : StaysIdle s (blindEvaluation m s) := by
  unfold blindEvaluation
  simp only
  split
  · exact StaysIdle.ite ((testMarks_staysIdle _).after rfl) (staysIdle_of_liu rfl)
  · exact staysIdle_of_liu rfl

theorem confirmRun_staysIdle (p : Place) (run : Run) (s : State) : StaysIdle s (confirmRun p run s) :=
  StaysIdle.ite (decideAt_staysIdle p run.first s) (StaysIdle.refl s)

theorem advanceHead_staysIdle (m : Mark) (b : Bool) (s : State) : StaysIdle s (advanceHead m b s) :=
  StaysIdle.ite ((confirmRun_staysIdle .headCut _ _).after rfl) (StaysIdle.refl s)

theorem advanceTail_staysIdle (m : Mark) (b : Bool) (s : State) : StaysIdle s (advanceTail m b s) :=
  StaysIdle.ite ((confirmRun_staysIdle .tailCut _ _).after rfl) (StaysIdle.refl s)

theorem advanceDecisions_staysIdle (m : Mark) (f : Int) (s : State) : StaysIdle s (advanceDecisions m f s) := by
  unfold advanceDecisions
  split
  · simp only
    split
    · exact (advanceHead_staysIdle m _ s).trans (advanceTail_staysIdle m _ _)
    · exact advanceHead_staysIdle m _ s
  · exact StaysIdle.refl s

theorem advanceEnd_staysIdle (m : Mark) (f : Int) (s : State) : StaysIdle s (advanceEnd m f s) := by
  refine StaysIdle.ite ?_ (staysIdle_of_liu rfl)
  refine StaysIdle.trans ?_ (testMarks_staysIdle _)
  exact (endInterface_staysIdle m _).after rfl

theorem mixingEvaluation_staysIdle (m : Mark) (f : Int) (s : State) : StaysIdle s (mixingEvaluation m f s) :=
  ((StaysIdle.ite (setMidpointIfAbsent_staysIdle m s) (StaysIdle.refl s)).trans
    (advanceDecisions_staysIdle m f _)).trans (advanceEnd_staysIdle m f _)

theorem densityEvaluation_staysIdle (m : Mark) (f : Int) (s : State) : StaysIdle s (densityEvaluation m f s) := by
  unfold densityEvaluation
  simp only
  split
  · exact staysIdle_of_liu rfl
  · exact StaysIdle.ite ((mixingEvaluation_staysIdle m f _).after rfl)
      (StaysIdle.ite ((mixingEvaluation_staysIdle m f _).after rfl) (staysIdle_of_liu rfl))

/-! ## Excursions -/

theorem offerForced_staysIdle (batch : BatchId) (a b : Outlet) (m : Mark) (s : State) :
    StaysIdle s (offerForced batch a b m s) :=
  StaysIdle.ite (StaysIdle.refl s) (StaysIdle.ite (offerOrHold_staysIdle _ s) (staysIdle_of_liu rfl))

theorem enterExcursion_staysIdle (b0 : BatchRecord) (first m : Mark) (d : Int) (s : State) :
    StaysIdle s (enterExcursion b0 first m d s) := by
  have hoffered : StaysIdle s (offerForced b0.batchId (s.firstOutlet b0) outletT first
      (s.setIt { s.it with excursion := true, excRun := zeroRun })) := (offerForced_staysIdle _ _ _ _ _).after rfl
  exact hoffered.trans (staysIdle_of_liu rfl)

theorem leaveExcursion_staysIdle (b0 : BatchRecord) (first m : Mark) (d : Int) (s : State) :
    StaysIdle s (leaveExcursion b0 first m d s) := by
  have hoffered : StaysIdle s (offerForced b0.batchId outletT (s.firstOutlet b0) first
      (s.setIt { s.it with excRun := zeroRun })) := (offerForced_staysIdle _ _ _ _ _).after rfl
  exact hoffered.trans ((applyIfDue_staysIdle false _).after rfl)

theorem quietEvaluation_staysIdle (m : Mark) (d : Int) (s : State) : StaysIdle s (quietEvaluation m d s) := by
  unfold quietEvaluation
  split
  · exact StaysIdle.refl s
  · exact StaysIdle.ite
      (StaysIdle.ite (leaveExcursion_staysIdle _ _ m d s) (enterExcursion_staysIdle _ _ m d s)) (staysIdle_of_liu rfl)

/-! ## An evaluation -/

theorem takeResult_staysIdle (res : EvalResult) (s : State) : StaysIdle s (takeResult res s) := by
  unfold takeResult
  split
  · split
    · exact quietEvaluation_staysIdle res.mark _ s
    · exact StaysIdle.refl s
  · exact staysIdle_of_liu rfl
  · split
    · exact blindEvaluation_staysIdle res.mark s
    · exact densityEvaluation_staysIdle res.mark _ s
    · exact StaysIdle.refl s

theorem takePostponed_staysIdle (s : State) : StaysIdle s (takePostponed s) :=
  StaysIdle.ite (testMarks_staysIdle s) (StaysIdle.refl s)

theorem trackerEvaluate_staysIdle (res : EvalResult) (s : State) : StaysIdle s (trackerEvaluate res s) :=
  ((offerHeld_staysIdle s.it.held s).trans (takeResult_staysIdle res _)).trans (takePostponed_staysIdle _)

theorem evaluate_staysIdle (s : State) : StaysIdle s (evaluate s) := (trackerEvaluate_staysIdle _ _).after rfl

/-! ## An advance -/

theorem evaluatorAdvance_staysIdle (s : State) : StaysIdle s (evaluatorAdvance s) :=
  StaysIdle.ite ((evaluate_staysIdle s).trans (staysIdle_of_liu rfl)) (StaysIdle.refl s)

/-- In every order the receivers of an advance are the CS, the IT and the DE. -/
theorem mem_receivers (k : Nat) (f : State → State) (h : f ∈ receivers k) :
    f = sequencerAdvance ∨ f = trackerAdvance ∨ f = evaluatorAdvance := by
  unfold receivers at h
  split at h <;> simp only [List.mem_cons, List.not_mem_nil, or_false] at h <;> tauto

theorem receivers_stayIdle (k : Nat) (f : State → State) (h : f ∈ receivers k) (s : State) : StaysIdle s (f s) := by
  rcases mem_receivers k f h with e | e | e
  · rw [e]
    exact engineRun_staysIdle s
  · rw [e]
    exact testMarks_staysIdle s
  · rw [e]
    exact evaluatorAdvance_staysIdle s

theorem runAll_staysIdle (fs : List (State → State)) (h : ∀ f ∈ fs, ∀ s, StaysIdle s (f s)) (s : State) :
    StaysIdle s (runAll fs s) := by
  induction fs generalizing s with
  | nil => exact StaysIdle.refl s
  | cons f fs ih => exact (h f List.mem_cons_self s).trans (ih (fun g hg => h g (List.mem_cons_of_mem _ hg)) _)

theorem deliverTurns_staysIdle (before : Mark) (order place : Nat) (s : State) :
    StaysIdle s (deliverTurns before order place s) := by
  have hfirst := runAll_staysIdle ((receivers order).take place)
    (fun f hf => receivers_stayIdle order f (List.mem_of_mem_take hf)) s
  have hlast := runAll_staysIdle ((receivers order).drop place)
    (fun f hf => receivers_stayIdle order f (List.mem_of_mem_drop hf))
  exact hfirst.trans ((hlast _).after (bookAdvance_rest _ _ _ _).liu)

theorem deliverInOrder_staysIdle (before : Mark) (k : Nat) (s : State) : StaysIdle s (deliverInOrder before k s) :=
  StaysIdle.ite (deliverTurns_staysIdle before _ _ s) (deliverTurns_staysIdle before _ 0 s)

theorem deliverAdvance_staysIdle (before : Mark) (s : State) : StaysIdle s (deliverAdvance before s) :=
  StaysIdle.ite (deliverInOrder_staysIdle before 0 s) ((deliverInOrder_staysIdle before _ _).after rfl)

theorem settleLine_staysIdle (s : State) : StaysIdle s (settleLine s) :=
  StaysIdle.ite (staysIdle_of_liu rfl) ((guard_staysIdle true _).after rfl)

theorem countIncrement_liu (n : BitVec 32) (s : State) : (countIncrement n s).liu = s.liu := by
  rw [(countIncrement_rest n s).1]

theorem advance_staysIdle (n : BitVec 32) (s : State) : StaysIdle s (advance n s) := by
  rw [advance_eq]
  exact (settleLine_staysIdle s).trans ((deliverAdvance_staysIdle _ _).after (countIncrement_liu n _))

/-! ## Field frames -/

theorem takeTotal_staysIdle (n : BitVec 32) (s : State) : StaysIdle s (takeTotal n s) := by
  unfold takeTotal
  simp only
  split
  · exact staysIdle_of_liu rfl
  · exact StaysIdle.ite (staysIdle_of_liu rfl) ((advance_staysIdle _ _).after rfl)

theorem observeMeter_staysIdle (src : Byte) (ps : List Byte) (s : State) : StaysIdle s (observeMeter src ps s) := by
  unfold observeMeter
  split
  · exact takeTotal_staysIdle _ s
  · exact StaysIdle.refl s

theorem observeSample_liu (src : Byte) (ps : List Byte) (s : State) : (observeSample src ps s).liu = s.liu := by
  unfold observeSample
  split
  · rfl
  · rfl

theorem takeReport_liu (o : Outlet) (r : Report) (s : State) : (takeReport o r s).liu = s.liu := rfl

theorem valveReport_staysIdle (o : Outlet) (r : Report) (s : State) : StaysIdle s (valveReport o r s) := by
  have htaken : StaysIdle s (engineReport o s.mg.valves[o].confirmed (r == .fault) (takeReport o r s)) :=
    (engineReport_staysIdle o _ _ _).after (takeReport_liu o r s)
  exact StaysIdle.ite (htaken.trans (guard_staysIdle false _)) htaken

theorem observeValve_staysIdle (src : Byte) (ps : List Byte) (s : State) : StaysIdle s (observeValve src ps s) := by
  unfold observeValve
  split
  · exact valveReport_staysIdle _ _ s
  · exact StaysIdle.refl s

theorem observeField_staysIdle (f : Frame) (s : State) : StaysIdle s (observeField f s) :=
  StaysIdle.ite (observeMeter_staysIdle _ _ s) (StaysIdle.ite (staysIdle_of_liu (observeSample_liu _ _ s))
    (StaysIdle.ite (observeValve_staysIdle _ _ s) (StaysIdle.refl s)))

end Sys2Proof.Machine
end

section
/-! PROOFS. Within an event no transmitter begins (R160): the timers and the requests, by the block that performs them.
-/

namespace Sys2Proof.Machine

/-! ## Timers -/

theorem silenceExpiry_staysIdle (s : State) : StaysIdle s (silenceExpiry s) := by
  unfold silenceExpiry
  split
  · exact staysIdle_of_liu rfl
  · exact StaysIdle.refl s

theorem stillExpiry_staysIdle (s : State) : StaysIdle s (stillExpiry s) := by
  unfold stillExpiry
  split
  · exact staysIdle_of_liu rfl
  · exact StaysIdle.refl s

theorem phaseExpiry_staysIdle (e : EngineState) (s : State) : StaysIdle s (phaseExpiry e s) := by
  unfold phaseExpiry
  split
  · exact StaysIdle.ite ((engineRun_staysIdle _).after rfl) (StaysIdle.refl s)
  · exact StaysIdle.refl s

theorem strokeExpiry_staysIdle (s : State) : StaysIdle s (strokeExpiry s) := by
  unfold strokeExpiry
  split
  · simp only
    split
    · exact (openFailure_staysIdle 0 _).after rfl
    · exact (closeFailure_staysIdle 0 _).after rfl
    · exact staysIdle_of_liu rfl
  · exact StaysIdle.refl s

theorem recoveryExpires_staysIdle (s : State) : StaysIdle s (recoveryExpires s) := by
  unfold recoveryExpires
  split
  · exact (engineRun_staysIdle _).after rfl
  · exact StaysIdle.refl s

/-! ## Tables, status and notices -/

theorem performPing_staysIdle (ps : List Byte) (s : State) : StaysIdle s (performPing ps s).1 := by
  unfold performPing
  split
  · exact StaysIdle.refl s
  · exact StaysIdle.refl s

theorem performSetNotices_staysIdle (src m : Byte) (e : BitVec 24) (s : State) :
    StaysIdle s (performSetNotices src m e s).1 := by
  unfold performSetNotices
  split
  · exact StaysIdle.refl s
  · split
    · exact StaysIdle.refl s
    · exact staysIdle_of_liu rfl

theorem performPut_staysIdle (r : List (Nat × Bool)) (d : Bool) (f : Tables → Tables) (s : State) :
    StaysIdle s (performPut r d f s).1 := by
  unfold performPut
  split
  · exact StaysIdle.refl s
  · split
    · exact StaysIdle.refl s
    · split
      · exact StaysIdle.refl s
      · exact staysIdle_of_liu rfl

theorem performCommit_staysIdle (s : State) : StaysIdle s (performCommit s).1 := by
  unfold performCommit
  split
  · exact StaysIdle.refl s
  · split
    · exact StaysIdle.refl s
    · exact (applyIfDue_staysIdle false _).after rfl

/-! ## Batches, records and tickets -/

theorem addBatch_staysIdle (f : BatchFields) (s : State) : StaysIdle s (addBatch f s) := by
  unfold addBatch
  split
  · exact staysIdle_of_liu rfl
  · exact StaysIdle.ite ((reportChange_staysIdle _).after rfl) (staysIdle_of_liu rfl)

theorem performAddBatch_staysIdle (f : BatchFields) (s : State) : StaysIdle s (performAddBatch f s).1 := by
  unfold performAddBatch
  split
  · exact StaysIdle.refl s
  · split
    · exact StaysIdle.refl s
    · split
      · exact StaysIdle.refl s
      · split
        · exact StaysIdle.refl s
        · exact addBatch_staysIdle f s

theorem amendBatch_staysIdle (k : Nat) (b : BatchRecord) (f : BatchFields) (s : State) :
    StaysIdle s (amendBatch k b f s) :=
  StaysIdle.ite (staysIdle_of_liu rfl)
    (StaysIdle.ite ((reportChange_staysIdle _).after rfl) (staysIdle_of_liu rfl))

theorem answerAmend_liu (batchId : BatchId) (s : State) : (answerAmend batchId s).1.liu = s.liu := by
  unfold answerAmend
  split
  · rfl
  · rfl

theorem performAmendBatch_staysIdle (f : BatchFields) (s : State) : StaysIdle s (performAmendBatch f s).1 := by
  unfold performAmendBatch
  split
  · exact StaysIdle.refl s
  · split
    · exact StaysIdle.refl s
    · split
      · exact StaysIdle.refl s
      · split
        · exact StaysIdle.refl s
        · split
          · exact StaysIdle.refl s
          · exact (amendBatch_staysIdle _ _ f s).trans (staysIdle_of_liu (answerAmend_liu _ _))

theorem dropBatch_staysIdle (k : Nat) (s : State) : StaysIdle s (dropBatch k s) :=
  StaysIdle.ite ((reportChange_staysIdle _).after rfl) (staysIdle_of_liu rfl)

theorem performDropBatch_staysIdle (batchId : BatchId) (s : State) : StaysIdle s (performDropBatch batchId s).1 := by
  unfold performDropBatch
  split
  · exact StaysIdle.refl s
  · split
    · exact StaysIdle.refl s
    · split
      · exact StaysIdle.refl s
      · split
        · exact StaysIdle.refl s
        · exact dropBatch_staysIdle _ s

theorem performReadBatch_staysIdle (p : Byte) (s : State) : StaysIdle s (performReadBatch p s).1 := by
  unfold performReadBatch
  split
  · exact StaysIdle.refl s
  · split
    · exact StaysIdle.refl s
    · exact StaysIdle.refl s

theorem performReadInterface_staysIdle (p : Byte) (s : State) : StaysIdle s (performReadInterface p s).1 := by
  unfold performReadInterface
  split
  · exact StaysIdle.refl s
  · split
    · exact StaysIdle.refl s
    · exact StaysIdle.refl s

theorem performTakeTicket_staysIdle (s : State) : StaysIdle s (performTakeTicket s).1 := by
  unfold performTakeTicket
  split
  · exact StaysIdle.refl s
  · exact staysIdle_of_liu rfl

/-! ## The manifold -/

theorem takeManifold_staysIdle (s : State) : StaysIdle s (takeManifold s).1 := by
  have hwithdrawn : StaysIdle s (withdrawManifold (s.setMg { s.mg with mode := .auto })) :=
    (withdrawManifold_staysIdle _).after rfl
  unfold takeManifold
  simp only
  split
  · rename_i s2 hs
    obtain ⟨o, _, ho⟩ := Option.bind_eq_some_iff.1 hs
    exact (hwithdrawn.trans (offerAction_staysIdle o _ s2 ho)).trans (engineRun_staysIdle s2)
  · exact hwithdrawn.trans (engineRun_staysIdle _)

theorem performModeAuto_staysIdle (s : State) : StaysIdle s (performModeAuto s).1 := by
  unfold performModeAuto
  split
  · exact StaysIdle.refl s
  · split
    · exact StaysIdle.refl s
    · exact takeManifold_staysIdle s

theorem performModeManual_staysIdle (s : State) : StaysIdle s (performModeManual s).1 :=
  StaysIdle.ite (StaysIdle.refl s) (staysIdle_of_liu rfl)

theorem performSetMode_staysIdle (v : Byte) (s : State) : StaysIdle s (performSetMode v s).1 := by
  unfold performSetMode
  split
  · exact performModeManual_staysIdle s
  · split
    · exact performModeAuto_staysIdle s
    · exact StaysIdle.refl s

theorem collapse_liu (s : State) : (collapse s).liu = s.liu := by
  unfold collapse
  split
  · rfl
  · exact laneTrap_liu 2 _ s

theorem resumeAuto_staysIdle (s : State) : StaysIdle s (resumeAuto s) := (engineRun_staysIdle _).after (collapse_liu s)

theorem resumeManual_staysIdle (s : State) : StaysIdle s (resumeManual s) := (engineRun_staysIdle _).after rfl

theorem performResume_staysIdle (s : State) : StaysIdle s (performResume s).1 := by
  unfold performResume
  split
  · exact StaysIdle.refl s
  · split
    · exact StaysIdle.refl s
    · split
      · exact resumeAuto_staysIdle s
      · exact resumeManual_staysIdle s

theorem performClearOutlet_staysIdle (i : Byte) (s : State) : StaysIdle s (performClearOutlet i s).1 := by
  unfold performClearOutlet
  split
  · exact StaysIdle.refl s
  · exact staysIdle_of_liu rfl

theorem routeTo_staysIdle (o : Outlet) (s : State) : StaysIdle s (routeTo o s).1 := by
  unfold routeTo
  split
  · exact ((startAction_staysIdle true _).after (appendAction_liu _ s)).trans (engineRun_staysIdle _)
  · exact StaysIdle.refl s

theorem performRoute_staysIdle (i : Byte) (s : State) : StaysIdle s (performRoute i s).1 := by
  unfold performRoute
  split
  · exact StaysIdle.refl s
  · split
    · exact StaysIdle.refl s
    · split
      · exact StaysIdle.refl s
      · exact routeTo_staysIdle _ s

end Sys2Proof.Machine
end

section
/-! PROOFS. The end of an event is what begins a transmission (R160, log 9): the responder, the link and the notices
begin none before it, and then an idle transmitter takes an originated frame where one waits. -/

namespace Sys2Proof.Machine

/-! ## The responder -/

theorem offerResponse_staysIdle (f : Frame) (q : Service) (s : State) : StaysIdle s (offerResponse f q s) :=
  StaysIdle.ite ((appendOriginated_staysIdle .control f s).trans (staysIdle_of_liu rfl)) (staysIdle_of_liu rfl)

theorem inReady_staysIdle (src kind : Byte) (taken : State → State) (s : State) (h : StaysIdle s (taken s)) :
    StaysIdle s (inReady src kind taken s) := by
  unfold inReady
  split
  · exact h
  · exact appendOriginated_staysIdle .control _ s
  · exact StaysIdle.refl s
  · exact StaysIdle.refl s

theorem answer_staysIdle (src kind : Byte) (perform : State → Outcome) (s : State) (h : StaysIdle s (perform s).1) :
    StaysIdle s (answer src kind perform s) :=
  h.trans (offerResponse_staysIdle _ _ _)

theorem serve_staysIdle (src kind : Byte) (perform : State → Outcome) (s : State) (h : StaysIdle s (perform s).1) :
    StaysIdle s (serve src kind perform s) :=
  inReady_staysIdle src kind _ s (answer_staysIdle src kind perform s h)

theorem takeSumTables_staysIdle (src selector : Byte) (s : State) : StaysIdle s (takeSumTables src selector s) :=
  StaysIdle.ite (answer_staysIdle src 0x16 _ s (StaysIdle.refl s)) (staysIdle_of_liu rfl)

theorem takeRestart_staysIdle (src : Byte) (s : State) : StaysIdle s (takeRestart src s) :=
  (appendOriginated_staysIdle .control _ s).trans (staysIdle_of_liu rfl)

theorem completeSum_staysIdle (s : State) : StaysIdle s (completeSum s) := by
  unfold completeSum
  split
  · exact StaysIdle.refl s
  · refine StaysIdle.trans ?_ (applyIfDue_staysIdle false _)
    split
    · exact (offerResponse_staysIdle _ _ _).after rfl
    · exact staysIdle_of_liu rfl

theorem serveRequest_staysIdle (src : Byte) (q : Request) (s : State) : StaysIdle s (serveRequest src q s) := by
  cases q with
  | ping params => exact serve_staysIdle _ _ _ s (performPing_staysIdle params s)
  | ident => exact serve_staysIdle _ _ _ s (StaysIdle.refl s)
  | readStatus => exact serve_staysIdle _ _ _ s (StaysIdle.refl s)
  | setNotices master enables => exact serve_staysIdle _ _ _ s (performSetNotices_staysIdle src master enables s)
  | restart => exact inReady_staysIdle _ _ _ s (takeRestart_staysIdle src s)
  | putProduct index e => exact serve_staysIdle _ _ _ s (performPut_staysIdle _ _ _ s)
  | putOutlet index e => exact serve_staysIdle _ _ _ s (performPut_staysIdle _ _ _ s)
  | putRule running arriving e => exact serve_staysIdle _ _ _ s (performPut_staysIdle _ _ _ s)
  | putSegment r => exact serve_staysIdle _ _ _ s (performPut_staysIdle _ _ _ s)
  | commit => exact serve_staysIdle _ _ _ s (performCommit_staysIdle s)
  | withdraw => exact serve_staysIdle _ _ _ s (staysIdle_of_liu rfl)
  | sumTables selector => exact inReady_staysIdle _ _ _ s (takeSumTables_staysIdle src selector s)
  | addBatch f => exact serve_staysIdle _ _ _ s (performAddBatch_staysIdle f s)
  | amendBatch f => exact serve_staysIdle _ _ _ s (performAmendBatch_staysIdle f s)
  | dropBatch batchId => exact serve_staysIdle _ _ _ s (performDropBatch_staysIdle batchId s)
  | readBatch position => exact serve_staysIdle _ _ _ s (performReadBatch_staysIdle position s)
  | readInterface selector => exact serve_staysIdle _ _ _ s (performReadInterface_staysIdle selector s)
  | takeTicket => exact serve_staysIdle _ _ _ s (performTakeTicket_staysIdle s)
  | setMode value => exact serve_staysIdle _ _ _ s (performSetMode_staysIdle value s)
  | resume => exact serve_staysIdle _ _ _ s (performResume_staysIdle s)
  | clearOutlet index => exact serve_staysIdle _ _ _ s (performClearOutlet_staysIdle index s)
  | route index => exact serve_staysIdle _ _ _ s (performRoute_staysIdle index s)

theorem handOverRequest_staysIdle (src : Byte) (payload : List Byte) (s : State) :
    StaysIdle s (handOverRequest src payload s) := by
  unfold handOverRequest
  split
  · exact serveRequest_staysIdle src _ s
  · exact serve_staysIdle _ _ _ s (StaysIdle.refl s)

/-! ## The link -/

theorem handOnControl_staysIdle (f : Frame) (s : State) : StaysIdle s (handOnControl f s) := by
  refine StaysIdle.ite (StaysIdle.ite (handOverRequest_staysIdle _ _ s) (StaysIdle.refl s)) ?_
  split
  · exact judgeManifold_staysIdle _ f s
  · exact offerForward_staysIdle .field f s

theorem handOn_staysIdle (p : Port) (f : Frame) (s : State) : StaysIdle s (handOn p f s) := by
  cases p with
  | field => exact (offerForward_staysIdle .control f s).trans (observeField_staysIdle f _)
  | control => exact handOnControl_staysIdle f s

theorem receiveFrame_staysIdle (p : Port) (f : Frame) (s : State) : StaysIdle s (receiveFrame p f s) :=
  (endReception_staysIdle p s).trans (StaysIdle.ite (handOn_staysIdle p f _) (StaysIdle.refl _))

theorem receiveBytes_staysIdle (p : Port) (bytes : List Byte) (s : State) : StaysIdle s (receiveBytes p bytes s) := by
  unfold receiveBytes
  split
  · exact receiveFrame_staysIdle p _ s
  · exact endReception_staysIdle p s

theorem endAtGap_staysIdle (p : Port) (s : State) : StaysIdle s (endAtGap p s) := by
  unfold endAtGap
  split
  · exact StaysIdle.refl s
  · exact StaysIdle.ite (endReception_staysIdle p s) (receiveBytes_staysIdle p _ s)

theorem laterByte_staysIdle (p : Port) (b : Byte) (s : State) : StaysIdle s (laterByte p b s) := by
  unfold laterByte
  split
  · exact StaysIdle.refl s
  · exact setPort_staysIdle p _ s id

theorem releaseHead_tx (l : PortLink) : (releaseHead l).tx = none := by
  unfold releaseHead
  split
  · rfl
  · rfl
  · assumption

theorem controlPlaceFreed_staysIdle (s : State) : StaysIdle s (controlPlaceFreed s) := by
  unfold controlPlaceFreed
  refine StaysIdle.trans (t := _) ?_ (staysIdle_of_liu rfl)
  split
  · exact (appendOriginated_staysIdle .control _ s).trans (staysIdle_of_liu rfl)
  · exact StaysIdle.refl s

theorem resetAll_idle (address : Byte) (s : State) (p : Port) : ((resetAll address s).port p).tx = none := by
  cases p <;> rfl

theorem endTransmission_staysIdle (p : Port) (s : State) : StaysIdle s (endTransmission p s) := by
  have hreleased : StaysIdle s (s.setPort p (releaseHead (s.port p))) :=
    setPort_staysIdle p _ s fun _ => releaseHead_tx _
  unfold endTransmission
  simp only
  split
  · exact hreleased.trans (enterCommands_staysIdle _ _)
  · exact StaysIdle.ite (fun q _ => resetAll_idle _ _ q) (hreleased.trans (controlPlaceFreed_staysIdle _))
  · exact hreleased

/-! ## Notices -/

theorem formNotice_staysIdle (s t : State) (h : formNotice s = some t) : StaysIdle s t := by
  unfold formNotice at h
  split at h
  · split at h
    · cases h
    · split at h
      · cases h
      · cases h
        exact (appendOriginated_staysIdle .control _ s).trans (staysIdle_of_liu rfl)
  · cases h

theorem formNotices_staysIdle (n : Nat) (s : State) : StaysIdle s (formNotices n s) := by
  induction n generalizing s with
  | zero => exact StaysIdle.refl s
  | succ n ih =>
    unfold formNotices
    split
    · exact StaysIdle.refl s
    · exact (formNotice_staysIdle s _ ‹_›).trans (ih _)

theorem dueEmission_staysIdle (s : State) : StaysIdle s (dueEmission s) :=
  StaysIdle.ite ((formNotices_staysIdle 17 _).after rfl) (StaysIdle.refl s)

/-! ## The end of an event -/

/-- A transmitter idle in `t` has nothing to send, and one idle in `s` that forwards in `t` has no originated frame
waiting. -/
def OriginatedFirst (s t : State) : Prop :=
  ∀ p : Port, ((t.port p).tx = none → (t.port p).originated = [] ∧ (t.port p).forward = [])
    ∧ ((s.port p).tx = none → (t.port p).tx = some .forward → (t.port p).originated = [])

/-- R160: an idle transmitter that begins a forwarded frame found no originated one. -/
theorem beginSending_forward (l : PortLink) (hidle : l.tx = none) (hbegun : (beginSending l).tx = some .forward) :
    (beginSending l).originated = [] := by
  obtain ⟨rx, forward, originated, tx⟩ := l
  subst hidle
  cases originated with
  | nil => exact beginSending_originated _
  | cons f rest => cases hbegun

theorem finish_port (s : State) (p : Port) : (finish s).port p = beginSending ((dueEmission s).port p) := by
  cases p <;> rfl

/-- R160: both transmitters begin at the end of the event, and nothing in the event before it began one. -/
theorem finish_originatedFirst {s u : State} (h : StaysIdle s u) : OriginatedFirst s (finish u) := by
  refine fun p => ⟨finish_idle u p, fun hidle hforward => ?_⟩
  have hstill : ((dueEmission u).port p).tx = none := dueEmission_staysIdle u p (h p hidle)
  rw [finish_port] at hforward ⊢
  exact beginSending_forward _ hstill hforward

/-- A receiver is no matter of the transmitters. -/
theorem OriginatedFirst.setReceiver {s t : State} (h : OriginatedFirst s t) (p : Port) (r : Receiver) :
    OriginatedFirst s (t.setPort p { t.port p with rx := r }) := by
  intro q
  by_cases hq : q = p
  · rw [hq, port_setPort_same]
    exact h p
  · rw [port_setPort_ne p q _ t hq]
    exact h q

/-- R164: after a reset both lines are idle and all queues are empty. -/
theorem originatedFirst_of_reset (s t : State) (h : ∀ p, t.port p = resetPort) : OriginatedFirst s t := by
  intro p
  rw [h p]
  exact ⟨fun _ => ⟨rfl, rfl⟩, fun _ _ => rfl⟩

theorem event_originatedFirst (f : State → State) (s : State) (hr : s.inReset = false) (h : StaysIdle s (f s)) :
    ∃ t, (Host.Outcome.next (unlessInReset f s) : Host.Outcome State Fault Refusal) = .next t
      ∧ OriginatedFirst s t := by
  rw [unlessInReset_released f s hr]
  exact ⟨_, rfl, finish_originatedFirst h⟩

theorem request_originatedFirst (src : Byte) (q : Request) (s : State) (hr : s.inReset = false) :
    ∃ t, requestEvent (serveRequest src q) s = .next t ∧ OriginatedFirst s t :=
  event_originatedFirst _ s hr ((endReception_staysIdle .control s).trans (serveRequest_staysIdle src q _))

/-- A byte after a gap: the frame it ends is an event, and the byte itself begins nothing (R153). -/
theorem firstByte_originatedFirst (p : Port) (b : Byte) (s : State) (hr : s.inReset = false) :
    ∃ t, exec (.frameByteReceived p true b) s = .next t ∧ OriginatedFirst s t := by
  rw [exec_firstByte p b s hr, finish_firstByte]
  exact ⟨_, rfl, (finish_originatedFirst (endAtGap_staysIdle p s)).setReceiver p _⟩

/-- R160: every command outside a reset is an event that ends with the transmitters' turn, or a reset. -/
theorem exec_originatedFirst (c : Instr) (s : State) (hr : s.inReset = false) :
    ∃ t, exec c s = .next t ∧ OriginatedFirst s t := by
  cases c with
  | powerOnReset pins => exact ⟨_, rfl, originatedFirst_of_reset s _ fun p => by cases p <;> rfl⟩
  | resetAsserted => exact ⟨_, rfl, originatedFirst_of_reset s _ fun p => by cases p <;> rfl⟩
  | droppedFrame p bytes => exact event_originatedFirst _ s hr (receiveBytes_staysIdle p bytes s)
  | meterTotal dst src payload => exact event_originatedFirst _ s hr (receiveFrame_staysIdle .field _ s)
  | densitySample dst src payload => exact event_originatedFirst _ s hr (receiveFrame_staysIdle .field _ s)
  | valveStatus dst src payload => exact event_originatedFirst _ s hr (receiveFrame_staysIdle .field _ s)
  | fieldFrame f => exact event_originatedFirst _ s hr (receiveFrame_staysIdle .field f s)
  | valveCommand dst src payload => exact event_originatedFirst _ s hr (receiveFrame_staysIdle .control _ s)
  | controlFrame f => exact event_originatedFirst _ s hr (receiveFrame_staysIdle .control f s)
  | consumedFrame src kind payload => exact event_originatedFirst _ s hr (receiveFrame_staysIdle .control _ s)
  | unknownRequest src payload =>
    exact event_originatedFirst _ s hr
      ((endReception_staysIdle .control s).trans (handOverRequest_staysIdle src payload _))
  | ping src params => exact request_originatedFirst src (.ping params) s hr
  | ident src => exact request_originatedFirst src .ident s hr
  | readStatus src => exact request_originatedFirst src .readStatus s hr
  | setNotices src master enables => exact request_originatedFirst src (.setNotices master enables) s hr
  | restart src => exact request_originatedFirst src .restart s hr
  | putProduct src index e => exact request_originatedFirst src (.putProduct index e) s hr
  | putOutlet src index e => exact request_originatedFirst src (.putOutlet index e) s hr
  | putRule src running arriving e => exact request_originatedFirst src (.putRule running arriving e) s hr
  | putSegment src r => exact request_originatedFirst src (.putSegment r) s hr
  | commit src => exact request_originatedFirst src .commit s hr
  | withdraw src => exact request_originatedFirst src .withdraw s hr
  | sumTables src selector => exact request_originatedFirst src (.sumTables selector) s hr
  | sumComplete => exact event_originatedFirst _ s hr (completeSum_staysIdle s)
  | addBatch src f => exact request_originatedFirst src (.addBatch f) s hr
  | amendBatch src f => exact request_originatedFirst src (.amendBatch f) s hr
  | dropBatch src batchId => exact request_originatedFirst src (.dropBatch batchId) s hr
  | readBatch src position => exact request_originatedFirst src (.readBatch position) s hr
  | readInterface src selector => exact request_originatedFirst src (.readInterface selector) s hr
  | takeTicket src => exact request_originatedFirst src .takeTicket s hr
  | setModeAuto src value => exact request_originatedFirst src (.setMode value) s hr
  | setModeManual src => exact request_originatedFirst src (.setMode 0) s hr
  | resume src => exact request_originatedFirst src .resume s hr
  | clearOutlet src index => exact request_originatedFirst src (.clearOutlet index) s hr
  | route src index => exact request_originatedFirst src (.route index) s hr
  | frameTransmitted p => exact event_originatedFirst _ s hr (endTransmission_staysIdle p s)
  | silenceTimerExpiry => exact event_originatedFirst _ s hr (silenceExpiry_staysIdle s)
  | stillTimerExpiry => exact event_originatedFirst _ s hr (stillExpiry_staysIdle s)
  | openTimeExpiry => exact event_originatedFirst _ s hr (phaseExpiry_staysIdle .openNew s)
  | overlapExpiry => exact event_originatedFirst _ s hr (phaseExpiry_staysIdle .overlap s)
  | closeTimeExpiry => exact event_originatedFirst _ s hr (phaseExpiry_staysIdle .closeOld s)
  | strokeTimerExpiry => exact event_originatedFirst _ s hr (strokeExpiry_staysIdle s)
  | recoveryExpiry => exact event_originatedFirst _ s hr (recoveryExpires_staysIdle s)
  | frameByteReceived p gap b =>
    cases gap with
    | true => exact firstByte_originatedFirst p b s hr
    | false => exact event_originatedFirst _ s hr (laterByte_staysIdle p b s)

/-- Settles O15: both transmitters begin at the end of the event and nowhere else. -/
theorem originatedFramesGoFirst : Obligations.OriginatedFramesGoFirst := by
  intro c s t p hr ht
  obtain ⟨u, hu, hfirst⟩ := exec_originatedFirst c s hr
  cases ht.symm.trans hu
  exact hfirst p

end Sys2Proof.Machine
end

section
/-! PROOFS. The reset input: every command but the two of the reset is an event, and no event reaches a block while the
input is asserted (R174). -/

namespace Sys2Proof.Machine

/-- A command that is not one of the two of the reset is one event: its effect outside a reset, nothing in one (R174). -/
theorem exec_event (c : Instr) (hpower : ∀ pins, c ≠ .powerOnReset pins) (hassert : c ≠ .resetAsserted) :
    ∃ f : State → State, ∀ s, exec c s = .next (unlessInReset f s) := by
  cases c with
  | powerOnReset pins => exact absurd rfl (hpower pins)
  | resetAsserted => exact absurd rfl hassert
  | consumedFrame src kind payload =>
    exact ⟨fun s => receiveFrame .control ⟨s.liu.address, src, kind, payload⟩ s, fun _ => rfl⟩
  | _ => exact ⟨_, fun _ => rfl⟩

/-- Settles O5: the assertion leaves the reset values with the address kept, and an event in reset changes nothing. -/
theorem assertedResetStopsThePart : Obligations.AssertedResetStopsThePart := by
  refine ⟨fun pins s => ⟨resetAll pins s, rfl, rfl⟩, fun c s hr hpower hassert => ?inReset⟩
  case inReset =>
    obtain ⟨f, hf⟩ := exec_event c hpower hassert
    rw [hf s, unlessInReset_reset f s hr]

end Sys2Proof.Machine
end

section
/-! PROOFS. Requests as frames: the payload laid out for a request is read back as that request, field by field, and its
frame is the request's command (R17 to R20, R38, R45, R49, R96, R131, R132, R136, R156, R166, R177). -/

namespace Sys2Proof.Machine

/-! ## Fields read from their bytes -/

theorem beNat_cons (b : Byte) (bs : List Byte) : beNat (b :: bs) = b.toNat * 256 ^ bs.length + beNat bs := by
  induction bs using List.reverseRecOn with
  | nil => simp [beNat]
  | append_singleton bs c ih =>
    rw [← List.cons_append, beNat_append, ih, beNat_append, List.length_append, List.length_singleton]
    ring

/-- The low `k` bytes of a number spell its remainder. -/
theorem beNat_beBytes (k n : Nat) : beNat (beBytes k n) = n % 256 ^ k := by
  induction k with
  | zero => rw [pow_zero, Nat.mod_one]; rfl
  | succ k ih =>
    have hshift : n >>> (8 * k) = n / 256 ^ k := by rw [Nat.shiftRight_eq_div_pow, Nat.pow_mul]
    have hsplit : n % 256 ^ (k + 1) = n % 256 ^ k + 256 ^ k * (n / 256 ^ k % 256) := Nat.mod_mul
    rw [beBytes, beNat_cons, ih, beBytes_length, hshift, BitVec.toNat_ofNat, hsplit, Nat.add_comm, Nat.mul_comm]

theorem bytesOf_length {w : Nat} (k : Nat) (x : BitVec w) : (bytesOf k x).length = k := beBytes_length k x.toNat

/-- The byte at an offset is the one there. -/
theorem paramAt_byte (b : Byte) (ps : List Byte) : paramAt (b :: ps) 0 1 = b := by
  show BitVec.ofNat 8 (beNat [b]) = b
  rw [beNat_cons]
  simp [beNat]

/-- A field is read behind the byte before it. -/
theorem paramAt_cons {w : Nat} (b : Byte) (ps : List Byte) (n k : Nat) (h : 0 < n) :
    (paramAt (b :: ps) n k : BitVec w) = paramAt ps (n - 1) k := by
  obtain ⟨m, rfl⟩ := Nat.exists_eq_succ_of_ne_zero h.ne'
  rfl

/-- A field in its own width is read back from its bytes. -/
theorem paramAt_bytesOf {w : Nat} (k : Nat) (x : BitVec w) (ps : List Byte) (h : w = 8 * k) :
    paramAt (bytesOf k x ++ ps) 0 k = x := by
  have hsmall : x.toNat < 256 ^ k := by
    have hwidth : 2 ^ w = 256 ^ k := by rw [h, Nat.pow_mul]
    exact hwidth ▸ x.isLt
  unfold paramAt
  rw [List.drop_zero, List.take_left' (bytesOf_length k x), bytesOf, beNat_beBytes, Nat.mod_eq_of_lt hsmall,
    BitVec.ofNat_toNat, BitVec.setWidth_eq]

theorem paramAt_bytesOf_last {w : Nat} (k : Nat) (x : BitVec w) (h : w = 8 * k) : paramAt (bytesOf k x) 0 k = x := by
  have hread := paramAt_bytesOf k x [] h
  rwa [List.append_nil] at hread

/-- A field is read behind the bytes of the field before it. -/
theorem paramAt_behind {v w : Nat} (j : Nat) (y : BitVec v) (ps : List Byte) (n k : Nat) (h : j ≤ n) :
    (paramAt (bytesOf j y ++ ps) n k : BitVec w) = paramAt ps (n - j) k := by
  unfold paramAt
  rw [List.drop_append, List.drop_eq_nil_of_le (by rw [bytesOf_length]; exact h), List.nil_append, bytesOf_length]

/-! ## Records read from their bytes -/

theorem productAt_bytes (index : Byte) (e : ProductEntry) : productAt (index :: productEntryBytes e) 1 = e := by
  simp [productAt, productEntryBytes, paramAt_byte, paramAt_cons, paramAt_bytesOf, paramAt_behind]

theorem outletAt_bytes (index : Byte) (e : OutletEntry) : outletAt (index :: outletEntryBytes e) 1 = e := by
  simp [outletAt, outletEntryBytes, paramAt_byte, paramAt_cons, paramAt_bytesOf_last]

theorem ruleAt_bytes (running arriving : Byte) (e : RuleEntry) :
    ruleAt (running :: arriving :: ruleEntryBytes e) 2 = e := by
  simp [ruleAt, ruleEntryBytes, paramAt_byte, paramAt_cons, paramAt_bytesOf_last]

theorem segmentAt_bytes (r : SegmentRecord) : segmentAt (segmentRecordBytes r) = r := by
  unfold segmentAt segmentRecordBytes
  simp [paramAt_byte, paramAt_cons, paramAt_bytesOf, paramAt_behind, paramAt_bytesOf_last]

theorem batchAt_bytes (f : BatchFields) : batchAt (requestBytes.batchBytes f) = f := by
  simp [batchAt, requestBytes.batchBytes, paramAt_byte, paramAt_cons, paramAt_bytesOf, paramAt_behind,
    paramAt_bytesOf_last]

theorem batchBytes_length (f : BatchFields) : (requestBytes.batchBytes f).length = 16 := by
  simp only [requestBytes.batchBytes, List.length_append, bytesOf_length, List.length_singleton]

/-! ## Requests read from their payloads -/

/-- R166 and R167: a payload whose length its kind allows spells the request of its parameters. -/
theorem parseRequest_allowed (kind : Byte) (ps : List Byte) (q : Request) (hlen : lengthOk kind ps.length = some true)
    (hq : requestOf kind ps = some q) : parseRequest (kind :: ps) = some q :=
  (if_pos hlen).trans hq

/-- R166: the layout of a request is read back as that request. -/
theorem parseRequest_requestBytes (q : Request) (h : (requestBytes q).length ≤ 198) :
    parseRequest (requestBytes q) = some q := by
  cases q with
  | ping ps => exact parseRequest_allowed 0x01 ps _ (congrArg some (decide_eq_true (Nat.le_of_succ_le_succ h))) rfl
  | ident => rfl
  | readStatus => rfl
  | setNotices master enables =>
    refine parseRequest_allowed 0x04 _ _ rfl (congrArg some ?_)
    rw [paramAt_byte, paramAt_cons _ _ 1 3 Nat.one_pos, paramAt_bytesOf_last 3 enables rfl]
  | restart => rfl
  | putProduct index e =>
    refine parseRequest_allowed 0x10 (index :: productEntryBytes e) _ ?_ (congrArg some ?_)
    · rw [List.length_cons, ← productBytes_eq, productBytes_length]; rfl
    · rw [paramAt_byte, productAt_bytes]
  | putOutlet index e =>
    refine parseRequest_allowed 0x11 (index :: outletEntryBytes e) _ ?_ (congrArg some ?_)
    · rw [List.length_cons, ← outletBytes_eq, outletBytes_length]; rfl
    · rw [paramAt_byte, outletAt_bytes]
  | putRule running arriving e =>
    refine parseRequest_allowed 0x12 (running :: arriving :: ruleEntryBytes e) _ ?_ (congrArg some ?_)
    · rw [List.length_cons, List.length_cons, ← ruleBytes_eq, ruleBytes_length]; rfl
    · rw [paramAt_byte, paramAt_cons _ _ 1 1 Nat.one_pos, paramAt_byte, ruleAt_bytes]
  | putSegment r =>
    refine parseRequest_allowed 0x13 (segmentRecordBytes r) _ ?_ (congrArg some ?_)
    · rw [← segmentBytes_eq, segmentBytes_length]; rfl
    · rw [segmentAt_bytes]
  | commit => rfl
  | withdraw => rfl
  | sumTables selector => exact congrArg (fun b => some (Request.sumTables b)) (paramAt_byte selector [])
  | addBatch f =>
    refine parseRequest_allowed 0x20 (requestBytes.batchBytes f) _ ?_ (congrArg some ?_)
    · rw [batchBytes_length]; rfl
    · rw [batchAt_bytes]
  | amendBatch f =>
    refine parseRequest_allowed 0x21 (requestBytes.batchBytes f) _ ?_ (congrArg some ?_)
    · rw [batchBytes_length]; rfl
    · rw [batchAt_bytes]
  | dropBatch batchId => exact congrArg (fun b => some (Request.dropBatch b)) (paramAt_bytesOf_last 2 batchId rfl)
  | readBatch position => exact congrArg (fun b => some (Request.readBatch b)) (paramAt_byte position [])
  | readInterface selector => exact congrArg (fun b => some (Request.readInterface b)) (paramAt_byte selector [])
  | takeTicket => rfl
  | setMode value => exact congrArg (fun b => some (Request.setMode b)) (paramAt_byte value [])
  | resume => rfl
  | clearOutlet index => exact congrArg (fun b => some (Request.clearOutlet b)) (paramAt_byte index [])
  | route index => exact congrArg (fun b => some (Request.route b)) (paramAt_byte index [])

/-- A request's command is the request handed over (R156); SET MODE with 0 is SET_MODE_MANUAL (log 26). -/
theorem exec_commandOf (src : Byte) (q : Request) (s : State) :
    exec (commandOf src q) s = requestEvent (serveRequest src q) s := by
  cases q with
  | setMode value =>
    by_cases hvalue : value = 0
    · rw [hvalue]; rfl
    · rw [commandOf, if_neg hvalue]; rfl
  | _ => rfl

/-- Settles O26: the payload is handed over as to UNKNOWN_REQUEST, and spells the request. -/
theorem requestFrameIsItsCommand : Obligations.RequestFrameIsItsCommand := by
  intro src q s hlen
  obtain ⟨-, -, hframe⟩ := unknownRequestIsAnsweredUnknown
  have hparsed := parseRequest_requestBytes q hlen
  have hserved : handOverRequest src (requestBytes q) = serveRequest src q := by
    funext u
    unfold handOverRequest
    rw [hparsed]
  refine ⟨hparsed, ?_⟩
  rw [hframe src (requestBytes q) s (hlen.trans (by decide)), exec_unknownRequest, hserved, exec_commandOf]

end Sys2Proof.Machine
end

section
/-! PROOFS. What a request handed over comes to, whichever it is: it is performed, it restarts the part or it begins a sum
(R167, R173, R32); and the responder that is busy (R168, R170). -/

namespace Sys2Proof.Machine

/-! ## Requests handed over -/

/-- What handing over a request of a kind is: performing and answering it, RESTART, or SUM TABLES. -/
inductive Serves (src : Byte) : Byte → (State → State) → Prop where
  | performs (kind : Byte) (perform : State → Outcome) (h : ∀ s, Reaches s (perform s).1) :
      Serves src kind (serve src kind perform)
  | restarts : Serves src 0x05 (inReady src 0x05 (takeRestart src))
  | sums (selector : Byte) : Serves src 0x16 (inReady src 0x16 (takeSumTables src selector))

/-- The kind byte of a request: the first of its payload. -/
def requestKind (q : Request) : Byte := echoedKind (requestBytes q)

theorem serveRequest_serves (src : Byte) (q : Request) : Serves src (requestKind q) (serveRequest src q) := by
  cases q with
  | ping params => exact .performs 0x01 _ (performPing_reaches params)
  | ident => exact .performs 0x02 _ Reaches.refl
  | readStatus => exact .performs 0x03 _ Reaches.refl
  | setNotices master enables => exact .performs 0x04 _ (performSetNotices_reaches src master enables)
  | restart => exact .restarts
  | putProduct index e => exact .performs 0x10 _ fun s => performPut_reaches _ _ _ s (setProduct_ok index e)
  | putOutlet index e => exact .performs 0x11 _ fun s => performPut_reaches _ _ _ s (setOutlet_ok index e)
  | putRule running arriving e =>
    exact .performs 0x12 _ fun s => performPut_reaches _ _ _ s (setRule_ok running arriving e)
  | putSegment r => exact .performs 0x13 _ (performPutSegment_reaches r)
  | commit => exact .performs 0x14 _ performCommit_reaches
  | withdraw => exact .performs 0x15 _ performWithdraw_reaches
  | sumTables selector => exact .sums selector
  | addBatch f => exact .performs 0x20 _ (performAddBatch_reaches f)
  | amendBatch f => exact .performs 0x21 _ (performAmendBatch_reaches f)
  | dropBatch batchId => exact .performs 0x22 _ (performDropBatch_reaches batchId)
  | readBatch position => exact .performs 0x23 _ (performReadBatch_reaches position)
  | readInterface selector => exact .performs 0x30 _ (performReadInterface_reaches selector)
  | takeTicket => exact .performs 0x40 _ performTakeTicket_reaches
  | setMode value => exact .performs 0x50 _ (performSetMode_reaches value)
  | resume => exact .performs 0x51 _ performResume_reaches
  | clearOutlet index => exact .performs 0x52 _ (performClearOutlet_reaches index)
  | route index => exact .performs 0x53 _ (performRoute_reaches index)

/-- A request read from parameters is of the kind that was read (R166). -/
theorem requestOf_kind (code : Byte) (ps : List Byte) (q : Request) (h : requestOf code ps = some q) :
    requestKind q = code := by
  unfold requestOf at h
  split at h
  case h_23 => cases h
  all_goals
    rename_i hrow
    cases h
    exact (byte_of_toNat code _ hrow).symm

theorem parseRequest_kind (payload : List Byte) (q : Request) (h : parseRequest payload = some q) :
    requestKind q = payload.headD 0 := by
  cases payload with
  | nil => cases h
  | cons code ps =>
    obtain ⟨-, hq⟩ := Option.ite_none_right_eq_some.1 h
    exact requestOf_kind code ps q hq

/-- A payload handed over is the request that it spells, or is answered UNKNOWN (R167). -/
theorem handOverRequest_serves (src : Byte) (payload : List Byte) :
    Serves src (payload.headD 0) (handOverRequest src payload) := by
  cases hp : parseRequest payload with
  | some q =>
    have hserved : handOverRequest src payload = serveRequest src q := by
      funext s
      unfold handOverRequest
      rw [hp]
    rw [hserved, ← parseRequest_kind payload q hp]
    exact serveRequest_serves src q
  | none =>
    have hserved : handOverRequest src payload = serve src (payload.headD 0) performUnknown := by
      funext s
      unfold handOverRequest
      rw [hp]
      rfl
    rw [hserved]
    exact .performs _ _ Reaches.refl

/-- Every request command hands over a request of its kind (R156, R166). -/
theorem exec_request (c : Instr) (src kind : Byte) (h : requestOfCommand c = some (src, kind)) :
    ∃ handOver, Serves src kind handOver ∧ ∀ s, exec c s = requestEvent handOver s := by
  cases c <;> cases h
  case unknownRequest payload => exact ⟨_, handOverRequest_serves src payload, fun _ => rfl⟩
  case ping params => exact ⟨_, serveRequest_serves src (.ping params), fun _ => rfl⟩
  case ident => exact ⟨_, serveRequest_serves src .ident, fun _ => rfl⟩
  case readStatus => exact ⟨_, serveRequest_serves src .readStatus, fun _ => rfl⟩
  case setNotices master enables => exact ⟨_, serveRequest_serves src (.setNotices master enables), fun _ => rfl⟩
  case restart => exact ⟨_, serveRequest_serves src .restart, fun _ => rfl⟩
  case putProduct index e => exact ⟨_, serveRequest_serves src (.putProduct index e), fun _ => rfl⟩
  case putOutlet index e => exact ⟨_, serveRequest_serves src (.putOutlet index e), fun _ => rfl⟩
  case putRule running arriving e => exact ⟨_, serveRequest_serves src (.putRule running arriving e), fun _ => rfl⟩
  case putSegment r => exact ⟨_, serveRequest_serves src (.putSegment r), fun _ => rfl⟩
  case commit => exact ⟨_, serveRequest_serves src .commit, fun _ => rfl⟩
  case withdraw => exact ⟨_, serveRequest_serves src .withdraw, fun _ => rfl⟩
  case sumTables selector => exact ⟨_, serveRequest_serves src (.sumTables selector), fun _ => rfl⟩
  case addBatch f => exact ⟨_, serveRequest_serves src (.addBatch f), fun _ => rfl⟩
  case amendBatch f => exact ⟨_, serveRequest_serves src (.amendBatch f), fun _ => rfl⟩
  case dropBatch batchId => exact ⟨_, serveRequest_serves src (.dropBatch batchId), fun _ => rfl⟩
  case readBatch position => exact ⟨_, serveRequest_serves src (.readBatch position), fun _ => rfl⟩
  case readInterface selector => exact ⟨_, serveRequest_serves src (.readInterface selector), fun _ => rfl⟩
  case takeTicket => exact ⟨_, serveRequest_serves src .takeTicket, fun _ => rfl⟩
  case setModeAuto value => exact ⟨_, serveRequest_serves src (.setMode value), fun _ => rfl⟩
  case setModeManual => exact ⟨_, serveRequest_serves src (.setMode 0), fun _ => rfl⟩
  case resume => exact ⟨_, serveRequest_serves src .resume, fun _ => rfl⟩
  case clearOutlet index => exact ⟨_, serveRequest_serves src (.clearOutlet index), fun _ => rfl⟩
  case route index => exact ⟨_, serveRequest_serves src (.route index), fun _ => rfl⟩

/-! ## The busy responder -/

/-- Any request is first a matter of the responder's state (R168). -/
theorem Serves.inReady {src kind : Byte} {handOver : State → State} (h : Serves src kind handOver) :
    ∃ taken, handOver = inReady src kind taken := by
  cases h with
  | performs _ _ _ => exact ⟨_, rfl⟩
  | restarts => exact ⟨_, rfl⟩
  | sums selector => exact ⟨_, rfl⟩

/-- In SUMMING any request meets what one that is performed does: BUSY, or nothing. -/
theorem Serves.busy {src kind : Byte} {handOver : State → State} (h : Serves src kind handOver) (s : State)
    (hm : s.mr.state = .summing) : handOver s = { s with liu := { s.liu with control := { s.liu.control with
      originated := if s.liu.control.originated.length < 4 then
        s.liu.control.originated ++ [responseOf s src [3, kind, 0]] else s.liu.control.originated } } } := by
  obtain ⟨taken, rfl⟩ := h.inReady
  have hserve : Machine.inReady src kind taken s = serve src kind performUnknown s := by
    unfold serve Machine.inReady
    rw [hm]
  rw [hserve, serve_busy src kind performUnknown s hm]

theorem Serves.discarded {src kind : Byte} {handOver : State → State} (h : Serves src kind handOver) (s : State)
    (hm : s.mr.state = .holding ∨ s.mr.state = .restartPending) : handOver s = s := by
  obtain ⟨taken, rfl⟩ := h.inReady
  unfold Machine.inReady
  rcases hm with hm | hm <;> rw [hm]

/-- Settles O28: whichever request it is, the answer BUSY or nothing at all. -/
theorem requestMeetsABusyResponder : Obligations.RequestMeetsABusyResponder := by
  refine ⟨fun c src kind s hs hc hm => ?busy, fun c src kind s hs hc hm => ?discarded⟩
  case busy =>
    obtain ⟨handOver, hserves, hexec⟩ := exec_request c src kind hc
    refine ⟨_, (hexec s).trans (requestEvent_finish handOver s hs.released), ?_⟩
    rw [hserves.busy (received s) hm]
    generalize hu : ({ received s with liu := _ } : State) = u
    have hn : u.nu.testDue = false := by rw [← hu]; exact hs.settled
    have hfield := finish_ports u hn .field
    have hcontrol := finish_ports u hn .control
    subst hu
    exact ⟨finish_rest _ hn, (finish_settles _).address, hfield, hcontrol.rx, hcontrol.forward, hcontrol.originated⟩
  case discarded =>
    obtain ⟨handOver, hserves, hexec⟩ := exec_request c src kind hc
    refine ⟨_, (hexec s).trans (requestEvent_finish handOver s hs.released), ?_⟩
    rw [hserves.discarded (received s) hm]
    exact ⟨finish_rest _ hs.settled, finish_endedOnControl s _ rfl hs.settled⟩

end Sys2Proof.Machine
end

section
/-! PROOFS. PING, IDENT and READ STATUS, which change nothing (R171, R172), and RESTART, which waits for its response to be
sent (R173). -/

namespace Sys2Proof.Machine

/-! ## PING and IDENT -/

theorem performPing_echoes (ps : List Byte) (s : State) (h : ps.length ≤ 197) : performPing ps s = (s, .done ps) :=
  if_pos h

theorem performPing_overlong (ps : List Byte) (s : State) (h : 197 < ps.length) : performPing ps s = (s, .unknown) :=
  if_neg (Nat.not_le.2 h)

/-- Settles O29: the parameters, UNKNOWN where they are too many for a response, and the six identification bytes. -/
theorem pingEchoesAndIdentIdentifies : Obligations.PingEchoesAndIdentIdentifies := by
  refine ⟨fun src ps s hs hlen => ?echoes, fun src ps s hs hlen => ?overlong, fun src s hs => ?identifies⟩
  case echoes => exact unchanged_answered src 0x01 (performPing ps) _ s hs (performPing_echoes ps (received s) hlen)
  case overlong => exact unchanged_answered src 0x01 (performPing ps) _ s hs (performPing_overlong ps (received s) hlen)
  case identifies => exact unchanged_answered src 0x02 performIdent _ s hs rfl

/-! ## READ STATUS -/

theorem engineByte_eq (e : EngineState) : engineByte e = engineCode e := by
  cases e <;> rfl

theorem outletStatus_eq (s : State) (o : Outlet) : outletStatus s o = outletState s o := by
  unfold outletStatus outletState positionCode flag
  cases s.mg.valves[o].confirmed <;> cases s.mg.valves[o].available <;> rfl

/-- The latches stand in the order of the events' numbers (R175). -/
theorem allEvents_indices : allEvents.map eventIndex = List.finRange 17 := by decide

/-- R172: the pending events, summed over the latches. -/
theorem pendingBytes_eq (s : State) : pendingBytes s = pendingLatchBytes s := by
  unfold pendingBytes pendingLatchBytes pendingEvents
  rw [← allEvents_indices, List.map_map]
  rfl

/-- R172: the 29 bytes, field by field. -/
theorem statusData_eq (s : State) : statusData s = statusBytes s := by
  have houtlets : allOutlets.map (outletStatus s) = (List.finRange 10).map (outletState s) :=
    congrArg₂ List.map (funext (outletStatus_eq s)) (by decide)
  unfold statusData statusBytes
  rw [modeByte_eq, trackerByte_eq, engineByte_eq, outletByte_eq, boolByte_eq, boolByte_eq, boolByte_eq, houtlets,
    pendingBytes_eq]
  simp only [List.append_assoc, List.cons_append, List.nil_append, oneByte]
  rfl

/-- Settles O30: the status, and in SUMMING what every request meets. -/
theorem statusIsReadWhole : Obligations.StatusIsReadWhole := by
  refine ⟨fun src s hs => ?done, fun src s t hs hm ht => ?summing⟩
  case done =>
    have hread := unchanged_answered src 0x03 performReadStatus (.done (statusData (received s))) s hs rfl
    rw [statusData_eq (received s)] at hread
    exact hread
  case summing =>
    obtain ⟨u, hu, -, -, -, -, -, horiginated⟩ :=
      requestMeetsABusyResponder.1 (.readStatus src) src 0x03 s hs rfl hm
    cases ht.symm.trans hu
    rw [horiginated]
    split
    · exact Or.inr rfl
    · exact Or.inl rfl

/-! ## RESTART -/

/-- R173: RESTART taken in READY: its response is recorded, and placed or held. -/
theorem takeRestart_eq (src : Byte) (s : State) : takeRestart src s = { s with
    liu := { s.liu with control := { s.liu.control with
      originated := if s.liu.control.originated.length < 4 then
        s.liu.control.originated ++ [responseOf s src [0, 0x05, 0]] else s.liu.control.originated } }
    mr := ⟨.restartPending, some ⟨src, 0x05⟩,
      if s.liu.control.originated.length < 4 then none else some (responseOf s src [0, 0x05, 0]),
      some (responseOf s src [0, 0x05, 0])⟩ } := by
  unfold takeRestart appendOriginated
  by_cases hfree : s.liu.control.originated.length < 4
  · have hcond : originatedFree s .control = true := decide_eq_true hfree
    simp only [if_pos hcond, if_pos hfree]
    rfl
  · have hcond : ¬ originatedFree s .control = true := fun e => hfree (of_decide_eq_true e)
    simp only [if_neg hcond, if_neg hfree]
    rfl

theorem inReady_ready (src kind : Byte) (taken : State → State) (s : State) (h : s.mr.state = .ready) :
    inReady src kind taken s = taken s := by
  unfold inReady
  rw [h]

/-- Settles O32: RESTART raises nothing, so its event leaves what it recorded. -/
theorem restartWaitsForItsResponse : Obligations.RestartWaitsForItsResponse := by
  intro src s hs
  refine ⟨_, requestEvent_finish (inReady src 0x05 (takeRestart src)) s hs.released, ?_⟩
  rw [inReady_ready src 0x05 _ (received s) hs.ready, takeRestart_eq]
  generalize hu : ({ received s with liu := _, mr := _ } : State) = u
  have hn : u.nu.testDue = false := by rw [← hu]; exact hs.settled
  have hrest := finish_rest u hn
  have hmr : (finish u).mr = u.mr := by rw [hrest]
  have hfield := finish_ports u hn .field
  have hcontrol := finish_ports u hn .control
  have haddress := (finish_settles u).address
  subst hu
  refine ⟨?_, haddress, hfield, hcontrol.rx, hcontrol.forward, by rw [hmr], by rw [hmr], by rw [hmr]; rfl, ?_⟩
  · rw [hmr]
    exact hrest
  · rw [hmr]
    by_cases hfree : s.liu.control.originated.length < 4
    · rw [if_pos hfree]
      exact ⟨if_pos hfree, hcontrol.originated.trans (if_pos hfree)⟩
    · rw [if_neg hfree]
      exact ⟨if_neg hfree, hcontrol.originated.trans (if_neg hfree)⟩

end Sys2Proof.Machine
end

section
/-! PROOFS. SET NOTICES: the settings it replaces, its refusals, and the emission test behind its response (R176, R177). -/

namespace Sys2Proof.Machine

/-! ## The enables -/

/-- R177: the enables kept are those of events 4 to 17. -/
theorem keptEnables_getLsbD (enables : BitVec 24) (h : enables.toNat < 2 ^ 17) (n : Nat) (hn : n < 24) :
    (keptEnables enables).getLsbD n = (decide (3 ≤ n) && enables.getLsbD n) := by
  have hmask : ∀ i : Fin 24, (0x01FFF8#24).getLsbD i.val = (decide (3 ≤ i.val) && decide (i.val < 17)) := by decide
  have hhigh : 17 ≤ n → enables.getLsbD n = false := fun hle =>
    Nat.testBit_lt_two_pow (h.trans_le (Nat.pow_le_pow_right (by decide) hle))
  unfold keptEnables
  rw [BitVec.getLsbD_and, hmask ⟨n, hn⟩, Bool.and_comm]
  by_cases hlow : n < 17
  · rw [decide_eq_true hlow, Bool.and_true]
  · rw [hhigh (Nat.le_of_not_lt hlow), Bool.and_false, Bool.and_false]

/-! ## SET NOTICES performed -/

/-- R177: the settings that SET NOTICES from `src` leaves, the emission test being due. -/
def noticesSet (src master : Byte) (enables : BitVec 24) (s : State) : State :=
  tested { s with nu := { s.nu with master := master == 1, enables := keptEnables enables, address := src } }

theorem performSetNotices_sets (src master : Byte) (enables : BitVec 24) (s : State) (hm : master.toNat ≤ 1)
    (he : enables.toNat < 2 ^ 17) :
    performSetNotices src master enables s = (noticesSet src master enables s, .done (pendingLatchBytes s)) := by
  unfold performSetNotices
  rw [if_neg (Nat.not_lt.2 hm), if_neg (Nat.not_le.2 he)]
  exact congrArg (fun data => (noticesSet src master enables s, Answer.done data)) (pendingBytes_eq _)

theorem performSetNotices_badMaster (src master : Byte) (enables : BitVec 24) (s : State) (hm : 1 < master.toNat) :
    performSetNotices src master enables s = refuse .range [0] s := if_pos hm

theorem performSetNotices_badEnables (src master : Byte) (enables : BitVec 24) (s : State) (hm : master.toNat ≤ 1)
    (he : 2 ^ 17 ≤ enables.toNat) : performSetNotices src master enables s = refuse .range [1] s :=
  (if_neg (Nat.not_lt.2 hm)).trans (if_pos he)

/-! ## The emission test behind a response -/

/-- Where the three conditions of R176 do not hold together, no notice is formed. -/
theorem NoticesFormed.of_done {s t : State} (h : NoticesFormed s t) (hd : NoticesDone s) : t = s := by
  cases h with
  | done _ => rfl
  | formed _ _ _ k _ => exact absurd hd k.not_done

/-- With three frames queued before it, a response takes the last place, or is held: no notice follows it (R176). -/
theorem responseOffered_done (src kind : Byte) (payload : List Byte) (u : State)
    (h : 3 ≤ u.liu.control.originated.length) : NoticesDone (responseOffered src kind payload u) := by
  by_cases hfree : u.liu.control.originated.length < 4
  · rw [responseOffered_free src kind payload u hfree]
    refine Or.inr (Or.inl ?_)
    show 4 ≤ (u.liu.control.originated ++ [_]).length
    rw [List.length_append, List.length_singleton]
    omega
  · rw [responseOffered_full src kind payload u hfree]
    exact Or.inr (Or.inr (Option.some_ne_none _))

theorem responseOffered_nu (src kind : Byte) (payload : List Byte) (u : State) :
    (responseOffered src kind payload u).nu = u.nu := by
  unfold responseOffered
  split <;> rfl

theorem responseOffered_queue (src kind : Byte) (payload : List Byte) (u : State)
    (h : u.liu.control.originated.length < 4) :
    (responseOffered src kind payload u).liu.control.originated.length = u.liu.control.originated.length + 1 := by
  rw [responseOffered_free src kind payload u h]
  exact List.length_append

/-- `s` with no emission test due. -/
def untested (s : State) : State := { s with nu := { s.nu with testDue := false } }

/-- R176 at the end of a request with the test due: with three frames or more queued every latch is kept. -/
theorem EndsRequest.latches_kept {src kind : Byte} {payload : List Byte} {u t : State}
    (h : EndsRequest src kind payload u t) (hdue : u.nu.testDue = true)
    (hqueue : 3 ≤ u.liu.control.originated.length) : t.nu.latches = u.nu.latches := by
  obtain ⟨w, hw, rfl⟩ := EndsEvent.noted h (by rw [responseOffered_nu]; exact hdue)
  have hsame : w = untested (responseOffered src kind payload u) :=
    hw.of_done (responseOffered_done src kind payload u hqueue)
  show w.nu.latches = _
  rw [hsame]
  show (responseOffered src kind payload u).nu.latches = _
  rw [responseOffered_nu]

/-- R176 at the end of a request with the test due: a latch is kept, or it is clear and its notice stands behind the
response. -/
theorem EndsRequest.latches {src kind : Byte} {payload : List Byte} {u t : State}
    (h : EndsRequest src kind payload u t) (hdue : u.nu.testDue = true) (d : Event) :
    t.nu.latches[eventIndex d] = u.nu.latches[eventIndex d]
      ∨ ∃ l, u.nu.latches[eventIndex d] = some l ∧ t.nu.latches[eventIndex d] = none ∧ Reported t.nu d
        ∧ noticeOf t d l ∈ t.liu.control.originated.drop (u.liu.control.originated.length + 1) := by
  by_cases hqueue : 3 ≤ u.liu.control.originated.length
  · exact Or.inl (by rw [h.latches_kept hdue hqueue])
  · obtain ⟨w, hw, rfl⟩ := EndsEvent.noted h (by rw [responseOffered_nu]; exact hdue)
    have hbehind := hw.latches (u.liu.control.originated.length + 1)
      (responseOffered_queue src kind payload u (by omega)).ge d
    simp only [responseOffered_nu] at hbehind
    exact hbehind

/-! ## The statement -/

/-- Settles O31: the settings and the response as of any request, and the emission test by what it leaves of the latches;
the two refusals change nothing. -/
theorem noticesAreSet : Obligations.NoticesAreSet := by
  refine ⟨fun src master enables s hs hm he => ?set, fun src master enables s hs hm => ?badMaster,
    fun src master enables s hs hm he => ?badEnables⟩
  case set =>
    have hperform := performSetNotices_sets src master enables (received s) hm he
    obtain ⟨t, ht, hends⟩ := serve_ends src 0x04 (performSetNotices src master enables) s _
      ([0, 0x04, 0] ++ pendingLatchBytes s) _ hs hperform rfl
    obtain ⟨u, hu, hdone⟩ := request_performed src 0x04 (performSetNotices src master enables) _ s hs
      (performSetNotices_reaches src master enables _) hperform
    cases ht.symm.trans hu
    refine ⟨t, keptEnables enables, ht, keptEnables_getLsbD enables he, hends, hdone.answered, ?_, ?_, hdone.nuMaster,
      hdone.nuAddress, hdone.nuEnables, hends.latches rfl, hends.latches_kept rfl⟩
    · exact hdone.rest
    · exact ⟨hdone.field.rx, hdone.field.forward, hdone.fieldQueue, hdone.field.sending⟩
  case badMaster =>
    exact unchanged_answered src 0x04 (performSetNotices src master enables) (.refused .range [0]) s hs
      (performSetNotices_badMaster src master enables _ hm)
  case badEnables =>
    exact unchanged_answered src 0x04 (performSetNotices src master enables) (.refused .range [1]) s hs
      (performSetNotices_badEnables src master enables _ hm he)

end Sys2Proof.Machine
end

section
/-! PROOFS. The Notice Unit: an event latched in its own latch, and a notice formed exactly where one may be (R175,
R176). -/

namespace Sys2Proof.Machine

/-! ## Latches -/

theorem allEvents_getElem (e : Event) : allEvents[(eventIndex e).val]'(eventIndex e).isLt = e := by
  cases e <;> rfl

/-- Each event has a latch of its own (R175). -/
theorem eventIndex_injective : Function.Injective eventIndex := by
  intro d e h
  have hd := allEvents_getElem d
  simp only [h] at hd
  exact hd.symm.trans (allEvents_getElem e)

theorem raise_latch_same (e : Event) (c : Context) (s : State) :
    (raise e c s).nu.latches[eventIndex e] = latchedAfter s.nu e c :=
  Vector.getElem_set_self (eventIndex e).isLt

theorem raise_latch_other (d e : Event) (c : Context) (s : State) (h : d ≠ e) :
    (raise e c s).nu.latches[eventIndex d] = s.nu.latches[eventIndex d] :=
  Vector.getElem_set_ne (eventIndex e).isLt (eventIndex d).isLt fun k => h (eventIndex_injective (Fin.ext k.symm))

/-! ## Notices -/

theorem formNotice_some_iff (s t : State) : formNotice s = some t ↔ NoticeFormed s t :=
  ⟨formNotice_some s t, NoticeFormed.eq⟩

theorem formNotice_none_iff (s : State) : formNotice s = none ↔ NoticesDone s := ⟨formNotice_none s, NoticesDone.stops⟩

/-- A latch that is clear, or whose event may not be reported, is not emittable (R176). -/
theorem not_emittable (nu : NoticeUnit) (d : Event) (h : nu.latches[eventIndex d] = none
    ∨ (3 < (eventIndex d).val + 1 ∧ (nu.master = false ∨ nu.enables.getLsbD (eventIndex d).val = false))) :
    ¬ Emittable nu d := by
  rintro ⟨hset, hreported⟩
  rcases h with hclear | ⟨hlow, hoff⟩
  · exact hset hclear
  · rcases hreported with hhigh | ⟨hmaster, henabled⟩
    · exact absurd hhigh (Nat.not_le.2 hlow)
    · rcases hoff with hoff | hoff
      · rw [hoff] at hmaster; cases hmaster
      · rw [hoff] at henabled; cases henabled

end Sys2Proof.Machine
end

section
/-! PROOFS. No step leaves a notice to form (R176): what the link, the responder and the blocks leave within an event, the
commands one by one, and the statement of the Notice Unit. -/

namespace Sys2Proof.Machine

/-! ## What awaits the end of an event -/

/-- Within an event: a notice left to form has its test due, and a response is held only in HOLDING and RESTART_PENDING
(R169, R173). -/
structure NoticesAwaited (s : State) : Prop where
  done : NoticesDone s ∨ s.nu.testDue = true
  held : s.mr.heldResponse ≠ none → s.mr.state = .holding ∨ s.mr.state = .restartPending

abbrev StaysAwaited (s t : State) : Prop := NoticesAwaited s → NoticesAwaited t

theorem StaysAwaited.trans {s t u : State} (h : StaysAwaited s t) (k : StaysAwaited t u) : StaysAwaited s u := k ∘ h

theorem StaysAwaited.ite {s t u : State} {p : Prop} [Decidable p] (h : StaysAwaited s t) (k : StaysAwaited s u) :
    StaysAwaited s (if p then t else u) := by
  split
  · exact h
  · exact k

theorem NoticesSettled.awaited {s : State} (h : NoticesSettled s) : NoticesAwaited s := ⟨Or.inl h.done, h.held⟩

/-- The end of an event settles what awaits it (R176). -/
theorem NoticesAwaited.finish {u : State} (h : NoticesAwaited u) : NoticesSettled (finish u) := by
  have hmr : (Machine.finish u).mr = u.mr := by rw [(finish_settles u).rest]
  refine ⟨finish_done u h.done, ?_⟩
  rw [hmr]
  exact h.held

/-- The CONTROL originated queue and the responder as they were, and the latches too where no test is due. -/
theorem staysAwaited_of_same {s t : State} (hq : t.liu.control.originated = s.liu.control.originated)
    (hm : t.mr = s.mr) (hn : t.nu = s.nu ∨ t.nu.testDue = true) : StaysAwaited s t := by
  refine fun h => ⟨?_, by rw [hm]; exact h.held⟩
  rcases hn with hn | hn
  · have hdone := h.done
    unfold NoticesDone at hdone ⊢
    rw [hq, hm, hn]
    exact hdone
  · exact Or.inr hn

theorem Reaches.awaited {s t : State} (h : Reaches s t) : StaysAwaited s t :=
  staysAwaited_of_same (by rw [h.control]) h.mr h.noted

theorem Evolves.awaited {s t : State} (h : Evolves s t) : StaysAwaited s t := h.reaches.awaited

/-- After a reset no latch is set and no response held (R174, R178). -/
theorem resetAll_awaited (address : Byte) (s t : State) : StaysAwaited s (resetAll address t) :=
  fun _ => ⟨Or.inl (Or.inl fun _ h => h.1 (Vector.getElem_replicate _)), fun h => absurd rfl h⟩

/-! ## The link -/

theorem setReceiver_awaited (p : Port) (r : Receiver) (s : State) :
    StaysAwaited s (s.setPort p { s.port p with rx := r }) := by
  cases p with
  | field => exact staysAwaited_of_same rfl rfl (Or.inl rfl)
  | control => exact staysAwaited_of_same rfl rfl (Or.inl rfl)

theorem offerForward_control_awaited (f : Frame) (s : State) : StaysAwaited s (offerForward .control f s) :=
  StaysAwaited.ite (staysAwaited_of_same rfl rfl (Or.inl rfl)) id

/-- A frame that takes a place leaves no notice that had none (R159). -/
theorem appendOriginated_awaited (f : Frame) (s : State) : StaysAwaited s (appendOriginated .control f s) := by
  refine StaysAwaited.ite (fun h => ⟨?_, h.held⟩) id
  refine h.done.imp (Or.imp id (Or.imp (fun hfull => ?_) id)) id
  show 4 ≤ (s.liu.control.originated ++ [f]).length
  rw [List.length_append]
  omega

/-! ## The responder -/

/-- In READY and SUMMING no response is held (R169). -/
theorem NoticesAwaited.unheld {s : State} (h : NoticesAwaited s) (hm : s.mr.state = .ready ∨ s.mr.state = .summing) :
    s.mr.heldResponse = none := by
  by_contra hheld
  have hbusy := h.held hheld
  rcases hm with hm | hm <;> rw [hm] at hbusy <;> rcases hbusy with hbusy | hbusy <;> cases hbusy

/-- A responder that held nothing leaves what notices await to the queue and the latches. -/
theorem setMr_awaited (x : Responder) (s : State) (hm : s.mr.heldResponse = none)
    (hx : x.heldResponse ≠ none → x.state = .holding ∨ x.state = .restartPending) : StaysAwaited s (s.setMr x) :=
  fun h => ⟨h.done.imp (Or.imp id (Or.imp id fun hheld => absurd hm hheld)) id, hx⟩

theorem appendOriginated_mr (p : Port) (f : Frame) (s : State) : (appendOriginated p f s).mr = s.mr := by
  unfold appendOriginated
  split <;> rfl

theorem offerResponse_awaited (f : Frame) (q : Service) (s : State) (hm : s.mr.heldResponse = none) :
    StaysAwaited s (offerResponse f q s) := by
  unfold offerResponse
  refine StaysAwaited.ite ((appendOriginated_awaited f s).trans (setMr_awaited _ _ ?_ fun h => absurd rfl h))
    (setMr_awaited _ s hm fun _ => Or.inl rfl)
  rw [appendOriginated_mr]
  exact hm

theorem takeSumTables_awaited (src selector : Byte) (s : State) (hm : s.mr.heldResponse = none) :
    StaysAwaited s (takeSumTables src selector s) :=
  StaysAwaited.ite (offerResponse_awaited _ _ s hm)
    (StaysAwaited.trans (t := s.setTs { s.ts with sum := some ⟨selector == 1, s.now⟩ })
      (staysAwaited_of_same rfl rfl (Or.inl rfl)) (setMr_awaited _ _ hm fun h => absurd hm h))

theorem takeRestart_awaited (src : Byte) (s : State) (hm : s.mr.heldResponse = none) :
    StaysAwaited s (takeRestart src s) := by
  refine (appendOriginated_awaited _ s).trans (setMr_awaited _ _ ?_ fun _ => Or.inr rfl)
  rw [appendOriginated_mr]
  exact hm

/-- A request is taken in READY alone, where no response is held (R168). -/
theorem inReady_awaited (src kind : Byte) (taken : State → State) (s : State)
    (h : s.mr.heldResponse = none → StaysAwaited s (taken s)) : StaysAwaited s (inReady src kind taken s) := by
  intro hs
  unfold inReady
  split
  · exact h (hs.unheld (Or.inl ‹_›)) hs
  · exact appendOriginated_awaited _ s hs
  · exact hs
  · exact hs

theorem Serves.awaited {src kind : Byte} {handOver : State → State} (h : Serves src kind handOver) (s : State) :
    StaysAwaited s (handOver s) := by
  cases h with
  | performs _ perform hreaches =>
    exact inReady_awaited _ _ _ s fun hm =>
      (hreaches s).awaited.trans (offerResponse_awaited _ _ _ (by rw [(hreaches s).mr]; exact hm))
  | restarts => exact inReady_awaited _ _ _ s (takeRestart_awaited src s)
  | sums selector => exact inReady_awaited _ _ _ s (takeSumTables_awaited src selector s)

/-- R170: the completion answers in SUMMING, where no response is held. -/
theorem completeSum_awaited (s : State) : StaysAwaited s (completeSum s) := by
  have hcleared : StaysAwaited s (sumCleared s) := staysAwaited_of_same rfl rfl (Or.inl rfl)
  intro hs
  unfold completeSum
  split
  · exact hs
  · refine (applyIfDue_evolves false _).awaited ?_
    split
    · rename_i hm _
      exact offerResponse_awaited _ _ _ (hs.unheld (Or.inr hm)) (hcleared hs)
    · exact hcleared hs

/-! ## Frames handed on -/

theorem handOn_awaited (p : Port) (f : Frame) (s : State) : StaysAwaited s (handOn p f s) := by
  cases p with
  | field => exact (offerForward_control_awaited f s).trans (observeField_reaches f _).awaited
  | control =>
    show StaysAwaited s (handOnControl f s)
    unfold handOnControl
    refine StaysAwaited.ite (StaysAwaited.ite ((handOverRequest_serves f.src f.payload).awaited s) id) ?_
    split
    · exact (judgeManifold_evolves _ f s).awaited
    · exact (offerForward_field_evolves f s (mayPass s f ‹_›)).awaited

theorem receiveFrame_awaited (p : Port) (f : Frame) (s : State) : StaysAwaited s (receiveFrame p f s) :=
  (setReceiver_awaited p .hunt s).trans (StaysAwaited.ite (handOn_awaited p f _) id)

theorem receiveBytes_awaited (p : Port) (bytes : List Byte) (s : State) : StaysAwaited s (receiveBytes p bytes s) := by
  unfold receiveBytes
  split
  · exact receiveFrame_awaited p _ s
  · exact setReceiver_awaited p .hunt s

theorem endAtGap_awaited (p : Port) (s : State) : StaysAwaited s (endAtGap p s) := by
  unfold endAtGap
  split
  · exact id
  · exact StaysAwaited.ite (setReceiver_awaited p .hunt s) (receiveBytes_awaited p _ s)

theorem laterByte_awaited (p : Port) (b : Byte) (s : State) : StaysAwaited s (laterByte p b s) := by
  unfold laterByte
  split
  · exact id
  · exact setReceiver_awaited p _ s

/-- A byte after a gap: the frame it ends is an event of its own, the byte itself sets the receiver (R153). -/
theorem firstByte_awaited (p : Port) (b : Byte) (s : State) :
    StaysAwaited s (firstByte p b (beforeByte p true s)) :=
  fun h => setReceiver_awaited p _ _ (endAtGap_awaited p s h).finish.awaited

/-! ## Transmissions -/

/-- R159: a freed place makes the test due, and no response is held behind it. -/
theorem controlPlaceFreed_awaited (s : State) : NoticesAwaited (controlPlaceFreed s) := by
  unfold controlPlaceFreed
  split
  · exact ⟨Or.inr rfl, fun h => absurd rfl h⟩
  · exact ⟨Or.inr rfl, fun h => absurd ‹_› h⟩

theorem releaseHead_originated (l : PortLink) (h : l.tx ≠ some .originated) :
    (releaseHead l).originated = l.originated := by
  unfold releaseHead
  split
  · exact absurd ‹_› h
  · rfl
  · rfl

/-- R160 and R163: a place of the CONTROL originated queue is freed with the test due, or by the restart. -/
theorem endTransmission_awaited (p : Port) (s : State) : StaysAwaited s (endTransmission p s) := by
  unfold endTransmission
  simp only
  split
  · refine StaysAwaited.trans ?_ (offerCommands_evolves _).awaited
    exact staysAwaited_of_same rfl rfl (Or.inl rfl)
  · exact StaysAwaited.ite (resetAll_awaited _ s _) fun _ => controlPlaceFreed_awaited _
  · rename_i q _ _ _ hcontrol
    cases q with
    | field => exact staysAwaited_of_same rfl rfl (Or.inl rfl)
    | control => exact staysAwaited_of_same (releaseHead_originated _ (hcontrol rfl)) rfl (Or.inl rfl)

/-! ## Commands and steps -/

theorem event_settled (f : State → State) (s : State) (h : StaysAwaited s (f s)) (hs : NoticesSettled s) :
    ∃ t, (Host.Outcome.next (unlessInReset f s) : Host.Outcome State Fault Refusal) = .next t ∧ NoticesSettled t := by
  refine ⟨_, rfl, ?_⟩
  unfold unlessInReset
  split
  · exact hs
  · exact (h hs.awaited).finish

/-- Any request is an event that leaves no notice to form. -/
theorem request_settled (c : Instr) (src kind : Byte) (s : State) (hc : requestOfCommand c = some (src, kind))
    (hs : NoticesSettled s) : ∃ t, exec c s = .next t ∧ NoticesSettled t := by
  obtain ⟨handOver, hserves, hexec⟩ := exec_request c src kind hc
  rw [hexec s]
  exact event_settled _ s ((setReceiver_awaited .control .hunt s).trans (hserves.awaited _)) hs

/-- R176: no command leaves a notice to form: each is a request, another event, or a reset. -/
theorem exec_settled (c : Instr) (s : State) (hs : NoticesSettled s) : ∃ t, exec c s = .next t ∧ NoticesSettled t := by
  cases hc : requestOfCommand c with
  | some request => exact request_settled c request.1 request.2 s hc hs
  | none =>
    have hreset : ∀ address, NoticesSettled (resetAll address s) := fun address =>
      (resetAll_awaited address s s hs.awaited).finish
    cases c with
    | powerOnReset pins => exact ⟨_, rfl, hreset pins⟩
    | resetAsserted => exact ⟨_, rfl, (hreset s.liu.address).done, (hreset s.liu.address).held⟩
    | droppedFrame p bytes => exact event_settled _ s (receiveBytes_awaited p bytes s) hs
    | meterTotal dst src payload => exact event_settled _ s (receiveFrame_awaited .field _ s) hs
    | densitySample dst src payload => exact event_settled _ s (receiveFrame_awaited .field _ s) hs
    | valveStatus dst src payload => exact event_settled _ s (receiveFrame_awaited .field _ s) hs
    | fieldFrame f => exact event_settled _ s (receiveFrame_awaited .field f s) hs
    | valveCommand dst src payload => exact event_settled _ s (receiveFrame_awaited .control _ s) hs
    | controlFrame f => exact event_settled _ s (receiveFrame_awaited .control f s) hs
    | consumedFrame src kind payload => exact event_settled _ s (receiveFrame_awaited .control _ s) hs
    | sumComplete => exact event_settled _ s (completeSum_awaited s) hs
    | frameTransmitted p => exact event_settled _ s (endTransmission_awaited p s) hs
    | silenceTimerExpiry => exact event_settled _ s (silenceExpiry_reaches s).awaited hs
    | stillTimerExpiry => exact event_settled _ s (stillExpiry_reaches s).awaited hs
    | openTimeExpiry => exact event_settled _ s (phaseExpiry_reaches .openNew s).awaited hs
    | overlapExpiry => exact event_settled _ s (phaseExpiry_reaches .overlap s).awaited hs
    | closeTimeExpiry => exact event_settled _ s (phaseExpiry_reaches .closeOld s).awaited hs
    | strokeTimerExpiry => exact event_settled _ s (strokeExpiry_reaches s).awaited hs
    | recoveryExpiry => exact event_settled _ s (recoveryExpires_reaches s).awaited hs
    | frameByteReceived p gap b =>
      cases gap with
      | true => exact event_settled _ s (firstByte_awaited p b s) hs
      | false => exact event_settled _ s (laterByte_awaited p b s) hs
    | _ => cases hc

/-- Neither the commands waiting nor the counter of settled orders is a matter of notices. -/
theorem NoticesSettled.counted {s : State} (h : NoticesSettled s) (races : Nat) (pending : List Instr) :
    NoticesSettled { s with races := races, pending := pending } := ⟨h.done, h.held⟩

theorem countRaces_settled (s : State) (h : NoticesSettled s) : NoticesSettled (countRaces s) := by
  unfold countRaces
  split
  · exact h
  · exact h.counted (s.races + 1) s.pending

/-- R176: a step is a command of the queue, an expiry that is due, or a millisecond; none leaves a notice to form. -/
theorem step_settled (s t : State) (hs : NoticesSettled s) (h : step s = .next t) : NoticesSettled t := by
  have hends : ∀ (c : Instr) (u : State), NoticesSettled u → exec c u = .next t → NoticesSettled t :=
    fun c u hu he => by
      obtain ⟨v, hv, hk⟩ := exec_settled c u hu
      cases he.symm.trans hv
      exact hk
  unfold step at h
  split at h
  · rename_i c rest _
    exact hends c (s.setPending rest) (hs.counted s.races rest) h
  · split at h
    · rename_i c _
      exact hends c (countRaces s) (countRaces_settled s hs) h
    · cases h
      exact ⟨hs.done, hs.held⟩

/-! ## The statement -/

/-- Settles O23: the latch of an event, a notice, the end of an event, and what every step leaves. -/
theorem eventsAreLatchedAndReported : Obligations.EventsAreLatchedAndReported := by
  refine ⟨fun e c s => ⟨rfl, raise_latch_same e c s, fun d h => raise_latch_other d e c s h, rfl, rfl, rfl⟩,
    formNotice_some_iff, formNotice_none_iff, fun s e l hfree hheld hl hreported hlow => ?formed,
    fun u => ⟨finish_ends u, fun t => (endsEvent_iff u t).1⟩, fun u hdue => finish_done u (Or.inr hdue),
    fun s t hs hstep => step_settled s t hs hstep⟩
  case formed =>
    exact (formNotice_some_iff s _).2
      ⟨hfree, hheld, e, l, hl, hreported, fun d hd => not_emittable s.nu d (hlow d hd), rfl⟩

end Sys2Proof.Machine
end

section
/-! PROOFS. A step with a command waiting takes the one at the front of the queue. The steps on an empty queue are
`step_idle_expiry` and `step_idle_passes`. -/

namespace Sys2Proof.Machine

@[simp] theorem State.setPending_setPending (s : State) (x y : List Instr) :
    (s.setPending x).setPending y = s.setPending y := rfl

theorem step_waiting (c : Instr) (rest : List Instr) (s : State) (hp : s.pending = c :: rest) :
    step s = exec c (s.setPending rest) := by
  unfold step
  simp only [hp]

/-- Settles O1: the command at the front is taken off before it runs, so it finds the rest as the queue. -/
theorem stepTakesTheFrontCommand : Obligations.StepTakesTheFrontCommand := by
  intro c rest s
  calc step (s.setPending (c :: rest))
      = exec c ((s.setPending (c :: rest)).setPending rest) :=
        step_waiting c rest _ (s.setPending_pending (c :: rest))
    _ = exec c (s.setPending rest) := by rw [State.setPending_setPending]

end Sys2Proof.Machine
end
